-- ==== Sys2Proof/Word.lean ====
section
/-! DEFINITION. The word types of the FY6416: the 64-bit register word, the 16-bit halfword of the host bus, and the
index types of its masters, clients, ownable objects and fault sources. -/

namespace Sys2Proof

/-- A 64-bit register, object word or journal word (R39, R51). -/
abbrev Word := BitVec 64
/-- One halfword of the host bus (R31). -/
abbrev Half := BitVec 16
/-- A master identity on MID[1:0] (Table 2-1). -/
abbrev Mid := Fin 4
/-- A client CL0 to CL15; CL0 is the warden. -/
abbrev Client := Fin 16
/-- A map index of Table 3-1. -/
abbrev ObjIx := Fin 88
/-- A fault source S000 to S511 (R453). -/
abbrev Src := Fin 512

end Sys2Proof
end

