-- ==== Sys2Proof/Machine/Operands.lean ====
section
/-! DEFINITION. The types of the commands' operands that are more than numbers: what a read finds, records of the link. -/

namespace Sys2Proof.Machine

/-- What a retention read finds (R110, R113): no error, one corrected bit, an uncorrectable error. -/
inductive Ecc where
  | clean | single | double
deriving DecidableEq, Repr

/-- Why a hop fails training (R294): no lock, failed alignment, a measured delay of more than 64 ticks. -/
inductive TrainFail where
  | noLock | align | delay (d : Nat)
deriving DecidableEq, Repr

/-- A STATUS record (Tables 10-3, 10-21): buffer limit, foldback, shutdown and readback error, driver faults and shutdowns
by set, temperature in °C, buffer amplitude, a failed internal check, a PLL unlock. -/
structure SatStatus where
  limit : Bool
  fold : Bool
  off : Bool
  readback : Bool
  drvfault : Fin 4
  drvoff : Fin 4
  temp : Int
  amp : Nat
  check : Bool
  unlock : Bool
deriving DecidableEq, Repr

/-- An upstream message record (Table 10-3), other than IDENT, which is a command of its own. -/
inductive UpRecord where
  | ack (type : Fin 16)
  | status (s : SatStatus)
  | result (m : Fin 4) (offS offC : Int)
deriving DecidableEq, Repr

/-- A ball pair that the Hopper supervises: an OUT or a HSB (R357). -/
inductive HopBall where
  | out (o : Fin 24)
  | hsb (b : Fin 8)
deriving DecidableEq, Repr

/-- The ticks before a command (R142), and the one thing that it carries. -/
structure Timed (α : Type) where
  dt : Nat
  arg : α
deriving DecidableEq, Repr

/-- What the read of a journal entry finds, and in which of its eight words (R110). -/
structure EntryRead where
  ecc : Ecc
  word : Fin 8
deriving DecidableEq, Repr

/-- A master's read of COMPLETION, and what the read of the entry finds (R55, R110). -/
structure CompletionAccess where
  master : Mid
  found : EntryRead
deriving DecidableEq, Repr

/-- An output's retire ring, and what its read finds in which retention word (R110). -/
structure RingAccess where
  out : Fin 24
  ecc : Ecc
  word : Nat
deriving DecidableEq, Repr

/-- A carrier period's waveform at the balls (R204): the peak-to-peak amplitude in mV, and the phase against the count in 2^-16 carrier turn. -/
structure Sensed where
  amp : Nat
  phase : Int
deriving DecidableEq, Repr

/-- The samples of the sine and the cosine modulator of 32 ticks, oldest first (R212). -/
abbrev Quarter := Vector (Int × Int) 4

/-- The 16 samples of a window, oldest first (R213). -/
def windowSamples (a b c d : Quarter) : List (Int × Int) := a.toList ++ b.toList ++ c.toList ++ d.toList

/-- The level of a satellite's nRESET (R311). -/
structure SatPin where
  hop : Fin 4
  low : Bool
deriving DecidableEq, Repr

/-- An upstream frame on its way (R290, R291): what the satellites' surroundings put into it, the hops with a bad upstream frame below them,
and the bits that the cable turned. -/
structure UpFrame where
  frame : BitVec 200
  upBad : BitVec 4
  turned : BitVec 200
deriving DecidableEq, Repr

end Sys2Proof.Machine
end

