-- ==== Sys2Proof/Machine/TypesCore.lean ====
section
/-! DEFINITION. The state of the Face, the clients and the ownership map, the Weighbridge, the calendar, the power
controller, the firmware slots, the object words and the fault collector (chapters 2 to 6 and 16). Plain data. -/

namespace Sys2Proof.Machine

/-- Object words by byte address: addresses strictly rising, no word zero (an unlisted word reads zero, R59). -/
abbrev Store := List (Nat × Word)

/-- The three copies of writable object words (Table 2-6): staged CONFIG, CONFIG in force, LIVE. -/
structure ObjMem where
  staged : Store
  active : Store
  live : Store
deriving DecidableEq, Repr

/-- A journal command is named by its client and sequence number. -/
structure Key where
  client : Client
  seq : Nat
deriving DecidableEq, Repr

/-- Per master state of the Face: shadows (R39, R41), OBJADDR (R64), OBJSTAT flags (R67) and those set in this tick (R44), SCRATCH
(R68), CLIENT
(Table 3-9), the command registers (Tables 4-13, 4-14), SNAPSEL and the snapshot hold with the channel it was captured from (R260, R261, R263). -/
structure Master where
  rdVal : Word
  rdTag : Option (Fin 64)
  wr0 : Half
  wr1 : Half
  wr2 : Half
  wf0 : Bool
  wf1 : Bool
  wf2 : Bool
  wrTag : Option (Fin 64)
  addr : Nat
  view : Bool
  flags : BitVec 11
  flagsNow : BitVec 11
  scratch : Word
  claim : Option Client
  badlast : Bool
  fails : Nat
  lockEnd : Option Nat
  endcause : Nat
  cmda : Word
  cmdb : Word
  cmdc : Word
  submit : Word
  snapCh : Fin 16
  snapMech : Bool
  spdHold : Word
  snapHold : Word
  holdCh : Option (Fin 16)
deriving DecidableEq, Repr

/-- The Face: its masters, LOCK (R69), the TESTKEY sequence (R70) and the level of the data balls and of nWAIT. -/
structure Face where
  masters : Vector Master 4
  trimlock : Bool
  testlock : Bool
  testen : Bool
  keyTick : Option Nat
  d : Option Half
  nwaitLow : Bool
deriving DecidableEq, Repr

/-- The provisioning of one client (R72, Table 3-13). -/
structure Prov where
  enabled : Bool
  passcode : BitVec 32
  pinen : Bool
  pinmid : Mid
deriving DecidableEq, Repr

/-- Ownership states (R87, Table 3-12). -/
inductive OwnSt where
  | free | owned | draining | scrubbing | absent
deriving DecidableEq, Repr

/-- The ownership entry of one map index (Table 3-12), the commands that retire when the object is owned or free (R87,
R88), the tick of its DRAINING entry (R92) and whether its last scrub failed verification (R95). -/
structure OwnEntry where
  st : OwnSt
  owner : Client
  next : Option Client
  gen : Nat
  nextBy : Option Key
  atFree : List Key
  drainTick : Nat
  drainN : Nat
  freeTick : Nat
  scrubFailed : Bool
  unscrubbed : Bool
deriving DecidableEq, Repr

/-- The ownership map, the scrubber (R93) and a standing mismatch of the duplicated copies (R86). -/
structure Own where
  prov : Vector Prov 16
  entries : Vector OwnEntry 88
  gen : Nat
  mismatch : Bool
  scrubActive : Option ObjIx
  scrubStart : Nat
  scrubQueue : List ObjIx
  scrubCount : Nat
deriving DecidableEq, Repr

/-- Journal entry states (Table 4-18). -/
inductive EState where
  | queued | active | suspended | waiting | retired
deriving DecidableEq, Repr

/-- Marks (Table 4-18). -/
inductive Mark where
  | none | suspend | resume | cancel
deriving DecidableEq, Repr

/-- Why a long operation is suspended (Table 4-18). -/
inductive Cause where
  | linkhold | suspend | bench | sleep
deriving DecidableEq, Repr

/-- Command kinds (R115). -/
inductive Kind where
  | s | d | l
deriving DecidableEq, Repr

/-- One journal entry (Table 4-18); fetchTick is the tick of its fetch, commitTick that of its commit mark, ckTick that of its last checkpoint, marker the
control command whose mark it carries, holdTick the start of a link hold and holdLen its HOLDTIME (R306). -/
structure Entry where
  loc : Nat
  client : Client
  seq : Nat
  state : EState
  ctrl : Bool
  kind : Kind
  commit : Bool
  started : Bool
  mark : Mark
  marker : Option Key
  resumed : Bool
  redo : Bool
  ckpt : Nat
  cause : Cause
  status : Nat
  detail : Nat
  recovered : Bool
  cmda : Word
  cmdb : Word
  cmdc : Word
  hosttag : BitVec 32
  acceptTick : Nat
  fetchTick : Nat
  commitTick : Nat
  ckTick : Nat
  holdTick : Nat
  holdLen : Nat
  result : Word
  retireTick : Nat
deriving DecidableEq, Repr

/-- Per client state of the Weighbridge (Tables 4-15, 4-17) and a standing mismatch of its counters (R114); now holds which of
RECOVERED, REFUSED and EPOCHLOST (bits 0 to 2) were set in this tick, refNow the refusals counted in it (R44). -/
structure ClientWb where
  lastSeq : Nat
  lastTag : BitVec 32
  lastAccSeq : Nat
  epochLost : Bool
  refused : Bool
  recovered : Bool
  lastReason : Nat
  refCount : Nat
  now : BitVec 3
  refNow : Nat
  rec0 : Word
  rec1 : Word
  rec2 : Word
  rec3 : Word
  mismatch : Bool
deriving DecidableEq, Repr

/-- A FACTORYRESET in progress (R140): the objects still to scrub. -/
structure Factory where
  rest : List ObjIx
deriving DecidableEq, Repr

/-- A submission that is not yet decided (R104, Table 1-2): the master, the client it acted as, the captured command, and the
tick of the decision. -/
structure Ask where
  master : Mid
  client : Client
  cmda : Word
  cmdb : Word
  cmdc : Word
  w : Word
  due : Nat
deriving DecidableEq, Repr

/-- The Weighbridge: the submissions that wait for their decision, the words that the patrol has read in its period of the number
patrolNo (R110), the journal in acceptance order, withdrawn locations and corrected words (R111), the epoch (R112),
the halt (R113), the executor pointers (R117). -/
structure Wb where
  asks : List Ask
  patrolNo : Nat
  patrolled : List (Bool × Nat)
  entries : List Entry
  clients : Vector ClientWb 16
  withdrawn : List Nat
  corrected : List (Nat × Nat)
  placeN : Nat
  epoch : Nat
  halted : Bool
  ctlptr : Client
  normptr : Client
  lastFetch : Option Nat
  factory : Option Factory
  factoryDirect : Bool
deriving DecidableEq, Repr

/-- The calendar (Tables 5-6, 5-7). -/
structure Cal where
  offset : Word
  wrTick : Nat
  stage : Option (Nat × Nat × Nat)
  unset : Bool
  endhold : Bool
  badwrite : Bool
  cause : Nat
  badcount : Nat
  wrcount : Nat
deriving DecidableEq, Repr

/-- Power states (Table 6-1). -/
inductive PState where
  | off | config | minconfig | run | idle | sleep | backup | boot
deriving DecidableEq, Repr

/-- Where a BOOT stands (R165, R167, R169): the reset held, step A1, A2, B, C, D cold, D warm. -/
inductive BootStep where
  | held | a1 | a2 | b | c | dCold | dWarm
deriving DecidableEq, Repr


/-- The power controller (brown is a brown-out that S005 has still to count, R166; wake holds the WAKECAUSE bits of a wake in progress, R180; lfCount the oscillator periods
since the step or stay began), the reset unit, the clock net and the watchdog (Tables 6-1, 6-13, 6-14, 6-17); serveTick is the
tick from which the Face serves, serveHeld whether it held the bus before it (R38); wakeAt the tick in which a wake completes (Table 6-7), vbakTick
that of the last check of VBAK (R182), vddTick that of the last loss of VDD. -/
structure Power where
  state : PState
  step : BootStep
  stepTick : Nat
  cold : Bool
  cause : Nat
  causeMask : Nat
  brown : Bool
  causeSrc : Nat
  causeTick : Nat
  causeState : PState
  resume : PState
  sleepFrom : PState
  vdd : Bool
  vbak : Bool
  nresetLow : Bool
  lfclk : Bool
  frac : Nat
  lfCount : Nat
  lfLost : Bool
  lfStopped : Bool
  vexcLow : Bool
  reqstat : Nat
  refuse : Nat
  autoresume : Bool
  wakeen : Nat
  motionen : Bool
  motionwh : Fin 4
  wakecause : Nat
  runPending : Bool
  sleepPending : Bool
  reqTick : Nat
  quiescent : Bool
  wake : Option Nat
  motionMoved : Bool
  motionCount : Nat
  motionArmed : Bool
  rcCold : Bool
  lfstop : Bool
  sticky : Nat
  last : Nat
  laststate : Nat
  warmcount : Nat
  faultsrc : Nat
  resettick : Nat
  wdEn : Bool
  wdFired : Bool
  wdTimeout : Nat
  wdCount : Nat
  hostver : Nat
  serveTick : Nat
  serveHeld : Bool
  wakeAt : Option Nat
  vbakTick : Option Nat
  vddTick : Nat
deriving DecidableEq, Repr

/-- Slot states (R187). -/
inductive SlotSt where
  | empty | writing | staged | eligible
deriving DecidableEq, Repr

/-- A slot record as it stood before its change in a tick (R199). -/
structure SlotRec where
  tick : Nat
  st : SlotSt
  pages : BitVec 16
deriving DecidableEq, Repr

/-- A firmware slot: state, FAIL code, stored words by word index (the words of an erased page are not listed), page
bitmap, erased pages, read error, and what its two nonvolatile records may still hold, newest first (R187, R196, R199). -/
structure Slot where
  st : SlotSt
  fail : Nat
  words : Store
  pages : BitVec 16
  erased : BitVec 16
  readErr : Bool
  hist : List SlotRec
deriving DecidableEq, Repr

/-- The firmware images: both slots, the anti-rollback counter and the value that its programming goes to (R194), IMAGESTAT (Table 6-16) and
the ACCEPTHOST record (R191). -/
structure Images where
  slotA : Slot
  slotB : Slot
  rollctr : Nat
  rollGoal : Option Nat
  minimal : Bool
  actSlot : Bool
  actVer : Nat
  ran : Option (Bool × Nat)
  hostMismatch : Bool
  hostTol : Bool
  hvIgnored : Bool
  accept : Option (Bool × Nat × Nat)
deriving DecidableEq, Repr

/-- Source states (R456). -/
inductive SrcSt where
  | ok | corrected | contained | fatal
deriving DecidableEq, Repr

/-- One fault source (R456, Tables 16-19, 16-21): level is the real condition of a level source, force its FORCE bit. -/
structure Source where
  st : SrcSt
  unack : Bool
  irqpend : Bool
  pinhold : Bool
  escrun : Bool
  escalated : Bool
  forced : Bool
  force : Bool
  level : Bool
  wcount : Nat
  winTick : Nat
  deadline : Nat
  quiet : Nat
  events : Nat
  recov : Nat
  reacts : Nat
  last : Nat
deriving DecidableEq, Repr

/-- An event of a source as its block raises it, with its capture content (R468, Table 17-2): forced, or counted only
(R38, R113). tick is its raising tick. byReset marks the event whose CHIPRESET caused the reset (R495). -/
structure Raise where
  src : Src
  tick : Nat
  master : Nat
  access : Nat
  kind : Nat
  addr : Nat
  client : Option Client
  forced : Bool
  countOnly : Bool
  byReset : Bool
deriving DecidableEq, Repr

/-- The first-error capture (R467, Table 16-13). -/
structure Capture where
  valid : Bool
  armed : Bool
  ev : Raise
  unset : Bool
  calsec : Nat
  later : Nat
deriving DecidableEq, Repr

/-- Blocks a BLOCKRESET can reset (R475). -/
inductive Block where
  | obj (i : ObjIx)
  | exc (g : Fin 4)
deriving DecidableEq, Repr

/-- The conditions that hold nIRQ, nALARM and nFAULT low (R460). -/
structure Balls where
  irq : Bool
  alarm : Bool
  fault : Bool
deriving DecidableEq, Repr

/-- The fault collector (chapter 16). evtNow and alarmNow are the bits of EVTSTAT and the PEND that were set in this tick (R44);
balls1 to balls3 the conditions of the status balls one, two and three ticks ago (Table 16-4). held are the events held for
BOOT step C (R495); resets the block resets in progress with their begin ticks (R475). -/
structure Collector where
  srcs : Vector Source 512
  cap : Capture
  alarmPend : Bool
  firstSrc : Nat
  alarmCount : Nat
  benched : Bool
  carried : Bool
  cause : Nat
  causeSrc : Nat
  benchCount : Nat
  safeTick : Nat
  releaseTick : Nat
  selftest : Word
  evtstat : Vector Word 16
  evtmask : Vector Word 16
  evtNow : Vector Word 16
  alarmNow : Bool
  balls1 : Balls
  balls2 : Balls
  balls3 : Balls
  held : List Raise
  resets : List (Block × Nat)
  mismatch : Bool
deriving DecidableEq, Repr

end Sys2Proof.Machine
end

