-- ==== Sys2Proof/Machine/TypesFe.lean ====
section
/-! DEFINITION. The state of the excitation generators, the channels' front ends and their tracking (chapters 7 and 8). -/

namespace Sys2Proof.Machine

/-- An excitation generator (Table 7-7). Its carrier has a rising zero crossing in tick zero and one every PERIOD after it (R201); up to
zero it ran with period per0 from a crossing in tick zero0 (R203: a change of PERIOD), or did not run (per0 = 0). The soft start or
ramp in progress began at zero, from the amplitude rampFrom in mVp-p, and shows SOFTSTART from tick softAt (R203); stopAt is the zero crossing at which the output
ends (R203, Table 7-1). sens is the phase of the carrier sensed at the balls against the count, in 2^-16 carrier turn (R204);
everReady holds since the generator was READY after its last APPLY or start (R217), and the two runs count carrier periods
(Table 7-1). -/
structure Exc where
  ready : Bool
  softstart : Bool
  limit : Bool
  foldback : Bool
  thermoff : Bool
  drvoff : Bool
  everReady : Bool
  ampmeas : Nat
  temp : Nat
  zero : Nat
  zero0 : Nat
  per0 : Nat
  rampFrom : Nat
  softAt : Nat
  stopAt : Option Nat
  sens : Int
  readyTick : Nat
  clipRun : Nat
  badRun : Nat
deriving DecidableEq, Repr

/-- What a generator's excitation balls do (R163, R201): the amplitude is in 1/100 mVp-p. -/
inductive ExcOut where
  | unpowered | zero | drives (amp : Nat)
deriving DecidableEq, Repr

/-- A pair with its sample instant and weight, and the mean weight over the carrier period up to it (R213, R245). -/
structure Pair where
  stamp : Nat
  s : Int
  c : Int
  w : Nat
  wsum : Nat
  wn : Nat
deriving DecidableEq, Repr

/-- One input's or channel's self-calibration trims (Tables 7-8, 7-13). -/
structure Trims where
  gainS : Int
  offS : Int
  gainC : Int
  offC : Int
  imb : Int
deriving DecidableEq, Repr

/-- What a tone measurement has accumulated (R220, R221): of each input the residual beside the tone in phase and in quadrature and
its sum, and how many samples. -/
structure Tone where
  sinI : Int
  sinQ : Int
  sinD : Int
  cosI : Int
  cosQ : Int
  cosD : Int
  n : Nat
deriving DecidableEq, Repr

/-- The fit of the sensed carrier and its quadrature over a carrier period (R215): sums of each input's samples beside both. -/
structure Quad where
  sinA : Int
  sinB : Int
  cosA : Int
  cosB : Int
  n : Nat
deriving DecidableEq, Repr

/-- A channel's front end (Tables 7-8, 7-10, 7-11). window holds the pairs of the last carrier period and their magnitudes
(R216), flight the pairs on their way to the estimators (R214), work the DISCWORK words, field the channel's class in
DISCOVERY, discClass the class that DISCOVER last committed and attn its ATTN (R237), presN the consecutive RESOLVER checks (R233).
phi is φc in 2^-32 carrier turn, quad the period's fit, fitRise the rising crossing that ended the last fitted period, phErr the phase
of the returned carrier against the reference with no compensation (R215, R227). tone accumulates the self-calibration measurement that
began at calFrom, toneCal the one of CALIBRATE, calBad a tone check that failed during it (R221, R224). senstick is the tick of the
sensor correction, prevSens the one before it (R225); rotSS, rotCC, rotSC are the moments of the collected pairs. magSum and magN
average the magnitude for DISCOVER (R227). lastStamp is the sample instant of the last window (R213). -/
structure Fe where
  sigok : Bool
  clip : Bool
  clipPrev : Bool
  phaselim : Bool
  callimit : Bool
  calrefbad : Bool
  presrun : Bool
  discrun : Bool
  mismatch : Bool
  presclass : Nat
  magnitude : Nat
  prescount : Nat
  pairS : Int
  pairC : Int
  offS : Int
  offC : Int
  phi : Option Int
  lowRun : Nat
  okRun : Nat
  window : List (Pair × Nat)
  flight : List Pair
  discres : Word
  discres2 : Word
  discres3 : Word
  disctick : Nat
  work : Vector Word 4
  restarted : Bool
  trims : Trims
  ampimb : Int
  quaderr : Int
  fevalid : Bool
  sensvalid : Bool
  calcount : Nat
  caltick : Nat
  quiet : Nat
  calMax : Nat
  rotPrev : Option Int
  rotAcc : Int
  rotTick : Nat
  rotSS : Int
  rotCC : Int
  rotSC : Int
  senstick : Nat
  prevSens : Option (Int × Int)
  field : Nat
  discClass : Nat
  attn : Bool
  presN : Nat
  presStart : Nat
  quad : Quad
  fitRise : Nat
  phErr : Int
  tone : Tone
  toneCal : Tone
  calFrom : Option Nat
  calBad : Bool
  magSum : Nat
  magN : Nat
  lastStamp : Option Nat
deriving DecidableEq, Repr

/-- Tracking states (R241). -/
inductive TrkSt where
  | disabled | hold | acquiring | locked | raw
deriving DecidableEq, Repr

/-- A channel's Sett store entry (R255, R257). -/
structure Sett where
  ang : Int
  spd : Int
  tick : Nat
  valid : Bool
  verified : Bool
  stopped : Bool
deriving DecidableEq, Repr

/-- A channel's tracking (Tables 8-6, 8-9). Angles theta and phi are in 2^-48 turn, v and a in 2^-40 (R245); ds are the
last 16 values of d (R248); the win fields are the policy's window (R250); seed holds the seed pairs' instants and
arctangent angles (R254); still counts slow VALID updates (R257), settNext is the entry that the next tick writes (R247); cmdTick is
the tick of the last command that changed the mode and old the state, mode and VALID before it (R244); updTick the tick of the last
update (R23); the prev fields are the output before the latest, for consumers that look back (R267), outs the outputs since VALID was set that
a slower consumer may need, newest first: timestamp, mechanical angle, speed (R327, R338). -/
structure Trk where
  st : TrkSt
  mode : Nat
  valid : Bool
  div : Bool
  unver : Bool
  ovs : Bool
  bwstep : Nat
  bw : Nat
  lockcount : Nat
  updcount : Nat
  theta : Int
  phi : Int
  v : Int
  a : Int
  elecang : Int
  mechang : Int
  elecspd : Int
  mechspd : Int
  elecacc : Int
  outtick : Nat
  prevAng : Int
  prevSpd : Int
  prevTick : Nat
  outs : List (Nat × Int × Int)
  atanD : Int
  atanF : Nat
  policy : Word
  lockRun : Nat
  lossRun : Nat
  divRun : Nat
  ovsRun : Nat
  ds : List Int
  winN : Nat
  winQ : Nat
  winSum : Int
  winSq : Int
  winPk : Nat
  j : Nat
  seed : List (Nat × Int)
  still : Nat
  sett : Sett
  rawCount : Nat
  rawFull : Bool
  oneshot : Bool
  rawTick : Nat
  ring : Store
  cmdTick : Option Nat
  old : Option (TrkSt × Nat × Bool)
  updTick : Option Nat
  settNext : Option Sett
deriving DecidableEq, Repr

/-- A stay in SLEEP or BACKUP (R255, R332): its first tick, MOTIONEN and MOTIONWH at its begin, and MOVED at its end. -/
structure Stay where
  entry : Nat
  armed : Bool
  wh : Fin 4
  moved : Bool
deriving DecidableEq, Repr

end Sys2Proof.Machine
end

