-- ==== Sys2Proof/Syntax.lean ====
section
/-! DEFINITION. The commands of the FY6416: one constructor per row of the table of operations and events. Every command
begins with dt, the ticks of SYSCLK that pass before it (R142). -/

namespace Sys2Proof

open Sys2Proof.Machine

/-- A command to the part: an access to the host bus, the execution of a queued command, or an event of its own, of its
supplies, of the link or of a shaft. -/
inductive Instr where
  /-- SHADOW_HALFWORD_WRITE: master m writes d to halfword h of register r (R41). -/
  | shadowHalfwordWrite (dt : Nat) (m : Mid) (r : Fin 64) (h : Fin 3) (d : Half)
  /-- REGISTER_COMMIT: master m writes d to halfword 3 of register r, which has no row of its own (R43). -/
  | registerCommit (dt : Nat) (m : Mid) (r : Fin 64) (d : Half)
  /-- BUS_TIMEOUT: the bus timeout ends an access of master m to halfword h of register r (R37). -/
  | busTimeout (dt : Nat) (m : Mid) (r : Fin 64) (h : Fin 4) (read : Bool)
  /-- OBJDATA_READ: master m reads halfword 0 of OBJDATA (R51); ecc is what the read of a retention word finds (R110). -/
  | objdataRead (dt : Nat) (m : Mid) (ecc : Ecc)
  /-- OBJDATA_WRITE: master m commits OBJDATA with halfword 3 = d (R51). -/
  | objdataWrite (dt : Nat) (m : Mid) (d : Half)
  /-- OBJDATAINC_READ: master m reads halfword 0 of OBJDATAINC (R52). -/
  | objdataincRead (dt : Nat) (m : Mid) (ecc : Ecc)
  /-- OBJDATAINC_WRITE: master m commits OBJDATAINC with halfword 3 = d (R52). -/
  | objdataincWrite (dt : Nat) (m : Mid) (d : Half)
  /-- COMPLETION_READ: master m reads halfword 0 of COMPLETION (R125); with what the read of the entry finds (R110). -/
  | completionRead (dt : Nat) (a : CompletionAccess)
  /-- ANGSNAP_CAPTURE: master m reads halfword 0 of ANGSNAP (R261). -/
  | angsnapCapture (dt : Nat) (m : Mid)
  /-- CMDSUBMIT: master m commits CMDSUBMIT (R105) with halfword 3 = d. -/
  | cmdsubmit (dt : Nat) (m : Mid) (d : Half)
  /-- CLAIM: master m commits CLAIM with OP 1 (R77) with halfword 3 = d. -/
  | claim (dt : Nat) (m : Mid) (d : Half)
  /-- LOCKOUT_END: the lockout of master m reaches its end (R81). -/
  | lockoutEnd (dt : Nat) (m : Mid)
  /-- CLAIM_RELEASE: master m commits CLAIM with OP 2 (R82) with halfword 3 = d. -/
  | claimRelease (dt : Nat) (m : Mid) (d : Half)
  /-- CALDATE: master m commits CALDATE (R150) with halfword 3 = d. -/
  | caldate (dt : Nat) (m : Mid) (d : Half)
  /-- CALTIME: master m commits CALTIME (R151) with halfword 3 = d. -/
  | caltime (dt : Nat) (m : Mid) (d : Half)
  /-- IDLE_REQUEST: master m commits POWERCTL with REQ 2 (R175) with halfword 3 = d. -/
  | idleRequest (dt : Nat) (m : Mid) (d : Half)
  /-- RUN_REQUEST: master m commits POWERCTL with REQ 1 (R176) with halfword 3 = d. -/
  | runRequest (dt : Nat) (m : Mid) (d : Half)
  /-- SLEEP_REQUEST: master m commits POWERCTL with REQ 3 (R177) with halfword 3 = d. -/
  | sleepRequest (dt : Nat) (m : Mid) (d : Half)
  /-- WDOG_KICK: master m commits WDOG (R173) with halfword 3 = d. -/
  | wdogKick (dt : Nat) (m : Mid) (d : Half)
  /-- HOSTVER: master m commits HOSTVER (R189) with halfword 3 = d. -/
  | hostver (dt : Nat) (m : Mid) (d : Half)
  /-- FLTACK_REARM: master m commits FLTACK with REARM (R467) with halfword 3 = d. -/
  | fltackRearm (dt : Nat) (m : Mid) (d : Half)
  /-- FLTACK_ACKSRC: master m commits FLTACK with ACKSRC (R463) with halfword 3 = d. -/
  | fltackAcksrc (dt : Nat) (m : Mid) (d : Half)
  /-- FLTACK_ACKALL: master m commits FLTACK with ACKALL (R463) with halfword 3 = d. -/
  | fltackAckall (dt : Nat) (m : Mid) (d : Half)
  /-- FLTINJECT_PULSE: master m commits FLTINJECT with OP PULSE (R471) with halfword 3 = d. -/
  | fltinjectPulse (dt : Nat) (m : Mid) (d : Half)
  /-- FLTINJECT_SET: master m commits FLTINJECT with OP SET (R471) with halfword 3 = d. -/
  | fltinjectSet (dt : Nat) (m : Mid) (d : Half)
  /-- FLTINJECT_CLEAR: master m commits FLTINJECT with OP CLEAR (R471) with halfword 3 = d. -/
  | fltinjectClear (dt : Nat) (m : Mid) (d : Half)
  /-- EVTACK: master m commits EVTACK (R469) with halfword 3 = d. -/
  | evtack (dt : Nat) (m : Mid) (d : Half)
  /-- TESTKEY: master m commits TESTKEY (R70) with halfword 3 = d. -/
  | testkey (dt : Nat) (m : Mid) (d : Half)
  /-- LOCK: master m commits LOCK (R69) with halfword 3 = d. -/
  | lock (dt : Nat) (m : Mid) (d : Half)
  /-- NOP: NOP executes (R139). -/
  | nop (dt : Nat)
  /-- GRANT: GRANT executes (R87). -/
  | grant (dt : Nat)
  /-- RELEASE: RELEASE executes (R87). -/
  | release (dt : Nat)
  /-- APPLY: APPLY executes (R57). -/
  | apply (dt : Nat)
  /-- CLAIMCFG: CLAIMCFG executes (R73). -/
  | claimcfg (dt : Nat)
  /-- FAULTPOLICY: FAULTPOLICY without DEFAULT executes (R474). -/
  | faultpolicy (dt : Nat)
  /-- FAULTPOLICY_DEFAULT: FAULTPOLICY with DEFAULT executes (R474). -/
  | faultpolicyDefault (dt : Nat)
  /-- BENCHRELEASE: BENCHRELEASE executes (R480). -/
  | benchrelease (dt : Nat)
  /-- RUN: RUN executes (R192). -/
  | run (dt : Nat)
  /-- ACCEPTHOST: ACCEPTHOST executes (R191). -/
  | accepthost (dt : Nat)
  /-- FACTORYRESET: FACTORYRESET executes (R140), also the one that was accepted without an entry (R114). -/
  | factoryreset (dt : Nat)
  /-- SOFTRESET: SOFTRESET executes (R140). -/
  | softreset (dt : Nat)
  /-- DISCOVER: DISCOVER takes its first step (R226). -/
  | discover (dt : Nat)
  /-- CALIBRATE_FAST: CALIBRATE in FAST mode takes its first step (R224). -/
  | calibrateFast (dt : Nat)
  /-- CALIBRATE_ROTATING: CALIBRATE in ROTATING mode takes its first step (R224, R225). -/
  | calibrateRotating (dt : Nat)
  /-- AUTOTUNE: AUTOTUNE takes its first step (R423). -/
  | autotune (dt : Nat)
  /-- LEARNTEETH: LEARNTEETH takes its first step (R338). -/
  | learnteeth (dt : Nat)
  /-- ENABLE: ENABLE executes (R97). -/
  | enable (dt : Nat)
  /-- DISABLE: DISABLE executes (R408 and the chapters of the other objects). -/
  | disable (dt : Nat)
  /-- SETMODE_CHANNEL_MODE: SETMODE of a channel with OP MODE executes (R240). -/
  | setmodeChannelMode (dt : Nat)
  /-- SETMODE_ANCHOR: SETMODE of a channel with OP ANCHOR executes (R258). -/
  | setmodeAnchor (dt : Nat)
  /-- SETMODE_LOOP_MODE: SETMODE of a loop with OP MODE executes (R416). -/
  | setmodeLoopMode (dt : Nat)
  /-- SETMODE_MANVAL: SETMODE of a loop with OP MANVAL executes (R416). -/
  | setmodeManval (dt : Nat)
  /-- SETPOINT: SETPOINT executes (R411). -/
  | setpoint (dt : Nat)
  /-- NOTCHSET: NOTCHSET executes (R394). -/
  | notchset (dt : Nat)
  /-- EVENTPOST: EVENTPOST is inserted in its output's queue (R347). -/
  | eventpost (dt : Nat)
  /-- EVENTCANCEL: EVENTCANCEL executes (R366). -/
  | eventcancel (dt : Nat)
  /-- SUSPEND: SUSPEND executes (R133). -/
  | suspend (dt : Nat)
  /-- RESUME: RESUME executes (R133). -/
  | resume (dt : Nat)
  /-- CANCEL: CANCEL executes (R133). -/
  | cancel (dt : Nat)
  /-- STAGEIMAGE_PAGE: STAGEIMAGE with OP PAGE takes its first step (R196). -/
  | stageimagePage (dt : Nat)
  /-- STAGEIMAGE_ERASE: STAGEIMAGE with OP ERASE takes its first step (R196). -/
  | stageimageErase (dt : Nat)
  /-- STAGEIMAGE_FINISH: STAGEIMAGE with OP FINISH takes its first step (R196); with it: whether a nonvolatile read error occurs in the slot. -/
  | stageimageFinish (a : Timed Bool)
  /-- ACTIVATEIMAGE_PROMOTE: ACTIVATEIMAGE PROMOTE executes (R198); with it: whether a nonvolatile read error occurs in the slot. -/
  | activateimagePromote (a : Timed Bool)
  /-- ACTIVATEIMAGE_DEMOTE: ACTIVATEIMAGE DEMOTE executes (R198); with it: whether a nonvolatile read error occurs in the other slot. -/
  | activateimageDemote (a : Timed Bool)
  /-- SPANCHANGE: SPANCHANGE takes its first step (R442). -/
  | spanchange (dt : Nat)
  /-- SCRUB: SCRUB executes (R90). -/
  | scrub (dt : Nat)
  /-- SELFTEST: SELFTEST takes its first step (R483). -/
  | selftest (dt : Nat)
  /-- SATACCEPT: SATACCEPT without REPLACE executes (R299). -/
  | sataccept (dt : Nat)
  /-- SATACCEPT_REPLACE: SATACCEPT with REPLACE executes (R299). -/
  | satacceptReplace (dt : Nat)
  /-- SATRELEASE: SATRELEASE executes (R299). -/
  | satrelease (dt : Nat)
  /-- COMMAND_FETCH: the executor fetches the next command (R117); with what the read of its entry finds. -/
  | commandFetch (dt : Nat) (f : EntryRead)
  /-- LONG_OP_CHECKPOINT: the long operation of client k with number seq completes a step (R123); data are its measurements. -/
  | longOpCheckpoint (dt : Nat) (k : Client) (seq : Nat) (data : List Int)
  /-- RETIRE_RING_MERGE: a record of output o is merged into the journal (R130); with what the read of the ring finds (R110). -/
  | retireRingMerge (dt : Nat) (a : RingAccess)
  /-- RETENTION_PATROL: the patrol reads a retention word, by its object address or its word index (R110, R500). -/
  | retentionPatrol (dt : Nat) (indexed : Bool) (addr : Nat) (ecc : Ecc)
  /-- SEQ_COUNTER_MISMATCH: the copies of a client's counters disagree (R114). -/
  | seqCounterMismatch (dt : Nat) (k : Client)
  /-- DRAIN_END: DRAINING of an object ends (R92). -/
  | drainEnd (dt : Nat) (x : ObjIx)
  /-- SCRUB_COMPLETE: the scrubber has zeroed and verified its object (R93); fail is the address of a word that failed verification (R95). -/
  | scrubComplete (dt : Nat) (fail : Option Nat)
  /-- NEXT_OWNER_TAKEOVER: an object passes to its NEXT owner (R87). -/
  | nextOwnerTakeover (dt : Nat) (x : ObjIx)
  /-- OWNERSHIP_MISMATCH: the copies of the ownership map disagree, first at object address a (R86). -/
  | ownershipMismatch (dt : Nat) (a : Nat)
  /-- POWER_ON_RESET: the always-on domain regains a supply (R165): VDD, VBAK or both. -/
  | powerOnReset (dt : Nat) (vdd : Bool) (vbak : Bool)
  /-- BOOT_TRIM_LOAD: the trim and one-time-cell load of BOOT completes (R167). -/
  | bootTrimLoad (dt : Nat)
  /-- PLL_LOCK: the PLL locks (R167). -/
  | pllLock (dt : Nat)
  /-- PLL_LOCK_RETRY: no lock within 7 periods (R169). -/
  | pllLockRetry (dt : Nat)
  /-- IMAGE_CHECK: step C checks both slots (R187); errA and errB tell a nonvolatile read error. -/
  | imageCheck (dt : Nat) (errA : Bool) (errB : Bool)
  /-- RETENTION_INIT: retention is initialised on a cold start (R167). -/
  | retentionInit (dt : Nat)
  /-- REPLAY: the replay engine checks the journal (R135): the single-bit errors it corrects, by location and word, and the location of an uncorrectable error. -/
  | replay (dt : Nat) (singles : List (Nat × Nat)) (uncorr : Option Nat)
  /-- NRESET_PIN: nRESET is low for len ticks (R170). -/
  | nresetPin (dt : Nat) (len : Nat)
  /-- BROWNOUT: a VDD-group supply falls below its limit, with VBAK present (R166). -/
  | brownout (dt : Nat)
  /-- BACKUP_EXIT: VDD has been present for 32 oscillator periods (R158). -/
  | backupExit (dt : Nat)
  /-- VBAK_LOSS: VBAK falls below its retention limit (R158); with it: whether VDD33 is present in BACKUP (R164). -/
  | vbakLoss (a : Timed Bool)
  /-- WATCHDOG_EXPIRY: the host watchdog reaches zero (R174). -/
  | watchdogExpiry (dt : Nat)
  /-- XTAL_LOSS: the crystal, or with pll the PLL range, is lost (R184). -/
  | xtalLoss (dt : Nat) (pll : Bool)
  /-- LF_OSC_LOSS: the 32.768 kHz oscillator is lost (R184); with it: whether VDD is present in BACKUP. -/
  | lfOscLoss (a : Timed Bool)
  /-- LF_TICK: a 32.768 kHz period passes (R143). -/
  | lfTick (dt : Nat)
  /-- SLEEP_ENTRY: the part is quiescent (R178). -/
  | sleepEntry (dt : Nat)
  /-- SLEEP_TIMEOUT: quiescence was not reached within 100 ms (R178). -/
  | sleepTimeout (dt : Nat)
  /-- WAKE_PIN: nWAKE is low at two consecutive oscillator edges (R179). -/
  | wakePin (dt : Nat)
  /-- WAKE_TIMER: an oscillator edge finds TICK at WAKETIME or past it (R179). -/
  | wakeTimer (dt : Nat)
  /-- WAKE_LINK: the readback inputs of the satellite of hop h + 1 are at some levels while the link is stopped: the hop-1 return pair may be at the attention level (R179, R309). -/
  | wakeLink (a : Timed (Fin 4 × BitVec 4))
  /-- WAKE_MOTION: the motion comparator sees a qualified edge in SLEEP (R179). -/
  | wakeMotion (dt : Nat)
  /-- WAKE_SWITCH: after a wake the net switches to SYSCLK (R180). -/
  | wakeSwitch (dt : Nat)
  /-- FRONT_ENDS_READY: the front ends are ready after a RUN request (R176). -/
  | frontEndsReady (dt : Nat)
  /-- MOTION_EDGE: the motion comparator sees a qualified edge (R181). -/
  | motionEdge (dt : Nat)
  /-- VBAK_CHECK: VBAK is checked (R182); low tells a value below its limit. -/
  | vbakCheck (dt : Nat) (low : Bool)
  /-- CALENDAR_END_HOLD: the calendar reaches its last second (R148). -/
  | calendarEndHold (dt : Nat)
  /-- GENERATOR_READY: the amplitude ramp of generator g ends (R203); amp is the measured amplitude. -/
  | generatorReady (dt : Nat) (g : Fin 4) (amp : Nat)
  /-- GENERATOR_THERMAL: the driver temperature of generator g is t °C (R205). -/
  | generatorThermal (dt : Nat) (g : Fin 4) (t : Int)
  /-- GENERATOR_LIMIT: a carrier period of generator g ends: a clip, the amplitude read back and the phase sensed at the balls (R204, R205). -/
  | generatorLimit (dt : Nat) (g : Fin 4) (clip : Bool) (x : Sensed)
  /-- VEXC_MONITOR: VEXC crosses its monitor threshold (R553). -/
  | vexcMonitor (dt : Nat) (low : Bool)
  /-- PAIR_WINDOW: the 128-tick window of channel n ends: its 16 samples of the sine and the cosine modulator, oldest first, and whether a modulator was beyond full scale (R208, R212, R213). -/
  | pairWindow (dt : Nat) (n : Fin 16) (q0 : Quarter) (q1 : Quarter) (q2 : Quarter) (q3 : Quarter) (overS : Bool) (overC : Bool)
  /-- CARRIER_PERIOD_FIT: a carrier period of channel n ends; err is the phase error in 2^-16 carrier turn that a satellite has fitted (R215). -/
  | carrierPeriodFit (dt : Nat) (n : Fin 16) (err : Int)
  /-- SELFCAL_MEASUREMENT: a self-calibration measurement of channel n ends (R221); trims and tones are those that a satellite has measured. -/
  | selfcalMeasurement (dt : Nat) (n : Fin 16) (trims : Trims) (tone : Int × Int)
  /-- PRESENCE_CHECK_START: a presence check of channel n starts (R232). -/
  | presenceCheckStart (dt : Nat) (n : Fin 16)
  /-- PRESENCE_CHECK_END: a presence check of channel n ends with the changes of both offset terms (R233). -/
  | presenceCheckEnd (dt : Nat) (n : Fin 16) (dvs : Int) (dvc : Int)
  /-- TRACKING_UPDATE: a pair of channel n reaches the estimators (R245). -/
  | trackingUpdate (dt : Nat) (n : Fin 16)
  /-- BANDWIDTH_EVALUATION: the bandwidth policy of channel n evaluates its steps (R250). -/
  | bandwidthEvaluation (dt : Nat) (n : Fin 16)
  /-- ENCODER_STEP: emulator e steps (R267). -/
  | encoderStep (dt : Nat) (e : Fin 8)
  /-- HOP_TRAIN_START: hop h + 1 enters TRAIN (R294). -/
  | hopTrainStart (dt : Nat) (h : Fin 4)
  /-- HOP_CLOCK_LOCK: the satellite of hop h + 1 locks to the forwarded clock (R295). -/
  | hopClockLock (dt : Nat) (h : Fin 4)
  /-- HOP_TRAIN_FAIL: training of hop h + 1 fails (R294). -/
  | hopTrainFail (dt : Nat) (h : Fin 4) (why : TrainFail)
  /-- IDENT_RECORD: a valid IDENT record comes over hop h + 1 (R296). -/
  | identRecord (dt : Nat) (h : Fin 4) (serial : Word) (part : Nat) (rev : Nat)
  /-- IDENT_TIMEOUT: no valid IDENT within 128 frames (R294). -/
  | identTimeout (dt : Nat) (h : Fin 4)
  /-- UPSTREAM_FRAME: an upstream frame is received (R291): what the satellites send in it, which of them have a bad frame from the hop above, and the bits that the cable turned. -/
  | upstreamFrame (dt : Nat) (u : UpFrame)
  /-- MESSAGE_RECORD: a message record of the satellite of hop h + 1 is complete (R293). -/
  | messageRecord (dt : Nat) (h : Fin 4) (rec : UpRecord)
  /-- MESSAGE_REPEAT: a record to hop h + 1 is unacknowledged for 16 frames (R293). -/
  | messageRepeat (dt : Nat) (h : Fin 4)
  /-- SATELLITE_SAFE_STATE: the satellite of hop h + 1 sees four bad frames or a lost clock (R298). -/
  | satelliteSafeState (dt : Nat) (h : Fin 4) (clockLost : Bool)
  /-- EXTRA_DEVICE: training activity is seen beyond hop 4 (R298). -/
  | extraDevice (dt : Nat)
  /-- ADMISSION_COMPLETE: the configuration push to the satellite of hop h + 1 completes (R300). -/
  | admissionComplete (dt : Nat) (h : Fin 4)
  /-- BUFFER_READY: the soft start of the buffer of satellite k ends (R300). -/
  | bufferReady (dt : Nat) (k : Fin 4) (amp : Nat)
  /-- HOLD_EXPIRY: the link hold of a command expires (R306). -/
  | holdExpiry (dt : Nat) (k : Client) (seq : Nat)
  /-- WHEEL_EDGE: a filtered active edge on wheel w (R317): its place in the synchroniser, and the levels of a VR input in mV (R316). -/
  | wheelEdge (dt : Nat) (w : Fin 4) (lag : Fin 3) (opp : Nat) (pk : Nat)
  /-- WHEEL_STALL: wheel w has stalled (R318). -/
  | wheelStall (dt : Nat) (w : Fin 4)
  /-- WHEEL_INPUT_FAULT: the input monitor of wheel w decides open or shorted, or sound again (R316). -/
  | wheelInputFault (dt : Nat) (w : Fin 4) (bad : Bool)
  /-- WATCHED_EDGE: an edge of wheel w while its input stage watches (R332). -/
  | watchedEdge (dt : Nat) (w : Fin 4) (lag : Fin 3) (opp : Nat) (pk : Nat)
  /-- WHEEL_STATE_MISMATCH: the copies of the state of wheel w disagree (R342). -/
  | wheelStateMismatch (dt : Nat) (w : Fin 4)
  /-- EVENT_START: the head event of output o reaches its start deadline (R351). -/
  | eventStart (dt : Nat) (o : Fin 24)
  /-- EVENT_END: the running event of output o ends (R352). -/
  | eventEnd (dt : Nat) (o : Fin 24)
  /-- BANK_LEAD_START: the lead deadline of bank a is reached (R354). -/
  | bankLeadStart (dt : Nat) (a : Fin 8)
  /-- SERIALIZE_TIMEOUT: a held start of output o has waited for SERMAX (R355). -/
  | serializeTimeout (dt : Nat) (o : Fin 24)
  /-- READBACK_TRIP: RBFILT samples of an output or bank disagree (R357). -/
  | readbackTrip (dt : Nat) (b : HopBall)
  /-- SCHEDULER_MISMATCH: the copies of an output's or bank's queue disagree (R369). -/
  | schedulerMismatch (dt : Nat) (b : HopBall)
  /-- FRAME_BOUNDARY: every due loop samples its inputs and computes its law (R378). -/
  | frameBoundary (dt : Nat)
  /-- OUTPUT_APPLICATION: the loops' outputs are applied (R378). -/
  | outputApplication (dt : Nat)
  /-- LOOP_CHECK_MISMATCH: the copies of the state of loop n disagree (R401). -/
  | loopCheckMismatch (dt : Nat) (n : Fin 16)
  /-- MONITOR_READING: a monitor reading of analog output a is available (R445); lim is its current limit. -/
  | monitorReading (dt : Nat) (a : Fin 8) (code : Fin 4096) (lim : Bool)
  /-- AO_CHECK_MISMATCH: the copies of the state of analog output a disagree (R449). -/
  | aoCheckMismatch (dt : Nat) (a : Fin 8)
  /-- BLOCK_RESET_COMPLETE: a block reset ends (R475). -/
  | blockResetComplete (dt : Nat)
  /-- ESCALATION_DEADLINE: source n reaches its escalation deadline (R461). -/
  | escalationDeadline (dt : Nat) (n : Src)
  /-- QUIET_PERIOD_END: source n has been quiet for QUIET milliseconds (R464). -/
  | quietPeriodEnd (dt : Nat) (n : Src)
  /-- WINDOW_END: the counting window of source n ends (R458). -/
  | windowEnd (dt : Nat) (n : Src)
  /-- COLLECTOR_SELF_CHECK: the copies of the collector disagree (R482). -/
  | collectorSelfCheck (dt : Nat)
  /-- REGISTER_READ: master m reads halfword h of register r (R39); proto tells a protocol error, and whether it is a write (R33). -/
  | registerRead (dt : Nat) (m : Mid) (r : Fin 64) (h : Fin 4) (proto : Option Bool)
  /-- NRESET_RELEASE: nRESET returns high (R169). -/
  | nresetRelease (dt : Nat)
  /-- VDD_LOSS_WITHOUT_VBAK: VDD is lost while VBAK is absent (R158). -/
  | vddLossWithoutVbak (dt : Nat)
  /-- LF_OSC_RESTORED: the 32.768 kHz oscillator returns (R184). -/
  | lfOscRestored (dt : Nat)
  /-- TRAINING_COMPLETE: training of hop h + 1 completes with a delay of d ticks (R294). -/
  | trainingComplete (dt : Nat) (h : Fin 4) (d : Nat)
  /-- ROLLBACK_PROGRAM_DONE: the programming of the anti-rollback steps ends (R194): the last confirmed count, and whether a step failed. -/
  | rollbackProgramDone (dt : Nat) (confirmed : Nat) (failed : Bool)
  /-- SEQUENCER_CHECK_FAIL: the sequencer's check fails at a byte offset of the running slot (R508). -/
  | sequencerCheckFail (dt : Nat) (offset : Nat)
  /-- READBACK_AGREE: the ball of a tripped output or bank reads as driven again (R356). -/
  | readbackAgree (dt : Nat) (b : HopBall)
  /-- DOWNSTREAM_FRAME: the satellite of hop h + 1 takes a downstream frame (R291); err are the bits that the cable turned. -/
  | downstreamFrame (dt : Nat) (h : Fin 4) (err : BitVec 200)
  /-- SATELLITE_NRESET: nRESET of the satellite of hop h + 1 goes low, or high again (R311). -/
  | satelliteNreset (dt : Nat) (p : SatPin)
deriving DecidableEq, Repr

end Sys2Proof
end

