-- ==== Sys2Proof/Config.lean ====
section
/-! DEFINITION. The free values of the model: what the spec leaves open. Each is a constant without a body, so nothing can
be proved of its value; a log entry names it. -/

namespace Sys2Proof.Config

/-- Which free journal location the n-th accepted command takes (log 6). -/
opaque journalPlace : Nat → Nat
/-- A word of an erased page of a firmware slot (log 7). -/
opaque erasedWord : Nat → Word
/-- Which of the slot records of the last millisecond before a supply loss the newer valid copy holds (log 8, R199). -/
opaque slotRecord : Nat → Nat
/-- Whether an nRESET low of 158 to 161 ticks resets the part (R170, R564; log 9). -/
opaque nresetBand : Nat → Bool
/-- The detail of a FINISH that finds a nonvolatile read error (log 10). -/
opaque readErrDetail : Nat → BitVec 16

/-- What the fit of a window yields all of whose samples carry weight zero: the terms of the n-th such draw (R213; log 31). -/
opaque blankFit : Nat → Nat → Int
/-- The leak behind a divider, in 1/16 Ω, from the transfer resistance at the pins and FENOM.DIVIDER (R227; log 61). -/
opaque dividerLeak : Nat → Nat → Nat
/-- The error of the arctangent estimator on a pair, in 2^-48 turn, before it is limited to 2^-28 turn (R248; log 32). -/
opaque atanError : Int → Int → Int
/-- The error of a notch coefficient before it is rounded, in 2^-56, from F0, BW, DEPTH, the period in ticks and the
coefficient's index (R394; log 34). -/
opaque notchError : Nat → Nat → Nat → Nat → Nat → Int
/-- The n-th free value of the model (log 3). -/
opaque freeValue : Nat → Nat

end Sys2Proof.Config
end

