-- ==== Sys2Proof/Machine/Bits.lean ====
section
/-! DEFINITION. Bit fields of 64-bit words, saturating and wrapping counters, and the update of one place of a vector. -/

namespace Sys2Proof.Machine

/-- Bits hi..lo of a word, as a number. -/
def fld (w : Word) (hi lo : Nat) : Nat := (w.toNat >>> lo) % 2 ^ (hi - lo + 1)

/-- Bit i of a word. -/
def bit (w : Word) (i : Nat) : Bool := w.toNat.testBit i

/-- The two's complement value of an n-bit pattern. -/
def signed (n v : Nat) : Int := if v < 2 ^ (n - 1) then (v : Int) else (v : Int) - (2 ^ n : Nat)

/-- Bits hi..lo of a word, as a two's complement number. -/
def sfld (w : Word) (hi lo : Nat) : Int := signed (hi - lo + 1) (fld w hi lo)

/-- The n-bit two's complement pattern of an integer. -/
def intBits (n : Nat) (x : Int) : Nat := (x % ((2 ^ n : Nat) : Int)).toNat

/-- One bit as a number. -/
def b2n (b : Bool) : Nat := if b then 1 else 0

/-- A word from its fields, each given as (lowest bit, width, value). -/
def pack (l : List (Nat × Nat × Nat)) : Word :=
  BitVec.ofNat 64 (l.foldl (fun a f => a + (f.2.2 % 2 ^ f.2.1) <<< f.1) 0)

/-- A number as a 64-bit word. -/
def w64 (n : Nat) : Word := BitVec.ofNat 64 n

/-- An integer as a 64-bit word, two's complement. -/
def w64i (x : Int) : Word := BitVec.ofInt 64 x

/-- A counter that saturates at 0xFFFF. -/
def satInc16 (n : Nat) : Nat := min (n + 1) 65535
/-- A counter that wraps at 16 bits. -/
def wrapInc16 (n : Nat) : Nat := (n + 1) % 65536
/-- A counter that saturates at 0xFFFF_FFFF. -/
def satInc32 (n : Nat) : Nat := min (n + 1) 4294967295
/-- A counter that wraps at 32 bits. -/
def wrapInc32 (n : Nat) : Nat := (n + 1) % 4294967296

/-- The value f x written in place of x at place i. -/
def upd {α : Type} {n : Nat} (v : Vector α n) (i : Fin n) (f : α → α) : Vector α n :=
  v.set i (f v[i]) i.isLt

/-- A place of a vector by number, if there is one. -/
def fin? (n : Nat) (i : Nat) : Option (Fin n) := if h : i < n then some ⟨i, h⟩ else none

/-- All indices below n, rising. -/
def allFin (n : Nat) : List (Fin n) := List.finRange n

end Sys2Proof.Machine
end

