-- ==== Sys2Proof/Machine/TypesLink.lean ====
section
/-! DEFINITION. The state of the Unern link, the satellites and the encoder emulators (chapters 9 and 10). -/

namespace Sys2Proof.Machine

/-- Hop states (Table 10-4). -/
inductive HopSt where
  | down | train | ident | up
deriving DecidableEq, Repr

/-- Classification of the device at a hop (Tables 10-6, 10-18). -/
inductive DState where
  | none | offered | quarantined | admitting | admitted
deriving DecidableEq, Repr

/-- An output set of a satellite (R278, R279): the count that its driver shows in the turn of n states, the place zc and width w of Z,
the three levels, and the tick from which steps at the FY6416's ball are still to come. -/
structure SatSlot where
  cnt : Nat
  n : Nat
  zc : Nat
  w : Nat
  a : Bool
  b : Bool
  z : Bool
  since : Nat
deriving DecidableEq, Repr

/-- A hop and the satellite at it. kick: the tick of a training start that Table 10-4 gives beside the retry slots; stamp: the tick at
which the state was entered; delay: the one-way delay of the hop itself, dAcc the accumulated delay D_h (R286); wait: records sent
downstream and not acknowledged, with the tick of the last sending and the payload (R293); pushed: the content last sent of each kind;
nibs: the nibbles of the record that is coming up; unlock: the last STATUS reported a PLL unlock (R313). The other fields are the
satellite's own: its safe state (R298), nRESET low (R311), whether its settings are held, its run of bad downstream frames, the HOPOK
bit it sends, its drivers and buffer, its output sets and the steps on their way to them, the record it is receiving (TYPE, LEN and the
words so far), what CONFIG, TRIM, MEASURE and PHASE left, the nibbles it has to send, the last downstream frame it took; and what it
latched when the clock stopped, its FBWAKE bits and its readback levels (R309): none where it was not UP. -/
structure Hop where
  st : HopSt
  kick : Option Nat
  stamp : Nat
  locked : Bool
  lockTick : Nat
  serial : Word
  part : Nat
  rev : Nat
  dstate : DState
  pos : Fin 4
  long : Bool
  delay : Nat
  dAcc : Nat
  okClear : Nat
  admTick : Nat
  wait : List (Nat × Nat × Nat)
  pushed : List (Nat × Nat)
  nibs : List Nat
  unlock : Bool
  satSafe : Bool
  satLow : Bool
  satSet : Bool
  satBad : Nat
  satHopok : Bool
  satDrv : Bool
  satBuf : Bool
  slots : Vector SatSlot 2
  due : List (Nat × Fin 2 × Bool)
  msgType : Nat
  msgLen : Nat
  msgGot : List Nat
  cfg : Nat
  trims : Vector Nat 4
  meas : Nat
  phase : Nat
  ackOut : List Nat
  lastDown : Option Nat
  wake : Option (Nat × Nat)
deriving DecidableEq, Repr

/-- A position SATk (Tables 10-18, 10-19, 10-21); bufTick is the rising zero crossing at which the buffer's soft start begins, everReady
holds since the buffer was READY after its last APPLY or start (R217), filt counts equal raw samples
of each readback input (R313). -/
structure Sat where
  serial : Word
  bound : Bool
  hop : Option (Fin 4)
  admitcount : Nat
  admitted : Bool
  bufready : Bool
  bufsoft : Bool
  buflimit : Bool
  buffold : Bool
  bufoff : Bool
  bufTick : Nat
  everReady : Bool
  readyTick : Nat
  drvfault : Nat
  drvoff : Nat
  losscause : Nat
  ampmeas : Nat
  temp : Nat
  losscount : Nat
  level : Nat
  raw : Nat
  changecount : Nat
  filt : Vector Nat 4
  losttick : Nat
  admittick : Nat
deriving DecidableEq, Repr

/-- An input lane (R292, R301): the satellite input it is assigned to (position, input), the bits of the superframe
received so far, the frames of it that were bad, and the sample instant of its latest pair. -/
structure Lane where
  use : Option (Fin 4 × Fin 4)
  bits : Nat
  bad : Nat
  last : Option Nat
deriving DecidableEq, Repr

/-- The link (Table 10-17): badRun counts consecutive bad frames received at hop 1's port, lastUp is the number of the last one received;
sched holds the downstream message words that are due, each with the frame that carries it (R293). -/
structure Link where
  hops : Vector Hop 4
  sats : Vector Sat 4
  lanes : Vector Lane 4
  badRun : Nat
  lastUp : Option Nat
  sched : List (Nat × Nat)
  extra : Bool
  crcerr : Nat
deriving DecidableEq, Repr

/-- Emulator states (R275). -/
inductive EncSt where
  | disabled | init | running | lost | lagstop
deriving DecidableEq, Repr

/-- An encoder emulator (Tables 9-4, 9-7): resume asks for the realignment of R276 at the next step; steps are the ticks
and directions (true: decreasing) of recent steps, for the link's lanes. -/
structure Enc where
  st : EncSt
  benchhold : Bool
  resume : Bool
  lagover : Bool
  satgap : Bool
  dir : Bool
  leva : Bool
  levb : Bool
  levz : Bool
  cnt : Int
  tgt : Int
  lastedge : Nat
  lagovercnt : Nat
  realigncnt : Nat
  lagmax : Nat
  steps : List (Nat × Bool)
deriving DecidableEq, Repr

end Sys2Proof.Machine
end

