-- ==== Sys2Proof/Machine/TypesWheel.lean ====
section
/-! DEFINITION. The state of the wheel inputs (chapter 11). -/

namespace Sys2Proof.Machine

/-- Wheel states (Table 11-2). -/
inductive WhSt where
  | disabled | seek | confirm | provisional | synced | stopped
deriving DecidableEq, Repr

/-- What a wheel publishes at an edge or a stop (R325, R326): the instant tau counts from, the angle there in 2^-32 turn,
v_e = vn / den per tick, a = an / den per tick², the next tooth's angle and the direction. -/
structure Pub where
  t0 : Nat
  th : Int
  vn : Int
  an : Int
  den : Nat
  nxt : Int
  rev : Bool
deriving DecidableEq, Repr

/-- A wheel's Sett entry (R331, Table 11-12). -/
structure WhSett where
  ang : Int
  tick : Nat
  valid : Bool
  stopped : Bool
  moved : Bool
  dir : Bool
  prov : Bool
  phsync : Bool
  engpar : Bool
  idx : Nat
  movecount : Nat
deriving DecidableEq, Repr

/-- What LEARNTEETH has recorded (R338, R339): the tick and first cycle of its collection, the stamps whose reference angle
is not known yet, and each recorded edge as its cycle and its angle from the cycle's origin in 2^-32 base turn. -/
structure Learn where
  run : Bool
  t0 : Nat
  cyc0 : Int
  pend : List Nat
  recs : List (Int × Int)
  bad : Bool
deriving DecidableEq, Repr

/-- A wheel (Table 11-11). dirKnown holds once an edge gave a direction; last is the stamp that intervals count from and
dirBad holds while DIRUNK stands and its source was seen not VALID; ivals the matcher's intervals, newest first (R322); hist the aligned intervals of R325 with their angle steps, newest
first; post the count of the table entry last passed, off what its angle is carried on from (R333); confN the consistent
edges of the cycle in CONFIRM; pubs the publications, newest first; estBase and estN give ESTANG (R324); peak the peak
of R316 in mV; settNext is the entry that the next tick writes (R331); jumpNow the jump and edgeNow the edge of this step, for the consumers (R326, R330). -/
structure Wheel where
  st : WhSt
  dir : Bool
  dirKnown : Bool
  stall : Bool
  phsync : Bool
  engpar : Bool
  revover : Bool
  quick : Bool
  dirunk : Bool
  dirBad : Bool
  confcyc : Nat
  idx : Nat
  edges : Nat
  last : Option Nat
  ivals : List Nat
  hist : List (Nat × Int)
  post : Int
  off : Int
  confN : Nat
  pubs : List Pub
  edgeAng : Int
  edgeTick : Nat
  acc : Int
  per1 : Nat
  per2 : Nat
  phf : Int
  phi : Int
  phStarted : Bool
  phLast : Option Bool
  slips : Nat
  gains : Nat
  rejects : Nat
  drops : Nat
  jump : Int
  jumptick : Nat
  estBase : Int
  estN : Int
  maxang : Int
  peak : Option Nat
  inBad : Bool
  mismatch : Bool
  sett : WhSett
  settNext : Option WhSett
  learnStat : Word
  learnTick : Nat
  learnTab : Store
  learn : Learn
  jumpNow : Option (Int × Int)
  edgeNow : Bool
deriving DecidableEq, Repr

end Sys2Proof.Machine
end

