-- ==== Sys2Proof/Machine/TypesHopper.lean ====
section
/-! DEFINITION. The state of the Hopper: outputs, their queues and retire rings, and the high-side banks (chapter 12). -/

namespace Sys2Proof.Machine

/-- A pending event: its entry, START and CMDC, the start deadline with its gate of R349 and the first tick in which it may apply (R350), HELD under SERIALIZE (R355), ahead
where START lay ahead of the base when the event was classified (R348), jumped where a jump passed it with LATEOK (R362). -/
structure HEv where
  key : Key
  start : Int
  cmdc : Word
  deadline : Option Nat
  gated : Bool
  notBefore : Nat
  held : Bool
  ahead : Bool
  jumped : Bool
deriving DecidableEq, Repr

/-- The running event: det is the detail of an ordinary end (R352); endDl the end deadline of an ANGLE event with its gate;
lost holds once the base was lost under it (R360). -/
structure HRun where
  key : Key
  start : Int
  cmdc : Word
  tick : Nat
  det : Nat
  endDl : Option Nat
  endGated : Bool
  lost : Bool
deriving DecidableEq, Repr

/-- A record in a retire ring (R130); the result word stands in the journal entry. -/
structure RingRec where
  key : Key
  status : Nat
  detail : Nat
  tick : Nat
  recovered : Bool
deriving DecidableEq, Repr

/-- A timed output (Table 12-12). level is the driven level and chg the tick of its last change; rbBad holds while the
readback disagrees; baseOk and baseProv are the base's state in the step before; wait holds from a block reset to the next
publication of the base, whose instant was seen; trig counts the triggers of this step (R367). -/
structure OutSt where
  enabled : Bool
  trip : Bool
  rbBad : Bool
  level : Bool
  chg : Nat
  mismatch : Bool
  q : List HEv
  run : Option HRun
  ring : List RingRec
  baseOk : Bool
  baseProv : Bool
  wait : Bool
  seen : Nat
  fired : Nat
  missed : Nat
  overlap : Nat
  trips : Nat
  trig : Nat
deriving DecidableEq, Repr

/-- A high-side bank. -/
structure BankSt where
  enabled : Bool
  trip : Bool
  rbBad : Bool
  level : Bool
  chg : Nat
  mismatch : Bool
  overlap : Nat
  trips : Nat
deriving DecidableEq, Repr

end Sys2Proof.Machine
end

