-- ==== Sys2Proof/Machine/TypesLoop.lean ====
section
/-! DEFINITION. The state of the analog outputs and of the control engine's loops (chapters 13 to 15). -/

namespace Sys2Proof.Machine

/-- An analog output (Table 15-8). code is the code in force and row the row of Table 15-2 that gave it; last is the code
last delivered; seqCode the SPANCHANGE sequence's code, emitTick its emission, verN and verErr the readings that verified
it and oldSpan the span it left; own the tick since which the output is OWNED; the runs count readings (R446, R447). -/
structure Ao where
  enabled : Bool
  span : Nat
  code : Nat
  row : Nat
  last : Nat
  spanbusy : Bool
  safehold : Bool
  mismatch : Bool
  opn : Bool
  monvalid : Bool
  clamped : Bool
  checkfail : Bool
  seqCode : Nat
  emitTick : Nat
  verN : Nat
  verErr : Nat
  oldSpan : Nat
  own : Option Nat
  chgtick : Nat
  moncode : Nat
  monval : Int
  mmRun : Nat
  okRun : Nat
  openRun : Nat
  closeRun : Nat
  mmevents : Nat
  openevents : Nat
  spanchanges : Nat
  clamps : Nat
deriving DecidableEq, Repr

/-- Loop modes (Table 14-1). -/
inductive LpMode where
  | disabled | auto | manual | tuning
deriving DecidableEq, Repr

/-- What a loop's next run that is not frozen does first (R407, R417, R392). -/
inductive LpPend where
  | none | start | preset
deriving DecidableEq, Repr

/-- What a run leaves to the next one: section states s1 to s3 of sections 0 to 7, the b0 coefficients it used (R391), the
region, r and rv. -/
structure LpCore where
  st : List Int
  b0s : List Int
  region : Nat
  hasReg : Bool
  r : Int
  rv : Int
deriving DecidableEq, Repr

/-- The values of a run that its application writes (Table 13-1): boundary tick, y, x, w, ua, TRIGN, the flags. -/
structure LpRun where
  tick : Nat
  y : Int
  x : Int
  w : Int
  ua : Int
  trign : Nat
  outlim : Bool
  satstore : Bool
  limiting : Bool
  ratelim : Bool
  acclim : Bool
  held : Bool
  grpwin : Bool
  grplose : Bool
  core : LpCore
deriving DecidableEq, Repr

/-- A relay cycle measured by AUTOTUNE: its period in ticks and its swing. -/
structure Cycle where
  period : Nat
  swing : Int
deriving DecidableEq, Repr

/-- AUTOTUNE's relay (R423): u0, D and ε in Q16.48, the relay's side once it ran, the run that began the cycle, the extremes
of y in it, the cycles that ended, whether a relay run was applied. -/
structure Relay where
  u0 : Int
  d : Int
  eps : Int
  high : Option Bool
  from_ : Option Nat
  ylo : Option Int
  yhi : Option Int
  cycles : List Cycle
  applied : Bool
deriving DecidableEq, Repr

/-- The ATRES words (Table 14-6). -/
structure AtRes where
  valid : Bool
  ckpt : Nat
  tu : Nat
  amp : Int
  ku : Int
  kp : Int
  ki : Int
  b0 : Int
  b1 : Int
  a1 : Int
  tick : Nat
deriving DecidableEq, Repr

/-- A loop (Tables 13-9, 13-10, 14-6, 14-8). core is what the engine has computed, run the run last applied, flight the runs
computed and not applied; applied holds once an output was applied since the loop was enabled; warm until its first run
after a warm reset; zero where a block reset presets it; lastRun is the boundary of its latest run that was not frozen. -/
structure Lp where
  mode : LpMode
  pend : LpPend
  zero : Bool
  warm : Bool
  frozen : Bool
  inlost : Bool
  checkfail : Bool
  trigsat : Bool
  trigcount : Nat
  runcount : Nat
  satcount : Nat
  switches : Nat
  trigdrop : Nat
  suppressed : Nat
  core : LpCore
  run : LpRun
  flight : List LpRun
  applied : Bool
  lastRun : Option Nat
  sptarget : Int
  manval : Int
  feover : Bool
  fecount : Nat
  transfers : Nat
  ferun : Nat
  feclear : Nat
  fepeak : Int
  relay : Relay
  atres : AtRes
deriving DecidableEq, Repr

/-- A run while it is computed (R389): the loop with what the run changes before its law, y, x, ff, each section's input and
output, the adjusted states, w, u, uc, the candidate of R420, whether a store saturated, and the ramp's flags. -/
structure Pre where
  n : Fin 16
  lp : Lp
  y : Int
  x : Int
  ff : Int
  secs : List (Int × Int)
  st : List Int
  w : Int
  u : Int
  uc : Int
  cand : Int
  sat : Bool
  trign : Nat
  limiting : Bool
  ratelim : Bool
  acclim : Bool
  held : Bool
deriving DecidableEq, Repr

/-- The control engine (R403, R431): the boundary last computed, the tracks of the channels' turn sources, and each group's
ACTIVE and WINNER. -/
structure Engine where
  boundary : Option Nat
  turns : Vector Nat 16
  groups : Vector (Bool × Option (Fin 16)) 4
deriving DecidableEq, Repr

end Sys2Proof.Machine
end

