-- ==== Sys2Proof/Machine/Chip.lean ====
section
/-! DEFINITION. The whole block: everything of the FY6416 that its spec calls state, in one record. -/

namespace Sys2Proof.Machine

/-- A CHIPRESET reaction that was applied (R476): the source, the tick of the reset, and whether an escalation applied it. -/
structure ResetAsk where
  src : Src
  tick : Nat
  escalation : Bool
deriving DecidableEq, Repr

/-- The FY6416. raised holds the events that the blocks have raised and the collector has not processed (R466), chipReset a
chip reset and blockResets the block resets that were asked for, each with its tick, benchNow a Bench decision that has not
reached the outputs (Table 1-2). freeN counts the free values that have been drawn (the model's own field). -/
structure Chip where
  isN : Bool
  tick : Nat
  face : Face
  own : Own
  wb : Wb
  cal : Cal
  pw : Power
  img : Images
  mem : ObjMem
  flt : Collector
  exc : Vector Exc 4
  fe : Vector Fe 16
  trk : Vector Trk 16
  stays : List Stay
  link : Link
  enc : Vector Enc 8
  wh : Vector Wheel 4
  outs : Vector OutSt 24
  banks : Vector BankSt 8
  ao : Vector Ao 8
  lp : Vector Lp 16
  eng : Engine
  raised : List Raise
  chipReset : Option ResetAsk
  blockResets : List (Block × Nat)
  benchNow : Bool
  freeN : Nat
deriving DecidableEq, Repr

end Sys2Proof.Machine
end

