-- ==== Sys2Proof/Machine/Ops.lean ====
section
/-! DEFINITION. The named operations that every block shares: object words, events and notifications, ownership queries
and the journal. -/

namespace Sys2Proof.Machine

/-! ### Object words -/

/-- The word at an address; an unlisted word is zero (R59). -/
def storeGet (s : Store) (a : Nat) : Word :=
  match s with
  | [] => 0
  | (b, w) :: t => if a = b then w else if a < b then 0 else storeGet t a

/-- Write a word; a zero word is not listed. -/
def storePut (s : Store) (a : Nat) (w : Word) : Store :=
  match s with
  | [] => if w = 0 then [] else [(a, w)]
  | (b, v) :: t =>
    if a < b then (if w = 0 then (b, v) :: t else (a, w) :: (b, v) :: t)
    else if a = b then (if w = 0 then t else (a, w) :: t)
    else (b, v) :: storePut t a w

/-- The words of lo ≤ address < hi. -/
def storeIn (s : Store) (lo hi : Nat) : Store := s.filter (fun p => decide (lo ≤ p.1) && decide (p.1 < hi))

/-- Zero every word of lo ≤ address < hi. -/
def storeZero (s : Store) (lo hi : Nat) : Store := s.filter (fun p => !(decide (lo ≤ p.1) && decide (p.1 < hi)))

/-- The canonical form of a store: addresses strictly rising and no zero word. -/
def storeWf (s : Store) : Bool :=
  match s with
  | [] => true
  | (a, w) :: t => decide (w ≠ 0) && (match t with | [] => true | (b, _) :: _ => decide (a < b)) && storeWf t

/-- The canonical form of all three copies. -/
def ObjMem.wf (m : ObjMem) : Bool := storeWf m.staged && storeWf m.active && storeWf m.live

/-- Write one staged CONFIG word (R56). -/
def ObjMem.putStaged (m : ObjMem) (a : Nat) (w : Word) : ObjMem := { m with staged := storePut m.staged a w }
/-- Write one CONFIG word in force. -/
def ObjMem.putActive (m : ObjMem) (a : Nat) (w : Word) : ObjMem := { m with active := storePut m.active a w }
/-- Write one LIVE word (R56). -/
def ObjMem.putLive (m : ObjMem) (a : Nat) (w : Word) : ObjMem := { m with live := storePut m.live a w }

/-- Copy one word of the staged copy into force. -/
def copyWords (l : Store) (s : Store) : Store := l.foldl (fun s p => storePut s p.1 p.2) s

/-- Copy the staged block lo ≤ address < hi whole into force (R57). -/
def ObjMem.applyBlock (m : ObjMem) (lo hi : Nat) : ObjMem :=
  { m with active := copyWords (storeIn m.staged lo hi) (storeZero m.active lo hi) }

/-- Zero both copies and the LIVE words of lo ≤ address < hi (R59, Table 3-4). -/
def ObjMem.zeroBlock (m : ObjMem) (lo hi : Nat) : ObjMem :=
  { staged := storeZero m.staged lo hi, active := storeZero m.active lo hi, live := storeZero m.live lo hi }

/-- The CONFIG word in force at an address. -/
def act (c : Chip) (a : Nat) : Word := storeGet c.mem.active a
/-- The staged CONFIG word at an address. -/
def stg (c : Chip) (a : Nat) : Word := storeGet c.mem.staged a
/-- The LIVE word at an address. -/
def liveW (c : Chip) (a : Nat) : Word := storeGet c.mem.live a

/-! ### Map indices (Table 3-1) and the address ranges of objects -/

/-- Map index of channel n. -/
def ixCh (n : Fin 16) : ObjIx := ⟨n.val, by omega⟩
/-- Map index of wheel w. -/
def ixWh (n : Fin 4) : ObjIx := ⟨16 + n.val, by omega⟩
/-- Map index of timed output o. -/
def ixOut (n : Fin 24) : ObjIx := ⟨20 + n.val, by omega⟩
/-- Map index of bank b. -/
def ixHsb (n : Fin 8) : ObjIx := ⟨44 + n.val, by omega⟩
/-- Map index of loop n. -/
def ixLp (n : Fin 16) : ObjIx := ⟨52 + n.val, by omega⟩
/-- Map index of analog output a. -/
def ixAo (n : Fin 8) : ObjIx := ⟨68 + n.val, by omega⟩
/-- Map index of encoder emulator e. -/
def ixEnc (n : Fin 8) : ObjIx := ⟨76 + n.val, by omega⟩
/-- Map index of satellite k. -/
def ixSat (n : Fin 4) : ObjIx := ⟨84 + n.val, by omega⟩

/-- An ownable object by its kind. -/
inductive Obj where
  | ch (n : Fin 16) | wh (n : Fin 4) | out (n : Fin 24) | hsb (n : Fin 8) | lp (n : Fin 16) | ao (n : Fin 8)
  | enc (n : Fin 8) | sat (n : Fin 4)
deriving DecidableEq, Repr

/-- The object of a map index (Table 3-1). -/
def objOf (i : ObjIx) : Obj :=
  let n := i.val
  if h : n < 16 then .ch ⟨n, h⟩
  else if h : n < 20 then .wh ⟨n - 16, by omega⟩
  else if h : n < 44 then .out ⟨n - 20, by omega⟩
  else if h : n < 52 then .hsb ⟨n - 44, by omega⟩
  else if h : n < 68 then .lp ⟨n - 52, by omega⟩
  else if h : n < 76 then .ao ⟨n - 68, by omega⟩
  else if h : n < 84 then .enc ⟨n - 76, by omega⟩
  else .sat ⟨n - 84, by omega⟩

/-- Base address of an object (Table 17-3). -/
def objBase (o : Obj) : Nat :=
  match o with
  | .ch n => 0x01000000 + 0x10000 * n.val
  | .wh n => 0x02000000 + 0x10000 * n.val
  | .out n => 0x03000000 + 0x1000 * n.val
  | .hsb n => 0x03018000 + 0x1000 * n.val
  | .lp n => 0x04000000 + 0x10000 * n.val
  | .ao n => 0x05000000 + 0x1000 * n.val
  | .enc n => 0x0A000000 + 0x1000 * n.val
  | .sat n => 0x07000000 + 0x10000 * n.val

/-- Length of an object's address range. -/
def objSpan (o : Obj) : Nat :=
  match o with
  | .ch _ | .wh _ | .lp _ | .sat _ => 0x10000
  | .out _ | .hsb _ | .ao _ | .enc _ => 0x1000

/-- Base address of a block of Table 16-7 (Table 17-3). -/
def blockBase (b : Block) : Nat :=
  match b with
  | .obj i => objBase (objOf i)
  | .exc g => 0x400 + 0x40 * g.val

/-- The kinds that the FY6416-N lacks (R4). -/
def lacksOnN (o : Obj) : Bool :=
  match o with
  | .wh _ | .out _ | .hsb _ => true
  | _ => false

/-! ### Ownership queries -/

/-- The ownership entry of a map index. -/
def ownE (c : Chip) (i : ObjIx) : OwnEntry := c.own.entries[i]

/-- The owner of an object, if it is OWNED. -/
def ownerOf (c : Chip) (i : ObjIx) : Option Client :=
  if (ownE c i).st = .owned then some (ownE c i).owner else none

/-- An object is in transit while DRAINING or SCRUBBING, and while FREE for one tick with NEXT set (R96). -/
def inTransit (c : Chip) (i : ObjIx) : Bool :=
  match (ownE c i).st with
  | .draining | .scrubbing => true
  | .free => (ownE c i).next.isSome
  | _ => false

/-- The client that acceptance treats as the owner (R96). -/
def actingOwner (c : Chip) (i : ObjIx) : Option Client :=
  if inTransit c i then (ownE c i).next else ownerOf c i

/-- Two objects have the same owner, both OWNED (R25). -/
def sameOwner (c : Chip) (i j : ObjIx) : Bool := (ownerOf c i).isSome && (ownerOf c i == ownerOf c j)

/-! ### Conditions of the part -/

/-- The part is Benched (R478). -/
def benched (c : Chip) : Bool := c.flt.benched

/-- CONFIG or minimal CONFIG. -/
def inConfig (c : Chip) : Bool := c.pw.state = .config || c.pw.state = .minconfig

/-- RUN or IDLE. -/
def inRun (c : Chip) : Bool := c.pw.state = .run || c.pw.state = .idle

/-- Outputs are held as when Benched: Benched, or CONFIG (Table 6-3). -/
def outputsHeld (c : Chip) : Bool := c.flt.benched || !inRun c

/-- The balls and codes are held as when Benched: from 2 ticks after the Bench decision (Table 1-2), or in CONFIG (Table 6-3). -/
def outputsDown (c : Chip) : Bool := (c.flt.benched && !c.benchNow) || !inRun c

/-- The state is one of the running states. -/
def serving (c : Chip) : Bool := inConfig c || inRun c

/-- The balls have no supply: BACKUP, or no VDD (Table 6-4, R163, R165). -/
def unpowered (c : Chip) : Bool := c.pw.state = .backup || (c.pw.state = .off && !c.pw.vdd)

/-- The level of an output ball. -/
inductive Ball where
  | low | high | highZ
deriving DecidableEq, Repr

/-- A ball at a level. -/
def ballOf (b : Bool) : Ball := if b then .high else .low

/-! ### Events -/

/-- Raise an event of a source within this step (R466); it is processed when the step ends. -/
def raiseR (c : Chip) (r : Raise) : Chip := { c with raised := c.raised ++ [r] }

/-- An event with capture code N (Table 17-2). -/
def evN (c : Chip) (n : Src) : Raise :=
  { src := n, tick := c.tick, master := 15, access := 0, kind := 0, addr := 0, client := none, forced := false,
    countOnly := false, byReset := false }

/-- An event of an internal or Face master at an address (codes A and I of Table 17-2). -/
def evAt (c : Chip) (n : Src) (master access kind addr : Nat) (client : Option Client) : Raise :=
  { evN c n with master := master, access := access, kind := kind, addr := addr, client := client }

/-- Capture access codes (Table 16-5). -/
def accRead : Nat := 1
/-- A write access. -/
def accWrite : Nat := 2
/-- A commit access. -/
def accCommit : Nat := 3

/-- A source number with its index computed, S511 beyond the table. -/
def srcN (n : Nat) : Src := if h : n < 512 then ⟨n, h⟩ else 511

/-- The block of a source (R455, Tables 17-4 to 17-14). -/
def srcBlock (n : Src) : Option Block :=
  let k := n.val
  let ob (i : Nat) : Option Block := (if h : i < 88 then some (Block.obj ⟨i, h⟩) else none)
  if 16 ≤ k ∧ k < 20 then some (.exc ⟨(k - 16) % 4, by omega⟩)
  else if 20 ≤ k ∧ k < 24 then some (.exc ⟨(k - 20) % 4, by omega⟩)
  else if 96 ≤ k ∧ k < 224 then ob ((k - 96) / 8)
  else if 224 ≤ k ∧ k < 256 then ob (76 + (k - 224) / 4)
  else if 264 ≤ k ∧ k < 280 then ob (84 + (k - 264) / 4)
  else if 288 ≤ k ∧ k < 320 then ob (16 + (k - 288) / 8)
  else if 320 ≤ k ∧ k < 392 then ob (20 + (k - 320) / 3)
  else if 392 ≤ k ∧ k < 416 then ob (44 + (k - 392) / 3)
  else if 416 ≤ k ∧ k < 480 then ob (52 + (k - 416) / 4)
  else if 480 ≤ k ∧ k < 504 then ob (68 + (k - 480) / 3)
  else none

/-- The event of a block's own source, capture code B (Table 17-2). -/
def evB (c : Chip) (n : Src) : Raise :=
  match srcBlock n with
  | some b => { evN c n with kind := 2, addr := blockBase b }
  | none => evN c n

/-- Count an event source with capture code N. -/
def countN (c : Chip) (n : Nat) : Chip := raiseR c (evN c (srcN n))

/-- Count an event source of a block, capture code B. -/
def countB (c : Chip) (n : Nat) : Chip := raiseR c (evB c (srcN n))

/-- Set the real condition of a level source (R454): assertion raises the event r, unless FORCE asserts it already. -/
def setLevelR (c : Chip) (n : Src) (b : Bool) (r : Raise) : Chip :=
  let s := c.flt.srcs[n]
  if s.level = b then c
  else
    let c1 := { c with flt := { c.flt with srcs := upd c.flt.srcs n (fun s => { s with level := b, quiet := max s.quiet c.tick }) } }
    if b && !s.force then raiseR c1 r else c1

/-- A level source of a block, capture code B. -/
def levelB (c : Chip) (n : Nat) (b : Bool) : Chip := setLevelR c (srcN n) b (evB c (srcN n))

/-- A level source without a block, capture code N. -/
def levelN (c : Chip) (n : Nat) (b : Bool) : Chip := setLevelR c (srcN n) b (evN c (srcN n))

/-- Raise notification event e to a client (R469). -/
def notify (c : Chip) (k : Client) (e : Nat) : Chip :=
  { c with flt := { c.flt with
      evtstat := upd c.flt.evtstat k (fun w => w ||| (1#64 <<< e)), evtNow := upd c.flt.evtNow k (fun w => w ||| (1#64 <<< e)) } }

/-- The client an object's events are raised to (R509). -/
def eventClient (c : Chip) (i : ObjIx) : Client := (ownerOf c i).getD 0

/-- Raise event e to the owner of an object (R509). -/
def notifyObj (c : Chip) (i : ObjIx) (e : Nat) : Chip := notify c (eventClient c i) e

/-- Raise event e to every enabled client (R478, R480). -/
def notifyEnabled (c : Chip) (e : Nat) : Chip :=
  (allFin 16).foldl (fun c k => if c.own.prov[k].enabled then notify c k e else c) c

/-! ### The journal -/

/-- OPCODE of a command (Table 4-13). -/
def opcodeOf (e : Entry) : Nat := fld e.cmda 63 56
/-- TARGET of a command (Table 4-13). -/
def targetOf (e : Entry) : Nat := fld e.cmda 47 32
/-- The map index a command names, if its target is ownable (Table 4-1). -/
def targetObj (e : Entry) : Option ObjIx := fin? 88 (targetOf e)
/-- The journal key of an entry. -/
def keyOf (e : Entry) : Key := ⟨e.client, e.seq⟩

/-- An outstanding entry by its key. -/
def findEntry (c : Chip) (k : Key) : Option Entry := c.wb.entries.find? (fun e => keyOf e = k)

/-- Change an entry. -/
def updEntry (c : Chip) (k : Key) (f : Entry → Entry) : Chip :=
  { c with wb := { c.wb with entries := c.wb.entries.map (fun e => if keyOf e = k then f e else e) } }

/-- The result word of an entry at its retirement (Table 4-17, LASTREC2). -/
def resultOf (e : Entry) (r : Word) : Word :=
  if e.kind = .l then r ||| (w64 (e.ckpt % 256) <<< 56) else r

/-- Retire one entry with a status, detail and result (R125, R127). -/
def retireOne (c : Chip) (k : Key) (status detail : Nat) (r : Word) (t : Nat) : Chip :=
  updEntry c k (fun e => { e with
    state := .retired, status := status, detail := detail, result := resultOf e r, retireTick := t, mark := .none, marker := none,
    resumed := false })

/-- The result word of a control command: its target's checkpoint and sequence number (Table 4-17). -/
def ctrlResult (e : Entry) : Word := pack [(0, 32, e.seq), (32, 8, e.ckpt)]

/-- Retire an entry with its own outcome; a control command whose mark it carries is retired REFUSED_LATE 0x0014 (R134). -/
def retireAt (c : Chip) (k : Key) (status detail : Nat) (r : Word) (t : Nat) : Chip :=
  match findEntry c k with
  | none => c
  | some e =>
    let c1 := retireOne c k status detail r t
    match e.marker with
    | some m => retireOne c1 m 3 0x0014 (ctrlResult e) t
    | none => c1

/-- Retire in the current tick. -/
def retire (c : Chip) (k : Key) (status detail : Nat) (r : Word) : Chip := retireAt c k status detail r c.tick

/-- Statuses (Table 4-4). -/
def stDone : Nat := 1
/-- CANCELLED. -/
def stCancelled : Nat := 2
/-- REFUSED_LATE. -/
def stRefused : Nat := 3
/-- MISSED. -/
def stMissed : Nat := 4
/-- FAULTED. -/
def stFaulted : Nat := 5
/-- OVERLAP. -/
def stOverlap : Nat := 6

/-- Retire REFUSED_LATE with a detail: a precondition failed (Table 4-4). -/
def refuseLate (c : Chip) (e : Entry) (detail : Nat) : Chip := retire c (keyOf e) stRefused detail 0

/-- The commit point of an S command (R115, R122): COMMIT is set now, the entry is written RETIRED 2 ticks later. -/
def commitS (c : Chip) (e : Entry) (status detail : Nat) (r : Word) : Chip :=
  updEntry c (keyOf e) (fun e => { e with
    commit := true, commitTick := c.tick, status := status, detail := detail, result := r })

/-- An S command that is DONE. -/
def doneS (c : Chip) (e : Entry) : Chip := commitS c e stDone 0 0

/-- The commit point of a D command: it waits for its outcome (Table 4-19). -/
def commitD (c : Chip) (e : Entry) : Chip :=
  updEntry c (keyOf e) (fun e => { e with commit := true, commitTick := c.tick, state := .waiting })

/-- Write every S entry RETIRED whose commit point lies 2 ticks back (R115). [DEDUCED: log 50] -/
def retireDue (c : Chip) : Chip :=
  { c with wb := { c.wb with entries := c.wb.entries.map (fun e =>
      if e.kind = .s ∧ e.state = .active ∧ e.commit = true ∧ e.commitTick + 2 ≤ c.tick then
        { e with state := .retired, retireTick := e.commitTick }
      else e) } }

/-- Record a checkpoint of a long operation (R123). -/
def setCkpt (c : Chip) (k : Key) (n : Nat) : Chip := updEntry c k (fun e => { e with ckpt := n })

/-- A staging block is frozen from the acceptance of an APPLY (opcode op) that names target t until it is retired (R58). -/
def frozenBy (c : Chip) (op t : Nat) : Bool :=
  c.wb.entries.any (fun e => opcodeOf e = op && targetOf e = t && e.state ≠ .retired)

/-- What a step of a long operation comes to: a checkpoint passed, or its final one with an outcome. -/
inductive LStep where
  | none
  | pass (n : Nat)
  | final (n status detail : Nat) (result : Word)
deriving DecidableEq, Repr

/-- A stored word of a slot by word index; a word of an erased page is a free value (R185, R196). [DESIGN CHOICE: log 7] -/
def slotWord (s : Slot) (i : Nat) : Word :=
  if s.erased.toNat.testBit (i / 512) then Config.erasedWord i else storeGet s.words i

/-- Draw the number of the next free value (the model's own field). [DESIGN CHOICE: log 3] -/
def drawFree (c : Chip) : Nat × Chip := (c.freeN, { c with freeN := c.freeN + 1 })

end Sys2Proof.Machine
end

