-- ==== Sys2Proof/Machine/Catalogue.lean ====
section
/-! DEFINITION. The fault and event catalogue (chapter 17): kind, form, fixedness and default policy of every source. -/

namespace Sys2Proof.Machine

/-- The default profiles (Table 17-1). -/
inductive Profile where
  | ft | ck | cn | cp | cr | n1 | np | n8 | ns | nu | n1alarm | n1slow
deriving DecidableEq, Repr

/-- The default profile of a source (Tables 17-4 to 17-14, 17-19). -/
def profileOf (n : Src) : Profile :=
  let k := n.val
  if k = 0 ∨ k = 1 then .ft
  else if k = 2 then .cn
  else if k = 3 then .n8
  else if k = 4 then .n1alarm
  else if k = 5 then .n1
  else if k = 6 then .n1slow
  else if k = 7 then .ft
  else if k = 8 then .n8
  else if k < 16 then .nu
  else if k < 20 then .n8
  else if k < 27 then .n1
  else if k < 32 then .nu
  else if k = 32 then .n8
  else if k = 33 then .n1
  else if k = 34 ∨ k = 35 then .ft
  else if k < 40 then .nu
  else if k = 40 then .n8
  else if k < 44 then .nu
  else if k < 47 then .n8
  else if k < 64 then .nu
  else if k = 64 then .cr
  else if k = 65 then .ft
  else if k = 66 then .n1
  else if k = 67 then .n8
  else if k = 68 then .ft
  else if k < 96 then .nu
  else if k < 224 then
    let r := (k - 96) % 8
    if r = 1 then .n8 else if r = 4 ∨ r = 5 then .ck else .n1
  else if k < 256 then (if (k - 224) % 4 = 2 then .np else .n1)
  else if k = 257 then .n8
  else if k = 260 then .cn
  else if k = 261 then .ns
  else if k < 260 then .n1
  else if k < 264 then .nu
  else if k < 280 then (if (k - 264) % 4 = 3 then .ck else .n1)
  else if k < 288 then .nu
  else if k < 320 then
    let r := (k - 288) % 8
    if r = 7 then .ck else if r = 0 ∨ r = 3 ∨ r = 5 then .n8 else .n1
  else if k < 416 then
    let r := (k - 320) % 3
    if r = 0 then .np else if r = 1 then .n8 else .cp
  else if k < 480 then (if (k - 416) % 4 = 2 then .ck else .n1)
  else if k < 504 then (if (k - 480) % 3 = 2 then .cp else .np)
  else if k = 509 ∨ k = 511 then .ft
  else .n1

/-- A source is environmental (KIND 1) unless its profile is one of the integrity profiles. -/
def isEnv (n : Src) : Bool :=
  match profileOf n with
  | .ft | .ck | .cn | .cp | .cr => false
  | _ => true

/-- The level sources (R454). -/
def isLevel (n : Src) : Bool :=
  let k := n.val
  if k = 2 ∨ k = 24 ∨ k = 35 ∨ k = 68 ∨ k = 260 ∨ k = 511 then true
  else if 96 ≤ k ∧ k < 224 then decide ((k - 96) % 8 = 0 ∨ (k - 96) % 8 = 4 ∨ (k - 96) % 8 = 5)
  else if 224 ≤ k ∧ k < 256 then decide ((k - 224) % 4 ≠ 0)
  else if 264 ≤ k ∧ k < 280 then decide ((k - 264) % 4 = 3)
  else if 288 ≤ k ∧ k < 320 then decide ((k - 288) % 8 = 6 ∨ (k - 288) % 8 = 7)
  else if 320 ≤ k ∧ k < 416 then
    decide ((k - 320) % 3 = 0 ∨ (k - 320) % 3 = 2)
  else if 416 ≤ k ∧ k < 480 then decide ((k - 416) % 4 = 0 ∨ (k - 416) % 4 = 2)
  else if 480 ≤ k ∧ k < 504 then decide ((k - 480) % 3 = 2)
  else false

/-- The fixed sources (R453). -/
def isFixed (n : Src) : Bool :=
  let k := n.val
  k = 7 || k = 34 || k = 35 || k = 65 || k = 68 || k = 511

/-- SRCDEFPOL of a source (Tables 17-18, 17-19). -/
def defPol (n : Src) : Word :=
  match profileOf n with
  | .ft => 0xE001000000000000
  | .ck => 0xC001040000000000
  | .cn => 0xC001020000000000
  | .cp => 0xC011020000000000
  | .cr => 0xA001020000000000
  | .n1 => 0x8001000100010000
  | .np => 0x8011020100010000
  | .n8 => 0x8001000803E80000
  | .ns => 0x800000FF00010000
  | .nu => 0x8000000100010000
  | .n1alarm => 0x8003000100010000
  | .n1slow => 0x8001000100010000

/-- SRCDEFTIME of a source (Tables 17-18, 17-19). -/
def defTime (n : Src) : Word :=
  match profileOf n with
  | .ft => 0x03E803E800000000
  | .ck => 0x006403E800000000
  | .cn => 0x03E803E800000000
  | .cp => 0x03E803E800000000
  | .cr => 0x03E8271000000000
  | .n1 => 0x271003E800000000
  | .np => 0x138803E800000000
  | .n8 => 0x2710271000000000
  | .ns => 0x271003E800000000
  | .nu => 0x03E803E800000000
  | .n1alarm => 0x271003E800000000
  | .n1slow => 0x2710138800000000

/-- Table entry of a source (R489). -/
def srcBase (n : Src) : Nat := 0x06000000 + 0x40 * n.val

/-- The policy of a source is custom (R472). -/
def isCustom (c : Chip) (n : Src) : Bool := bit (act c (srcBase n)) 63

/-- The policy word in force (R472). -/
def polW (c : Chip) (n : Src) : Word := if isCustom c n then act c (srcBase n) else defPol n
/-- The times in force (R472). -/
def timeW (c : Chip) (n : Src) : Word := if isCustom c n then act c (srcBase n + 8) else defTime n

/-- Ticks of one millisecond. -/
def msTicks : Nat := 160000

/-- CLASS in force (R473). -/
def polClass (w : Word) : Nat := fld w 62 61
/-- REACT (Table 16-20): bits IRQ, ALARM, BLOCKRESET, CHIPRESET, PIN. -/
def polReact (w : Word) : Nat := fld w 52 48
/-- ESCREACT (Table 16-20). -/
def polEscReact (w : Word) : Nat := fld w 44 40
/-- N (Table 16-20). -/
def polN (w : Word) : Nat := fld w 39 32
/-- W in ticks (R458). -/
def polWin (w : Word) : Nat := fld w 31 16 * msTicks
/-- ESCTIME in ticks (R461). -/
def polEsc (t : Word) : Nat := fld t 63 48 * msTicks
/-- QUIET in ticks (R464). -/
def polQuiet (t : Word) : Nat := fld t 47 32 * msTicks

end Sys2Proof.Machine
end

