-- ==== Sys2Proof/Machine/Collector.lean ====
section
/-! DEFINITION. The fault collector (chapter 16): the source state machine, windows, reactions, escalation,
acknowledgement, recovery, the first-error capture and the Bench decision. -/

namespace Sys2Proof.Machine

/-- Ticks of one second. -/
def secTicks : Nat := 160000000
/-- The last calendar second (R147). -/
def calMax : Nat := 12622780799

/-- v of R146 at a tick. -/
def calV (c : Chip) (t : Nat) : Nat := (t + c.cal.offset.toNat) % 2 ^ 64
/-- CALSEC at a tick, held at the end of the calendar (R146, R148). -/
def calSec (c : Chip) (t : Nat) : Nat := if c.cal.endhold then calMax else min (calV c t / secTicks) calMax

/-- Change one source. -/
def updSrc (c : Chip) (n : Src) (f : Source → Source) : Chip :=
  { c with flt := { c.flt with srcs := upd c.flt.srcs n f } }

/-- The client that EV00 and EV01 of a source go to (R455, R509). -/
def srcOwner (c : Chip) (n : Src) : Client :=
  match srcBlock n with
  | some (.obj i) => eventClient c i
  | _ => 0

/-- A source is asserted: its real condition or FORCE holds (R470). -/
def asserted (s : Source) (n : Src) : Bool := s.level || (isLevel n && s.force)

/-- The Bench decision at tick t (R478). -/
def benchDecision (c : Chip) (n : Src) (cause t : Nat) : Chip :=
  let f := { c.flt with cause := cause, causeSrc := n.val }
  if c.flt.benched then { c with flt := f }
  else
    notifyEnabled { c with
      flt := { f with benched := true, benchCount := wrapInc16 f.benchCount, safeTick := t }, benchNow := true } 2

/-- ALARMSTAT.PEND set, FIRSTSRC recorded if PEND was clear (Table 16-3). [DEDUCED: log 44] -/
def alarmPend (c : Chip) (n : Src) : Chip :=
  { c with flt := { c.flt with
      firstSrc := if c.flt.alarmPend then c.flt.firstSrc else n.val, alarmPend := true, alarmNow := true } }

/-- A source enters FATAL: the fixed effects of Table 16-3 and the Bench decision. [DEDUCED: log 44] -/
def enterFatal (c : Chip) (n : Src) (cause t : Nat) : Chip :=
  let c := updSrc c n (fun s => { s with st := .fatal, escrun := false })
  benchDecision (alarmPend c n) n cause t

/-- A source enters CONTAINED at tick t: its escalation timer starts (R461). -/
def enterContained (c : Chip) (n : Src) (t : Nat) : Chip :=
  updSrc c n (fun s => { s with st := .contained, escrun := true, deadline := t + polEsc (timeW c n) })

/-- Put a source into a state. -/
def enterState (c : Chip) (n : Src) (st : SrcSt) (t : Nat) : Chip :=
  match st with
  | .fatal => enterFatal c n 1 t
  | .contained => enterContained c n t
  | st => updSrc c n (fun s => { s with st := st, escrun := false })

/-- The reset-loop guard holds for a source (R477). [DEDUCED: log 16] -/
def loopGuard (c : Chip) (n : Src) (t : Nat) : Bool :=
  if c.pw.state = .boot then
    decide (c.pw.cause = 3 ∧ c.pw.causeSrc = n.val ∧ t < c.pw.causeTick + secTicks)
  else decide (c.pw.last = 3 ∧ c.pw.faultsrc = n.val ∧ t < c.pw.resettick + secTicks)

/-- CHIPRESET in the next tick (R476), or FATAL in its place (R477). -/
def applyChipReset (c : Chip) (n : Src) (t : Nat) (esc : Bool) : Chip :=
  if loopGuard c n t then
    (if c.flt.srcs[n].st = .fatal then c else enterFatal c n 4 t)
  else { c with chipReset := some (c.chipReset.getD { src := n, tick := t + 1, escalation := esc }) }

/-- BLOCKRESET of the source's block, to begin in the tick after its reaction (R465, R475, Table 16-4). -/
def applyBlockReset (c : Chip) (n : Src) (t : Nat) : Chip :=
  match srcBlock n with
  | some b => { c with blockResets := c.blockResets ++ [(b, t + 1)] }
  | none => c

/-- Apply a reaction set (Table 16-3): bits IRQ, ALARM, BLOCKRESET, CHIPRESET, PIN. [DEDUCED: log 44] -/
def applyReactions (c : Chip) (n : Src) (set t : Nat) (skipReset esc : Bool) : Chip :=
  let c := if set.testBit 0 then updSrc c n (fun s => { s with irqpend := true }) else c
  let c := if set.testBit 1 then
      { alarmPend c n with flt := { (alarmPend c n).flt with alarmCount := wrapInc16 c.flt.alarmCount } } else c
  let c := if set.testBit 4 then updSrc c n (fun s => { s with pinhold := true }) else c
  let c := if set.testBit 2 then applyBlockReset c n t else c
  if set.testBit 3 && !skipReset then applyChipReset c n t esc else c

/-- A reacting event (R459): UNACK, EV00 and REACT. -/
def reacting (c : Chip) (n : Src) (t : Nat) (skipReset : Bool) : Chip :=
  let c := updSrc c n (fun s => { s with unack := true, reacts := satInc16 s.reacts })
  applyReactions (notify c (srcOwner c n) 0) n (polReact (polW c n)) t skipReset false

/-- The reset-loop guard of Table 16-2 on an event of a source whose UNACK still stands from the event that caused the reset
(R477, R495; DEDUCED from the case of S418 in Chapter 16): an event that would carry CHIPRESET again puts it in FATAL.
[DEDUCED: log 16] -/
def guardedEvent (c : Chip) (n : Src) (t : Nat) (skip : Bool) : Option Chip :=
  if (polReact (polW c n)).testBit 3 && !skip && loopGuard c n t then some (enterFatal c n 4 t) else none

/-- The state of a class code (R456). -/
def classState (k : Nat) : SrcSt := if k ≤ 1 then .corrected else if k = 2 then .contained else .fatal

/-- The code of a state (R456). -/
def stCode (s : SrcSt) : Nat :=
  match s with
  | .ok => 0 | .corrected => 1 | .contained => 2 | .fatal => 3

/-- An event of an integrity source (Table 16-2). -/
def integrityEvent (c : Chip) (n : Src) (t : Nat) (skip : Bool) : Chip :=
  let s := c.flt.srcs[n]
  let cls := classState (polClass (polW c n))
  if s.st = .fatal then c
  else if s.st = cls then
    if s.unack then
      (guardedEvent c n t skip).getD (match s.st with
        | .corrected => notify (enterContained c n t) 0 5
        | .contained => notify (enterFatal c n 1 t) 0 5
        | _ => c)
    else reacting c n t skip
  else if stCode s.st < stCode cls then reacting (enterState c n cls t) n t skip
  else c

/-- An event of an environmental source (Table 16-2, R458): raised in tick r, processed in tick t. -/
def environmentalEvent (c : Chip) (n : Src) (r t : Nat) (skip : Bool) : Chip :=
  let w := polW c n
  if c.flt.srcs[n].st = .fatal then c
  else
    let c := updSrc c n (fun s =>
      if s.wcount = 0 ∨ s.winTick + polWin w ≤ r then { s with wcount := 1, winTick := r }
      else { s with wcount := min (s.wcount + 1) 255 })
    let s := c.flt.srcs[n]
    if polN w ≤ s.wcount then
      let c := updSrc c n (fun s => { s with wcount := 0 })
      if s.st = .contained then (if s.unack then (guardedEvent c n t skip).getD c else reacting c n t skip)
      else reacting (enterContained c n t) n t skip
    else if s.st = .ok then updSrc c n (fun s => { s with st := .corrected })
    else c

/-- The first-error capture at tick t (R467): taken while armed, else the event counts in LATER. -/
def captureEvent (c : Chip) (r : Raise) (t : Nat) : Chip :=
  let k := c.flt.cap
  if k.armed then
    notify { c with flt := { c.flt with cap :=
      { valid := true, armed := false, ev := r, unset := c.cal.unset, calsec := calSec c t, later := 0 } } } 0 4
  else { c with flt := { c.flt with cap := { k with later := satInc16 k.later } } }

/-- SOURCE_PROCESSING: one event is processed in tick t (R457, R466). The event that caused a chip reset is entered at
step C without a second count, and its CHIPRESET is the reset already taken (R495). -/
def processEvent (c : Chip) (t : Nat) (r : Raise) : Chip :=
  let n := r.src
  let c := if r.byReset then c else
    captureEvent (updSrc c n (fun s => { s with
      events := satInc32 s.events, last := r.tick, quiet := max s.quiet r.tick, forced := r.forced })) r t
  if r.countOnly then c
  else if isEnv n then environmentalEvent c n r.tick t r.byReset
  else integrityEvent c n t r.byReset

/-- Insert an event by source number, after those of the same source. -/
def insertRaise (r : Raise) (l : List Raise) : List Raise :=
  match l with
  | [] => [r]
  | x :: t => if r.src.val < x.src.val then r :: x :: t else x :: insertRaise r t

/-- Events in ascending source number (R465). -/
def sortRaises (l : List Raise) : List Raise := l.foldl (fun a r => insertRaise r a) []

/-- Process events in tick t in ascending source number (R465). [DEDUCED: log 15] -/
def processAll (c : Chip) (l : List Raise) (t : Nat) : Chip :=
  (sortRaises l).foldl (fun c r => processEvent c t r) c

/-- The collector runs: in the running states, and from the end of the image check on (R466, R486). -/
def collectorRuns (c : Chip) : Bool :=
  match c.pw.state with
  | .config | .minconfig | .run | .idle => true
  | .boot => c.pw.step = .dCold || c.pw.step = .dWarm
  | _ => false

/-- Hold an event for step C, at most one of a source (R495); a further one counts in EVENTS. -/
def holdEvent (c : Chip) (r : Raise) : Chip :=
  if c.flt.held.any (fun h => h.src = r.src) then
    updSrc c r.src (fun s => { s with events := satInc32 s.events })
  else { c with flt := { c.flt with held := c.flt.held ++ [r] } }

/-- Process the events held over a reset or an early BOOT in the first tick of step C (R495). -/
def processHeld (c : Chip) : Chip :=
  processAll { c with flt := { c.flt with held := [] } } c.flt.held c.tick

/-- The collector's part of a warm reset (R485). [DEDUCED: log 17] -/
def collectorReset (c : Chip) : Chip :=
  { c with flt := { c.flt with
      srcs := c.flt.srcs.map (fun s => { s with
        st := .ok, unack := false, irqpend := false, pinhold := false, escrun := false, escalated := false,
        forced := false, force := false, level := false, wcount := 0 }),
      alarmPend := false, resets := [], mismatch := false } }

/-- Acknowledge one source (R463). -/
def ackSource (s : Source) : Source := { s with unack := false, irqpend := false, escrun := false }

/-- The escalation deadline of a source (R461, Table 16-2): ESCREACT, and FATAL with ESCFATAL. v is the part at the start of the tick:
an acknowledgement of the deadline tick takes effect in the next one (R463). [DEDUCED: log 44] -/
def escalate (v c : Chip) (n : Src) : Chip :=
  let s := c.flt.srcs[n]
  if s.st = .contained ∧ v.flt.srcs[n].escrun = true ∧ s.deadline ≤ c.tick ∧ collectorRuns c = true then
    let late := !s.escrun
    let c := updSrc c n (fun s => { s with escrun := false, escalated := true, unack := true })
    let c := notify (notify c (srcOwner c n) 0) 0 5
    let w := polW c n
    let c := applyReactions c n (polEscReact w) c.tick false true
    let c := if bit w 60 && !decide (c.flt.srcs[n].st = .fatal) then enterFatal c n 3 c.tick else c
    if late then updSrc c n ackSource else c
  else c

/-- The end of a quiet period (R464): the source returns to OK; a new event in the tick of return cancels it. -/
def quietEnd (c : Chip) (n : Src) : Chip :=
  let s := c.flt.srcs[n]
  if (s.st = .corrected ∨ s.st = .contained) ∧ asserted s n = false ∧ s.quiet + polQuiet (timeW c n) ≤ c.tick
      ∧ c.raised.any (fun r => r.src = n) = false ∧ collectorRuns c = true then
    let c1 := updSrc c n (fun s => { s with
      st := .ok, unack := false, pinhold := false, escalated := false, escrun := false, recov := satInc16 s.recov })
    if s.st = .contained then notify c1 (srcOwner c n) 1 else c1
  else c

/-- The end of a counting window (R458). -/
def windowEnd (c : Chip) (n : Src) : Chip :=
  let s := c.flt.srcs[n]
  if s.wcount ≠ 0 ∧ s.winTick + polWin (polW c n) ≤ c.tick ∧ collectorRuns c = true then
    updSrc c n (fun s => { s with wcount := 0 })
  else c

/-- Set or clear FORCE (R470): a change from 0 to 1 raises one forced event r. -/
def setForce (c : Chip) (n : Src) (b : Bool) (r : Raise) : Chip :=
  let s := c.flt.srcs[n]
  let c1 := updSrc c n (fun s => { s with force := b, quiet := if s.force && !b && isLevel n then max s.quiet c.tick else s.quiet })
  if b && !s.force then raiseR c1 { r with forced := true } else c1

/-- A mismatch of the collector's copies (R482): S511 FATAL and the Bench decision in the same tick, no policy applied. -/
def selfCheck (c : Chip) : Chip :=
  let n : Src := 511
  let c := if c.flt.mismatch then c else { c with flt := { c.flt with mismatch := true } }
  let c := updSrc c n (fun s => { s with events := satInc32 s.events, last := c.tick, level := true, quiet := max s.quiet c.tick, forced := false })
  let c := captureEvent c (evN c n) c.tick
  if c.flt.srcs[n].st = .fatal then c else enterFatal c n 2 c.tick

/-- Any source satisfies a test. -/
def anySrc (c : Chip) (p : Source → Bool) : Bool := c.flt.srcs.toList.any p
/-- The number of sources that satisfy a test. -/
def countSrc (c : Chip) (p : Source → Bool) : Nat := c.flt.srcs.toList.countP p
/-- The lowest-numbered source that satisfies a test. -/
def lowSrc (c : Chip) (p : Source → Bool) : Option Nat :=
  let i := c.flt.srcs.toList.findIdx p
  if i < 512 then some i else none

/-- A source is FATAL (FATALHOLD, FATALHELD). -/
def anyFatal (c : Chip) : Bool := anySrc c (fun s => s.st = .fatal)

/-- The conditions of the status balls (R460). -/
def ballsNow (c : Chip) : Balls :=
  { irq := anySrc c (fun s => s.irqpend) || (allFin 16).any (fun k => (c.flt.evtstat[k] &&& c.flt.evtmask[k]) != 0),
    alarm := c.flt.alarmPend || anyFatal c,
    fault := c.flt.benched || anySrc c (fun s => s.pinhold) }

/-- A tick passes in the delay of 3 ticks between a condition and its ball (Table 16-4). -/
def noteBalls (c : Chip) : Chip :=
  { c with flt := { c.flt with balls3 := c.flt.balls2, balls2 := c.flt.balls1, balls1 := ballsNow c } }

/-- The level of nIRQ, nALARM and nFAULT in every state (R165, R460, Tables 6-4, 16-4): true is low; none: unpowered. -/
def statusBalls (c : Chip) : Option Balls :=
  match c.pw.state with
  | .off => if c.pw.vdd then some { irq := false, alarm := false, fault := true } else none
  | .backup => none
  | .boot => some { irq := false, alarm := false, fault := true }
  | _ => some c.flt.balls3

end Sys2Proof.Machine
end

