-- ==== Sys2Proof/Machine/CalTime.lean ====
section
/-! DEFINITION. The Gregorian calendar of chapter 5: conversion, presentation and the calendar write. -/

namespace Sys2Proof.Machine

/-- A leap year (R147). -/
def isLeap (y : Nat) : Bool := y % 4 = 0 && (y % 100 ≠ 0 || y % 400 = 0)

/-- The days of a month (R147). -/
def monthDays (y m : Nat) : Nat :=
  if m = 2 then (if isLeap y then 29 else 28)
  else if m = 4 ∨ m = 6 ∨ m = 9 ∨ m = 11 then 30 else 31

/-- Days from 2000-01-01 to the first day of year y. -/
def daysToYear (y : Nat) : Nat :=
  let n := y - 2000
  365 * n + (n + 3) / 4 - (n + 99) / 100 + (n + 399) / 400

/-- Days from the first of January to the first of month m. -/
def daysToMonth (y m : Nat) : Nat :=
  ((List.range (m - 1)).map (fun i => monthDays y (i + 1))).sum

/-- CALSEC of a date and time (R146, R147). -/
def secOf (y m d h mi s : Nat) : Nat :=
  (daysToYear y + daysToMonth y m + (d - 1)) * 86400 + h * 3600 + mi * 60 + s

/-- The year of a day number: the last year of 2000..2399 that starts on or before it. -/
def yearOfDay (day : Nat) : Nat :=
  let g := 2000 + day / 366
  if daysToYear (g + 1) ≤ day then (if daysToYear (g + 2) ≤ day then g + 2 else g + 1) else g

/-- Month and day within a year. -/
def monthOf (y : Nat) (fuel m rest : Nat) : Nat × Nat :=
  match fuel with
  | 0 => (m, rest + 1)
  | k + 1 => if rest < monthDays y m then (m, rest + 1) else monthOf y k (m + 1) (rest - monthDays y m)

/-- Year, month, day and weekday of a day number (R147). -/
def dateOf (day : Nat) : Nat × Nat × Nat × Nat :=
  let y := yearOfDay day
  let md := monthOf y 11 1 (day - daysToYear y)
  (y, md.1, md.2, (day + 5) % 7)

/-- SUBSEC at a tick (R146, R148). -/
def calSub (c : Chip) (t : Nat) : Nat :=
  if c.cal.endhold ∨ calMax < calV c t / secTicks then secTicks - 1 else calV c t % secTicks

/-- CALDATE (Table 5-4). -/
def caldateWord (c : Chip) : Word :=
  let s := calSec c c.tick
  let dt := dateOf (s / 86400)
  let r := s % 86400
  pack [(52, 12, dt.1), (48, 4, dt.2.1), (43, 5, dt.2.2.1), (40, 3, dt.2.2.2), (32, 5, r / 3600), (24, 6, r % 3600 / 60),
    (16, 6, r % 60)]

/-- CALTIME (Table 5-5). -/
def caltimeWord (c : Chip) : Word :=
  let r := calSec c c.tick % 86400
  pack [(56, 5, r / 3600), (48, 6, r % 3600 / 60), (40, 6, r % 60), (0, 28, calSub c c.tick)]

/-- CALSTAT (Table 5-7). -/
def calstatWord (c : Chip) : Word :=
  let k := c.cal
  pack [(63, 1, b2n k.unset), (62, 1, b2n k.endhold), (61, 1, b2n k.stage.isSome), (60, 1, b2n k.badwrite),
    (56, 4, k.cause), (32, 16, k.badcount), (16, 16, k.wrcount)]

/-- The words of the calendar region (Table 5-6). -/
def calWord (c : Chip) (off : Nat) : Word :=
  match off with
  | 0x00 => calstatWord c
  | 0x08 => w64 (calSec c c.tick)
  | 0x10 => c.cal.offset
  | 0x18 => w64 c.cal.wrTick
  | 0x20 => (match c.cal.stage with
      | some (y, m, d) => pack [(52, 12, y), (48, 4, m), (43, 5, d)]
      | none => 0)
  | 0x28 => pack [(63, 1, b2n c.pw.lfclk), (0, 4, if c.pw.lfclk then c.pw.frac else 0)]
  | _ => 0

/-- Stage a date (R150): nothing is checked. -/
def stageDate (c : Chip) (w : Word) : Chip :=
  { c with cal := { c.cal with stage := some (fld w 63 52, fld w 51 48, fld w 47 43) } }

/-- The CAUSE with which a calendar write is refused, 0 if it is accepted (Table 5-2). -/
def calCheck (stage : Option (Nat × Nat × Nat)) (w : Word) : Nat :=
  match stage with
  | none => 8
  | some (y, m, d) =>
    if y < 2000 ∨ 2399 < y then 1
    else if m = 0 ∨ 12 < m then 2
    else if d = 0 ∨ monthDays y m < d then 3
    else if 23 < fld w 60 56 then 4
    else if 59 < fld w 53 48 then 5
    else if 59 < fld w 45 40 then 6
    else if secTicks ≤ fld w 27 0 then 7
    else 0

/-- CALOFFSET of an accepted write at tick t (R151). -/
def calOffset (stage : Option (Nat × Nat × Nat)) (w : Word) (t : Nat) : Word :=
  match stage with
  | none => 0
  | some (y, m, d) =>
    w64i ((secOf y m d (fld w 60 56) (fld w 53 48) (fld w 45 40) * secTicks + fld w 27 0 : Nat) - (t : Int))

/-- A calendar write by master m (R151, R152). -/
def calendarWrite (c : Chip) (m : Mid) (w : Word) (cl : Option Client) : Chip :=
  let k := calCheck c.cal.stage w
  if k = 0 then
    { c with cal := { c.cal with
        offset := calOffset c.cal.stage w c.tick, wrTick := c.tick, unset := false, endhold := false, badwrite := false,
        cause := 0, wrcount := wrapInc16 c.cal.wrcount, stage := none } }
  else
    raiseR { c with cal := { c.cal with
        badwrite := true, cause := k, badcount := satInc16 c.cal.badcount, stage := none } }
      (evAt c 25 m.val accCommit 1 0x0E0 cl)

/-- The calendar reaches its end and holds (R148). -/
def calendarEnd (c : Chip) : Chip :=
  if c.cal.endhold = false ∧ calMax < calV c c.tick / secTicks ∧ c.pw.state ≠ .off then
    countN { c with cal := { c.cal with endhold := true } } 26
  else c

end Sys2Proof.Machine
end

