-- ==== Sys2Proof/Machine/FixMath.lean ====
section
/-! DEFINITION. Fixed-point arithmetic on integers: rounding (R12), square roots, sines, arctangents and saturation. -/

namespace Sys2Proof.Machine

/-- a / b rounded to nearest, ties away from zero (R12). -/
def rdiv (a : Int) (b : Nat) : Int :=
  if 0 ≤ a then (2 * a + b) / (2 * b) else -((-2 * a + b) / (2 * b))

/-- The largest integer k with k ≤ a / b. -/
def fdiv (a : Int) (b : Nat) : Int := a / (b : Int)

/-- The least integer k with a / b ≤ k. -/
def cdiv (a : Int) (b : Nat) : Int := -((-a) / (b : Int))

/-- The integer square root of a number below 2^192. -/
def isqrt (n : Nat) : Nat :=
  ((List.range 96).reverse).foldl (fun r k => if (r + 2 ^ k) * (r + 2 ^ k) ≤ n then r + 2 ^ k else r) 0

/-- Saturate to lo ≤ x ≤ hi. -/
def clampI (lo hi x : Int) : Int := max lo (min hi x)

/-- Saturate to the n-bit two's complement range. -/
def clampS (n : Nat) (x : Int) : Int := clampI (-(2 ^ (n - 1) : Nat)) ((2 ^ (n - 1) : Nat) - 1) x

/-- 2π in units of 2^-80. -/
def twoPi80 : Int := 7595904947272677161575987

/-- The angle x, in 2^-48 turn, reduced to [-1/2, 1/2) turn. -/
def wrapHalf (x : Int) : Int := (x + 2 ^ 47) % 2 ^ 48 - 2 ^ 47

/-- One term of a power series of sine or cosine at 2^-80: the next term from a term, by -y² / (a (a + 1)). -/
def serTerm (y2 t : Int) (a : Nat) : Int := -(t * y2) / (2 ^ 80 * ((a : Int) * (a + 1)))

/-- A series from its first term: the terms' divisors begin at a0 and rise by 2. -/
def series (y2 t0 : Int) (a0 : Nat) : Int :=
  ((List.range 24).foldl (fun p k => let t := serTerm y2 p.1 (a0 + 2 * k); (t, p.2 + t)) (t0, t0)).2

/-- sin 2πx at 2^-60, x in 2^-48 turn. -/
def sinTurn (x : Int) : Int :=
  let y := wrapHalf x * twoPi80 / 2 ^ 48
  rdiv (series (y * y / 2 ^ 80) y 2) (2 ^ 20)

/-- cos 2πx at 2^-60, x in 2^-48 turn. -/
def cosTurn (x : Int) : Int :=
  let y := wrapHalf x * twoPi80 / 2 ^ 48
  rdiv (series (y * y / 2 ^ 80) (2 ^ 80) 1) (2 ^ 20)

/-- arctan 2^-i in 2^-64 turn, i = 0 to 23. -/
def atanTableLow : List Int :=
  [2305843009213693952, 1361218612134873190, 719230530580881038, 365092647525521947, 183254791493294829,
   91716730292036216, 45869556482713130, 22936177926750895, 11468263948075831, 5734153847876408, 2867079658191483,
   1433540170878135, 716770128161890, 358385069421298, 179192535378193, 89596267772540, 44798133896700, 22399066949654,
   11199533474990, 5599766737515, 2799883368760, 1399941684380, 699970842190, 349985421095]

/-- arctan 2^-i in 2^-64 turn, i = 24 to 47. -/
def atanTableHigh : List Int :=
  [174992710548, 87496355274, 43748177637, 21874088818, 10937044409, 5468522205, 2734261102, 1367130551, 683565276,
   341782638, 170891319, 85445659, 42722830, 21361415, 10680707, 5340354, 2670177, 1335088, 667544, 333772, 166886,
   83443, 41722, 20861]

/-- One CORDIC rotation toward the positive x axis: (shift, x, y, angle). -/
def cordicStep (p : Nat × Int × Int × Int) (a : Int) : Nat × Int × Int × Int :=
  let i := p.1
  let x := p.2.1
  let y := p.2.2.1
  let z := p.2.2.2
  if 0 ≤ y then (i + 1, x + y / 2 ^ i, y - x / 2 ^ i, z + a)
  else (i + 1, x - y / 2 ^ i, y + x / 2 ^ i, z - a)

/-- atan2(s, c) in 2^-48 turn, in [0, 1) turn, to about 2^-44 turn. -/
def atanTurn (s c : Int) : Int :=
  if s = 0 ∧ c = 0 then 0
  else
    let neg : Bool := decide (c < 0)
    let x := (if neg then -c else c) * 2 ^ 48
    let y := (if neg then -s else s) * 2 ^ 48
    let z := ((atanTableLow ++ atanTableHigh).foldl cordicStep (0, x, y, 0)).2.2.2
    rdiv (z + if neg then 2 ^ 63 else 0) (2 ^ 16) % 2 ^ 48

end Sys2Proof.Machine
end

