-- ==== Sys2Proof/Machine/Excite.lean ====
section
/-! DEFINITION. Excitation generators (chapter 7): soft starts, limits, thermal behaviour, VEXC. -/

namespace Sys2Proof.Machine

/-- Change a generator. -/
def updExc (c : Chip) (g : Fin 4) (f : Exc → Exc) : Chip := { c with exc := upd c.exc g f }
/-- Address of EXCCFG (Table 7-6). -/
def excAddr (g : Fin 4) : Nat := 0x400 + 0x40 * g.val
/-- EXCCFG in force. -/
def excCfg (c : Chip) (g : Fin 4) : Word := act c (excAddr g)
/-- EXCCFG.EN (Table 7-6). -/
def excEn (w : Word) : Bool := bit w 63
/-- EXCCFG.AMPL. -/
def excAmpl (w : Word) : Nat := fld w 47 32
/-- EXCCFG.PERIOD. -/
def excPeriod (w : Word) : Nat := fld w 16 0

/-- Address of channel n (R236). -/
def chBase (n : Fin 16) : Nat := objBase (.ch n)
/-- FECFG in force (Table 7-9). -/
def fecfg (c : Chip) (n : Fin 16) : Word := act c (chBase n)
/-- FECFG.FEEN. -/
def feEn (w : Word) : Bool := bit w 63
/-- FECFG.SRC. -/
def feSrc (w : Word) : Nat := fld w 57 56
/-- FECFG.SATK. -/
def feSatk (w : Word) : Fin 4 := ⟨fld w 55 54 % 4, Nat.mod_lt _ (by decide)⟩
/-- FECFG.SATM. -/
def feSatm (w : Word) : Fin 4 := ⟨fld w 53 52 % 4, Nat.mod_lt _ (by decide)⟩
/-- FECFG.EXCSEL. -/
def feExc (w : Word) : Fin 4 := ⟨fld w 51 50 % 4, Nat.mod_lt _ (by decide)⟩

/-- EXCSTAT.USERS: channels with FEEN 1 in force that name the generator (Table 7-7). -/
def excUsers (c : Chip) (g : Fin 4) : Nat :=
  (allFin 16).countP (fun n => feEn (fecfg c n) && feExc (fecfg c n) = g)

/-- EXCSTAT (Table 7-7). -/
def excstatWord (c : Chip) (g : Fin 4) : Word :=
  let x := c.exc[g]
  pack [(63, 1, b2n x.ready), (62, 1, b2n (x.softstart && decide (x.softAt ≤ c.tick))), (61, 1, b2n x.limit), (60, 1, b2n x.foldback),
    (59, 1, b2n x.thermoff), (58, 1, b2n x.drvoff), (32, 16, x.ampmeas), (24, 8, excUsers c g), (16, 8, x.temp)]

/-! ### The carrier (R201, R203) -/

/-- The carrier's phase in tick t, in 2^-48 turn: 0 at a rising zero crossing (R201). -/
def carrierPhase (c : Chip) (g : Fin 4) (t : Nat) : Nat :=
  let x := c.exc[g]
  if x.zero ≤ t then (t - x.zero) % excPeriod (excCfg c g) * 2 ^ 48 / excPeriod (excCfg c g)
  else (t - x.zero0) % x.per0 * 2 ^ 48 / x.per0

/-- The first rising zero crossing after tick t (R201); the carrier may change its period at one that lies ahead (R203). -/
def nextRise (x : Exc) (period t : Nat) : Nat :=
  if t < x.zero then x.zero else x.zero + ((t - x.zero) / period + 1) * period

/-- The last rising zero crossing up to tick t (R201). -/
def lastRise (x : Exc) (period t : Nat) : Nat := x.zero + (t - x.zero) / period * period

/-- The first zero crossing, rising or falling, after tick t (Table 7-1). -/
def nextZero (x : Exc) (period t : Nat) : Nat :=
  if t < x.zero then x.zero else x.zero + (2 * (t - x.zero) / period + 1) * period / 2

/-- A generator's carrier runs in tick t. -/
def excRunning (x : Exc) (t : Nat) : Bool :=
  x.ready || x.softstart || x.thermoff || (match x.stopAt with | some e => decide (t < e) | none => false)

/-- The amplitude in tick t under EXCCFG w, in mVp-p: AMPL, or where its linear move over 16 periods stands (R203). -/
def excLevel (x : Exc) (w : Word) (t : Nat) : Nat :=
  let d := 16 * excPeriod w
  let k := min (t - x.zero) d
  if x.ready then excAmpl w else if x.softstart && !x.thermoff then (x.rampFrom * (d - k) + excAmpl w * k) / d else 0

/-- A soft start begins at the next rising zero crossing (R203); old is EXCCFG in force before. Of a carrier that does not run the
crossing comes within one period; where, the spec leaves open. [DESIGN CHOICE: log 60] -/
def excStart (c : Chip) (g : Fin 4) (old : Word) : Chip :=
  let x := c.exc[g]
  let p := drawFree c
  let run := excRunning x c.tick
  let z := if run then nextRise x (excPeriod old) c.tick else c.tick + 1 + Config.freeValue p.1 % excPeriod (excCfg c g)
  updExc p.2 g (fun x => { x with
    ready := false, softstart := true, everReady := false, stopAt := none, clipRun := 0, badRun := 0,
    rampFrom := excLevel x old c.tick, softAt := if x.ready || x.softstart then c.tick else z, zero := z,
    zero0 := if c.tick < x.zero then x.zero0 else x.zero,
    per0 := if run then (if c.tick < x.zero then x.per0 else excPeriod old) else 0 })

/-- The soft start after BOOT or a wake, for each generator whose EN is 1 in force (R203). -/
def excStartAll (c : Chip) : Chip :=
  (allFin 4).foldl (fun c g => if excEn (excCfg c g) then excStart c g (excCfg c g) else c) c

/-- The state of a generator whose output is off (Table 6-4, R15). [DESIGN CHOICE: log 18] -/
def excOff : Exc :=
  { ready := false, softstart := false, limit := false, foldback := false, thermoff := false, drvoff := false,
    everReady := false, ampmeas := 0, temp := 0, zero := 0, zero0 := 0, per0 := 0, rampFrom := 0, softAt := 0, stopAt := none, sens := 0,
    readyTick := 0, clipRun := 0, badRun := 0 }

/-- The target amplitude in 1/100 mVp-p at full drive: AMPL, or the folded-back amplitude (Table 7-1). -/
def excTarget (c : Chip) (g : Fin 4) : Nat :=
  let a := excAmpl (excCfg c g)
  let t : Nat := c.exc[g].temp - 50
  if c.exc[g].foldback then a * (100 - 5 * (min t 165 - 150)) else a * 100

/-- The amplitude during the linear rise or move over 16 carrier periods (R203), in 1/100 mVp-p. -/
def excRamp (c : Chip) (g : Fin 4) : Nat :=
  let x := c.exc[g]
  let d := 16 * excPeriod (excCfg c g)
  let k := min (c.tick - x.zero) d
  (100 * x.rampFrom * (d - k) + excTarget c g * k) / d

/-- The amplitude while it falls to zero over the 16 periods up to the end of the output (R203), in 1/100 mVp-p. -/
def excFall (x : Exc) (t period : Nat) : Nat :=
  match x.stopAt with
  | some e => 100 * x.rampFrom * min (e - t) (16 * period) / (16 * period)
  | none => 0

/-- What a generator's balls do (R163, R201, R203, R206, Table 6-4). -/
def excOut (c : Chip) (g : Fin 4) : ExcOut :=
  let x := c.exc[g]
  if unpowered c then .unpowered
  else if x.drvoff then .zero
  else if x.ready then .drives (excTarget c g)
  else if x.softstart then .drives (excRamp c g)
  else match x.stopAt with
    | some e => if c.tick < e then .drives (if x.thermoff then excTarget c g else excFall x c.tick (excPeriod (excCfg c g))) else .zero
    | none => .zero

/-- APPLY checks of a generator, 0 if none refuses (R202). -/
def excCheck (c : Chip) (g : Fin 4) : Nat :=
  let w := stg c (excAddr g)
  if excEn w && !decide (8000 ≤ excPeriod w ∧ excPeriod w ≤ 80000 ∧ 2000 ≤ excAmpl w ∧ excAmpl w ≤ 14000) then 0x0406
  else if 0 < excUsers c g then 0x0401
  else 0

/-- What an APPLY of a generator does beside writing the configuration (R203); old is EXCCFG in force before. [DEDUCED: log 38] -/
def excApplied (c : Chip) (g : Fin 4) (old : Word) : Chip :=
  let w := excCfg c g
  if excEn w then
    (if excEn old && excPeriod w = excPeriod old && excAmpl w = excAmpl old then c else excStart c g old)
  else if excRunning c.exc[g] c.tick then
    updExc c g (fun x => { x with
      ready := false, softstart := false, everReady := false, rampFrom := excLevel x old c.tick,
      stopAt := some (nextRise x (excPeriod old) c.tick + 16 * excPeriod old) })
  else updExc c g (fun x => { x with ready := false, softstart := false, everReady := false })

/-- GENERATOR_READY (R203): the sixteenth period of the ramp has ended; amp is the sensed amplitude. -/
def generatorReady (c : Chip) (g : Fin 4) (amp : Nat) : Chip :=
  let x := c.exc[g]
  if excEn (excCfg c g) && x.softstart && !x.thermoff && serving c &&
      decide (x.zero + 16 * excPeriod (excCfg c g) ≤ c.tick) then
    updExc { c with flt := { c.flt with resets := c.flt.resets.filter (fun r => r.1 ≠ .exc g) } } g (fun x =>
      { x with ready := true, softstart := false, everReady := true, ampmeas := amp % 65536, readyTick := c.tick })
  else c

/-- GENERATOR_THERMAL (R205, Table 7-1): TDRV in °C. -/
def generatorThermal (c : Chip) (g : Fin 4) (t : Int) : Chip :=
  if serving c then
    let x := c.exc[g]
    let fold := decide (150 ≤ t)
    let off := if x.thermoff then decide (140 ≤ t) else decide (170 ≤ t)
    let c := updExc c g (fun x => { x with temp := (clampI 0 255 (t + 50)).toNat, foldback := fold, thermoff := off })
    let c := if fold && !x.foldback then countB c (16 + g.val) else c
    let c := if off && !x.thermoff then
        countB (updExc c g (fun y => { y with
          ready := false, softstart := false,
          stopAt := if excRunning x c.tick then some (nextZero x (excPeriod (excCfg c g)) c.tick) else none })) (16 + g.val)
      else c
    if x.thermoff && !off && excEn (excCfg c g) then excStart c g (excCfg c g) else c
  else c

/-- GENERATOR_LIMIT (R204, R205, Table 7-1): one carrier period's clipping and the waveform sensed at the balls, its amplitude, which
AMPMEAS reports also while the output ramps down or is off, and its phase against the count. The readback is judged while the
generator is READY; a period in which it is not restarts the run: the spec names no such gate. [DESIGN CHOICE: log 64] -/
def generatorLimit (c : Chip) (g : Fin 4) (clip : Bool) (amp : Nat) (sens : Int) : Chip :=
  let c := if serving c then updExc c g (fun x => { x with sens := clampS 16 sens }) else c
  let x := c.exc[g]
  if serving c && x.drvoff then updExc c g (fun x => { x with ampmeas := amp % 65536 })
  else if serving c then
    let cr := if clip then x.clipRun + 1 else 0
    let tgt := excTarget c g
    let a := 100 * (amp % 65536)
    let bad := x.ready && (decide (100 * a > 105 * tgt) || decide (100 * a < 95 * tgt))
    let br := if bad then x.badRun + 1 else 0
    let c := updExc c g (fun x => { x with
      limit := clip, ampmeas := amp % 65536, clipRun := if cr = 8 then 0 else cr, badRun := if br = 16 then 0 else br })
    let c := if cr = 8 then countB c (16 + g.val) else c
    if br = 16 then countB c (20 + g.val) else c
  else c

/-- VEXC_MONITOR (Table 7-1, R553): VEXC below its monitor threshold asserts S024. -/
def vexcMonitor (c : Chip) (low : Bool) : Chip :=
  let c := { c with pw := { c.pw with vexcLow := low } }
  if serving c then levelN c 24 low else c

/-- The block reset of a generator (Table 16-7): output off, soft start, until READY. -/
def excBlockReset (c : Chip) (g : Fin 4) : Chip :=
  let c := updExc c g (fun x => { excOff with temp := x.temp, drvoff := x.drvoff })
  if excEn (excCfg c g) then excStart c g (excCfg c g)
  else { c with flt := { c.flt with resets := c.flt.resets.filter (fun r => r.1 ≠ .exc g) } }

end Sys2Proof.Machine
end

