-- ==== Sys2Proof/Machine/Frontend.lean ====
section
/-! DEFINITION. The channels' front ends (chapter 7): pairs, supervision, phase compensation, self-calibration, CALIBRATE,
DISCOVER and presence checks. -/

namespace Sys2Proof.Machine

/-- Change a channel's front end. -/
def updFe (c : Chip) (n : Fin 16) (f : Fe → Fe) : Chip := { c with fe := upd c.fe n f }
/-- Change a channel's tracking. -/
def updTrk (c : Chip) (n : Fin 16) (f : Trk → Trk) : Chip := { c with trk := upd c.trk n f }
/-- Change a satellite position. -/
def updSat (c : Chip) (k : Fin 4) (f : Sat → Sat) : Chip :=
  { c with link := { c.link with sats := upd c.link.sats k f } }

/-- FELIMITS in force (Table 7-14). -/
def felimits (c : Chip) (n : Fin 16) : Word := act c (chBase n + 8)
/-- LOSSLEVEL, Q0.16; 0 means 0x4000. -/
def lossLevel (c : Chip) (n : Fin 16) : Nat := let v := fld (felimits c n) 63 48; if v = 0 then 0x4000 else v
/-- LOSSTIME in pairs; 0 means 16. -/
def lossTime (c : Chip) (n : Fin 16) : Nat := let v := fld (felimits c n) 47 40; if v = 0 then 16 else v
/-- OPENLIM in 1/16 Ω; 0 means 20 000 Ω. -/
def openLim (c : Chip) (n : Fin 16) : Nat := let v := fld (felimits c n) 39 20; 16 * (if v = 0 then 20000 else v)
/-- SHORTLIM in 1/16 Ω; 0 means 2 Ω. -/
def shortLim (c : Chip) (n : Fin 16) : Nat := let v := fld (felimits c n) 19 0; if v = 0 then 32 else v
/-- FENOM in force (Table 7-8). -/
def fenom (c : Chip) (n : Fin 16) : Word := act c (chBase n + 0x10)

/-- The channel maps to a satellite (R210). -/
def onSat (c : Chip) (n : Fin 16) : Bool := feSrc (fecfg c n) = 1
/-- The carrier period of the channel's generator. -/
def chPeriod (c : Chip) (n : Fin 16) : Nat := excPeriod (excCfg c (feExc (fecfg c n)))
/-- The channel's reference, generator or satellite buffer, is ready (R210, R224, R226). -/
def refReady (c : Chip) (n : Fin 16) : Bool :=
  if onSat c n then c.link.sats[feSatk (fecfg c n)].bufready else c.exc[feExc (fecfg c n)].ready
/-- The tick at which the reference became ready. -/
def refTick (c : Chip) (n : Fin 16) : Nat :=
  if onSat c n then c.link.sats[feSatk (fecfg c n)].readyTick else c.exc[feExc (fecfg c n)].readyTick
/-- The reference amplitude, mVp-p (R216). -/
def refAmp (c : Chip) (n : Fin 16) : Nat :=
  if onSat c n then c.link.sats[feSatk (fecfg c n)].ampmeas else c.exc[feExc (fecfg c n)].ampmeas

/-- A block reset of the block is in progress (R475). -/
def inReset (c : Chip) (b : Block) : Bool := c.flt.resets.any (fun r => r.1 = b)

/-- The tick in which a block's reset began, or this tick (R475). -/
def resetTick (c : Chip) (b : Block) : Nat :=
  match c.flt.resets.find? (fun r => r.1 = b) with
  | some r => r.2
  | none => c.tick

/-- The front end runs (R218, Table 3-3). -/
def feRunning (c : Chip) (n : Fin 16) : Bool :=
  feEn (fecfg c n) && (inConfig c || c.pw.state = .run) && !inReset c (.obj (ixCh n)) &&
  decide ((ownE c (ixCh n)).st ≠ .draining) && decide ((ownE c (ixCh n)).st ≠ .scrubbing)

/-- Signal supervision is suspended (R217): the reference, generator or satellite buffer (R210), has not been READY since its last APPLY
or start, among others. -/
def feSuspended (c : Chip) (n : Fin 16) : Bool :=
  !feRunning c n ||
  (if onSat c n then !c.link.sats[feSatk (fecfg c n)].everReady else !c.exc[feExc (fecfg c n)].everReady)

/-- The expected pin ratio as a fraction (R216). -/
def expRatio (c : Chip) (n : Fin 16) : Nat × Nat :=
  let d := c.fe[n].discres
  let nom := fld (fenom c n) 63 48
  if fld d 63 61 = 4 then (fld d 47 32, 16384) else if nom ≠ 0 then (nom, 16384) else (1, 10)

/-- The magnitude is below LOSSLEVEL times the expected magnitude (R216): full scale 2^31 stands for 3600 mVp-p.
[DEDUCED: log 38] -/
def lowSignal (c : Chip) (n : Fin 16) (mag : Nat) : Bool :=
  let r := expRatio c n
  decide (mag * 3600 * 65536 * r.2 < lossLevel c n * refAmp c n * r.1 * 2 ^ 31)

/-- The magnitude differs from the expected magnitude by more than 25 % (R216). -/
def mismatched (c : Chip) (n : Fin 16) (mag : Nat) : Bool :=
  let r := expRatio c n
  let m := mag * 3600 * r.2
  let e := refAmp c n * r.1 * 2 ^ 31
  decide (4 * m < 3 * e) || decide (4 * m > 5 * e)

/-! ### Pairs -/

/-- The hop of a channel's satellite in link latencies; 0 for a local channel (R23, R247). -/
def chHop (c : Chip) (n : Fin 16) : Nat :=
  if onSat c n then (match c.link.sats[feSatk (fecfg c n)].hop with | some h => h.val + 1 | none => 0) else 0

/-- The pairs of the last period ticks up to stamp, a new one in front. -/
def pushWindow (l : List (Pair × Nat)) (p : Pair × Nat) (period : Nat) : List (Pair × Nat) :=
  p :: l.filter (fun q => decide (p.1.stamp < q.1.stamp + period))

/-- The weighted mean of the magnitudes over the most recent half period (R216); none where every weight is zero.
[DEDUCED: log 38] -/
def meanMag (l : List (Pair × Nat)) (stamp period : Nat) : Option Nat :=
  let h := l.filter (fun q => decide (stamp < q.1.stamp + period / 2) || decide (q.1.stamp = stamp))
  let w := (h.map (fun q => q.1.w)).sum
  if w = 0 then none else some ((h.map (fun q => q.1.w * q.2)).sum / w)

/-- DISCOVERY.ATTN from the field, the class last committed and MISMATCH (R233); a warm reset keeps it (R237) until one of the three is
next set. [DEDUCED: log 38] -/
def noteAttn (c : Chip) (n : Fin 16) : Chip := updFe c n (fun f => { f with attn := f.field ≠ f.discClass || f.mismatch })

/-- Supervision of one pair (R216): runs of low and other pairs, SIGOK and SIGLOSS. [DEDUCED: log 38] -/
def supervise (c : Chip) (n : Fin 16) : Chip :=
  let f := c.fe[n]
  let low := lowSignal c n f.magnitude
  let lr := if low then f.lowRun + 1 else 0
  let okr := if low then 0 else f.okRun + 1
  let t := lossTime c n
  let c := noteAttn (updFe c n (fun f => { f with
    lowRun := min lr 65535, okRun := min okr 65535, mismatch := mismatched c n f.magnitude })) n
  if t ≤ lr then levelB (updFe c n (fun f => { f with sigok := false })) (96 + 8 * n.val) true
  else if t ≤ okr then levelB (updFe c n (fun f => { f with sigok := true })) (96 + 8 * n.val) false
  else c

/-- Clips on two consecutive pairs (R208): S097 + 8n counts once for a run of clipped pairs, at its second; the spec does not say how
often a longer run counts. [DESIGN CHOICE: log 64] -/
def clipCheck (c : Chip) (n : Fin 16) (clip : Bool) : Chip :=
  let f := c.fe[n]
  let now := clip && f.clipPrev
  let c1 := updFe c n (fun f => { f with clip := now, clipPrev := clip })
  if now && !f.clip then countB c1 (97 + 8 * n.val) else c1

/-- The CALIBRATE in ROTATING mode that collects a channel's pairs (Table 7-2). -/
def rotating (c : Chip) (n : Fin 16) : Bool :=
  c.wb.entries.any (fun e => opcodeOf e = 0x11 && targetOf e = n.val && e.state = .active && e.ckpt = 2 && fld e.cmdb 1 0 = 1)

/-- One pair collected by CALIBRATE ROTATING, before the sensor correction: the arctangent's travel since the pair before and the
moments of the ellipse (R225); a pair faster than 200 electrical turns/s is ignored (Table 7-2). -/
def rotCollect (c : Chip) (n : Fin 16) (stamp : Nat) (s d : Int) : Chip :=
  if rotating c n then
    let a := atanTurn s d
    updFe c n (fun f =>
      let dt := stamp - f.rotTick
      let g := { f with rotPrev := some a, rotTick := stamp }
      let took (f : Fe) : Fe := { f with rotSS := f.rotSS + s * s, rotCC := f.rotCC + d * d, rotSC := f.rotSC + s * d }
      match f.rotPrev with
      | none => took g
      | some b =>
        let x := wrapHalf (a - b)
        if dt = 0 ∨ 200 * (2 ^ 48 : Int) * dt < x.natAbs * 160000000 then g else took { g with rotAcc := f.rotAcc + x })
  else c

/-- A pair (s, d) with its weight arrives, (s0, d0) before the sensor correction (R213, R214): the window, supervision, and the
way to the estimators; with tracking disabled only the pairs that may still reach them after an ENABLE stay (R244). Where every weight of
the last half carrier period is zero the magnitude keeps its value: the spec gives none (R216). [DESIGN CHOICE: log 64] -/
def pairArrive (c : Chip) (n : Fin 16) (stamp : Nat) (s0 d0 s d : Int) (w : Nat) (clip : Bool) : Chip :=
  let f := c.fe[n]
  let env := isqrt (s * s + d * d).toNat
  let period := chPeriod c n
  let win := pushWindow f.window ({ stamp := stamp, s := s, c := d, w := w, wsum := 0, wn := 0 }, env) period
  let p : Pair := { stamp := stamp, s := s, c := d, w := w, wsum := (win.map (fun q => q.1.w)).sum, wn := win.length }
  let mag := (meanMag win stamp period).getD f.magnitude
  let c := updFe c n (fun f => { f with
    pairS := s, pairC := d, window := win, magnitude := mag, magSum := if f.discrun then f.magSum + mag else 0,
    magN := if f.discrun then f.magN + 1 else 0,
    flight := (if c.trk[n].st = .disabled then
        f.flight.filter (fun q => decide (c.tick ≤ q.stamp + 320 + 400 * chHop c n)) else f.flight) ++ [p] })
  let c := rotCollect c n stamp s0 d0
  if feSuspended c n then c else clipCheck (supervise c n) n clip

/-! ### The demodulator (R212 to R214, R220) -/

/-- sin 2πx at 2^-30, x in 2^-48 turn. -/
def sin30 (x : Int) : Int := rdiv (sinTurn x) (2 ^ 30)
/-- cos 2πx at 2^-30, x in 2^-48 turn. -/
def cos30 (x : Int) : Int := rdiv (cosTurn x) (2 ^ 30)

/-- The factory trim of a channel's sine or cosine input (R236): GAIN and OFFSET. -/
def factoryTrim (c : Chip) (n : Fin 16) (cosine : Bool) : Int × Int :=
  let w := liveW c (0x09000000 + 8 * (2 * n.val + b2n cosine))
  (sfld w 63 48, sfld w 47 32)

/-- A sample from which a gain error g in 2^-16 and an offset error o in 2^-16 of full scale are removed (R212): the spec gives the
errors and not their sign. [DESIGN CHOICE: log 31] -/
def trimSample (g o x : Int) : Int := rdiv ((x - o * 2 ^ 15) * 65536) (65536 + g).toNat

/-- The phase of a local channel's reference in tick t, in 2^-48 turn, without the channel's compensation (R204, R213). -/
def refPhase (c : Chip) (n : Fin 16) (t : Nat) : Int :=
  let g := feExc (fecfg c n)
  ((carrierPhase c g t : Int) + (if onSat c n then 0 else c.exc[g].sens * 2 ^ 32)) % 2 ^ 48

/-- A phase lies in a calibration window: PERIOD/16 ticks, centred on each zero crossing (R220). -/
def inCalWindow (ph : Int) : Bool := decide (ph % 2 ^ 47 ≤ 2 ^ 43) || decide (2 ^ 47 - 2 ^ 43 ≤ ph % 2 ^ 47)

/-- Drift self-calibration runs on a channel (R219). -/
def selfCalOn (c : Chip) (n : Fin 16) : Bool :=
  feRunning c n && refReady c n && !bit (fecfg c n) 61 && !c.fe[n].presrun && !c.fe[n].discrun

/-- The ticks of the 16 samples of the window whose centre is stamp (R212, R213). -/
def sampleTicks (stamp : Nat) : List Nat := (List.range 16).map (fun i => stamp - 60 + 8 * i)

/-- The weight of the window whose centre is stamp: the mean of ref², a sample inside a calibration window with zero (R213, R214);
sh is the shift of ref in 2^-48 turn. -/
def windowWeight (c : Chip) (n : Fin 16) (stamp : Nat) (sh : Int) : Nat :=
  let l := (sampleTicks stamp).map (fun t =>
    let ph := refPhase c n t
    if selfCalOn c n && inCalWindow ph then 0 else (sin30 (ph + sh) * sin30 (ph + sh)).toNat)
  l.sum / 2 ^ 34

/-- The fit of samples x to a·ref + d, each weighted with ref² (R213); none where no sample has a weight. l holds ref at 2^-30, and x. -/
def fitRef (l : List (Int × Int)) : Option (Int × Int) :=
  let m (k : Nat) : Int := (l.map (fun p => p.1 ^ k)).sum
  let x (k : Nat) : Int := (l.map (fun p => p.1 ^ k * p.2)).sum
  let det := m 2 * m 4 - m 3 * m 3
  if det ≤ 0 then none
  else some (clampS 32 (rdiv ((m 2 * x 3 - m 3 * x 2) * 2 ^ 30) det.toNat), clampS 32 (rdiv (m 4 * x 2 - m 3 * x 3) det.toNat))

/-- A tone measurement that has accumulated nothing. -/
def toneZero : Tone := { sinI := 0, sinQ := 0, sinD := 0, cosI := 0, cosQ := 0, cosD := 0, n := 0 }
/-- A carrier period's fit that has accumulated nothing. -/
def quadZero : Quad := { sinA := 0, sinB := 0, cosA := 0, cosB := 0, n := 0 }

/-- One sample of both inputs inside a calibration window at reference phase ph: the residual without the resolver's contribution, beside
the tone of 16 times the carrier frequency (R220). -/
def toneAdd (t : Tone) (ph rs rc : Int) : Tone :=
  { sinI := t.sinI + rs * sin30 (16 * ph), sinQ := t.sinQ + rs * cos30 (16 * ph), sinD := t.sinD + rs,
    cosI := t.cosI + rc * sin30 (16 * ph), cosQ := t.cosQ + rc * cos30 (16 * ph), cosD := t.cosD + rc, n := t.n + 1 }

/-- One sample of both inputs outside the calibration windows at compensated phase ph: beside the carrier and its quadrature (R215). -/
def quadAdd (q : Quad) (ph xs xc : Int) : Quad :=
  { sinA := q.sinA + xs * sin30 ph, sinB := q.sinB + xs * cos30 ph, cosA := q.cosA + xc * sin30 ph, cosB := q.cosB + xc * cos30 ph,
    n := q.n + 1 }

/-- A pair with the sensor correction of R225: the cosine winding's amplitude and its departure from the right angle are removed; imb
is AMPIMB in 2^-16, q QUADERR in 2^-24 electrical turn. [DESIGN CHOICE: log 31] -/
def sensorFix (imb q s d : Int) : Int × Int :=
  let x := q * 2 ^ 24
  (s, clampS 32 (rdiv (d * 65536 * 2 ^ 60 + s * sinTurn x * (65536 + imb)) ((65536 + imb) * cosTurn x).toNat))

/-- The sensor correction of a pair with a sample instant: the one that checkpoint 4 of CALIBRATE wrote before it (R225). -/
def sensorAt (f : Fe) (stamp : Nat) : Option (Int × Int) :=
  if f.sensvalid && decide (f.senstick < stamp) then some (f.ampimb, f.quaderr) else f.prevSens

/-- The 16 samples of a window, sine and cosine, with the reference phase of each. -/
def windowRows (c : Chip) (n : Fin 16) (stamp : Nat) (xs : List (Int × Int)) : List (Int × Int × Int) :=
  ((sampleTicks stamp).zip xs).map (fun p => (refPhase c n p.1, p.2.1, p.2.2))

/-- What a window's samples add to the measurements in progress (R215, R220): a sample inside a calibration window to the tone's, with the
factory trim alone and without the contribution predicted from the latest pair, every other one to the carrier period's fit. -/
def measureRow (f : Fe) (tf tc : Int × Int) (cal : Bool) (r : Int × Int × Int) : Fe :=
  let sh := f.phi.getD 0 * 2 ^ 16
  let fs := trimSample tf.1 tf.2 r.2.1
  let fc := trimSample tc.1 tc.2 r.2.2
  if cal && inCalWindow r.1 then
    let s := sin30 (r.1 + sh)
    let rs := fs - rdiv (f.pairS * s) (2 ^ 30) - f.offS
    let rc := fc - rdiv (f.pairC * s) (2 ^ 30) - f.offC
    { f with tone := toneAdd f.tone r.1 rs rc, toneCal := toneAdd f.toneCal r.1 rs rc }
  else { f with quad := quadAdd f.quad (r.1 + sh) (trimSample f.trims.gainS f.trims.offS fs) (trimSample f.trims.gainC f.trims.offC fc) }

/-- The trimmed samples of one input outside the calibration windows, each with ref at 2^-30: the factory trim, then the channel's
self-calibration trims (R212); imb shifts the cosine input's ref by PHASEIMB. -/
def fitRows (c : Chip) (n : Fin 16) (rows : List (Int × Int × Int)) (cosine : Bool) : List (Int × Int) :=
  let f := c.fe[n]
  let t := factoryTrim c n cosine
  let g := if cosine then (f.trims.gainC, f.trims.offC, f.trims.imb) else (f.trims.gainS, f.trims.offS, 0)
  let rows := rows.filter (fun r => !(selfCalOn c n && inCalWindow r.1))
  rows.map (fun r =>
    (sin30 (r.1 + f.phi.getD 0 * 2 ^ 16 + g.2.2 * 2 ^ 32),
      trimSample g.1 g.2.1 (trimSample t.1 t.2 (if cosine then r.2.2 else r.2.1))))

/-- A window may be fitted in this tick: every 128 ticks (R213). -/
def windowDue (f : Fe) (stamp : Nat) : Bool :=
  match f.lastStamp with
  | some t => decide (t < stamp ∧ (stamp - t) % 128 = 0)
  | none => true

/-- PAIR_WINDOW (R212 to R214): the 128-tick window of a channel on its local pins that ends now, from the 16 samples of its sine and
cosine modulators, oldest first, scaled as FEPAIR; beyond: a modulator was beyond full scale (R208). What a window all of whose samples
carry weight zero yields is a free value. [DESIGN CHOICE: log 31] -/
def pairWindow (c : Chip) (n : Fin 16) (xs : List (Int × Int)) (beyond : Bool) : Chip :=
  let stamp := c.tick - 64
  if feRunning c n && !onSat c n && decide (128 ≤ c.tick) && windowDue c.fe[n] stamp then
    let rows := windowRows c n stamp xs
    let w := windowWeight c n stamp (c.fe[n].phi.getD 0 * 2 ^ 16)
    let p := drawFree c
    let blank (k : Nat) : Int := clampS 32 (Config.blankFit p.1 k)
    let rs := (fitRef (fitRows c n rows false)).getD (blank 0, blank 1)
    let rc := (fitRef (fitRows c n rows true)).getD (blank 2, blank 3)
    let clip := beyond || xs.any (fun x => decide (2 ^ 31 ≤ x.1.natAbs ∨ 2 ^ 31 ≤ x.2.natAbs))
    let cal := selfCalOn c n
    let tf := factoryTrim c n false
    let tc := factoryTrim c n true
    let pr := match sensorAt c.fe[n] stamp with | some q => sensorFix q.1 q.2 rs.1 rc.1 | none => (rs.1, rc.1)
    let c := updFe p.2 n (fun f => { rows.foldl (fun f r => measureRow f tf tc cal r) f with
      offS := rs.2, offC := rc.2, lastStamp := some stamp })
    pairArrive c n stamp rs.1 rc.1 pr.1 pr.2 w clip
  else c

/-- What suspended supervision leaves (R217): SIGOK clear and no source counted; a lost satellite's channel keeps its
source asserted until supervision resumes (R304). A presence check in progress ends when checks pause (R234); a self-calibration
measurement begins and ends with R219. [DEDUCED: log 38] -/
def superviseState (c : Chip) (n : Fin 16) : Chip :=
  let f := c.fe[n]
  let c := if feSuspended c n && (f.sigok || f.mismatch || f.clip || f.lowRun ≠ 0 || f.okRun ≠ 0) then
      noteAttn (updFe c n (fun f =>
        { f with sigok := false, mismatch := false, clip := false, clipPrev := false, lowRun := 0, okRun := 0 })) n
    else c
  let c := if feSuspended c n && !(onSat c n && feEn (fecfg c n)) then levelB c (96 + 8 * n.val) false else c
  let pause := !feRunning c n || f.discrun || (onSat c n && !c.link.sats[feSatk (fecfg c n)].admitted)
  let c := if pause && (f.presrun || f.presN ≠ 0) then updFe c n (fun f => { f with presrun := false, presN := 0 }) else c
  if selfCalOn c n then
    (if f.calFrom.isSome then c else updFe c n (fun f => { f with calFrom := some c.tick, tone := toneZero }))
  else if f.calFrom.isSome then updFe c n (fun f => { f with calFrom := none, tone := toneZero })
  else c

/-! ### Phase compensation (R215) -/

/-- The limit of φc, 0.2 carrier turn in 2^-32. -/
def phaseLimit : Int := 858993459

/-- One carrier period's part of a first-order filter with a time constant of 64 periods: 1 - e^(-1/64) at 2^-32 (R215). -/
def phaseStep : Int := 66587296

/-- The phase of the combined (a, b) vector of the two inputs, in 2^-32 carrier turn (R215): b beside a, each input with its own
a as weight. [DEDUCED: log 30] -/
def quadError (q : Quad) : Int :=
  rdiv (wrapHalf (atanTurn (q.sinA * q.sinB + q.cosA * q.cosB) (q.sinA * q.sinA + q.cosA * q.cosA))) (2 ^ 16)

/-- CARRIER_PERIOD_FIT (R215): a carrier period has ended; err is the phase error in 2^-16 carrier turn that a satellite has fitted
(R293), a local channel fits its own. [DEDUCED: log 30] -/
def carrierPeriodFit (c : Chip) (n : Fin 16) (err : Int) : Chip :=
  let f := c.fe[n]
  let rise := lastRise c.exc[feExc (fecfg c n)] (chPeriod c n) c.tick
  if feRunning c n && refReady c n && decide (f.fitRise < rise) && (onSat c n || decide (0 < f.quad.n)) then
    let e := if onSat c n then err * 2 ^ 16 else quadError f.quad
    let old := f.phi.getD 0
    let c := updFe c n (fun f => { f with fitRise := rise, quad := quadZero, phErr := old + e })
    if !bit (fecfg c n) 60 && !lowSignal c n f.magnitude then
      let v := clampI (-phaseLimit) phaseLimit (old + rdiv (e * phaseStep) (2 ^ 32))
      let lim := decide (v = phaseLimit ∨ v = -phaseLimit)
      let c1 := updFe c n (fun f => { f with phi := some v, phaselim := lim })
      if lim && !f.phaselim then countB c1 (98 + 8 * n.val) else c1
    else c
  else c

/-! ### Drift self-calibration (R219 to R223) -/

/-- Limits of the trims (R221). -/
def gainLim : Int := 3277
/-- OFFSET. -/
def offLim : Int := 1311
/-- PHASEIMB. -/
def imbLim : Int := 655

/-- Every trim limited to its range. -/
def limitTrims (t : Trims) : Trims :=
  { gainS := clampI (-gainLim) gainLim t.gainS, offS := clampI (-offLim) offLim t.offS,
    gainC := clampI (-gainLim) gainLim t.gainC, offC := clampI (-offLim) offLim t.offC,
    imb := clampI (-imbLim) imbLim t.imb }

/-- A trim stands at its limit (R221). [DEDUCED: log 38] -/
def atLimit (t : Trims) : Bool :=
  decide (t.gainS.natAbs = 3277 ∨ t.offS.natAbs = 1311 ∨ t.gainC.natAbs = 3277 ∨ t.offC.natAbs = 1311 ∨ t.imb.natAbs = 655)

/-- One trim moved toward a measured value by at most one LSB (R221). -/
def stepOne (cur m : Int) : Int := if cur < m then cur + 1 else if m < cur then cur - 1 else cur

/-- Every trim moved by at most one LSB (R221). -/
def stepTrims (t m : Trims) : Trims :=
  { gainS := stepOne t.gainS m.gainS, offS := stepOne t.offS m.offS, gainC := stepOne t.gainC m.gainC,
    offC := stepOne t.offC m.offC, imb := stepOne t.imb m.imb }

/-- The largest change between two sets of trims (Table 7-12). -/
def trimChange (a b : Trims) : Nat :=
  max (max (max (a.gainS - b.gainS).natAbs (a.offS - b.offS).natAbs) (max (a.gainC - b.gainC).natAbs (a.offC - b.offC).natAbs))
    (a.imb - b.imb).natAbs

/-- Set CALREFBAD (R222, R223): S100 + 8n asserts and FEVALID clears. -/
def calRefBad (c : Chip) (n : Fin 16) : Chip :=
  levelB (updFe c n (fun f => { f with calrefbad := true, calBad := true, fevalid := false, quiet := 0 })) (100 + 8 * n.val) true

/-- New trims in force: CALLIMIT and S099 + 8n (R221). -/
def putTrims (c : Chip) (n : Fin 16) (t : Trims) : Chip :=
  let c := updFe c n (fun f => { f with trims := t, callimit := atLimit t })
  if atLimit t then countB c (99 + 8 * n.val) else c

/-- The tone's peak amplitude, 0.25 of full scale (R220). -/
def toneRef : Int := 2 ^ 29

/-- The tone's amplitude departs from the reference by more than 10 % (R222). -/
def toneBad (a : Int) : Bool := decide (toneRef < 10 * (a - toneRef).natAbs)

/-- What a measurement yields (R221): the errors as trims, and the tone's amplitude on both inputs; none without a sample. The tone's
phase is 16 times the carrier's. [DESIGN CHOICE: log 31] -/
def toneResult (t : Tone) : Option (Trims × Int × Int) :=
  if t.n = 0 then none
  else
    let amp (i q : Int) : Int := rdiv (2 * isqrt (i * i + q * q).toNat : Nat) (t.n * 2 ^ 30)
    let gain (a : Int) : Int := rdiv ((a - toneRef) * 65536) (2 ^ 29)
    let as := amp t.sinI t.sinQ
    let ac := amp t.cosI t.cosQ
    some ({ gainS := gain as, offS := rdiv t.sinD (t.n * 2 ^ 15), gainC := gain ac, offC := rdiv t.cosD (t.n * 2 ^ 15),
            imb := rdiv (wrapHalf (atanTurn t.sinQ t.sinI - atanTurn t.cosQ t.cosI)) (16 * 2 ^ 32) }, as, ac)

/-- SELFCAL_MEASUREMENT (R219, R221 to R223): the measurement of a local channel over 1024 carrier periods ends; a satellite reports its
own: the errors m and the tone's amplitudes (R293). -/
def selfcalMeasurement (c : Chip) (n : Fin 16) (m : Trims) (toneS toneC : Int) : Chip :=
  let f := c.fe[n]
  match if onSat c n then some (m, toneS, toneC) else toneResult f.tone, f.calFrom with
  | some r, some t =>
    if selfCalOn c n && decide (t + 1024 * chPeriod c n ≤ c.tick) then
      let c := updFe c n (fun f => { f with calFrom := some c.tick, tone := toneZero })
      if toneBad r.2.1 || toneBad r.2.2 then calRefBad c n
      else
        let t := stepTrims f.trims (limitTrims r.1)
        let c := levelB (updFe c n (fun f => { f with calrefbad := false })) (100 + 8 * n.val) false
        let q := if t = f.trims then min (f.quiet + 1) 64 else 0
        putTrims (updFe c n (fun f => { f with quiet := q, fevalid := f.fevalid || q = 64 })) n t
    else c
  | _, _ => c

/-- The seven values of a tone measurement that a satellite reports. -/
def toneOf (d : List Int) : Option (Trims × Int × Int) :=
  match d with
  | [a, b, c, e, f, x, y] => some ({ gainS := a, offS := b, gainC := c, offC := e, imb := f }, x, y)
  | _ => none

/-- ROTTIMEOUT in ticks (Table 7-12). -/
def rotTimeout (e : Entry) : Nat := let u := fld e.cmdb 47 32; (if u = 0 then 1526 else u) * 2 ^ 20

/-- The preconditions of CALIBRATE, 0 if all hold (Table 7-2). -/
def calibratePre (c : Chip) (n : Fin 16) (rot : Bool) : Nat :=
  if !feEn (fecfg c n) then 0x1101
  else if !refReady c n then 0x1102
  else if c.pw.state = .idle then 0x1103
  else if rot && !c.fe[n].sigok then 0x1104
  else 0

/-- A step of CALIBRATE or DISCOVER begins, or begins again (R231, Table 4-7): what it collects starts anew. -/
def feStepBegin (c : Chip) (n : Fin 16) : Chip :=
  updFe c n (fun f => { f with
    toneCal := toneZero, calBad := false, rotPrev := none, rotAcc := 0, rotSS := 0, rotCC := 0, rotSC := 0, magSum := 0, magN := 0 })

/-- AMPIMB in 2^-16 and QUADERR in 2^-24 electrical turn of the ellipse through the collected pairs (R225), from its second moments.
[DESIGN CHOICE: log 31] -/
def ellipse (f : Fe) : Int × Int :=
  let r := rdiv ((isqrt (f.rotCC * 2 ^ 64 / f.rotSS).toNat : Nat) : Int) (2 ^ 16) - 65536
  let h := (isqrt (f.rotSS * f.rotCC - f.rotSC * f.rotSC).toNat : Int)
  (clampS 16 r, clampS 16 (rdiv (wrapHalf (atanTurn (-f.rotSC) h)) (2 ^ 24)))

/-- CALIBRATE, one checkpoint further (R224, R225, Table 7-2); d is the tone measurement of a satellite (R293). -/
def calibrateStep (c : Chip) (e : Entry) (n : Fin 16) (d : List Int) : Chip × LStep :=
  let rot : Bool := fld e.cmdb 1 0 = 1
  match e.ckpt with
  | 0 =>
    let r := calibratePre c n rot
    if r ≠ 0 then (c, .final 1 stRefused r 0) else (feStepBegin (updFe c n (fun f => { f with calMax := 0 })) n, .pass 1)
  | 1 =>
    match if onSat c n then toneOf d else toneResult c.fe[n].toneCal with
    | none => (c, .none)
    | some r =>
      if toneBad r.2.1 || toneBad r.2.2 then (calRefBad c n, .final 2 stFaulted 0x1106 0)
      else if c.fe[n].calBad then (c, .final 2 stFaulted 0x1106 0)
      else
        let t := limitTrims r.1
        (putTrims (levelB (updFe (feStepBegin c n) n (fun f => { f with
            calMax := trimChange t f.trims, calrefbad := false, fevalid := true }))
          (100 + 8 * n.val) false) n t, .pass 2)
  | 2 =>
    if !rot then (c, .pass 3)
    else if 4 * 2 ^ 48 ≤ c.fe[n].rotAcc.natAbs then (c, .pass 3)
    else if e.ckTick + rotTimeout e ≤ c.tick then (c, .final 3 stRefused 0x1105 (pack [(32, 16, c.fe[n].calMax)]))
    else (c, .none)
  | _ =>
    let q := ellipse c.fe[n]
    (updFe c n (fun f =>
        let f := { f with calcount := wrapInc16 f.calcount, caltick := c.tick }
        if rot then { f with
          prevSens := if f.sensvalid then some (f.ampimb, f.quaderr) else none, ampimb := q.1, quaderr := q.2, sensvalid := true,
          senstick := c.tick }
        else f),
      .final 4 stDone 0 (pack [(32, 16, c.fe[n].calMax)]))

/-! ### Resistances and classes (R227, R228) -/

/-- A resistance that reads as open (R227). -/
def openRes : Nat := 0xFFFFFFFF

/-- The resistance at the pins in 1/16 Ω from the change of the offset term (2^31 stands for 1.8 V) under a current of i
microamperes: 1 / (I/ΔV − 1/40 kΩ), open above 1 MΩ (R227). -/
def resOf (dv : Int) (i : Nat) : Nat :=
  let num : Int := 640000 * 9 * 40 * dv
  let den : Int := (8 * 2 ^ 31 * i : Nat) - 9 * 40 * dv
  if dv ≤ 0 then 0
  else if den ≤ 0 then openRes
  else
    let r := (rdiv num den.toNat).toNat
    if 16000000 < r then openRes else r

/-- The class and winding of Table 7-3; leak is absent and the coupling's upper limits are not applied in a presence
check (R232). ratio is in units of 1/den. [DEDUCED: log 38] -/
def classify (c : Chip) (n : Fin 16) (rs rc : Nat) (leak : Option Nat) (ratio den : Nat) (phase : Option Int) : Nat × Nat :=
  let o := openLim c n
  let s := shortLim c n
  if o < rs ∧ o < rc then (1, 0)
  else if rs < s then (3, 0)
  else if rc < s then (3, 1)
  else if (match leak with | some l => decide (l < o) | none => false) = true then (3, 3)
  else if o < rs then (2, 0)
  else if o < rc then (2, 1)
  else if 50 * ratio < den then (2, 2)
  else if (match phase with | some p => decide (2 * den < ratio ∨ 13107 < p.natAbs) | none => false) = true then (5, 0)
  else (4, 0)

/-! ### DISCOVER (R226 to R231) -/

/-- The preconditions of DISCOVER, 0 if all hold (R226). -/
def discoverPre (c : Chip) (n : Fin 16) : Nat :=
  if c.trk[n].st ≠ .disabled then 0x1001
  else if !refReady c n then 0x1002
  else if c.pw.state = .idle then 0x1003
  else if !feEn (fecfg c n) then 0x1004
  else 0

/-- Write a DISCWORK word. -/
def putWork (c : Chip) (n : Fin 16) (i : Fin 4) (w : Word) : Chip :=
  updFe c n (fun f => { f with work := upd f.work i (fun _ => w) })

/-- Two measurements agree (R230): within 10 % of the earlier, no class threshold between. -/
def consistent (c : Chip) (n : Fin 16) (a b : Nat) : Bool :=
  decide ((max a b - min a b) * 10 ≤ a) && (decide (a < shortLim c n) == decide (b < shortLim c n)) &&
  (decide (openLim c n < a) == decide (openLim c n < b))

/-- SENSRATIO (Table 7-11). -/
def sensRatio (c : Chip) (n : Fin 16) (ratio : Nat) : Nat :=
  let d := fld (fenom c n) 47 32
  min 65535 (rdiv (ratio * 65536 : Nat) (if d = 0 then 65536 else d)).toNat

/-- The commit of DISCOVER (R230, Tables 7-11, 7-12). -/
def discoverCommit (c : Chip) (n : Fin 16) (k : Nat × Nat) (unstable : Bool) (rs rc : Nat) : Chip × LStep :=
  let f := c.fe[n]
  let ratio := fld f.work[(3 : Fin 4)] 47 32
  let ph := fld f.work[(3 : Fin 4)] 31 16
  let w := pack [(61, 3, k.1), (59, 2, if k.1 = 2 ∨ k.1 = 3 then k.2 else 0), (58, 1, b2n unstable), (57, 1, b2n (onSat c n)),
    (56, 1, 1), (48, 8, fld f.discres 55 48 + 1), (32, 16, ratio), (16, 16, ph), (0, 16, sensRatio c n ratio)]
  (updFe c n (fun f => { f with
      discres := w, discres2 := pack [(32, 32, rs), (0, 32, rc)], discres3 := pack [(32, 32, f.work[(2 : Fin 4)].toNat)],
      disctick := c.tick, field := k.1, discClass := k.1, attn := f.mismatch, discrun := false, presN := 0 }),
    .final 6 stDone 0 (pack [(52, 1, b2n f.restarted), (48, 3, k.1), (32, 16, ratio), (16, 16, ph)]))

/-- RLEAK in 1/16 Ω from the offset change of the cosine input under the current in the sine pair, formed as for
the winding resistance (R227). With a divider the effect of the shunts is removed with FENOM.DIVIDER; how, the spec does not state:
a free value. [DESIGN CHOICE: log 61] -/
def leakOf (c : Chip) (n : Fin 16) (dv : Int) : Nat :=
  let d := fld (fenom c n) 47 32
  let r := resOf dv 40
  if d = 0 ∨ r = openRes then r else min openRes (Config.dividerLeak r d)

/-- The pin ratio in Q2.14 (R227): the magnitude's mean over the coupling step, divided by the reference amplitude. -/
def pinRatio (c : Chip) (n : Fin 16) : Nat :=
  let f := c.fe[n]
  let m := if f.magN = 0 then f.magnitude else f.magSum / f.magN
  min 65535 (rdiv (m * 3600 * 16384 : Nat) (refAmp c n * 2 ^ 31)).toNat

/-- DISCOVER, one checkpoint further (Table 7-4, R230): d holds the changes of the offset terms, in their scale. -/
def discoverStep (c : Chip) (e : Entry) (n : Fin 16) (d : List Int) : Chip × LStep :=
  match e.ckpt, d with
  | 0, _ =>
    let r := discoverPre c n
    if r ≠ 0 then (c, .final 1 stRefused r 0)
    else (updFe c n (fun f => { f with discrun := true, presrun := false, presN := 0, restarted := false }), .pass 1)
  | 1, [v] => (putWork c n 0 (w64 (resOf v 40)), .pass 2)
  | 2, [v] => (putWork c n 1 (w64 (resOf v 40)), .pass 3)
  | 3, [v] => (feStepBegin (putWork c n 2 (w64 (leakOf c n v))) n, .pass 4)
  | 4, _ =>
    if refReady c n then
      (putWork c n 3 (pack [(32, 16, pinRatio c n), (16, 16, intBits 16 (clampS 16 (rdiv c.fe[n].phErr (2 ^ 16))))]), .pass 5)
    else (c, .none)
  | 5, [v, u] =>
    let f := c.fe[n]
    let rs := f.work[(0 : Fin 4)].toNat
    let rc := f.work[(1 : Fin 4)].toNat
    let rs2 := resOf v 20
    let rc2 := resOf u 20
    let ratio := fld f.work[(3 : Fin 4)] 47 32
    let ph := sfld f.work[(3 : Fin 4)] 31 16
    if consistent c n rs rs2 && consistent c n rc rc2 then
      discoverCommit c n (classify c n rs rc (some f.work[(2 : Fin 4)].toNat) ratio 16384 (some ph)) false rs rc
    else if !f.restarted then (updFe c n (fun f => { f with restarted := true }), .pass 1)
    else discoverCommit c n (5, 0) true rs2 rc2
  | _, _ => (c, .none)

/-- Ticks from the previous checkpoint to the next one, of DISCOVER (Table 7-4) and CALIBRATE (Table 7-2).
[DESIGN CHOICE: log 45] -/
def feCkptTicks (c : Chip) (e : Entry) (n : Fin 16) : Nat :=
  let p := chPeriod c n
  if opcodeOf e = 0x10 then
    (match e.ckpt with | 0 => 1024 | 1 | 2 | 3 => 352000 | 4 => 64 * p + 1024 + (refTick c n - e.ckTick) | _ => 353024)
  else
    (match e.ckpt with | 0 => 1024 | 1 => 4096 * p + 1024 | 2 => if fld e.cmdb 1 0 = 0 then 1 else 0 | _ => 1024)

/-! ### Presence checks (R232 to R234) -/

/-- PRESENCE_CHECK_START (R232), in CONFIG, MINCONFIG and RUN (R218). [DEDUCED: log 38] -/
def presenceStart (c : Chip) (n : Fin 16) : Chip :=
  let f := c.fe[n]
  if c.tick % 16000000 = 1000000 * n.val ∧ feRunning c n = true ∧ 
      bit (fecfg c n) 62 = false ∧ f.discrun = false ∧ f.presrun = false ∧
      (onSat c n && !c.link.sats[feSatk (fecfg c n)].admitted) = false then
    updFe c n (fun f => { f with presrun := true, presStart := c.tick })
  else c

/-- PRESENCE_CHECK_END (R232, R233): the changes of both offset terms under 10 µA. -/
def presenceEnd (c : Chip) (n : Fin 16) (dvs dvc : Int) : Chip :=
  let f := c.fe[n]
  if f.presrun && decide (f.presStart + 192000 ≤ c.tick) then
    let note (c : Chip) : Chip := noteAttn c n
    let k := (classify c n (resOf dvs 10) (resOf dvc 10) none (f.magnitude * 3600) (refAmp c n * 2 ^ 31) none).1
    let pn := if k = 4 then f.presN + 1 else 0
    let c := updFe c n (fun f => { f with presrun := false, presclass := k, prescount := wrapInc16 f.prescount, presN := min pn 2 })
    if k = 4 then
      (if 2 ≤ pn ∧ f.field ≠ 4 then notifyObj (note (updFe c n (fun f => { f with field := 4 }))) (ixCh n) 16 else c)
    else if k ≠ f.field then notifyObj (note (updFe c n (fun f => { f with field := k }))) (ixCh n) 17
    else c
  else c

/-! ### Configuration, resets, scrub -/

/-- The front end starts anew: run counters, windows and flags (R218). -/
def feReinit (f : Fe) : Fe :=
  { f with
    sigok := false, clip := false, clipPrev := false, phaselim := false, callimit := false, calrefbad := false,
    presrun := false, mismatch := false, magnitude := 0, lowRun := 0, okRun := 0, window := [], flight := [],
    rotPrev := none, rotAcc := 0, rotSS := 0, rotCC := 0, rotSC := 0, presN := 0, quad := quadZero, tone := toneZero,
    toneCal := toneZero, calFrom := none, magSum := 0, magN := 0, lastStamp := none }

/-- The all-zero front end (Table 3-4); φc starts from PHASEINIT (R215). [DESIGN CHOICE: log 18, 29] -/
def feZero : Fe :=
  { sigok := false, clip := false, clipPrev := false, phaselim := false, callimit := false, calrefbad := false,
    presrun := false, discrun := false, mismatch := false, presclass := 0, magnitude := 0, prescount := 0, pairS := 0,
    pairC := 0, offS := 0, offC := 0, phi := none, lowRun := 0, okRun := 0, window := [], flight := [], discres := 0,
    discres2 := 0, discres3 := 0, disctick := 0, work := Vector.replicate 4 0, restarted := false,
    trims := { gainS := 0, offS := 0, gainC := 0, offC := 0, imb := 0 }, ampimb := 0, quaderr := 0, fevalid := false,
    sensvalid := false, calcount := 0, caltick := 0, quiet := 0, calMax := 0, rotPrev := none, rotAcc := 0, rotTick := 0,
    rotSS := 0, rotCC := 0, rotSC := 0, senstick := 0, prevSens := none, field := 0, discClass := 0, attn := false, presN := 0,
    presStart := 0, quad := quadZero, fitRise := 0, phErr := 0, tone := toneZero, toneCal := toneZero, calFrom := none, calBad := false,
    magSum := 0, magN := 0, lastStamp := none }

/-- The front end at a warm reset (R15, R215, R223, R229, R237): trims, φc, sensor correction, DISCWORK and DISCOVERY are
kept, and DISCRUN while its DISCOVER is outstanding. [DEDUCED: log 17] -/
def feWarm (c : Chip) (n : Fin 16) : Fe :=
  let f := c.fe[n]
  let run := f.discrun && c.wb.entries.any (fun e => opcodeOf e = 0x10 && targetOf e = n.val && e.state ≠ .retired)
  { feZero with
    phi := f.phi, trims := f.trims, ampimb := f.ampimb, quaderr := f.quaderr, fevalid := f.fevalid, sensvalid := f.sensvalid,
    calcount := f.calcount, caltick := f.caltick, work := f.work, restarted := f.restarted, calMax := f.calMax,
    senstick := f.senstick, prevSens := f.prevSens, field := f.field, discClass := f.discClass, attn := f.attn, discrun := run }

/-- The fields whose change starts a front end anew: FEEN, SRC, SATK, SATM, EXCSEL (R211). -/
def feRoute (w : Word) : Word := w &&& 0x83FC000000000000#64

/-- A position's device is present but quarantined (R193, R296). -/
def satQuarantined (c : Chip) (k : Fin 4) : Bool :=
  c.link.sats[k].bound && (allFin 4).any (fun h => c.link.hops[h].st = .up && c.link.hops[h].dstate = .quarantined &&
    c.link.hops[h].serial = c.link.sats[k].serial)

/-- SATCFG in force (Table 10-20). -/
def satcfg (c : Chip) (k : Fin 4) : Word := act c (objBase (.sat k))
/-- SATCFG.BUFEXC. -/
def satBufExc (w : Word) : Fin 4 := ⟨fld w 61 60 % 4, Nat.mod_lt _ (by decide)⟩

/-- Another channel's configuration in force names the same satellite input with FEEN 1 (R211). -/
def satInputTaken (c : Chip) (n : Fin 16) (k m : Fin 4) : Bool :=
  (allFin 16).any (fun x => x ≠ n && feEn (fecfg c x) && onSat c x && feSatk (fecfg c x) = k && feSatm (fecfg c x) = m)

/-- Satellite inputs in use (R301). -/
def inputsUsed (c : Chip) : Nat := (allFin 16).countP (fun n => feEn (fecfg c n) && onSat c n)

/-- The APPLY checks of a channel's front end, 0 if none refuses (R211, R301). -/
def feCheck (c : Chip) (n : Fin 16) : Nat :=
  let w := stg c (chBase n)
  let k := feSatk w
  let sat := feSrc w = 1
  if 2 ≤ feSrc w then 0x0403
  else if sat ∧ sameOwner c (ixCh n) (ixSat k) = false then 0x0011
  else if sat ∧ satQuarantined c k = true then 0x0019
  else if sat ∧ satInputTaken c n k (feSatm w) = true then 0x0404
  else if sat ∧ (bit (satcfg c k) 63 && satBufExc (satcfg c k) = feExc w) = false then 0x0402
  else if c.trk[n].st ≠ .disabled ∧ feRoute w ≠ feRoute (fecfg c n) then 0x0405
  else if sat ∧ c.link.sats[k].bound = false then 0x040E
  else if sat ∧ feEn w = true ∧ 4 ≤ inputsUsed c - b2n (feEn (fecfg c n) && onSat c n) then 0x040F
  else 0

/-- What an APPLY of a channel does to its front end (R211, R215); old is FECFG in force before. -/
def feApplied (c : Chip) (n : Fin 16) (old : Word) : Chip :=
  let w := fecfg c n
  let c := if feRoute w ≠ feRoute old then updFe c n feReinit else c
  if feEn w then
    updFe c n (fun f => { f with phi := some (f.phi.getD (clampI (-phaseLimit) phaseLimit (sfld (fenom c n) 31 16 * 2 ^ 16))) })
  else c

/-- The front-end refusals of ENABLE, 0 if none (R235): every ENABLE in IDLE is refused 0x2001 (R175); between 0x2003 and 0x2002 the spec
gives no order. [DESIGN CHOICE: log 65] -/
def feEnableCheck (c : Chip) (n : Fin 16) : Nat :=
  if c.pw.state = .idle then 0x2001
  else if !feEn (fecfg c n) then 0x2003
  else if !refReady c n then 0x2002
  else 0

/-! ### Words -/

/-- FESTAT (Table 7-10). -/
def festatWord (f : Fe) : Word :=
  pack [(63, 1, b2n f.sigok), (62, 1, b2n f.clip), (61, 1, b2n f.phaselim), (60, 1, b2n f.callimit),
    (59, 1, b2n f.calrefbad), (58, 1, b2n f.presrun), (57, 1, b2n f.discrun), (56, 1, b2n f.mismatch),
    (53, 3, f.presclass), (32, 16, min 65535 (rdiv f.magnitude 32768).toNat), (16, 16, f.prescount)]

/-- The STATUS words of a channel's front end (Table 7-8). -/
def feWord (c : Chip) (n : Fin 16) (off : Nat) : Word :=
  let f := c.fe[n]
  match off with
  | 0x40 => festatWord f
  | 0x48 => pack [(32, 32, intBits 32 f.pairS), (0, 32, intBits 32 f.pairC)]
  | 0x50 => pack [(48, 16, intBits 16 (clampS 16 (rdiv (f.phi.getD 0) (2 ^ 16))))]
  | 0x58 => pack [(32, 32, intBits 32 f.offS), (0, 32, intBits 32 f.offC)]
  | 0x80 => f.discres
  | 0x88 => f.discres2
  | 0x90 => f.discres3
  | 0x98 => w64 f.disctick
  | 0xA0 => f.work[(0 : Fin 4)]
  | 0xA8 => f.work[(1 : Fin 4)]
  | 0xB0 => f.work[(2 : Fin 4)]
  | 0xB8 => f.work[(3 : Fin 4)]
  | 0xC0 => pack [(48, 16, intBits 16 f.trims.gainS), (32, 16, intBits 16 f.trims.offS)]
  | 0xC8 => pack [(48, 16, intBits 16 f.trims.gainC), (32, 16, intBits 16 f.trims.offC)]
  | 0xD0 => pack [(48, 16, intBits 16 f.trims.imb), (32, 16, intBits 16 f.ampimb), (16, 16, intBits 16 f.quaderr)]
  | 0xD8 => pack [(63, 1, b2n f.fevalid), (62, 1, b2n f.sensvalid), (32, 16, f.calcount)]
  | 0xE0 => w64 f.caltick
  | _ => 0

/-- DISCOVERY (R237), unfiltered. -/
def discoveryWord (c : Chip) : Word :=
  pack ((allFin 16).map (fun n => (3 * n.val, 3, c.fe[n].field)) ++
    (allFin 16).map (fun n => (48 + n.val, 1, b2n (c.fe[n].attn))))

end Sys2Proof.Machine
end

