-- ==== Sys2Proof/Machine/Tracking.lean ====
section
/-! DEFINITION. Tracking (chapter 8): modes and states, the loop, the arctangent estimator and the cross-check, the
bandwidth policy, turn restore, ANCHOR and the Sett store. -/

namespace Sys2Proof.Machine

/-- TRKCFG in force (Table 8-7). -/
def trkcfg (c : Chip) (n : Fin 16) : Word := act c (chBase n + 0x100)
/-- TRKLIM in force (Table 8-8). -/
def trklim (c : Chip) (n : Fin 16) : Word := act c (chBase n + 0x108)
/-- TRKAUTO in force (Table 8-6). -/
def trkauto (c : Chip) (n : Fin 16) : Word := act c (chBase n + 0x110)
/-- A field whose zero stands for a default. -/
def orDef (v d : Nat) : Nat := if v = 0 then d else v
/-- POLES; 0 means 1 (R252). -/
def polesOf (w : Word) : Nat := orDef (fld w 61 56) 1
/-- BWFIX in Hz; 0 means 1000. -/
def bwfixOf (w : Word) : Nat := orDef (fld w 47 32) 1000
/-- EOFFSET in 2^-32 electrical turn. -/
def eoffOf (w : Word) : Nat := fld w 31 0
/-- DIVLIM in 2^-16 turn; 0 means 655. -/
def divlimOf (w : Word) : Nat := orDef (fld w 63 48) 655
/-- DIVTIME in updates; 0 means 64. -/
def divtimeOf (w : Word) : Nat := orDef (fld w 47 40) 64
/-- ACCMAX in mechanical turns/s². -/
def accmaxOf (w : Word) : Nat := fld w 31 0
/-- BWMIN in Hz; 0 means 100. -/
def bwminOf (w : Word) : Nat := orDef (fld w 63 48) 100
/-- BWMAX in Hz; 0 means 4000. -/
def bwmaxOf (w : Word) : Nat := orDef (fld w 47 32) 4000

/-- The bandwidth steps B_j in Hz (R250). -/
def bwSteps : List Nat :=
  [100, 113, 127, 143, 161, 181, 204, 230, 259, 292, 329, 370, 417, 470, 529, 596, 671, 756, 852, 959, 1080, 1217, 1371,
   1544, 1739, 1959, 2206, 2485, 2799, 3153, 3551, 4000]

/-- Step j. -/
def bwAt (j : Nat) : Nat := bwSteps.getD j 4000
/-- jmin (R250). -/
def jminOf (w : Word) : Nat := bwSteps.findIdx (fun b => decide (bwminOf w ≤ b))
/-- jmax (R250). -/
def jmaxOf (w : Word) : Nat := bwSteps.countP (fun b => decide (b ≤ bwmaxOf w)) - 1

/-- kp·T·B⁻¹ scaled: √2·2π/c at 2^-64 (R246). -/
def kpK : Int := 79640344192686232717
/-- (2π/c)² at 2^-64 (R246). -/
def kiK : Int := 171916095268243955597
/-- (2π/c)⁴ at 2^-64 (R250). -/
def w4K : Nat := 1602187556469770783775
/-- 2π/8 at 2^-64 (R246). -/
def tauK : Int := 14488038916154245685
/-- 2π at 2^-61. -/
def twoPi61 : Nat := 14488038916154245685

/-! ### States (Table 8-2) -/

/-- The runs of the lock criteria and the seeds start anew (Table 8-2, R254). -/
def trkClear (t : Trk) : Trk := { t with lockRun := 0, lossRun := 0, seed := [] }

/-- Enter HOLD: VALID cleared. -/
def trkHold (t : Trk) : Trk := { trkClear t with st := .hold, valid := false }

/-- Enter RAW: COUNT zeroed (R243), the state of the loop, the cross-check and the policy held as it stood (R242). -/
def trkRaw (t : Trk) (oneshot : Bool) : Trk :=
  { t with st := .raw, mode := 2, valid := false, rawCount := 0, rawFull := false, oneshot := oneshot }

/-- Enter ACQUIRING, VALID cleared: in TRACK_AUTO at the largest usable step, in TRACK at BWFIX (R250, R251). -/
def trkAcquire (c : Chip) (n : Fin 16) (t : Trk) : Trk :=
  { trkClear t with
    st := .acquiring, valid := false, bwstep := if t.mode = 1 then 0 else jmaxOf (trkauto c n),
    bw := if t.mode = 1 then bwfixOf (trkcfg c n) else bwAt (jmaxOf (trkauto c n)) }

/-- The tick after an update writes its Sett store entry (R247, R257); ACQUIRING and LOCKED fall to HOLD when SIGOK clears (Table 8-2). -/
def trackState (c : Chip) (n : Fin 16) : Chip :=
  let c := match c.trk[n].settNext with
    | some e => updTrk c n (fun t => { t with sett := e, settNext := none })
    | none => c
  if !c.fe[n].sigok && (c.trk[n].st = .acquiring || c.trk[n].st = .locked) then updTrk c n trkHold else c

/-- A command changes the mode or state in this tick: it governs the pairs that reach the estimators from the next tick on (R244). -/
def trkCommand (c : Chip) (t : Trk) : Trk := { t with cmdTick := some c.tick, old := some (t.st, t.mode, t.valid) }

/-- ENABLE of a channel (R240, Table 8-2); one that is enabled stays as it is. -/
def trkEnable (c : Chip) (n : Fin 16) : Chip :=
  if c.trk[n].st ≠ .disabled then c
  else
    let m := fld (trkcfg c n) 63 62
    updTrk c n (fun t =>
      let t := { trkCommand c t with mode := m, j := jmaxOf (trkauto c n) }
      if m = 2 then trkRaw t false else trkHold t)

/-- DISABLE of a channel, and its DRAINING entry (Table 8-2). -/
def trkDisable (c : Chip) (n : Fin 16) : Chip :=
  if c.trk[n].st = .disabled then c
  else updTrk c n (fun t => { trkClear (trkCommand c t) with st := .disabled, valid := false })

/-- SETMODE with OP MODE (Table 8-2, R251, Table 8-12). -/
def trkSetMode (c : Chip) (n : Fin 16) (m : Nat) (oneshot : Bool) : Chip :=
  let t := c.trk[n]
  if m = t.mode then (if m = 2 ∧ oneshot = true then updTrk c n (fun t => trkRaw (trkCommand c t) true) else c)
  else if m = 2 then updTrk c n (fun t => trkRaw (trkCommand c t) oneshot)
  else if t.mode = 2 then updTrk c n (fun t => trkHold { trkCommand c t with mode := m })
  else if m = 0 then
    let lo := jminOf (trkauto c n)
    let js := (List.range 32).filter (fun j => decide (lo ≤ j ∧ j ≤ jmaxOf (trkauto c n) ∧ bwAt j ≤ bwfixOf (trkcfg c n)))
    updTrk c n (fun t => { trkCommand c t with mode := 0, j := js.getLastD lo, winN := 0, winQ := 0, winSum := 0, winSq := 0, winPk := 0 })
  else updTrk c n (fun t => { trkCommand c t with mode := m })

/-! ### Output words (R242, R252, R257) -/

/-- Write the output words of a VALID update; the tick after it writes the Sett entry (R242, R252, R257). -/
def trkWrite (c : Chip) (n : Fin 16) (stamp : Nat) : Chip :=
  let w := trkcfg c n
  let p := polesOf w
  updTrk c n (fun t =>
    let e := t.theta
    let ma := rdiv (e - (eoffOf w : Int) * 2 ^ 16) (p * 2 ^ 16)
    let ms := rdiv t.v (p * 2 ^ 8)
    let slow := decide (t.v.natAbs * 256 < p * 2 ^ 40)
    let still := if slow then min (t.still + 1) 1024 else 0
    { t with
      valid := true, updcount := wrapInc16 t.updcount,
      prevAng := if t.valid then t.mechang else signed 64 (intBits 64 ma),
      prevSpd := if t.valid then t.mechspd else clampS 64 ms, prevTick := if t.valid then t.outtick else stamp,
      elecang := signed 64 (intBits 64 (rdiv e (2 ^ 16))), mechang := signed 64 (intBits 64 ma),
      elecspd := clampS 64 (rdiv t.v (2 ^ 8)), mechspd := clampS 64 ms, elecacc := clampS 64 (rdiv t.a (2 ^ 8)),
      outtick := stamp, still := still,
      outs := (stamp, signed 64 (intBits 64 ma), clampS 64 ms) :: (if t.valid then t.outs.take 40 else []),
      settNext := some {
        ang := signed 64 (intBits 64 ma), spd := clampS 64 ms, tick := stamp, valid := true, verified := !t.unver,
        stopped := still = 1024 } })

/-! ### Seeding (R254 to R256) -/

/-- Stays in SLEEP or BACKUP between two ticks. -/
def staysIn (c : Chip) (a b : Nat) : List Stay := c.stays.filter (fun s => decide (a ≤ s.entry ∧ s.entry < b))

/-- Rule P (R255): dt is in ticks. -/
def ruleP (c : Chip) (n : Fin 16) (s : Sett) (stamp : Nat) : Bool :=
  let a := accmaxOf (trklim c n)
  let dt := stamp - s.tick
  (staysIn c s.tick stamp).isEmpty && a ≠ 0 && decide (2 * (polesOf (trkcfg c n) * a * dt * dt) ≤ 160000000 * 160000000)

/-- Rule M (R255). -/
def ruleM (c : Chip) (n : Fin 16) (s : Sett) (stamp : Nat) : Bool :=
  match staysIn c s.tick stamp with
  | [y] => bit (trkcfg c n) 55 && y.armed && decide (y.wh.val = fld (trkcfg c n) 53 52) && s.stopped &&
      decide (y.entry ≤ s.tick + 16000000) && !y.moved
  | _ => false

/-- Place the first seed pair, whose arctangent angle is f in 2^-48 turn (R255, R256): its unwrapped angle, and whether
the turn count stays unverified. -/
def placeFirst (c : Chip) (n : Fin 16) (stamp : Nat) (f : Int) : Int × Bool :=
  let w := trkcfg c n
  let p := polesOf w
  let s := c.trk[n].sett
  let eo : Int := (eoffOf w : Int) * 2 ^ 16
  if s.valid then
    let m := ruleM c n s stamp
    let dt : Int := if m then 0 else (stamp : Int) - s.tick
    let num : Int := ((p : Int) * s.ang * 2 ^ 16 + eo) * 160000000 + (p : Int) * s.spd * 2 ^ 16 * dt
    let k := cdiv (2 * num - (2 * f + 2 ^ 48) * 160000000) (2 * 160000000 * 2 ^ 48)
    (k * 2 ^ 48 + f, !(s.verified && (ruleP c n s stamp || m)))
  else (eo + (f - eo) % 2 ^ 48, decide (1 < p))

/-- Overspeed (R259). [DEDUCED: log 39] -/
def overspeed (c : Chip) (n : Fin 16) : Chip :=
  let t := c.trk[n]
  let hit := if t.ovs then decide (t.v.natAbs ≤ 990 * 2 ^ 40) else decide (1000 * 2 ^ 40 < t.v.natAbs)
  let r := if hit then t.ovsRun + 1 else 0
  if r < 128 then updTrk c n (fun t => { t with ovsRun := r })
  else
    let c := updTrk c n (fun t => { t with ovsRun := 0, ovs := !t.ovs })
    if t.ovs then c else countB c (103 + 8 * n.val)

/-- The loop after its sixteenth seed pair (R254): seed holds the pairs in order. -/
def seedDone (c : Chip) (n : Fin 16) (seed : List (Nat × Int)) : Chip :=
  match seed with
  | [] => c
  | (s0, f0) :: rest =>
    let pl := placeFirst c n s0 f0
    let r := rest.foldl (fun (a : Int × Int) q => (a.1 + wrapHalf (q.2 - a.2), q.2)) (0, f0)
    let last := (seed.getLastD (s0, f0)).1
    let v := rdiv (r.1 * 160000000) ((last - s0) * 2 ^ 8)
    let theta := pl.1 + r.1
    let c := updTrk c n (fun t => { t with
      theta := theta, v := v, a := 0, phi := theta + rdiv (v * 2 ^ 8) 1250000, unver := pl.2, seed := [], lockRun := 0 })
    let c := if pl.2 then notifyObj c (ixCh n) 18 else c
    trkWrite (overspeed c n) n last

/-! ### The estimators (R245 to R249, R259) -/

/-- The arctangent estimator's angle in 2^-48 turn: within 2^-28 turn of the exact value, of which atanTurn stays within 2^-42, the error
a free value (R248).
[DESIGN CHOICE: log 32] -/
def atanEst (s d : Int) : Int := (atanTurn s d + clampI (-(2 ^ 20 - 64)) (2 ^ 20 - 64) (Config.atanError s d)) % 2 ^ 48

/-- A pair qualifies: q is at least 0.25 (R248). A pair with s = c = 0, which has no angle, does not: the spec does not name it.
[DESIGN CHOICE: log 66] -/
def qualifying (p : Pair) : Bool := decide (p.wsum ≤ 4 * p.w * p.wn ∧ 0 < p.w) && decide (p.s ≠ 0 ∨ p.c ≠ 0)

/-- The error e of a pair at 2^-64 turn against a prediction phi at 2^-48 turn (R245). -/
def errorOf (p : Pair) (phi : Int) : Int :=
  let m := isqrt ((p.s * p.s + p.c * p.c).toNat * 2 ^ 64)
  if m = 0 ∨ p.w = 0 ∨ p.wsum = 0 then 0
  else
    let num := p.s * cosTurn phi - p.c * sinTurn phi
    let qn := min (p.w * p.wn) p.wsum
    rdiv (qn * num * 2 ^ 97) (p.wsum * twoPi61 * m)

/-- The bandwidth in force and its step (R250, R251). -/
def trkBand (c : Chip) (n : Fin 16) : Nat × Nat :=
  let t := c.trk[n]
  if t.mode = 1 then (bwfixOf (trkcfg c n), 0)
  else
    let hi := jmaxOf (trkauto c n)
    let j := if t.st = .acquiring then hi else max (jminOf (trkauto c n)) (min hi t.j)
    (bwAt j, j)

/-- One pass of the loop (R245) at bandwidth b with error e. [DEDUCED: log 39] -/
def loopPass (t : Trk) (b : Nat) (e : Int) : Trk :=
  let theta := t.phi + rdiv (kpK * b * e) (2 ^ 80 * 1250000)
  let v := t.v + rdiv (kiK * b * b * e) (2 ^ 88 * 1250000)
  let ke := kiK * b * b * e
  let a := t.a + rdiv ((ke - t.a * 2 ^ 88) * (tauK * b)) (2 ^ 152 * 1250000)
  { t with theta := theta, v := v, a := a, phi := theta + rdiv (v * 2 ^ 8) 1250000 }

/-- d of a qualifying pair (R248). -/
def addD (t : Trk) (f : Int) (inLock : Bool) : Trk :=
  let d := wrapHalf (f - t.theta)
  let t1 := { t with ds := (d :: t.ds).take 16 }
  if inLock then { t1 with winQ := t.winQ + 1, winSum := t.winSum + d, winSq := t.winSq + d * d } else t1

/-- D exceeds num/den of DIVLIM (R249). -/
def bigD (t : Trk) (lim num den : Nat) : Bool := decide (lim * num * t.ds.length * 2 ^ 48 < t.ds.sum.natAbs * 65536 * den)

/-- The cross-check (R249). [DEDUCED: log 39] -/
def crossCheck (c : Chip) (n : Fin 16) : Chip :=
  let t := c.trk[n]
  let w := trklim c n
  let hit := if t.div then !bigD t (divlimOf w) 1 2 else bigD t (divlimOf w) 1 1
  let r := if hit then t.divRun + 1 else 0
  if r < divtimeOf w then updTrk c n (fun t => { t with divRun := r })
  else levelB (updTrk c n (fun t => { t with divRun := 0, div := !t.div })) (101 + 8 * n.val) (!t.div)

/-- The lock criteria (Table 8-2): true where the lock was lost. -/
def lockCheck (c : Chip) (n : Fin 16) (e : Int) : Chip × Bool :=
  let t := c.trk[n]
  if t.st = .acquiring then
    let r := if e.natAbs * 1000 < 5 * 2 ^ 64 then t.lockRun + 1 else 0
    if r < 256 then (updTrk c n (fun t => { t with lockRun := r }), false)
    else
      (notifyObj (updTrk c n (fun t => { t with
          st := .locked, lockcount := wrapInc16 t.lockcount, lockRun := 0, lossRun := 0, divRun := 0,
          j := jmaxOf (trkauto c n), winN := 0, winQ := 0, winSum := 0, winSq := 0, winPk := 0 })) (ixCh n) 19, false)
  else
    let r := if 2 ^ 64 < e.natAbs * 8 then t.lossRun + 1 else 0
    if r < 16 then (updTrk c n (fun t => { t with lossRun := r }), false)
    else (countB (updTrk c n (trkAcquire c n)) (102 + 8 * n.val), true)

/-- The policy's part of an update (R250). -/
def policyUpdate (c : Chip) (n : Fin 16) (e : Int) : Chip :=
  updTrk c n (fun t =>
    if t.mode = 0 ∧ t.st = .locked then
      { t with winN := t.winN + 1, winPk := max t.winPk t.a.natAbs,
               j := if 2 ^ 64 < e.natAbs * 50 then jmaxOf (trkauto c n) else t.j }
    else t)

/-- One update of a channel whose output is VALID (R245 to R252, R257, R259). -/
def trkUpdate (c : Chip) (n : Fin 16) (p : Pair) : Chip :=
  let b := trkBand c n
  let e := errorOf p c.trk[n].phi
  let f := atanEst p.s p.c
  let inLock := c.trk[n].st = .locked
  let c := updTrk c n (fun t =>
    let t := loopPass t b.1 e
    let t := if qualifying p then addD t f (inLock && t.mode = 0) else t
    { t with bw := b.1, bwstep := b.2, j := if t.mode = 0 then b.2 else t.j, atanD := if t.ds.length = 0 then 0 else rdiv t.ds.sum (t.ds.length * 2 ^ 16) })
  let r := lockCheck c n e
  if r.2 then r.1
  else
    let c := if inLock then policyUpdate (crossCheck r.1 n) n e else r.1
    trkWrite (overspeed c n) n p.stamp

/-- A pair written into the raw ring (R243). -/
def rawWrite (c : Chip) (n : Fin 16) (p : Pair) : Chip :=
  updTrk c n (fun t =>
    if t.oneshot && t.rawFull then t
    else
      let i := t.rawCount % 128
      let q := if p.wsum = 0 then 0 else min 65535 (rdiv (p.w * p.wn * 32768 : Nat) p.wsum).toNat
      let ring := storePut (storePut t.ring (0x1000 + 16 * i) (pack [(32, 32, intBits 32 p.s), (0, 32, intBits 32 p.c)]))
        (0x1008 + 16 * i) (pack [(48, 16, q), (0, 32, p.stamp)])
      let k := (t.rawCount + 1) % 2 ^ 32
      { t with ring := ring, rawCount := k, rawTick := p.stamp, rawFull := t.rawFull || (t.oneshot && decide (128 ≤ k)) })

/-- A pair at the estimators of a channel (R242 to R259). [DEDUCED: log 39] -/
def trackPair (c : Chip) (n : Fin 16) (p : Pair) : Chip :=
  let t := c.trk[n]
  match t.st with
  | .disabled => c
  | .raw => rawWrite c n p
  | .hold | .acquiring | .locked =>
    let c := updTrk c n (fun t => { t with atanF := (rdiv (atanEst p.s p.c) (2 ^ 16)).toNat % 2 ^ 32 })
    if !c.fe[n].sigok then c
    else
      let c := if t.st = .hold then updTrk c n (trkAcquire c n) else c
      let t := c.trk[n]
      if t.valid then trkUpdate c n p
      else if qualifying p then
        let seed := t.seed ++ [(p.stamp, atanEst p.s p.c)]
        if seed.length < 16 then updTrk c n (fun t => { t with seed := seed }) else seedDone c n seed
      else c

/-- A pair that reached the estimators before the last command took hold, under the state, mode and VALID before that command (R244); the
command's own state stands. [DEDUCED: log 39] -/
def trackOld (c : Chip) (n : Fin 16) (p : Pair) (o : TrkSt × Nat × Bool) : Chip :=
  let now := c.trk[n]
  let c := trackPair (updTrk c n (fun t => { t with st := o.1, mode := o.2.1, valid := o.2.2 })) n p
  updTrk c n (fun t => { t with
    st := if now.st = o.1 then t.st else now.st, mode := now.mode, valid := if now.st = o.1 then t.valid else now.valid,
    old := if now.st = o.1 then some (t.st, o.2.1, t.valid) else t.old })

/-- The tick in which a pair's update is due, and whether the state before the last command governs it (R244, R247): in RAW when the
pair reaches the estimators, otherwise 128 ticks later. -/
def updateDue (c : Chip) (n : Fin 16) (p : Pair) : Nat × Option (TrkSt × Nat × Bool) :=
  let t := c.trk[n]
  let reach := p.stamp + 192 + 400 * chHop c n
  let o := match t.cmdTick with | some k => if reach ≤ k then t.old else none | none => none
  (if (match o with | some x => x.1 | none => t.st) = .raw then reach else reach + 128, o)

/-- The update is 128 ticks or more after the one before (R23). -/
def updateSpaced (t : Trk) (now : Nat) : Bool := match t.updTick with | some k => decide (k + 128 ≤ now) | none => true

/-- TRACKING_UPDATE (R23, R244, R247): the oldest pair on its way is used at its output tick, in RAW when it reaches the
estimators. [DEDUCED: log 39] -/
def trackingUpdate (c : Chip) (n : Fin 16) : Chip :=
  match c.fe[n].flight with
  | [] => c
  | p :: rest =>
    let d := updateDue c n p
    if feRunning c n && decide (d.1 ≤ c.tick) && updateSpaced c.trk[n] c.tick then
      let c := updTrk (updFe c n (fun f => { f with flight := rest })) n (fun t => { t with updTick := some c.tick })
      match d.2 with
      | some o => trackOld c n p o
      | none => trackPair c n p
    else c

/-! ### The bandwidth policy (R250) -/

/-- E_i at 2^-128 turn², from the variance at 2^-96 and the peak acceleration at 2^-40. -/
def policyCost (sp2 apk b : Nat) : Nat :=
  b * 168 * sp2 * 2 ^ 32 / 100000000 + apk * apk * 2 ^ 112 / (w4K * b ^ 4)

/-- The smallest usable step with the least E_i. -/
def bestStep (lo hi sp2 apk : Nat) : Nat :=
  ((List.range 32).filter (fun j => decide (lo ≤ j ∧ j ≤ hi))).foldl
    (fun best i => if policyCost sp2 apk (bwAt i) < policyCost sp2 apk (bwAt best) then i else best) lo

/-- BANDWIDTH_EVALUATION (R250): after 4096 updates in TRACK_AUTO and LOCKED. -/
def bandwidthEvaluation (c : Chip) (n : Fin 16) : Chip :=
  let t := c.trk[n]
  if t.mode = 0 ∧ t.st = .locked ∧ 4096 ≤ t.winN then
    let lo := jminOf (trkauto c n)
    let hi := jmaxOf (trkauto c n)
    let sp2 := ((t.winQ * t.winSq - t.winSum * t.winSum) / ((t.winQ * t.winQ : Nat) : Int)).toNat
    let best := bestStep lo hi sp2 t.winPk
    let now := (trkBand c n).2
    let clr (t : Trk) : Trk := { t with winN := 0, winQ := 0, winSum := 0, winSq := 0, winPk := 0 }
    if 1024 ≤ t.winQ then
      updTrk c n (fun t => clr { t with
        j := if best < now then now - 1 else best,
        policy := pack [(32, 32, min (2 ^ 32 - 1) (rdiv (isqrt sp2) (2 ^ 16)).toNat), (0, 32, min (2 ^ 32 - 1) (rdiv t.winPk (2 ^ 40)).toNat)] })
    else updTrk c n clr
  else c

/-! ### ANCHOR (R258) -/

/-- The whole electrical turns that bring MECHANG to the consistent position nearest REF, and whether that position lies
within 1/(4p) turn of it. -/
def anchorTurns (c : Chip) (n : Fin 16) (ref : Int) : Int × Bool :=
  let w := trkcfg c n
  let p := polesOf w
  let e := c.trk[n].theta - (eoffOf w : Int) * 2 ^ 16
  let x : Int := (p : Int) * ref * 2 ^ 16 - e
  let k : Int := cdiv (2 * x - 2 ^ 48) (2 * 2 ^ 48)
  let dist : Nat := (x - k * 2 ^ 48).natAbs
  (k, decide (dist * 4 ≤ 2 ^ 48))

/-- The effect of ANCHOR: E moves by k electrical turns in the next update. -/
def anchorApply (c : Chip) (n : Fin 16) (k : Int) : Chip :=
  updTrk c n (fun t => { t with theta := t.theta + k * 2 ^ 48, phi := t.phi + k * 2 ^ 48, unver := false })

/-! ### Configuration, resets, scrub -/

/-- Fields that may not change while the channel is enabled: POLES, SHAFTEN, SHAFTWH, EOFFSET (Table 8-13). -/
def trkFixed (w : Word) : Word := w &&& 0x3FB00000FFFFFFFF#64

/-- The APPLY checks of a channel's tracking words, 0 if none refuses (Table 8-13). -/
def trkCheck (c : Chip) (n : Fin 16) : Nat :=
  let w := stg c (chBase n + 0x100)
  let a := stg c (chBase n + 0x110)
  let b := fld w 47 32
  let ok (x : Nat) : Bool := decide (100 ≤ x ∧ x ≤ 4000)
  if c.trk[n].st ≠ .disabled ∧ trkFixed w ≠ trkFixed (trkcfg c n) then 0x0407
  else if fld w 63 62 = 3 ∨ (b ≠ 0 ∧ ok b = false) ∨ bwmaxOf a < bwminOf a ∨ ok (bwminOf a) = false ∨
      ok (bwmaxOf a) = false ∨ bwSteps.any (fun x => decide (bwminOf a ≤ x ∧ x ≤ bwmaxOf a)) = false then 0x0408
  else if c.isN && bit w 55 then 0x0409
  else 0

/-- The all-zero tracking state (Table 3-4). [DESIGN CHOICE: log 18] -/
def trkZero : Trk :=
  { st := .disabled, mode := 0, valid := false, div := false, unver := false, ovs := false, bwstep := 0, bw := 0,
    lockcount := 0, updcount := 0, theta := 0, phi := 0, v := 0, a := 0, elecang := 0, mechang := 0, elecspd := 0,
    mechspd := 0, elecacc := 0, outtick := 0, prevAng := 0, prevSpd := 0, prevTick := 0, outs := [], atanD := 0, atanF := 0, policy := 0,
    lockRun := 0, lossRun := 0, divRun := 0, ovsRun := 0, ds := [], winN := 0, winQ := 0, winSum := 0, winSq := 0,
    winPk := 0, j := 0, seed := [], still := 0,
    sett := { ang := 0, spd := 0, tick := 0, valid := false, verified := false, stopped := false }, rawCount := 0,
    rawFull := false, oneshot := false, rawTick := 0, ring := [], cmdTick := none, old := none, updTick := none, settNext := none }

/-- A warm or block reset of an enabled channel: HOLD, or RAW if it was RAW (Table 8-2). -/
def trkReset (t : Trk) : Trk :=
  match t.st with
  | .disabled => { trkClear t with settNext := none }
  | .raw => trkRaw { t with settNext := none } t.oneshot
  | _ => trkHold { t with settNext := none }

/-! ### Words -/

/-- Codes of tracking states (Table 8-9). -/
def trkCode (s : TrkSt) : Nat :=
  match s with
  | .disabled => 0 | .hold => 1 | .acquiring => 2 | .locked => 3 | .raw => 4

/-- TRKSTAT (Table 8-9). -/
def trkstatWord (t : Trk) : Word :=
  pack [(61, 3, trkCode t.st), (59, 2, t.mode), (58, 1, b2n t.valid), (57, 1, b2n t.div), (56, 1, b2n t.unver),
    (55, 1, b2n t.ovs), (48, 5, if t.mode = 1 then 0 else t.bwstep), (32, 16, t.bw), (16, 16, t.lockcount), (0, 16, t.updcount)]

/-- The STATUS words of a channel's tracking (Table 8-6). -/
def trkWord (c : Chip) (n : Fin 16) (off : Nat) : Word :=
  let t := c.trk[n]
  match off with
  | 0x140 => trkstatWord t
  | 0x148 => w64i t.elecang
  | 0x150 => w64i t.mechang
  | 0x158 => w64i t.elecspd
  | 0x160 => w64i t.mechspd
  | 0x168 => w64i t.elecacc
  | 0x170 => w64 t.outtick
  | 0x178 => pack [(32, 32, intBits 32 t.atanD), (0, 32, t.atanF)]
  | 0x180 => t.policy
  | 0x1C0 => w64i t.sett.ang
  | 0x1C8 => w64i t.sett.spd
  | 0x1D0 => w64 t.sett.tick
  | 0x1D8 => pack [(63, 1, b2n t.sett.valid), (62, 1, b2n t.sett.verified), (61, 1, b2n t.sett.stopped)]
  | 0x200 => pack [(32, 32, t.rawCount), (31, 1, b2n t.rawFull)]
  | 0x208 => w64 t.rawTick
  | _ => if 0x1000 ≤ off ∧ off < 0x1800 then storeGet t.ring off else 0

/-- QUAL (Table 8-10). -/
def qualOf (t : Trk) : Nat :=
  128 * b2n t.valid + 64 * b2n (t.st = .locked) + 32 * b2n t.div + 16 * b2n t.unver + 8 * b2n t.ovs +
    (if t.st = .raw then 2 else t.mode)

end Sys2Proof.Machine
end

