-- ==== Sys2Proof/Machine/Encoder.lean ====
section
/-! DEFINITION. Encoder emulation (chapter 9): targets, steps, levels, states and configuration rules. -/

namespace Sys2Proof.Machine

/-- Change an emulator. -/
def updEnc (c : Chip) (e : Fin 8) (f : Enc → Enc) : Chip := { c with enc := upd c.enc e f }
/-- Address of emulator e (R281). -/
def encBase (e : Fin 8) : Nat := objBase (.enc e)
/-- ENCCFG in force (Table 9-5). -/
def enccfg (c : Chip) (e : Fin 8) : Word := act c (encBase e)
/-- ENCROUTE in force (Table 9-6). -/
def encroute (c : Chip) (e : Fin 8) : Word := act c (encBase e + 8)
/-- SRCCH. -/
def encSrc (w : Word) : Fin 16 := ⟨fld w 63 60 % 16, Nat.mod_lt _ (by decide)⟩
/-- N, the states per mechanical turn (R266). -/
def encN (w : Word) : Nat := 4 * (fld w 47 32 + 1)
/-- MINSPACE in ticks; 0 means 16 (R271). -/
def encMinspace (w : Word) : Nat := orDef (fld w 55 48) 16
/-- LAGLIM in states; 0 means 4096 (R272). -/
def encLaglim (r : Word) : Nat := orDef (fld r 24 0) 4096
/-- SATEN. -/
def encSaten (r : Word) : Bool := bit r 55
/-- SATK. -/
def encSatk (r : Word) : Fin 4 := ⟨fld r 53 52 % 4, Nat.mod_lt _ (by decide)⟩
/-- SATSLOT. -/
def encSlot (r : Word) : Fin 2 := if bit r 48 then 1 else 0
/-- W, the width of Z in states (R269). -/
def encZW (w : Word) : Nat := 2 ^ fld w 57 56
/-- Zc (R269). -/
def encZc (w : Word) : Nat :=
  let z := fld w 31 0
  (if bit w 59 then (2 ^ 32 - z) % 2 ^ 32 else z) * encN w / 2 ^ 32

/-- Level of A for a count (Table 9-1). -/
def levelA (c : Int) : Bool := decide (c % 4 = 1 ∨ c % 4 = 2)
/-- Level of B for a count (Table 9-1). -/
def levelBq (c : Int) : Bool := decide (c % 4 = 2 ∨ c % 4 = 3)
/-- Level of Z for a count (R269). -/
def levelZ (w : Word) (c : Int) : Bool := decide ((c - encZc w) % (encN w : Int) < encZW w)

/-- Drive the levels for the count in force (R268, R269). -/
def driveLevels (w : Word) (x : Enc) : Enc := { x with leva := levelA x.cnt, levb := levelBq x.cnt, levz := levelZ w x.cnt }

/-- D of the source (R267). -/
def encDelay (c : Chip) (e : Fin 8) : Nat := 324 + 400 * chHop c (encSrc (enccfg c e))

/-- The source channel's output is VALID, and the channel is owned by the emulator's owner (R25, R275). -/
def encSrcValid (c : Chip) (e : Fin 8) : Bool :=
  c.trk[encSrc (enccfg c e)].valid && sameOwner c (ixEnc e) (ixCh (encSrc (enccfg c e)))

/-- The source's latest VALID output whose timestamp lies D ticks back or more: angle, speed, timestamp (R267).
[DEDUCED: log 35] -/
def encOutput (c : Chip) (e : Fin 8) : Option (Int × Int × Nat) :=
  let t := c.trk[encSrc (enccfg c e)]
  let d := encDelay c e
  if !encSrcValid c e then none
  else if t.outtick + d ≤ c.tick then some (t.mechang, t.mechspd, t.outtick)
  else if t.prevTick + d ≤ c.tick then some (t.prevAng, t.prevSpd, t.prevTick)
  else none

/-- The position of R266, R267 shifted by h of 2^-8 state, and rounded down to a state. -/
def encPos (c : Chip) (e : Fin 8) (o : Int × Int × Nat) (h : Int) : Int :=
  let w := enccfg c e
  let a : Int := o.1 * 160000000 + o.2.1 * ((c.tick : Int) - encDelay c e - o.2.2)
  let a := if bit w 59 then -a else a
  fdiv (a * encN w * 256 + h * (2 ^ 32 * 160000000)) (2 ^ 32 * 160000000 * 256)

/-- The new target (R267). -/
def encTarget (c : Chip) (e : Fin 8) (o : Int × Int × Nat) : Int :=
  let t := c.enc[e].tgt
  let h : Int := fld (encroute c e) 63 56
  let lo := encPos c e o (-h)
  let hi := encPos c e o h
  if t < lo then lo else if hi < t then hi else t

/-- |T − C|. -/
def encLag (x : Enc) : Nat := (x.tgt - x.cnt).natAbs

/-- One step of C toward T, if the spacing permits (R267, R271). -/
def encMove (c : Chip) (e : Fin 8) : Chip :=
  let x := c.enc[e]
  let w := enccfg c e
  if x.tgt ≠ x.cnt ∧ x.lastedge + encMinspace w ≤ c.tick ∧ x.benchhold = false then
    updEnc c e (fun x =>
      let down := decide (x.tgt < x.cnt)
      driveLevels w { x with
        cnt := if down then x.cnt - 1 else x.cnt + 1, dir := down, lastedge := c.tick,
        steps := if encSaten (encroute c e) then (x.steps.filter (fun s => decide (c.tick < s.1 + 2400))) ++ [(c.tick, down)] else [] })
  else c

/-- LAGMAX, taken from the new T before the step of the tick (R271, and worked example 1 of Chapter 9). [DEDUCED: log 35] -/
def encLagMax (c : Chip) (e : Fin 8) : Chip :=
  updEnc c e (fun x => { x with lagmax := max x.lagmax (min (encLag x) (2 ^ 32 - 1)) })

/-- LAGOVER and LAGSTOP after a step (R272, R273): while BENCHHOLD is set LAGOVER is not evaluated and the state is kept (R276). -/
def encLagCheck (c : Chip) (e : Fin 8) : Chip :=
  let x := c.enc[e]
  let lim := encLaglim (encroute c e)
  let c :=
    if x.benchhold then c
    else if !x.lagover && decide (lim < encLag x) then
      countB (updEnc c e (fun x => { x with lagover := true, lagovercnt := wrapInc16 x.lagovercnt })) (224 + 4 * e.val)
    else if x.lagover && decide (2 * encLag x ≤ lim) then updEnc c e (fun x => { x with lagover := false })
    else c
  if x.st = .running ∧ x.benchhold = false ∧ 16777216 < encLag x then
    levelB (updEnc c e (fun x => { x with st := .lagstop })) (226 + 4 * e.val) true
  else c

/-- C := T at once (Table 9-3, LOSSMODE 1); no step, so lastedge stands. -/
def encRealign (c : Chip) (e : Fin 8) : Chip :=
  notifyObj (updEnc c e (fun x => driveLevels (enccfg c e) { x with
    cnt := x.tgt, realigncnt := wrapInc16 x.realigncnt })) (ixEnc e) 20

/-- ENCODER_STEP (R267, R270, R275): the emulator's work in this tick. While BENCHHOLD is set it keeps its state and levels and computes
T (R276). [DEDUCED: log 35] -/
def encoderStep (c : Chip) (e : Fin 8) : Chip :=
  let x := c.enc[e]
  let w := enccfg c e
  if serving c && !inReset c (.obj (ixEnc e)) then
    match encOutput c e with
    | none => c
    | some o =>
      match x.st with
      | .disabled => c
      | .init =>
        if x.benchhold then c
        else
          let t := encPos c e o 0
          updEnc c e (fun x => driveLevels w { x with st := .running, tgt := t, cnt := t, lastedge := c.tick, resume := false })
      | .lost =>
        let t := encTarget c e o
        if x.benchhold then encLagMax (updEnc c e (fun x => { x with tgt := t })) e
        else
          let c := levelB (updEnc c e (fun x => { x with st := .running, tgt := t, resume := false })) (225 + 4 * e.val) false
          encLagCheck (if bit w 58 then encRealign c e else encMove (encLagMax c e) e) e
      | .lagstop => encLagCheck (encLagMax (updEnc c e (fun x => { x with tgt := encTarget c e o })) e) e
      | .running =>
        let t := encTarget c e o
        let c := updEnc c e (fun x => { x with tgt := t, resume := x.resume && x.benchhold })
        encLagCheck (if x.resume && !x.benchhold && bit w 58 then encRealign c e else encMove (encLagMax c e) e) e
  else c

/-- The states that follow from other blocks: BENCHHOLD from the second tick after the Bench decision (R276, Table 6-3), source loss
(R275), the satellite path (R279), and the level sources of the state. -/
def encState (c : Chip) (e : Fin 8) : Chip :=
  let x := c.enc[e]
  let held := outputsDown c
  let c := if x.benchhold = held then c
    else updEnc c e (fun x => { x with benchhold := held, resume := x.resume || (!held && x.st = .running) })
  let c := if x.st = .running && !encSrcValid c e then updEnc c e (fun x => { x with st := .lost }) else c
  let c := levelB (levelB c (225 + 4 * e.val) (c.enc[e].st = .lost)) (226 + 4 * e.val) (c.enc[e].st = .lagstop)
  let r := encroute c e
  let s := c.link.sats[encSatk r]
  let lost := encSaten r && !s.admitted
  let c := if lost && !x.satgap then updEnc c e (fun x => { x with satgap := true }) else c
  levelB c (227 + 4 * e.val) (lost || (encSaten r && s.drvfault.testBit (encSlot r).val))

/-- What an emulator's balls A, B and Z show (R163, R268, R277). -/
def encBalls (c : Chip) (e : Fin 8) : Ball × Ball × Ball :=
  let x := c.enc[e]
  if unpowered c then (.highZ, .highZ, .highZ) else (ballOf x.leva, ballOf x.levb, ballOf x.levz)

/-- ENABLE of an emulator (Table 9-3); LAGMAX starts anew. -/
def encEnable (c : Chip) (e : Fin 8) : Chip :=
  if c.enc[e].st = .disabled then
    updEnc c e (fun x => { x with st := .init, lagmax := 0, tgt := x.cnt, benchhold := outputsHeld c, resume := false })
  else c

/-- DISABLE and DRAINING (Table 9-3, R273): levels held, queued steps discarded. -/
def encDisable (c : Chip) (e : Fin 8) : Chip :=
  if c.enc[e].st = .disabled then c
  else
    let c := updEnc c e (fun x => { x with st := .disabled, tgt := x.cnt, lagover := false, resume := false, steps := [] })
    levelB (levelB c (225 + 4 * e.val) false) (226 + 4 * e.val) false

/-- The all-zero emulator, A, B and Z low (Table 3-4). [DESIGN CHOICE: log 18] -/
def encZero : Enc :=
  { st := .disabled, benchhold := false, resume := false, lagover := false, satgap := false, dir := false, leva := false,
    levb := false, levz := false, cnt := 0, tgt := 0, lastedge := 0, lagovercnt := 0, realigncnt := 0, lagmax := 0, steps := [] }

/-- The start of a block reset: queued satellite steps and a pending resume end; the state changes at its end (Table 9-3).
[DEDUCED: log 35] -/
def encFreeze (x : Enc) : Enc := { x with resume := false, steps := [] }

/-- A warm reset, and the end of a block reset: INIT and RUNNING become LOST (Table 9-3). [DEDUCED: log 35] -/
def encReset (x : Enc) : Enc :=
  match x.st with
  | .init | .running => { x with st := .lost, resume := false, steps := [] }
  | _ => { x with resume := false, steps := [] }

/-- L(M) (R292). -/
def laneBits (m : Nat) : Nat := 25 + 4 * (199 / m + 1)

/-- Encoder lane bits in force (R302). -/
def encBits (c : Chip) : Nat :=
  ((allFin 8).map (fun e => if encSaten (encroute c e) then laneBits (encMinspace (enccfg c e)) else 0)).sum

/-- The APPLY checks of an emulator, 0 if none refuses (R278, R280, R302). [DEDUCED: log 35] -/
def encCheck (c : Chip) (e : Fin 8) : Nat :=
  let w := stg c (encBase e)
  let r := stg c (encBase e + 8)
  let k := encSatk r
  let old := encroute c e
  let used := encBits c - (if encSaten old then laneBits (encMinspace (enccfg c e)) else 0)
  let chg := (w &&& 0xFB00FFFFFFFFFFFF#64) ≠ (enccfg c e &&& 0xFB00FFFFFFFFFFFF#64) ∨
    (r &&& 0xFFB1000000000000#64) ≠ (old &&& 0xFFB1000000000000#64)
  let m := fld w 55 48
  if sameOwner c (ixEnc e) (ixCh (encSrc w)) = false then 0x0011
  else if c.enc[e].st ≠ .disabled ∧ chg then 0x040A
  else if (1 ≤ m ∧ m ≤ 3) ∨ fld w 57 56 = 3 ∨ encN w ≤ encZW w ∨ 16777215 < fld r 24 0 then 0x040B
  else if encSaten r = false then 0
  else if sameOwner c (ixEnc e) (ixSat k) = false then 0x0011
  else if satQuarantined c k = true then 0x0019
  else if encMinspace w < 8 then 0x040C
  else if (allFin 8).any (fun x => x ≠ e && encSaten (encroute c x) && encSatk (encroute c x) = k &&
      encSlot (encroute c x) = encSlot r) = true then 0x040D
  else if c.link.sats[k].bound = false then 0x040E
  else if 160 < used + laneBits (encMinspace w) then 0x040F
  else 0

/-- CLRGAP of a word as it is kept and read: ENCROUTE bit 54 is write only, and not kept (R280, Table 9-6). [DEDUCED: log 35] -/
def clrgapOff (a : Nat) (w : Word) : Word :=
  if a / 0x1000000 = 0x0A ∧ a % 0x1000 = 8 then w &&& ~~~(1#64 <<< 54) else w

/-- The object words after the APPLY of an emulator: CLRGAP is not kept (R280). -/
def encKept (m : ObjMem) (e : Fin 8) : ObjMem :=
  let a := encBase e + 8
  (m.putActive a (clrgapOff a (storeGet m.active a))).putStaged a (clrgapOff a (storeGet m.staged a))

/-- What an APPLY of an emulator does beside writing the configuration: CLRGAP clears SATGAP (R280). -/
def encApplied (c : Chip) (e : Fin 8) : Chip :=
  if bit (encroute c e) 54 then updEnc c e (fun x => { x with satgap := false }) else c

/-- Codes of emulator states (Table 9-7). -/
def encCode (s : EncSt) : Nat :=
  match s with
  | .disabled => 0 | .init => 1 | .running => 2 | .lost => 3 | .lagstop => 4

/-- The STATUS words of an emulator (Table 9-4). -/
def encWord (c : Chip) (e : Fin 8) (off : Nat) : Word :=
  let x := c.enc[e]
  match off with
  | 0x40 => pack [(61, 3, encCode x.st), (60, 1, b2n x.benchhold), (59, 1, b2n x.lagover), (58, 1, b2n x.satgap),
      (57, 1, b2n x.dir), (56, 1, b2n x.leva), (55, 1, b2n x.levb), (54, 1, b2n x.levz),
      (0, 32, intBits 32 (clampS 32 (x.tgt - x.cnt)))]
  | 0x48 => w64i x.cnt
  | 0x50 => w64i x.tgt
  | 0x58 => w64 x.lastedge
  | 0x60 => pack [(48, 16, x.lagovercnt), (32, 16, x.realigncnt), (0, 32, x.lagmax)]
  | _ => 0

end Sys2Proof.Machine
end

