-- ==== Sys2Proof/Machine/Wheels.lean ====
section
/-! DEFINITION. Wheel inputs (chapter 11): edges, the matcher, sync states, interpolation, the Sett store, phase, LEARNTEETH. -/

namespace Sys2Proof.Machine

/-- Change a wheel. -/
def updWh (c : Chip) (w : Fin 4) (f : Wheel → Wheel) : Chip := { c with wh := upd c.wh w f }

/-! ### Configuration in force (Tables 11-8, 11-9) -/

/-- Address of wheel w (R319). -/
def whBase (w : Fin 4) : Nat := objBase (.wh w)
/-- WHCFG. -/
def whcfg (c : Chip) (w : Fin 4) : Word := act c (whBase w + 0x800)
/-- WHSYNC. -/
def whsync (c : Chip) (w : Fin 4) : Word := act c (whBase w + 0x808)
/-- WHLIM. -/
def whlim (c : Chip) (w : Fin 4) : Word := act c (whBase w + 0x810)
/-- WHPHCFG. -/
def whph (c : Chip) (w : Fin 4) : Word := act c (whBase w + 0x818)
/-- INPUT. -/
def whInput (w : Word) : Nat := fld w 63 62
/-- K, the base turns of a cycle (R320). -/
def whK (w : Word) : Nat := if bit w 60 then 2 else 1
/-- NTEETH. -/
def whTeeth (w : Word) : Nat := fld w 24 16
/-- DIRMODE. -/
def whDirmode (w : Word) : Nat := fld w 59 58
/-- DIRSRC. -/
def whDirsrc (w : Word) : Nat := fld w 55 52
/-- FILT in ticks. -/
def whFilt (w : Word) : Nat := fld w 47 36
/-- TOL; 0 means 64 (R321). -/
def whTol (w : Word) : Nat := orDef (fld w 63 56) 64
/-- MINFRAC; 0 means 64 (R321). -/
def whMinfrac (w : Word) : Nat := orDef (fld w 55 48) 64
/-- STALLK; 0 means 4 (R318). -/
def whStallk (w : Word) : Nat := orDef (fld w 47 44) 4
/-- NOQUICK. -/
def whNoquick (w : Word) : Bool := bit w 39
/-- NOSLIP. -/
def whNoslip (w : Word) : Bool := bit w 38
/-- REVLIM; 0 means 0x0CCC_CCCD (R328). -/
def whRevlim (w : Word) : Nat := orDef (fld w 63 32) 0x0CCCCCCD
/-- STALLMAX; 0 means 16 000 000 (R318). -/
def whStallmax (w : Word) : Nat := orDef (fld w 31 0) 16000000
/-- PHEN. -/
def whPhen (w : Word) : Bool := bit w 63
/-- BASEWH. -/
def whBasewh (w : Word) : Fin 4 := ⟨fld w 61 60 % 4, Nat.mod_lt _ (by decide)⟩
/-- PHLIM in 2^-16 turn; 0 means 8192 (R337). -/
def whPhlim (w : Word) : Nat := orDef (fld w 47 32) 8192
/-- Wheel w is a phase wheel on base wheel b (R335). -/
def isPhaseOf (c : Chip) (w b : Fin 4) : Bool := w ≠ b && whPhen (whph c w) && whBasewh (whph c w) = b

/-- Tooth word i in force (R319). -/
def toothW (c : Chip) (w : Fin 4) (i : Nat) : Word := act c (whBase w + 8 * i)
/-- One cycle of the wheel in 2^-32 base turn. -/
def cycleOf (c : Chip) (w : Fin 4) : Int := (whK (whcfg c w) : Int) * 2 ^ 32

/-- The angle, in 2^-32 base turn, of the edge that leaves table entry g mod NTEETH of cycle g div NTEETH as the last
entry passed: entry g going forward, entry g + 1 at POS + REVOFS in reverse (R319, R320, R327). -/
def edgeAngle (c : Chip) (w : Fin 4) (g : Int) (rev : Bool) : Int :=
  let n : Int := whTeeth (whcfg c w)
  if n = 0 then 0
  else
    let q := if rev then g + 1 else g
    let t := toothW c w (q % n).toNat
    ((q / n) * 2 ^ 32 + fld t 31 0 + if rev then sfld t 51 32 * 2 ^ 12 else 0) * whK (whcfg c w)

/-- The next entry passed in a direction. -/
def nextPost (g : Int) (rev : Bool) : Int := if rev then g - 1 else g + 1
/-- The entry passed before in a direction. -/
def prevPost (g : Int) (rev : Bool) : Int := if rev then g + 1 else g - 1
/-- The signed angle step of the interval that ends with entry g. -/
def stepTo (c : Chip) (w : Fin 4) (g : Int) (rev : Bool) : Int := edgeAngle c w g rev - edgeAngle c w (prevPost g rev) rev

/-! ### Publications (R325, R326) -/

/-- A state in which the angle is valid for consumers (Table 11-2). -/
def whValidSt (s : WhSt) : Bool :=
  match s with
  | .provisional | .synced | .stopped => true
  | .disabled | .seek | .confirm => false

/-- VALID of a wheel. -/
def whValid (c : Chip) (w : Fin 4) : Bool := whValidSt c.wh[w].st

/-- The publication at rest at an angle. -/
def restPub (t : Nat) (th : Int) (rev : Bool) : Pub := { t0 := t, th := th, vn := 0, an := 0, den := 1, nxt := th, rev := rev }

/-- The latest publication. -/
def whPub (x : Wheel) : Pub := x.pubs.headD (restPub 0 0 false)

/-- The travel from the edge after tau ticks in the direction of travel, as a fraction, unclamped (R325). -/
def pubTravel (p : Pub) (tau : Nat) : Int × Nat :=
  let vn := if p.rev then -p.vn else p.vn
  let an := if p.rev then -p.an else p.an
  if vn ≤ 0 then (0, 1)
  else if vn + an * tau ≤ 0 then (vn * vn, (2 * (-an) * p.den).toNat)
  else ((2 * vn + an * tau) * tau, 2 * p.den)

/-- The angle step to the next tooth in the direction of travel. -/
def pubLimit (p : Pub) : Int := max 0 (if p.rev then p.th - p.nxt else p.nxt - p.th)

/-- The angle at tick t in 2^-32 base turn: clamped at the next tooth, rounded under R12 (R325). -/
def pubAt (p : Pub) (t : Nat) : Int :=
  let u := pubTravel p (t - p.t0)
  let m := if pubLimit p * u.2 < u.1 then (pubLimit p, 1) else u
  rdiv (p.th * m.2 + if p.rev then -m.1 else m.1) m.2

/-- The speed at tick t in 2^-32 base turn/s (R325). -/
def pubSpeed (p : Pub) (t : Nat) : Int :=
  let tau := t - p.t0
  let vn := if p.rev then -p.vn else p.vn
  let an := if p.rev then -p.an else p.an
  let s := vn + an * tau
  let m := if vn ≤ 0 ∨ s ≤ 0 then (0, 1)
    else if 0 < tau ∧ pubLimit p * p.den < s * tau then (pubLimit p, tau) else (s, p.den)
  rdiv ((if p.rev then -m.1 else m.1) * 160000000) m.2

/-- WHANG (R325): the interpolated angle, held while no angle is valid. -/
def whTheta (c : Chip) (w : Fin 4) : Int := pubAt (whPub c.wh[w]) c.tick
/-- v (R325). -/
def whSpeed (c : Chip) (w : Fin 4) : Int := pubSpeed (whPub c.wh[w]) c.tick

/-- The publication of the latest edge whose instant does not exceed s (R335). -/
def pubBefore (x : Wheel) (s : Nat) : Option Pub := x.pubs.find? (fun p => decide (p.t0 ≤ s))

/-- Publish: publications that no stamp still in a filter can need are dropped. -/
def pushPub (x : Wheel) (now : Nat) (p : Pub) : Wheel :=
  let recent (q : Pub) : Bool := decide (now < q.t0 + 4200)
  { x with pubs := p :: (x.pubs.takeWhile recent ++ (x.pubs.dropWhile recent).take 1) }

/-- Speed and acceleration at an edge from the interval history (Table 11-4), over a common denominator, per tick. -/
def edgeMotion (h : List (Nat × Int)) : Int × Int × Nat :=
  match h with
  | [] => (0, 0, 1)
  | [(t1, d1)] => (d1, 0, t1)
  | [(t1, d1), (t2, d2)] =>
    let x := d1 * t2 - d2 * t1
    (d1 * t2 * (t1 + t2) + x * t1, 2 * x, t1 * t2 * (t1 + t2))
  | (t1, d1) :: (t2, _) :: (t3, d3) :: _ =>
    let x := d1 * t3 - d3 * t1
    let s := t1 + 2 * t2 + t3
    (d1 * t3 * s + x * t1, 2 * x, t1 * t3 * s)

/-- Publish an edge in PROVISIONAL or SYNCED, and record the jump from the angle before, if it is one (R325, R326, R330).
[DEDUCED: log 40] -/
def publishEdge (c : Chip) (w : Fin 4) (stamp : Nat) (jump : Bool) : Chip :=
  let old := whTheta c w
  updWh c w (fun x =>
    let th := edgeAngle c w x.post x.dir + x.off
    let m := edgeMotion x.hist
    let p : Pub := { t0 := stamp, th := th, vn := m.1, an := m.2.1, den := m.2.2,
                     nxt := edgeAngle c w (nextPost x.post x.dir) x.dir + x.off, rev := x.dir }
    let x := pushPub { x with
      edgeAng := th, edgeNow := true, maxang := if x.st = .synced then max x.maxang old else x.maxang,
      acc := clampS 64 (rdiv (m.2.1 * (160000000 * 160000000)) m.2.2) } c.tick p
    if jump then { x with jump := th - old, jumptick := c.tick, jumpNow := some (old, th) } else x)

/-- Hold the angle where it stands, at speed 0. [DEDUCED: log 40] -/
def holdAngle (c : Chip) (w : Fin 4) : Chip :=
  let th := whTheta c w
  updWh c w (fun x => pushPub x c.tick (restPub c.tick th x.dir))

/-- ESTANG as a fraction of 2^-32 base turn (R324). -/
def estFrac (c : Chip) (w : Fin 4) : Int × Nat :=
  let n := whTeeth (whcfg c w)
  let x := c.wh[w]
  if n = 0 then (x.estBase, 1) else (x.estBase * n + x.estN * cycleOf c w, n)

/-- ESTANG (R324): WHANG in a state with a valid angle. -/
def estAngle (c : Chip) (w : Fin 4) : Int :=
  if whValid c w then whTheta c w else let f := estFrac c w; rdiv f.1 f.2

/-! ### Consistency and the matcher (R321, R322) -/

/-- Two intervals are consistent under the angle steps that an alignment gives them (R321). -/
def ivalsAgree (tol t t' : Nat) (d d' : Int) : Bool :=
  let p := d.natAbs
  let p' := d'.natAbs
  decide (0 < p ∧ 0 < p' ∧ ((t * p' : Nat) - (t' * p : Nat) : Int).natAbs * 256 ≤ tol * t' * p) && decide (0 < d * d')

/-- Every interval is consistent with its predecessor when the latest ends at entry a (R322). -/
def chainOk (c : Chip) (w : Fin 4) (rev : Bool) (a : Int) (l : List Nat) : Bool :=
  match l with
  | t :: t' :: rest =>
    ivalsAgree (whTol (whsync c w)) t t' (stepTo c w a rev) (stepTo c w (prevPost a rev) rev) &&
    chainOk c w rev (prevPost a rev) (t' :: rest)
  | _ => true

/-- The alignments that survive. [DEDUCED: log 40] -/
def survivors (c : Chip) (w : Fin 4) (rev : Bool) (l : List Nat) : List Nat :=
  (List.range (whTeeth (whcfg c w))).filter (fun a => chainOk c w rev a l)

/-- The matcher's unique alignment. -/
def uniqueOf (l : List Nat) : Option Nat :=
  match l with
  | [a] => some a
  | _ => none

/-- The intervals with the steps of an alignment, at most three, newest first. -/
def alignHist (c : Chip) (w : Fin 4) (rev : Bool) (a : Int) (l : List Nat) : List (Nat × Int) :=
  match l with
  | [] => []
  | [t1] => [(t1, stepTo c w a rev)]
  | [t1, t2] => [(t1, stepTo c w a rev), (t2, stepTo c w (prevPost a rev) rev)]
  | t1 :: t2 :: t3 :: _ =>
    [(t1, stepTo c w a rev), (t2, stepTo c w (prevPost a rev) rev), (t3, stepTo c w (prevPost (prevPost a rev) rev) rev)]

/-- An interval is below MINFRAC of the expected one (R321). -/
def tooShort (mf t t' : Nat) (d d' : Int) : Bool := decide (t * 256 * d'.natAbs < mf * d.natAbs * t')

/-- An edge is noise (R321): in SEEK, under every surviving alignment, or under every alignment where none survives.
[DEDUCED: log 40] -/
def isNoise (c : Chip) (w : Fin 4) (rev : Bool) (t : Nat) : Bool :=
  let x := c.wh[w]
  let mf := whMinfrac (whsync c w)
  match x.st with
  | .seek =>
    (match x.ivals with
      | [] => false
      | t' :: _ =>
        let l := survivors c w rev x.ivals
        let l := if l.isEmpty then List.range (whTeeth (whcfg c w)) else l
        !l.isEmpty && l.all (fun a => tooShort mf t t' (stepTo c w (nextPost a rev) rev) (stepTo c w a rev)))
  | .confirm | .provisional | .synced =>
    (match x.hist with
      | [] => false
      | (t', d') :: _ => tooShort mf t t' (stepTo c w (nextPost x.post rev) rev) d')
  | .disabled | .stopped => false

/-- An aligned edge is consistent (R321). -/
def edgeConsistent (c : Chip) (w : Fin 4) (t : Option Nat) (d : Int) : Bool :=
  match t, c.wh[w].hist with
  | some t, (t', d') :: _ => ivalsAgree (whTol (whsync c w)) t t' d d'
  | _, _ => true

/-! ### State moves (Table 11-3) -/

/-- Leave the states with a valid angle: the angle holds and ESTANG goes on from it (R324). [DEDUCED: log 40] -/
def leaveValid (c : Chip) (w : Fin 4) : Chip :=
  if whValid c w then
    let th := whTheta c w
    updWh (holdAngle c w) w (fun x => { x with estBase := th, estN := 0 })
  else c

/-- SEEK is entered: the matcher restarts with the given intervals (R322, R329). -/
def toSeek (c : Chip) (w : Fin 4) (iv : List Nat) : Chip :=
  updWh (leaveValid c w) w (fun x => { x with st := .seek, ivals := iv, hist := [], quick := false, confcyc := 0, confN := 0 })

/-- CONFIRM is entered with an alignment. -/
def toConfirm (c : Chip) (w : Fin 4) (a : Nat) : Chip :=
  updWh (leaveValid c w) w (fun x => { x with
    st := .confirm, confcyc := 0, confN := 0, quick := false, post := a, idx := a, off := 0,
    hist := alignHist c w x.dir a x.ivals })

/-- The aligned edge becomes the latest one. -/
def advancePost (c : Chip) (w : Fin 4) (g : Int) (t : Option Nat) (d : Int) : Chip :=
  let n : Int := whTeeth (whcfg c w)
  updWh c w (fun x => { x with
    post := g, idx := (g % n).toNat,
    hist := match t with | some t => ((t, d) :: x.hist).take 3 | none => x.hist })

/-- SYNCED from CONFIRM: the latest edge's entry in the cycle nearest to ESTANG, the lower on a tie (R324). -/
def syncFromConfirm (c : Chip) (w : Fin 4) (stamp : Nat) : Chip :=
  let x := c.wh[w]
  let n := whTeeth (whcfg c w)
  let p := x.post % (n : Int)
  let f := estFrac c w
  let cyc := cycleOf c w
  let m := cdiv (2 * (f.1 - edgeAngle c w p x.dir * f.2) - cyc * f.2) (2 * cyc.toNat * f.2)
  let c := updWh c w (fun x => { x with
    st := .synced, post := m * n + p, off := 0, gains := wrapInc16 x.gains, quick := false, confN := 0 })
  let c := publishEdge c w stamp true
  notifyObj (updWh c w (fun x => { x with maxang := x.edgeAng, revover := false })) (ixWh w) 24

/-- An edge in CONFIRM. -/
def confirmEdge (c : Chip) (w : Fin 4) (stamp : Nat) (t : Option Nat) : Chip :=
  let x := c.wh[w]
  let g := nextPost x.post x.dir
  let d := stepTo c w g x.dir
  let c := updWh c w (fun x => { x with estN := if x.dir then x.estN - 1 else x.estN + 1 })
  if edgeConsistent c w t d = false then toSeek c w []
  else
    let c := advancePost c w g t d
    if whTeeth (whcfg c w) ≤ x.confN + 1 then
      let c := updWh c w (fun x => { x with confN := 0, confcyc := x.confcyc + 1 })
      if 2 ≤ x.confcyc + 1 then syncFromConfirm c w stamp else c
    else updWh c w (fun x => { x with confN := x.confN + 1 })

/-- An edge in SEEK. -/
def seekEdge (c : Chip) (w : Fin 4) : Chip :=
  let c := updWh c w (fun x => { x with estN := if x.dir then x.estN - 1 else x.estN + 1 })
  let x := c.wh[w]
  match uniqueOf (survivors c w x.dir x.ivals) with
  | some a => toConfirm c w a
  | none => c

/-- The shift of the latest edge that makes the last three intervals consistent, if exactly one does (R329). [DEDUCED: log 40] -/
def slipShift (c : Chip) (w : Fin 4) (t : Nat) : Option Int :=
  let x := c.wh[w]
  let tol := whTol (whsync c w)
  let older : Bool :=
    match x.hist with
    | (t1, d1) :: (t2, d2) :: _ => ivalsAgree tol t1 t2 d1 d2
    | _ => true
  let ok (g : Int) : Bool :=
    older && edgeConsistent c w (some t) (edgeAngle c w g x.dir - edgeAngle c w x.post x.dir)
  let g := nextPost x.post x.dir
  match ok (g + 1), ok (g - 1) with
  | true, false => some (g + 1)
  | false, true => some (g - 1)
  | _, _ => none

/-- An edge in SYNCED (Table 11-3, R329). -/
def syncedEdge (c : Chip) (w : Fin 4) (stamp : Nat) (t : Option Nat) : Chip :=
  let x := c.wh[w]
  let g := nextPost x.post x.dir
  let d := stepTo c w g x.dir
  let drop (c : Chip) : Chip :=
    countB (toSeek (updWh c w (fun x => { x with drops := wrapInc16 x.drops })) w (x.ivals.take 2)) (289 + 8 * w.val)
  if edgeConsistent c w t d then publishEdge (advancePost c w g t d) w stamp false
  else if whNoslip (whsync c w) then drop c
  else
    match t with
    | none => drop c
    | some t =>
      match slipShift c w t with
      | none => drop c
      | some g =>
        let c := advancePost c w g (some t) (edgeAngle c w g x.dir - edgeAngle c w x.post x.dir)
        let c := publishEdge (updWh c w (fun x => { x with slips := wrapInc16 x.slips })) w stamp true
        countB c (288 + 8 * w.val)

/-- An edge in PROVISIONAL (R334). -/
def provEdge (c : Chip) (w : Fin 4) (stamp : Nat) (t : Option Nat) : Chip :=
  let x := c.wh[w]
  let n : Int := whTeeth (whcfg c w)
  let g := nextPost x.post x.dir
  let d := stepTo c w g x.dir
  let u := uniqueOf (survivors c w x.dir x.ivals)
  let agrees : Bool := u = some (g % n).toNat
  if edgeConsistent c w t d = false ∨ (u.isSome = true ∧ agrees = false) then
    let c := countB c (292 + 8 * w.val)
    match u with
    | some a => toConfirm c w a
    | none => toSeek c w []
  else
    let c := publishEdge (advancePost c w g t d) w stamp false
    if agrees then
      notifyObj (updWh c w (fun x => { x with st := .synced, quick := true, maxang := x.edgeAng, revover := false })) (ixWh w) 24
    else c

/-- The count and offset that carry the table on from the Sett entry (R333). -/
def settPlace (c : Chip) (w : Fin 4) : Int × Int :=
  let s := c.wh[w].sett
  let n : Int := whTeeth (whcfg c w)
  let i : Int := (s.idx : Int) % n
  let rel := edgeAngle c w i s.dir
  let m := rdiv (s.ang - rel) (cycleOf c w).toNat
  (m * n + i, s.ang - rel - m * cycleOf c w)

/-- An edge seen while the input stage watches: MOVED, in the wheel's entry and its phase wheels' (R332). -/
def watchEdge (c : Chip) (w : Fin 4) : Chip :=
  let c := updWh c w (fun x => { x with sett := { x.sett with moved := true, movecount := satInc16 x.sett.movecount } })
  (allFin 4).foldl (fun c p =>
    if isPhaseOf c p w then updWh c p (fun x => { x with sett := { x.sett with moved := true } }) else c) c

/-- The conditions of a quick start at the first edge in STOPPED (R333). -/
def quickOk (c : Chip) (w : Fin 4) : Bool :=
  let x := c.wh[w]
  let b := c.wh[whBasewh (whph c w)].st
  !whNoquick (whsync c w) && !x.sett.moved && decide (0 < whTeeth (whcfg c w)) &&
  (!whPhen (whph c w) || b = .provisional || b = .synced)

/-- An edge in STOPPED (R333). [DEDUCED: log 40] -/
def stoppedEdge (c : Chip) (w : Fin 4) (stamp : Nat) : Chip :=
  if quickOk c w then
    let p := settPlace c w
    let n : Int := whTeeth (whcfg c w)
    let ph := whPhen (whph c w)
    let c := updWh c w (fun x =>
      let g := nextPost p.1 x.dir
      { x with
        st := .provisional, hist := [], ivals := [], quick := false, post := g, idx := (g % n).toNat, off := p.2,
        phsync := if ph then x.sett.phsync else x.phsync, engpar := if ph then x.sett.engpar else x.engpar,
        phStarted := ph && x.sett.phsync, phLast := if ph && x.sett.phsync then some x.sett.engpar else none })
    notifyObj (publishEdge c w stamp true) (ixWh w) 26
  else
    toSeek (watchEdge c w) w []

/-! ### Direction (R327) -/

/-- The direction source is VALID, and the sign of its speed by the rule of R327: 1 forward, 2 reverse, 0 none. -/
def dirSource (c : Chip) (w : Fin 4) (stamp : Nat) : Bool × Nat :=
  let g := whcfg c w
  let sgn (v : Int) : Nat := if 0 < v then 1 else if v < 0 then 2 else 0
  if whDirmode g = 1 then
    let n : Fin 16 := ⟨whDirsrc g % 16, Nat.mod_lt _ (by decide)⟩
    let ok := c.trk[n].valid && sameOwner c (ixWh w) (ixCh n)
    (ok, match c.trk[n].outs.find? (fun o => decide (o.1 ≤ stamp)) with
      | some o => if ok then sgn o.2.2 else 0
      | none => 0)
  else
    let n : Fin 4 := ⟨whDirsrc g % 4, Nat.mod_lt _ (by decide)⟩
    let ok := whValid c n && sameOwner c (ixWh w) (ixWh n)
    (ok, if ok && whSpeed c n ≠ 0 then (if c.wh[n].dir then 2 else 1) else 0)

/-- The direction of an edge and whether it is unknown. -/
def dirOf (c : Chip) (w : Fin 4) (stamp : Nat) : Bool × Bool :=
  let g := whcfg c w
  if whDirmode g = 0 then (false, false)
  else
    match (dirSource c w stamp).2 with
    | 0 => (c.wh[w].dir, true)
    | 1 => (bit g 57, false)
    | _ => (!bit g 57, false)

/-! ### Phase (R335 to R337) -/

/-- The measurement of an accepted phase edge, made while both wheels are VALID. [DEDUCED: log 40] -/
def phaseMeasure (c : Chip) (w : Fin 4) (stamp : Nat) : Chip :=
  let g := whph c w
  let b := whBasewh g
  let x := c.wh[w]
  let n : Int := whTeeth (whcfg c w)
  if whPhen g && whValid c w && whValid c b && decide (0 < n) then
    match pubBefore c.wh[b] stamp with
    | none => c
    | some p =>
      let i := (((if x.dir then x.post + 1 else x.post) % n)).toNat
      let v : Int := pubAt p stamp - 2 * (fld (toothW c w i) 31 0 : Int) - sfld g 31 0
      let r : Int := (v + 2 ^ 31) / 2 ^ 32
      let phi := v - r * 2 ^ 32
      let par : Bool := decide (r % 2 = 1)
      let both := x.st = .synced && c.wh[b].st = .synced
      let bad := x.phsync && par ≠ x.engpar
      let sets := !x.phsync && both && x.phLast = some par
      let synced := (x.phsync && !bad) || sets
      let far := decide (whPhlim g * 2 ^ 16 < phi.natAbs)
      let start := sets || !x.phStarted
      let phf := if !synced || far then x.phf
        else if start then phi else x.phf + rdiv (phi - x.phf) (2 ^ fld g 59 56)
      let c := updWh c w (fun x => { x with
        phi := phi, phf := phf, phsync := synced, engpar := if sets then par else x.engpar,
        phStarted := synced && (if sets then !far else (x.phStarted || !far)),
        phLast := if both then some par else none })
      let c := if sets then notifyObj c (ixWh w) 27 else c
      let c := if bad then countB c (293 + 8 * w.val) else c
      if far then countB c (293 + 8 * w.val) else c
  else if whPhen g then updWh c w (fun x => { x with phLast := none })
  else c

/-! ### The Sett store (R331) -/

/-- The Sett entry of an accepted edge in PROVISIONAL or SYNCED, which the next tick writes (Table 11-1). -/
def writeSett (c : Chip) (w : Fin 4) (stamp : Nat) : Chip :=
  let ph := whPhen (whph c w)
  updWh c w (fun x =>
    if x.st = .provisional ∨ x.st = .synced then
      { x with settNext := some { x.sett with
          ang := x.edgeAng, tick := stamp, idx := x.idx, dir := x.dir, prov := x.st = .provisional,
          valid := true, stopped := false, moved := false, phsync := ph && x.phsync, engpar := ph && x.engpar } }
    else x)

/-- The entry that is due is written (R331). -/
def settDue (x : Wheel) : Wheel :=
  match x.settNext with
  | some s => { x with sett := s, settNext := none }
  | none => x

/-! ### Edges at the input (R316, R317, R321) -/

/-- The crossing counts: a VR comparator must be armed (R316). opp is the greatest level in the opposite polarity since
the previous crossing, in mV at the ball. -/
def vrArmed (c : Chip) (w : Fin 4) (opp : Nat) : Bool :=
  let g := whcfg c w
  let floor := 2560 * orDef (fld g 7 0) 20
  match c.wh[w].peak with
  | none => decide (floor < opp * 256)
  | some p => decide (max floor (orDef (fld g 15 8) 0x60 * p) < opp * 256)

/-- An accepted edge (R321) by state. -/
def acceptedEdge (c : Chip) (w : Fin 4) (stamp : Nat) (rev unk : Bool) (t : Option Nat) : Chip :=
  let n := whTeeth (whcfg c w)
  let c := updWh c w (fun x => { x with
    dir := rev, dirKnown := true, dirunk := unk, dirBad := false, stall := false, edges := wrapInc32 x.edges, last := some stamp,
    edgeTick := stamp, edgeNow := true,
    ivals := (match t with | some t => (t :: x.ivals).take (n + 1) | none => []),
    hist := (match t with | some _ => x.hist | none => []),
    per1 := (match t with | some t => min t 4294967295 | none => x.per1),
    per2 := (match t with | some _ => x.per1 | none => x.per2) })
  let c := match c.wh[w].st with
    | .disabled => c
    | .seek => seekEdge c w
    | .confirm => confirmEdge c w stamp t
    | .provisional => provEdge c w stamp t
    | .synced => syncedEdge c w stamp t
    | .stopped => stoppedEdge c w stamp
  writeSett (phaseMeasure c w stamp) w stamp

/-- An edge of a running wheel: the noise test, then acceptance (R321). -/
def runningEdge (c : Chip) (w : Fin 4) (stamp : Nat) : Chip :=
  let x := c.wh[w]
  let d := dirOf c w stamp
  let turned := x.dirKnown && d.1 ≠ x.dir
  let t : Option Nat := if turned then none else x.last.map (fun l => max 1 (stamp - l))
  let noise := match t with | some t => isNoise c w d.1 t | none => false
  if noise then countB (updWh c w (fun x => { x with rejects := wrapInc16 x.rejects })) (291 + 8 * w.val)
  else acceptedEdge c w stamp d.1 d.2 t

/-- The wheel's state machine runs (R342, Table 6-3). -/
def whRunning (c : Chip) (w : Fin 4) : Bool :=
  serving c && !inReset c (.obj (ixWh w)) && c.wh[w].st ≠ .disabled

/-- The input stage watches (R332). -/
def whWatched (c : Chip) (w : Fin 4) : Bool :=
  c.wh[w].sett.stopped && (!whRunning c w || c.wh[w].st = .stopped)

/-- An active edge passes the input filter in this tick (R315 to R317); none of a wheel in transit (R91): lag 0 to 2 places its stamp in the synchroniser's
range; opp and pk are the VR levels of R316 in mV. [DEDUCED: log 40] -/
def inputEdge (c : Chip) (w : Fin 4) (lag : Fin 3) (opp pk : Nat) : Chip :=
  let g := whcfg c w
  let vr := whInput g = 2
  if !c.isN && !c.pw.lfclk && !inTransit c (ixWh w) && (serving c || c.pw.state = .boot) && decide (whInput g = 1 ∨ (vr ∧ vrArmed c w opp = true)) then
    let c := if vr then updWh c w (fun x => { x with peak := some pk }) else c
    if whRunning c w then runningEdge c w (c.tick - (5 + whFilt g + lag.val))
    else if whWatched c w then watchEdge c w
    else c
  else c

/-! ### Stall (R318) -/

/-- The stall condition at this tick. [DEDUCED: log 40] -/
def stallDue (c : Chip) (w : Fin 4) : Bool :=
  let x := c.wh[w]
  match x.last with
  | none => false
  | some l =>
    let el := c.tick - l
    let p := whPub x
    decide (whStallmax (whlim c w) ≤ el) ||
    ((x.st = .provisional || x.st = .synced) && !x.hist.isEmpty && decide (p.vn ≠ 0) &&
      decide (whStallk (whsync c w) * ((p.nxt - p.th).natAbs * p.den) ≤ el * p.vn.natAbs))

/-- The shaft has stalled (R318, R331). -/
def wheelStall (c : Chip) (w : Fin 4) : Chip :=
  if whRunning c w && c.wh[w].st ≠ .stopped && stallDue c w then
    let st := c.wh[w].st
    let c := if st = .provisional ∨ st = .synced then holdAngle c w else c
    let c := updWh c w (fun x => { x with hist := [], ivals := [], last := none, stall := true })
    match st with
    | .provisional | .synced =>
      let c := updWh c w (fun x => let x := settDue x; { x with st := .stopped, sett := { x.sett with stopped := true } })
      if st = .synced then notifyObj c (ixWh w) 25 else c
    | _ => toSeek c w []
  else c

/-! ### ENABLE, DISABLE, resets, scrub (Table 11-3) -/

/-- The first row's conditions. -/
def settStart (c : Chip) (w : Fin 4) : Bool :=
  let s := c.wh[w].sett
  s.valid && s.stopped && !s.moved && !whNoquick (whsync c w) && decide (0 < whTeeth (whcfg c w))

/-- STOPPED at SETTWANG, or SEEK. -/
def whStart (c : Chip) (w : Fin 4) : Chip :=
  let c := updWh c w (fun x => { x with
    hist := [], ivals := [], last := none, confN := 0, dirKnown := false, quick := false })
  if settStart c w then
    let p := settPlace c w
    updWh c w (fun x => pushPub { x with
      st := .stopped, dir := x.sett.dir, dirKnown := true, idx := x.sett.idx, post := p.1, off := p.2 } c.tick
      (restPub c.tick x.sett.ang x.sett.dir))
  else toSeek c w []

/-- ENABLE (Table 11-3); no row for a wheel that is not DISABLED. -/
def whEnable (c : Chip) (w : Fin 4) : Chip := if c.wh[w].st = .disabled then whStart c w else c

/-- DISABLE and DRAINING (Table 11-3, R342): ESTANG keeps its value; the duplicate is rewritten. -/
def whDisable (c : Chip) (w : Fin 4) : Chip :=
  let e := estAngle c w
  let c := if whValid c w then holdAngle c w else c
  updWh c w (fun x => { x with
    st := .disabled, hist := [], ivals := [], last := none, confcyc := 0, confN := 0, dirKnown := false, quick := false,
    estBase := e, estN := 0, mismatch := false, phsync := false, phStarted := false, phLast := none })

/-- A LEARNTEETH of the wheel has passed checkpoint 2: what it recorded is kept for its fit (R339). [DEDUCED: log 50] -/
def learnKept (c : Chip) (w : Fin 4) : Bool :=
  c.wb.entries.any (fun e => opcodeOf e = 0x13 && targetOf e = 16 + w.val && e.state ≠ .retired && e.ckpt = 2)

/-- A warm reset, or the start of a block reset: what is not a STATUS word or the Sett entry is lost (R343); VALID clears,
and PHSYNC with it (R336, R360). -/
def whReset (c : Chip) (w : Fin 4) : Chip :=
  let c := if whValid c w then holdAngle c w else c
  updWh c w (fun x => { x with
    hist := [], ivals := [], last := none, dirBad := false, jumpNow := none, edgeNow := false, settNext := none,
    phsync := false, phStarted := false, phLast := none,
    learn := if learnKept c w then x.learn else { run := false, t0 := 0, cyc0 := 0, pend := [], recs := [], bad := false } })

/-- The end of BOOT, or of a block reset, for a wheel that is not DISABLED. -/
def whResume (c : Chip) (w : Fin 4) : Chip := if c.wh[w].st = .disabled then c else whStart c w

/-- The all-zero wheel (Tables 3-4, 11-3). [DESIGN CHOICE: log 18] -/
def whZero : Wheel :=
  { st := .disabled, dir := false, dirKnown := false, stall := false, phsync := false, engpar := false, revover := false,
    quick := false, dirunk := false, dirBad := false, confcyc := 0, idx := 0, edges := 0, last := none, ivals := [], hist := [],
    post := 0, off := 0, confN := 0, pubs := [], edgeAng := 0, edgeTick := 0, acc := 0, per1 := 0, per2 := 0, phf := 0,
    phi := 0, phStarted := false, phLast := none, slips := 0, gains := 0, rejects := 0, drops := 0, jump := 0,
    jumptick := 0, estBase := 0, estN := 0, maxang := 0, peak := none, inBad := false, mismatch := false,
    sett := { ang := 0, tick := 0, valid := false, stopped := false, moved := false, dir := false, prov := false,
              phsync := false, engpar := false, idx := 0, movecount := 0 }, settNext := none,
    learnStat := 0, learnTick := 0, learnTab := [],
    learn := { run := false, t0 := 0, cyc0 := 0, pend := [], recs := [], bad := false }, jumpNow := none, edgeNow := false }

/-- MOVED in the entries that the motion comparator does not cover, at entry into SLEEP or BACKUP (R332). -/
def whStay (c : Chip) : Chip :=
  let on := c.pw.motionen && !c.isN
  let m := c.pw.motionwh
  (allFin 4).foldl (fun c w =>
    if c.wh[w].sett.stopped && !(on && (w = m || isPhaseOf c w m)) then
      updWh c w (fun x => { x with sett := { x.sett with moved := true } })
    else c) c

/-- The comparator's first qualified edge on MOTIONWH (R181, R332). -/
def whMotion (c : Chip) (m : Fin 4) : Chip :=
  (allFin 4).foldl (fun c w =>
    if w = m ∨ isPhaseOf c w m = true then updWh c w (fun x => { x with sett := { x.sett with moved := true } }) else c) c

/-! ### APPLY (R341) -/

/-- A field that may change only while the wheel is DISABLED changes. -/
def whFixedChange (c : Chip) (w : Fin 4) : Bool :=
  let b := whBase w
  let g := stg c (b + 0x800)
  let h := whcfg c w
  let m : Word := 0xFEF0000001FF0000#64
  decide (g &&& m ≠ h &&& m) || decide (stg c (b + 0x818) &&& 0xB000000000000000#64 ≠ whph c w &&& 0xB000000000000000#64) ||
  (List.range (min 256 (max (whTeeth g) (whTeeth h)))).any (fun i => stg c (b + 8 * i) ≠ act c (b + 8 * i))

/-- Tooth positions rise strictly. -/
def risingTeeth (c : Chip) (b : Nat) (n : Nat) : Bool :=
  (List.range (n - 1)).all (fun i => decide (fld (stg c (b + 8 * i)) 31 0 < fld (stg c (b + 8 * (i + 1))) 31 0))

/-- The APPLY checks of a wheel, 0 if none refuses (R341, R335). -/
def whCheck (c : Chip) (w : Fin 4) : Nat :=
  let b := whBase w
  let g := stg c (b + 0x800)
  let p := stg c (b + 0x818)
  let dm := whDirmode g
  let ds := whDirsrc g
  let bw := whBasewh p
  let i := ixWh w
  let dirBad : Bool :=
    if dm = 1 then !sameOwner c i (ixCh ⟨ds % 16, Nat.mod_lt _ (by decide)⟩)
    else if dm = 2 ∧ ds ≠ w.val then (match fin? 4 ds with | some n => !sameOwner c i (ixWh n) | none => true)
    else false
  let inp := whInput g
  if dirBad = true ∨ (whPhen p = true ∧ bw ≠ w ∧ sameOwner c i (ixWh bw) = false) then 0x0011
  else if inp = 3 ∨ (inp = 0 ∧ g ≠ 0) ∨ dm = 3 ∨ (dm = 2 ∧ ds = w.val) ∨ fld (stg c (b + 0x808)) 47 44 = 1 then 0x0412
  else if c.wh[w].st ≠ .disabled ∧ whFixedChange c w = true then 0x0413
  else if 256 < whTeeth g ∨ risingTeeth c b (whTeeth g) = false then 0x0414
  else if whPhen p = true ∧ (bit g 60 = false ∨ bw = w ∨ bit (whcfg c bw) 60 = true) then 0x0415
  else 0

/-! ### LEARNTEETH (R338 to R340) -/

/-- The reference is VALID, or SYNCED for a wheel. -/
def learnRefOk (c : Chip) (e : Entry) : Bool :=
  let r := fld e.cmdb 59 56
  if fld e.cmdb 63 62 = 0 then c.trk[(⟨r % 16, Nat.mod_lt _ (by decide)⟩ : Fin 16)].valid
  else
    let n : Fin 4 := ⟨r % 4, Nat.mod_lt _ (by decide)⟩
    c.wh[n].st = .synced && !bit (whcfg c n) 60

/-- The reference belongs to the command's client (R25). -/
def learnRefOwned (c : Chip) (e : Entry) : Bool :=
  let r := fld e.cmdb 59 56
  if fld e.cmdb 63 62 = 0 then ownerOf c (ixCh ⟨r % 16, Nat.mod_lt _ (by decide)⟩) = some e.client
  else match fin? 4 r with
    | some n => ownerOf c (ixWh n) = some e.client
    | none => false

/-- Linear interpolation between the two outputs that bracket s. -/
def bracket (l : List (Nat × Int × Int)) (s : Nat) : Option Int :=
  match l with
  | (t1, a1, _) :: (t0, a0, v0) :: rest =>
    if t0 ≤ s ∧ s ≤ t1 ∧ t0 < t1 then some (a0 + rdiv ((a1 - a0) * ((s : Int) - t0)) (t1 - t0))
    else bracket ((t0, a0, v0) :: rest) s
  | _ => none

/-- The reference angle at a stamp, in 2^-32 turn. -/
def learnRefAt (c : Chip) (e : Entry) (s : Nat) : Option Int :=
  let r := fld e.cmdb 59 56
  if fld e.cmdb 63 62 = 0 then bracket c.trk[(⟨r % 16, Nat.mod_lt _ (by decide)⟩ : Fin 16)].outs s
  else (pubBefore c.wh[(⟨r % 4, Nat.mod_lt _ (by decide)⟩ : Fin 4)] s).map (fun p => pubAt p s)

/-- The reference angle now. -/
def learnRefNow (c : Chip) (e : Entry) : Int :=
  let r := fld e.cmdb 59 56
  if fld e.cmdb 63 62 = 0 then c.trk[(⟨r % 16, Nat.mod_lt _ (by decide)⟩ : Fin 16)].mechang
  else whTheta c ⟨r % 4, Nat.mod_lt _ (by decide)⟩

/-- A reference angle relative to the cycle origin, in 2^-32 base turn: the cycle and the angle within it (R338). -/
def learnFrac (c : Chip) (w : Fin 4) (e : Entry) (a : Int) : Int × Int :=
  let k := whK (whcfg c w)
  let x := c.wh[w]
  let p : Int := if k = 2 ∧ x.phsync = true ∧ x.engpar = true then 2 ^ 32 else 0
  let y := a - (fld e.cmdb 31 0 : Int) * k - p
  (y / cycleOf c w, y % cycleOf c w)

/-- LCYC; 0 means 4 (Table 11-10). -/
def learnCycles (e : Entry) : Nat := orDef (fld e.cmdb 39 32) 4
/-- LTIMEOUT in ticks; 0 means 1526 units (Table 11-10). -/
def learnTimeout (e : Entry) : Nat := orDef (fld e.cmdc 63 32) 1526 * 2 ^ 20
/-- LSPREAD; 0 means 0x0083_126F (R340). -/
def learnSpread (e : Entry) : Nat := orDef (fld e.cmdc 31 0) 0x0083126F

/-- The LEARNTEETH that collects on a wheel. [DEDUCED: log 40] -/
def learnEntry (c : Chip) (w : Fin 4) : Option Entry :=
  c.wb.entries.find? (fun e => opcodeOf e = 0x13 && targetOf e = 16 + w.val && e.state = .active && e.ckpt = 1)

/-- The collection of R339 in this step: it begins anew after a resume, records the accepted edge, and notes a loss of
the reference or a reverse edge. -/
def learnState (c : Chip) (w : Fin 4) : Chip :=
  let x := c.wh[w]
  match learnEntry c w with
  | none => if x.learn.run && !learnKept c w then updWh c w (fun x => { x with learn := { x.learn with run := false, pend := [], recs := [] } }) else c
  | some e =>
    let l : Learn :=
      if x.learn.run then
        { x.learn with pend := if x.edgeNow && decide (x.learn.t0 ≤ x.edgeTick) then x.learn.pend ++ [x.edgeTick] else x.learn.pend,
                       bad := x.learn.bad || (x.edgeNow && x.dir) }
      else { run := true, t0 := c.tick, cyc0 := (learnFrac c w e (learnRefNow c e)).1 + 1, pend := [], recs := [], bad := false }
    let l := { l with bad := l.bad || !learnRefOk c e }
    let known := l.pend.filterMap (fun s => (learnRefAt c e s).map (learnFrac c w e))
    let l := { l with
      pend := l.pend.filter (fun s => (learnRefAt c e s).isNone),
      recs := l.recs ++ known.filter (fun p => decide (l.cyc0 ≤ p.1 ∧ p.1 < l.cyc0 + learnCycles e)) }
    updWh c w (fun x => { x with learn := l })

/-- Insert into a rising list. -/
def insertInt (x : Int) (l : List Int) : List Int :=
  match l with
  | [] => [x]
  | y :: t => if x ≤ y then x :: y :: t else y :: insertInt x t

/-- The recorded angles of one cycle, rising. -/
def cycleRecs (l : Learn) (m : Int) : List Int :=
  ((l.recs.filter (fun p => p.1 = m)).map (·.2)).foldl (fun a x => insertInt x a) []

/-- The fit of R340: its refusal detail, or the entries and the largest spread. -/
def learnFit (c : Chip) (w : Fin 4) (e : Entry) : Nat × List Nat × Nat :=
  let l := c.wh[w].learn
  let k := whK (whcfg c w)
  let m := learnCycles e
  let cs := (List.range m).map (fun (i : Nat) => cycleRecs l (l.cyc0 + (i : Int)))
  let n := (cs.headD []).length
  let lim : Int := (learnSpread e : Int) * k
  let near : Bool := cs.any (fun q => q.any (fun p => decide (p ≤ lim ∨ cycleOf c w - p ≤ lim)))
  if near = true ∨ cs.any (fun q => decide (q.length ≠ n)) = true then (0x1305, [], 0)
  else if 256 < n then (0x1306, [], 0)
  else
    let col (j : Nat) : List Int := cs.map (fun q => q.getD j 0)
    let spread (j : Nat) : Int := (col j).foldl max (cs.headD [] |>.getD j 0) - (col j).foldl min (cs.headD [] |>.getD j 0)
    let big := (List.range n).foldl (fun a j => max a (spread j)) 0
    if lim < big then (0x1307, [], 0)
    else (0, (List.range n).map (fun j => (rdiv (col j).sum (m * k)).toNat), (rdiv big k).toNat)

/-- Enter the fitted positions in LEARNTAB. -/
def putLearn (s : Store) (j : Nat) (l : List Nat) : Store :=
  match l with
  | [] => s
  | p :: t => putLearn (storePut s j (w64 (p % 2 ^ 32))) (j + 1) t

/-- One step of LEARNTEETH (Table 11-5). -/
def learnStep (c : Chip) (e : Entry) (w : Fin 4) : Chip × LStep :=
  let l := c.wh[w].learn
  match e.ckpt with
  | 0 =>
    if c.wh[w].st = .disabled then (c, .final 1 stRefused 0x1301 0)
    else if learnRefOwned c e = false then (c, .final 1 stRefused 0x0011 0)
    else if learnRefOk c e = false then (c, .final 1 stRefused 0x1302 0)
    else (c, .pass 1)
  | 1 =>
    if !l.run then (c, .none)
    else if l.bad then (c, .final 2 stRefused 0x1303 0)
    else if l.cyc0 + learnCycles e ≤ (learnFrac c w e (learnRefNow c e)).1 ∧ l.pend = [] then (c, .pass 2)
    else if l.t0 + learnTimeout e ≤ c.tick then (c, .final 2 stRefused 0x1304 0)
    else (c, .none)
  | _ =>
    let f := learnFit c w e
    if f.1 ≠ 0 then (c, .final 3 stFaulted f.1 0)
    else
      let n := f.2.1.length
      (updWh c w (fun x => { x with
          learnTab := putLearn x.learnTab 0 f.2.1, learnTick := c.tick,
          learnStat := pack [(63, 1, 1), (32, 9, n), (0, 32, f.2.2)] }),
        .final 3 stDone 0 (pack [(32, 9, n), (0, 32, f.2.2)]))

/-- The ticks from the checkpoint before (Table 11-5). -/
def learnTicks (e : Entry) : Nat := if e.ckpt = 0 then 1024 else 0

/-- Argument rules of LEARNTEETH (Table 11-10). -/
def learnArgsOk (b : Word) : Bool :=
  decide (fld b 63 62 ≤ 1) && decide (fld b 61 60 = 0) && decide (fld b 55 40 = 0) && decide (fld b 39 32 ≤ 16)

/-! ### What follows in every step -/

/-- Travel, the phase, the direction and the levels of a wheel (R327, R328, R336, R316, R342). -/
def wheelState (c : Chip) (w : Fin 4) : Chip :=
  let b := whBasewh (whph c w)
  let ph := whPhen (whph c w)
  let c := if c.wh[w].settNext.isSome then updWh c w settDue else c
  let c := if c.wh[w].phsync && !(ph && whValid c w && whValid c b && !inReset c (.obj (ixWh b))) then
      updWh c w (fun x => { x with phsync := false, phStarted := false, phLast := none }) else c
  let x := c.wh[w]
  let src := (dirSource c w c.tick).1
  let c := if !x.dirunk then c
    else if !src then updWh c w (fun x => { x with dirBad := true })
    else if x.dirBad then updWh c w (fun x => { x with dirunk := false, dirBad := false }) else c
  let c :=
    if x.st = .synced then
      let th := whTheta c w
      let c := if x.revover && decide (x.maxang ≤ th) then updWh c w (fun x => { x with revover := false }) else c
      let c := updWh c w (fun x => { x with maxang := max x.maxang th })
      if !c.wh[w].revover && decide ((whRevlim (whlim c w) : Int) * whK (whcfg c w) < c.wh[w].maxang - th) then
        countB (updWh c w (fun x => { x with revover := true })) (290 + 8 * w.val)
      else c
    else c
  let c := levelB c (294 + 8 * w.val) (x.inBad && whInput (whcfg c w) = 2 && serving c)
  let c := levelB c (295 + 8 * w.val) x.mismatch
  learnState c w

/-- The end of a step for the wheels' consumers' notes (R326). -/
def clearNotes (c : Chip) : Chip := { c with wh := c.wh.map (fun x => { x with jumpNow := none, edgeNow := false }) }

/-- The VR input monitor (R316). -/
def wheelInput (c : Chip) (w : Fin 4) (bad : Bool) : Chip := if c.isN then c else updWh c w (fun x => { x with inBad := bad })

/-- Disagreeing copies of a wheel's state (R342). -/
def wheelMismatch (c : Chip) (w : Fin 4) : Chip :=
  if !c.isN && serving c then updWh c w (fun x => { x with mismatch := true }) else c

/-! ### Words (R343, R344) -/

/-- Codes of wheel states (Table 11-2). -/
def whCode (s : WhSt) : Nat :=
  match s with
  | .disabled => 0 | .seek => 1 | .confirm => 2 | .provisional => 3 | .synced => 4 | .stopped => 5

/-- The STATUS words of a wheel (Table 11-8). -/
def whWord (c : Chip) (w : Fin 4) (off : Nat) : Word :=
  let x := c.wh[w]
  let s := x.sett
  match off with
  | 0x900 => pack [(61, 3, whCode x.st), (60, 1, b2n (whValidSt x.st)), (59, 1, b2n (x.st = .provisional)), (58, 1, b2n x.dir),
      (57, 1, b2n x.stall), (56, 1, b2n x.phsync), (55, 1, b2n x.engpar), (54, 1, b2n x.revover), (53, 1, b2n x.quick),
      (52, 1, b2n x.dirunk), (50, 2, min x.confcyc 3), (40, 8, x.idx), (0, 32, x.edges)]
  | 0x908 => w64i (whTheta c w)
  | 0x910 => w64i (clampS 64 (whSpeed c w))
  | 0x918 => w64i x.acc
  | 0x920 => w64i x.edgeAng
  | 0x928 => w64 x.edgeTick
  | 0x930 => pack [(32, 32, x.per1), (0, 32, x.per2)]
  | 0x938 => pack [(32, 32, intBits 32 x.phf), (0, 32, intBits 32 x.phi)]
  | 0x940 => pack [(48, 16, x.slips), (32, 16, x.gains), (16, 16, x.rejects), (0, 16, x.drops)]
  | 0x948 => w64i x.jump
  | 0x950 => w64 x.jumptick
  | 0x958 => w64i (estAngle c w)
  | 0x980 => w64i s.ang
  | 0x988 => w64 s.tick
  | 0x990 => pack [(63, 1, b2n s.valid), (62, 1, b2n s.stopped), (61, 1, b2n s.moved), (60, 1, b2n s.dir), (59, 1, b2n s.prov),
      (58, 1, b2n s.phsync), (57, 1, b2n s.engpar), (48, 8, s.idx), (0, 16, s.movecount)]
  | 0xA00 => x.learnStat
  | 0xA08 => w64 x.learnTick
  | _ => if 0x1000 ≤ off ∧ off < 0x1800 then storeGet x.learnTab ((off - 0x1000) / 8) else 0

/-- One wheel's field of WHEELSTAT (R344). -/
def wheelstatField (c : Chip) (w : Fin 4) : Nat :=
  let x := c.wh[w]
  whCode x.st + 8 * b2n (whValidSt x.st) + 16 * b2n (x.st = .provisional) + 32 * b2n x.dir + 64 * b2n x.phsync +
  128 * b2n x.engpar + 256 * (x.idx % 256)

end Sys2Proof.Machine
end

