-- ==== Sys2Proof/Machine/Hopper.lean ====
section
/-! DEFINITION. The Hopper (chapter 12): events, deadlines, starts and ends, banks, readback, output states. -/

namespace Sys2Proof.Machine

/-- Change an output. -/
def updOut (c : Chip) (o : Fin 24) (f : OutSt → OutSt) : Chip := { c with outs := upd c.outs o f }
/-- Change a bank. -/
def updBank (c : Chip) (b : Fin 8) (f : BankSt → BankSt) : Chip := { c with banks := upd c.banks b f }

/-! ### Configuration in force (Tables 12-9 to 12-11) -/

/-- OUTCFG. -/
def outcfg (c : Chip) (o : Fin 24) : Word := act c (objBase (.out o))
/-- HSBCFG. -/
def hsbcfg (c : Chip) (b : Fin 8) : Word := act c (objBase (.hsb b))
/-- BANKEN. -/
def outBanken (w : Word) : Bool := bit w 57
/-- BANK. -/
def outBank (w : Word) : Fin 8 := ⟨fld w 54 52 % 8, Nat.mod_lt _ (by decide)⟩
/-- MAXON; 0 means 16 000 000 (R352). -/
def outMaxon (w : Word) : Nat := orDef (fld w 31 0) 16000000
/-- OVERLAP (Table 12-3). -/
def hsbOverlap (w : Word) : Nat := fld w 63 62
/-- BLEAD in ticks (R354). -/
def hsbLead (w : Word) : Nat := fld w 47 32 * 16
/-- SERMAX; 0 means 160 000 (R355). -/
def hsbSermax (w : Word) : Nat := orDef (fld w 31 0) 160000
/-- RBFILT; 0 means 160 (R356). -/
def rbFilt (w : Word) : Nat := orDef (fld w 63 48) 160
/-- RBBLANK; 0 means 800 (R356). -/
def rbBlank (w : Word) : Nat := orDef (fld w 47 32) 800
/-- BASEKIND is channel (R345). -/
def baseIsCh (w : Word) : Bool := bit w 63
/-- The base wheel. -/
def baseWh (w : Word) : Fin 4 := ⟨fld w 61 58 % 4, Nat.mod_lt _ (by decide)⟩
/-- The base channel. -/
def baseCh (w : Word) : Fin 16 := ⟨fld w 61 58 % 16, Nat.mod_lt _ (by decide)⟩
/-- The members of a bank (R354). -/
def members (c : Chip) (b : Fin 8) : List (Fin 24) :=
  (allFin 24).filter (fun o => outBanken (outcfg c o) && outBank (outcfg c o) = b)

/-- ENDKIND is ANGLE (Table 12-1). -/
def evAngle (w : Word) : Bool := fld w 63 62 = 1
/-- EITHER. -/
def evEither (w : Word) : Bool := bit w 61
/-- LATEOK. -/
def evLateok (w : Word) : Bool := bit w 60
/-- The start lead in ticks. -/
def evLead (w : Word) : Nat := fld w 47 32 * 16
/-- The end angle of an ANGLE event (R346). -/
def evEnd (start : Int) (w : Word) : Int := signed 64 (intBits 64 (start + fld w 31 0 * 16))
/-- Argument rules of EVENTPOST (Table 12-1). -/
def eventArgsOk (w : Word) : Bool := decide (fld w 63 62 ≤ 1) && decide (fld w 57 48 = 0) && decide (fld w 31 0 ≠ 0)

/-! ### Bases and deadlines (R345, R349) -/

/-- The motion model of an output's base while it is VALID and owned by the output's owner (R25). -/
def basePub (c : Chip) (o : Fin 24) : Option Pub :=
  let g := outcfg c o
  if baseIsCh g then
    let n := baseCh g
    let t := c.trk[n]
    let p := polesOf (trkcfg c n)
    if t.valid && !inReset c (.obj (ixCh n)) && sameOwner c (ixOut o) (ixCh n) then
      some { t0 := t.outtick, th := t.mechang, vn := t.mechspd * 160000000 * p, an := t.elecacc,
             den := 160000000 * 160000000 * p, nxt := t.mechang, rev := decide (t.mechspd < 0) }
    else none
  else
    let w := baseWh g
    if whValid c w && !inReset c (.obj (ixWh w)) && sameOwner c (ixOut o) (ixWh w) then some (whPub c.wh[w]) else none

/-- The base is PROVISIONAL. -/
def baseProv (c : Chip) (o : Fin 24) : Bool :=
  !baseIsCh (outcfg c o) && c.wh[baseWh (outcfg c o)].st = .provisional && sameOwner c (ixOut o) (ixWh (baseWh (outcfg c o)))

/-- A model's angle at a tick, not clamped (R349). -/
def modelAt (p : Pub) (t : Nat) : Int :=
  let tau : Int := (t : Int) - p.t0
  rdiv (p.th * (2 * p.den) + (2 * p.vn + p.an * tau) * tau) (2 * p.den)

/-- The base angle θ at a tick: WHANG, or the channel model. -/
def baseThetaAt (c : Chip) (o : Fin 24) (p : Pub) (t : Nat) : Int :=
  if baseIsCh (outcfg c o) then modelAt p t else pubAt p t
/-- The base angle θ in this tick. -/
def baseTheta (c : Chip) (o : Fin 24) (p : Pub) : Int := baseThetaAt c o p c.tick

/-- One cycle of the base (R348). -/
def baseCycle (c : Chip) (o : Fin 24) : Int :=
  if baseIsCh (outcfg c o) then 2 ^ 32 else cycleOf c (baseWh (outcfg c o))

/-- The integer square root of a number below 2^320. -/
def isqrtWide (n : Nat) : Nat :=
  ((List.range 160).reverse).foldl (fun r k => if (r + 2 ^ k) * (r + 2 ^ k) ≤ n then r + 2 ^ k else r) 0

/-- The crossing tick c(X): the instant at which the model reaches X in the direction of travel, rounded to the nearest
tick under R12; none where the model does not reach X (R349). An X that already lies behind the edge and that the model
did not cross is crossed at the edge. -/
def crossTick (p : Pub) (x : Int) : Option Nat :=
  let s (v : Int) : Int := if p.rev then -v else v
  let vn := s p.vn
  let an := s p.an
  let d := s (x - p.th)
  let past : Option Nat := if d ≤ 0 then some p.t0 else none
  let disc := vn * vn + 2 * an * p.den * d
  if d = 0 then some p.t0
  else if disc < 0 ∨ vn < 0 then past
  else
    let q : Int := vn * 2 ^ 32 + isqrtWide (disc.toNat * 2 ^ 64)
    if q ≤ 0 then past
    else
      let k0 := (2 * p.den * d * 2 ^ 33 + q) / (2 * q)
      let ok (k : Int) : Bool :=
        decide (0 ≤ 2 * vn + an * (2 * k - 1)) && decide ((4 * vn + an * (2 * k - 1)) * (2 * k - 1) ≤ 8 * p.den * d)
      let k := if ok (k0 + 1) then k0 + 1 else if ok k0 then k0 else k0 - 1
      some ((p.t0 : Int) + k).toNat

/-- X lies beyond the next tooth of a wheel base in the direction of travel (R349). -/
def beyondNext (c : Chip) (o : Fin 24) (p : Pub) (x : Int) : Bool :=
  !baseIsCh (outcfg c o) && (if p.rev then decide (x < p.nxt) else decide (p.nxt < x))

/-- A deadline for an event: one that falls at or before the tick in which it is computed is applied in the next tick (R350). -/
def setDeadline (now : Nat) (e : HEv) (d : Nat) (gated : Bool) : HEv :=
  if e.deadline = some d ∧ e.gated = gated then e
  else { e with deadline := some d, gated := gated, notBefore := if d ≤ now then now + 1 else d }

/-- The start deadline of an event by the model in force (R349 to R351, R363). -/
def startDeadline (c : Chip) (o : Fin 24) (e : HEv) : HEv :=
  if e.held || e.jumped then e
  else
    let none' := { e with deadline := none, gated := false }
    match basePub c o with
    | none => none'
    | some p =>
      if (if e.ahead then !p.rev else evEither e.cmdc && p.rev) then
        match crossTick p e.start with
        | none => none'
        | some t => setDeadline c.tick e (t - evLead e.cmdc) (decide (evLead e.cmdc = 0) && beyondNext c o p e.start)
      else none'

/-- The end deadline of a running ANGLE event; the last one computed stands while the base is lost (R352, R360). -/
def endDeadline (c : Chip) (o : Fin 24) (r : HRun) : HRun :=
  match basePub c o with
  | none => { r with endGated := false }
  | some p =>
    let x := evEnd r.start r.cmdc
    if r.lost then { r with endGated := false }
    else if evAngle r.cmdc = false ∨ p.rev = true then { r with endDl := none, endGated := false }
    else { r with endDl := crossTick p x, endGated := beyondNext c o p x }

/-- Recompute the head's and the running event's deadlines (R350). [DEDUCED: log 41] -/
def recompute (c : Chip) (o : Fin 24) : Chip :=
  let x := c.outs[o]
  if x.wait then c
  else
    let q := match x.q with
      | [] => []
      | e :: t => startDeadline c o e :: t.map (fun e => if e.held || e.jumped then e else { e with deadline := none, gated := false })
    updOut c o (fun x => { x with q := q, run := x.run.map (endDeadline c o) })

/-! ### Outcomes (R370) -/

/-- Write an event's record into the retire ring (R130); MISSED counts S321 + 3o, OVERLAP the output's count. -/
def evRecord (c : Chip) (o : Fin 24) (k : Key) (status detail : Nat) (rcv : Bool) (t : Nat) : Chip :=
  let c := updOut c o (fun x => { x with
    ring := x.ring ++ [{ key := k, status := status, detail := detail, tick := t, recovered := rcv }],
    missed := if status = stMissed then wrapInc16 x.missed else x.missed,
    overlap := if status = stOverlap then wrapInc16 x.overlap else x.overlap })
  if status = stMissed then countB c (321 + 3 * o.val) else c

/-- Retire a pending event in a tick. -/
def evRetireAt (c : Chip) (o : Fin 24) (k : Key) (status detail t : Nat) : Chip :=
  evRecord (updOut c o (fun x => { x with q := x.q.filter (fun e => e.key ≠ k) })) o k status detail false t

/-- Retire a pending event in this tick. -/
def evRetire (c : Chip) (o : Fin 24) (k : Key) (status detail : Nat) : Chip := evRetireAt c o k status detail c.tick

/-- End the running event with its ball low; trig for an end by R352 (R367). -/
def endRun (c : Chip) (o : Fin 24) (status detail : Nat) (trig : Bool) : Chip :=
  match c.outs[o].run with
  | none => c
  | some r =>
    let c := updOut c o (fun x => { x with run := none, trig := if trig && bit r.cmdc 58 then x.trig + 1 else x.trig })
    evRecord c o r.key status detail false c.tick

/-- Retire pending events in sequence order in a tick. -/
def retirePendingAt (c : Chip) (o : Fin 24) (p : HEv → Bool) (status detail t : Nat) : Chip :=
  let ks := (c.outs[o].q.filter p).map (·.key)
  let ordered := ks.foldl (fun (l : List Key) k => l.filter (fun j => decide (j.seq < k.seq)) ++ [k] ++ l.filter (fun j => decide (k.seq ≤ j.seq))) []
  ordered.foldl (fun c k => evRetireAt c o k status detail t) c

/-- Retire pending events in sequence order in this tick. -/
def retirePending (c : Chip) (o : Fin 24) (p : HEv → Bool) (status detail : Nat) : Chip :=
  retirePendingAt c o p status detail c.tick

/-- Retire the running and every pending event in sequence order. -/
def retireAll (c : Chip) (o : Fin 24) (status detail : Nat) : Chip :=
  match c.outs[o].run with
  | none => retirePending c o (fun _ => true) status detail
  | some r =>
    let c := retirePending c o (fun e => decide (e.key.seq < r.key.seq)) status detail
    retirePending (endRun c o status detail false) o (fun _ => true) status detail

/-! ### Insertion (R347, R348) -/

/-- Insert by START, then by sequence number. -/
def insertEv (e : HEv) (l : List HEv) : List HEv :=
  match l with
  | [] => [e]
  | x :: t =>
    if e.start < x.start ∨ (e.start = x.start ∧ e.key.seq < x.key.seq) then e :: x :: t else x :: insertEv e t

/-- Classify one event against the base angle in tick t (R348): retired with a detail, or kept with the side of its start.
[DEDUCED: log 41] -/
def classifyEv (c : Chip) (o : Fin 24) (th : Int) (detail t : Nat) (e : HEv) : Chip :=
  let passed : Bool :=
    if evEither e.cmdc then decide (baseCycle c o < th - e.start) else decide (e.start ≤ th)
  if passed then evRetireAt c o e.key stMissed detail t
  else updOut c o (fun x => { x with q := x.q.map (fun y => if y.key = e.key then { y with ahead := decide (th < y.start) } else y) })

/-- A new event of an entry. -/
def eventOf (e : Entry) : HEv :=
  { key := keyOf e, start := e.cmdb.toInt, cmdc := e.cmdc, deadline := none, gated := false, notBefore := 0, held := false, ahead := true,
    jumped := false }

/-- EVENTPOST at its execution (R347, R348). -/
def postEvent (c : Chip) (e : Entry) (o : Fin 24) : Chip :=
  let x := c.outs[o]
  if x.enabled = false then refuseLate c e 0x300B
  else if 32 ≤ x.q.length then refuseLate c e 0x300A
  else
    let ev := eventOf e
    let c := updOut (commitD c e) o (fun x => { x with q := insertEv ev x.q })
    match basePub c o with
    | none => c
    | some p => classifyEv c o (baseTheta c o p) 0x3001 c.tick ev

/-! ### Starts and ends (R351 to R355) -/

/-- Starts take effect: in RUN or IDLE, not Benched (R364). -/
def hopLive (c : Chip) : Bool := !outputsHeld c

/-- The running event's end condition at this tick: its detail (R352, R360, R363). [DEDUCED: log 41] -/
def endDue (c : Chip) (o : Fin 24) : Option (Nat × Bool) :=
  match c.outs[o].run with
  | none => none
  | some r =>
    let det := if r.lost then 0x3002 else r.det
    let own : Bool :=
      if evAngle r.cmdc then !r.endGated && (match r.endDl with | some d => decide (d ≤ c.tick) | none => false)
      else decide (r.tick + fld r.cmdc 31 0 ≤ c.tick)
    let back : Bool :=
      evAngle r.cmdc && !r.lost && (match basePub c o with | some p => p.rev && decide (baseTheta c o p < r.start) | none => false)
    if own then some (det, true)
    else if back then some (0x3016, true)
    else if r.tick + outMaxon (outcfg c o) ≤ c.tick then some (if r.lost then 0x3002 else 0x3003, true)
    else none

/-- EVENT_END (R352). -/
def eventEnd (c : Chip) (o : Fin 24) : Chip :=
  match endDue c o with
  | some d => endRun c o stDone d.1 d.2
  | none => c

/-- Another member of a bank is high. -/
def othersHigh (c : Chip) (b : Fin 8) (o : Fin 24) : List (Fin 24) :=
  (members c b).filter (fun m => m ≠ o && c.outs[m].run.isSome)

/-- The event takes effect (R351, R124): STARTED, the result word, the running event, its trigger. -/
def startEvent (c : Chip) (o : Fin 24) (e : HEv) : Chip :=
  let late := match e.deadline with | some d => if e.jumped then 0 else c.tick - d | none => 0
  let det := if e.held then 0x300F else if e.jumped then 0x3008 else 0
  let c := updEntry c e.key (fun x => { x with
    started := true, result := pack [(32, 32, c.tick), (16, 16, min late 65535)] })
  updOut c o (fun x => { x with
    q := x.q.filter (fun y => y.key ≠ e.key), fired := wrapInc16 x.fired, trig := if bit e.cmdc 59 then x.trig + 1 else x.trig,
    run := some { key := e.key, start := e.start, cmdc := e.cmdc, tick := c.tick, det := det, endDl := none, endGated := false,
                  lost := x.baseOk = false } })

/-- A conflict with a running member (Table 12-3). -/
def bankConflict (c : Chip) (o : Fin 24) (e : HEv) (b : Fin 8) (busy : List (Fin 24)) : Chip :=
  let c := countB (updBank c b (fun x => { x with overlap := wrapInc16 x.overlap })) (393 + 3 * b.val)
  match hsbOverlap (hsbcfg c b) with
  | 0 => evRetire c o e.key stOverlap 0x300D
  | 1 => startEvent c o e
  | 2 => updOut c o (fun x => { x with q := x.q.map (fun y => if y.key = e.key then { y with held := true } else y) })
  | _ => startEvent (busy.foldl (fun c m => endRun c m stDone 0x300C false) c) o e

/-- The head is due: at its deadline, or after a jump. -/
def headDue (c : Chip) (o : Fin 24) : Option HEv :=
  match c.outs[o].q with
  | [] => none
  | e :: _ =>
    match e.deadline with
    | some d => if !e.gated && decide (d ≤ c.tick ∧ e.notBefore ≤ c.tick) then some e else none
    | none => none

/-- A held event may start: no other member is high, and no earlier one of the bank is held (R355). -/
def heldFree (c : Chip) (o : Fin 24) (e : HEv) (b : Fin 8) : Bool :=
  (othersHigh c b o).isEmpty &&
  (members c b).all (fun m => m = o || c.outs[m].q.all (fun y => !y.held || decide (e.deadline.getD 0 < y.deadline.getD 0) ||
    (e.deadline = y.deadline && decide (e.key.seq < y.key.seq))))

/-- A start is lost in CONFIG when its angle passes (R162), while Benched when its deadline does (R364). -/
def startLost (c : Chip) (e : HEv) : Bool := inRun c || decide (e.deadline.getD 0 + evLead e.cmdc ≤ c.tick)

/-- The head's start takes effect, or it does not, by Table 12-6. [DEDUCED: log 41] -/
def tryStart (c : Chip) (o : Fin 24) : Chip :=
  match headDue c o with
  | none => c
  | some e =>
    let x := c.outs[o]
    let g := outcfg c o
    let b := outBank g
    if hopLive c = false then (if e.held || !startLost c e then c else evRetire c o e.key stMissed 0x0020)
    else if baseProv c o && fld g 49 48 = 0 then evRetire c o e.key stMissed 0x3005
    else if x.trip then evRetire c o e.key stFaulted 0x3010
    else if outBanken g && !c.banks[b].enabled then evRetire c o e.key stMissed 0x3012
    else if outBanken g && c.banks[b].trip then evRetire c o e.key stFaulted 0x3011
    else if x.run.isSome then (if e.held then c else evRetire c o e.key stMissed 0x3009)
    else if e.held then (if heldFree c o e b then startEvent c o e else c)
    else if outBanken g && !(othersHigh c b o).isEmpty then bankConflict c o e b (othersHigh c b o)
    else startEvent c o e

/-- The outputs whose due starts come with an output's own: the members of its bank, lower sequence numbers first (R355).
[DEDUCED: log 41] -/
def startOrder (c : Chip) (o : Fin 24) : List (Fin 24) :=
  match headDue c o with
  | none => []
  | some e =>
    let g := outcfg c o
    if outBanken g then
      let l := (members c (outBank g)).filterMap (fun m =>
        match headDue c m with
        | some y => if m ≠ o && !y.held && decide (y.key.seq < e.key.seq) then some (y.key.seq, m) else none
        | none => none)
      (l.foldl (fun (a : List (Nat × Fin 24)) p => a.filter (fun q => decide (q.1 < p.1)) ++ [p] ++ a.filter (fun q => decide (p.1 ≤ q.1))) []).map (·.2)
        ++ [o]
    else [o]

/-! ### Banks and balls (R354, R356 to R358) -/

/-- A tripped ball is at high impedance, but in BOOT and in SLEEP it is low (R357, Table 6-4). -/
def hizBall (c : Chip) (trip : Bool) : Bool := trip && decide (c.pw.state ≠ .boot) && decide (c.pw.state ≠ .sleep)

/-- A member's lead window (R354). -/
def leadWindow (c : Chip) (b : Fin 8) (o : Fin 24) : Bool :=
  let x := c.outs[o]
  x.enabled && !x.trip &&
  (match x.q with
    | e :: _ =>
      (match e.deadline with
        | some d => decide (d ≤ c.tick + hsbLead (hsbcfg c b)) && decide (c.tick < d)
        | none => false)
    | [] => false)

/-- A bank's level (R354), low from the second tick after the Bench decision and in CONFIG (R364). -/
def bankHigh (c : Chip) (b : Fin 8) : Bool :=
  c.banks[b].enabled && !c.banks[b].trip && !outputsDown c && !inReset c (.obj (ixHsb b)) &&
  (members c b).any (fun o => c.outs[o].level || leadWindow c b o)

/-- Drive an output's ball: high while its event runs (R351). [DEDUCED: log 41] -/
def driveOut (c : Chip) (o : Fin 24) : Chip :=
  let x := c.outs[o]
  let l := x.run.isSome && !x.trip
  if x.level = l then c else updOut c o (fun x => { x with level := l, chg := c.tick })

/-- Drive a bank's ball. -/
def driveBank (c : Chip) (b : Fin 8) : Chip :=
  let l := bankHigh c b
  if c.banks[b].level = l then c else updBank c b (fun x => { x with level := l, chg := c.tick })

/-- Drive every OUT ball, then every bank's. -/
def driveAll (c : Chip) : Chip := (allFin 8).foldl driveBank ((allFin 24).foldl driveOut c)

/-- What an OUT ball shows (R163, R357). -/
def outBall (c : Chip) (o : Fin 24) : Ball :=
  if unpowered c || hizBall c c.outs[o].trip then .highZ else ballOf c.outs[o].level
/-- What a HSB ball shows. -/
def hsbBall (c : Chip) (b : Fin 8) : Ball :=
  if unpowered c || hizBall c c.banks[b].trip then .highZ else ballOf c.banks[b].level

/-- EVENT_START (R351, R353, R355): ends of the same tick come first, and the next event becomes the head. -/
def eventStart (c : Chip) (o : Fin 24) : Chip :=
  if inReset c (.obj (ixOut o)) then c
  else
    let g := outcfg c o
    let c := if (headDue c o).isSome then (if outBanken g then members c (outBank g) else [o]).foldl eventEnd c else c
    let l := startOrder c o
    driveAll (l.foldl recompute (l.foldl tryStart c))

/-- SERIALIZE_TIMEOUT (Table 12-3): SERMAX after its deadline, or its end angle reached first. -/
def serializeTimeout (c : Chip) (o : Fin 24) : Chip :=
  match c.outs[o].q with
  | [] => c
  | e :: _ =>
    let lim := e.deadline.getD 0 + hsbSermax (hsbcfg c (outBank (outcfg c o)))
    let angle : Bool := evAngle e.cmdc && (match basePub c o with
      | some p =>
        let x := evEnd e.start e.cmdc
        !p.rev && !beyondNext c o p x && (match crossTick p x with | some t => decide (t ≤ c.tick) | none => false)
      | none => false)
    if e.held && (decide (lim ≤ c.tick) || angle) then driveAll (evRetire c o e.key stOverlap 0x300E) else c

/-- BANK_LEAD_START (R354): the bank follows its members and their lead windows. -/
def bankLead (c : Chip) (b : Fin 8) : Chip := driveBank c b

/-- Supervision runs (R356): the object is OWNED and its ball driven. -/
def supervised (c : Chip) (i : ObjIx) (trip : Bool) (chg : Nat) (base : Nat) : Bool :=
  let w := act c (base + 8)
  serving c && (ownE c i).st = .owned && !trip && decide (chg + rbBlank w + rbFilt w ≤ c.tick)

/-- READBACK_TRIP of an OUT (R357); the pin of a tripped output that no longer reads low brings its condition back (R358). -/
def outTrip (c : Chip) (o : Fin 24) : Chip :=
  let x := c.outs[o]
  if supervised c (ixOut o) x.trip x.chg (objBase (.out o)) then
    let c := updOut c o (fun x => { x with trip := true, rbBad := true, trips := wrapInc16 x.trips })
    let c := notifyObj (levelB c (320 + 3 * o.val) true) (ixOut o) 28
    driveAll (endRun c o stFaulted 0x3010 false)
  else if serving c && x.trip && (ownE c (ixOut o)).st = .owned then
    levelB (updOut c o (fun x => { x with rbBad := true })) (320 + 3 * o.val) true
  else c

/-- READBACK_TRIP of a HSB (R357, R358). -/
def bankTrip (c : Chip) (b : Fin 8) : Chip :=
  let x := c.banks[b]
  if supervised c (ixHsb b) x.trip x.chg (objBase (.hsb b)) then
    let c := updBank c b (fun x => { x with trip := true, rbBad := true, trips := wrapInc16 x.trips })
    let c := notifyObj (levelB c (392 + 3 * b.val) true) (ixHsb b) 28
    driveAll ((members c b).foldl (fun c o => endRun c o stFaulted 0x3011 false) c)
  else if serving c && x.trip && (ownE c (ixHsb b)).st = .owned then
    levelB (updBank c b (fun x => { x with rbBad := true })) (392 + 3 * b.val) true
  else c

/-- READBACK_AGREE (R358): the pin of a tripped output reads low again. -/
def outAgree (c : Chip) (o : Fin 24) : Chip :=
  levelB (updOut c o (fun x => { x with rbBad := false })) (320 + 3 * o.val) false
/-- READBACK_AGREE of a bank. -/
def bankAgree (c : Chip) (b : Fin 8) : Chip :=
  levelB (updBank c b (fun x => { x with rbBad := false })) (392 + 3 * b.val) false

/-! ### Output states (Table 12-4) -/

/-- ENABLE of an OUT: false where its trip source is not OK (R358). The copies are rewritten (R369). -/
def outEnable (c : Chip) (o : Fin 24) : Chip × Bool :=
  if c.outs[o].trip ∧ c.flt.srcs[srcN (320 + 3 * o.val)].st ≠ .ok then (c, false)
  else (levelB (updOut c o (fun x => { x with enabled := true, trip := false, rbBad := false, mismatch := false, chg := c.tick })) (322 + 3 * o.val) false, true)

/-- ENABLE of a HSB. -/
def bankEnable (c : Chip) (b : Fin 8) : Chip × Bool :=
  if c.banks[b].trip ∧ c.flt.srcs[srcN (392 + 3 * b.val)].st ≠ .ok then (c, false)
  else (levelB (updBank c b (fun x => { x with enabled := true, trip := false, rbBad := false, mismatch := false, chg := c.tick })) (394 + 3 * b.val) false, true)

/-- DISABLE of an OUT. -/
def outDisable (c : Chip) (o : Fin 24) : Chip :=
  driveAll (updOut (retireAll c o stCancelled 0x3013) o (fun x => { x with enabled := false, baseOk := false, baseProv := false }))

/-- DISABLE of a HSB, and its DRAINING: running member events end. -/
def bankDisable (c : Chip) (b : Fin 8) : Chip :=
  driveAll (updBank ((members c b).foldl (fun c o => endRun c o stCancelled 0x3013 false) c) b (fun x => { x with enabled := false }))

/-- Merge one record of a ring into its journal entry (R130). -/
def mergeRec (c : Chip) (r : RingRec) : Chip :=
  match findEntry c r.key with
  | none => c
  | some e =>
    updEntry (retireAt c r.key r.status r.detail e.result r.tick) r.key (fun e => { e with recovered := e.recovered || r.recovered })

/-- Merge a whole ring (R92, R135). -/
def mergeRing (c : Chip) (o : Fin 24) : Chip :=
  updOut (c.outs[o].ring.foldl mergeRec c) o (fun x => { x with ring := [] })

/-- RETIRE_RING_MERGE (R130): the oldest record, 2 ticks old or more. -/
def ringMerge (c : Chip) (o : Fin 24) : Chip :=
  match c.outs[o].ring with
  | [] => c
  | r :: t =>
    if r.tick + 2 ≤ c.tick ∧ serving c = true then updOut (mergeRec c r) o (fun x => { x with ring := t }) else c

/-- What the Hopper scheduler's read of a ring's record finds in the retention word of index w (R110, R113, R500), and the merge that
follows a readable one. [DESIGN CHOICE: log 47] -/
def ringMergeRead (c : Chip) (o : Fin 24) (ecc : Ecc) (w : Nat) : Chip :=
  match c.outs[o].ring with
  | [] => c
  | r :: _ =>
    if r.tick + 2 ≤ c.tick then
      match ecc with
      | .clean => ringMerge c o
      | .single => ringMerge (raiseR c (evAt c 64 6 accRead 0 w none)) o
      | .double => raiseR { c with wb := { c.wb with halted := true } } (evAt c 65 6 accRead 0 w none)
    else c

/-- The latest merge of a record: 16 ticks after its retirement (R130). -/
def mergeTicks : Nat := 16

/-- Every record that has waited longer than that is merged (R130). -/
def mergeLate (c : Chip) : Chip :=
  (allFin 24).foldl (fun (c : Chip) (o : Fin 24) =>
    let l := c.outs[o].ring
    let old := l.takeWhile (fun r => decide (r.tick + mergeTicks < c.tick))
    if old.isEmpty then c else updOut (old.foldl mergeRec c) o (fun x => { x with ring := l.drop old.length })) c

/-- DRAINING of an OUT (Tables 3-3, 12-4, R92): the ring is moved first; the events' entries are then retired by the drain. -/
def outDrain (c : Chip) (o : Fin 24) : Chip :=
  driveAll (updOut (mergeRing c o) o (fun x => { x with enabled := false, q := [], run := none, baseOk := false, baseProv := false }))

/-- SCHEDULER_MISMATCH of an OUT (R369); none on the FY6416-N, whose Hopper is disabled (R2, R497). -/
def outCheck (c : Chip) (o : Fin 24) : Chip :=
  if c.isN then c
  else
    let c := levelB (updOut c o (fun x => { x with mismatch := true })) (322 + 3 * o.val) true
    driveAll (updOut (retireAll c o stFaulted 0x3019) o (fun x => { x with enabled := false, baseOk := false, baseProv := false }))

/-- SCHEDULER_MISMATCH of a HSB (R369, Table 12-4). -/
def bankCheck (c : Chip) (b : Fin 8) : Chip :=
  if c.isN then c
  else
    let c := levelB (updBank c b (fun x => { x with mismatch := true, enabled := false })) (394 + 3 * b.val) true
    driveAll ((members c b).foldl (fun c o => endRun c o stFaulted 0x3019 false) c)

/-- A running event that a block reset ends in tick t: DONE, RECOVERED (R365). -/
def recoverRun (t : Nat) (c : Chip) (o : Fin 24) : Chip :=
  match c.outs[o].run with
  | none => c
  | some r => evRecord (updOut c o (fun x => { x with run := none })) o r.key stDone 0 true t

/-- A block reset of an OUT begins (R365). -/
def outBlockReset (c : Chip) (o : Fin 24) : Chip :=
  let c := driveAll (recoverRun (resetTick c (.obj (ixOut o))) c o)
  updOut c o (fun x => { x with
    wait := true, seen := match basePub c o with | some p => p.t0 | none => 0,
    q := x.q.map (fun e => { e with deadline := if e.held then e.deadline else none, gated := false }) })

/-- A block reset of a HSB begins: its running member events end. -/
def bankBlockReset (c : Chip) (b : Fin 8) : Chip := driveAll ((members c b).foldl (recoverRun (resetTick c (.obj (ixHsb b)))) c)

/-- The end of a block reset of an OUT: both copies are rewritten (R369). -/
def outRewrite (c : Chip) (o : Fin 24) : Chip :=
  levelB (updOut c o (fun x => { x with mismatch := false })) (322 + 3 * o.val) false
/-- The end of a block reset of a HSB. -/
def bankRewrite (c : Chip) (b : Fin 8) : Chip :=
  levelB (updBank c b (fun x => { x with mismatch := false })) (394 + 3 * b.val) false

/-- An output at a warm reset: its ball low, its queue rebuilt by replay (R365). -/
def outReset (x : OutSt) : OutSt :=
  { x with level := false, chg := 0, q := [], run := none, baseOk := false, baseProv := false, wait := false, seen := 0, trig := 0 }

/-- A bank at a warm reset. -/
def bankReset (x : BankSt) : BankSt := { x with level := false, chg := 0 }

/-- The all-zero output (Table 3-4). [DESIGN CHOICE: log 18] -/
def outZero : OutSt :=
  { enabled := false, trip := false, rbBad := false, level := false, chg := 0, mismatch := false, q := [], run := none,
    ring := [], baseOk := false, baseProv := false, wait := false, seen := 0, fired := 0, missed := 0, overlap := 0,
    trips := 0, trig := 0 }

/-- The all-zero bank. [DESIGN CHOICE: log 18] -/
def bankZero : BankSt :=
  { enabled := false, trip := false, rbBad := false, level := false, chg := 0, mismatch := false, overlap := 0, trips := 0 }

/-- The Bench decision (R364): running events end FAULTED in the tick in which their balls go low, two ticks later. -/
def outBench (c : Chip) (o : Fin 24) : Chip :=
  match c.outs[o].run with
  | none => c
  | some r => evRecord (updOut c o (fun x => { x with run := none })) o r.key stFaulted 0x3004 false (c.flt.safeTick + 2)

/-! ### EVENTCANCEL and CANCEL (R366) -/

/-- EVENTCANCEL at its commit. -/
def eventCancel (c : Chip) (e : Entry) (o : Fin 24) : Chip :=
  let hit (v : HEv) : Bool := decide (e.cmdc.toInt ≤ v.start)
  let stop := bit e.cmdb 0 && c.outs[o].run.isSome
  let n := (c.outs[o].q.filter hit).length + b2n stop
  let c := match (if stop then c.outs[o].run else none) with
    | none => retirePending c o hit stCancelled 0x3014
    | some r =>
      let c := retirePending c o (fun v => hit v && decide (v.key.seq < r.key.seq)) stCancelled 0x3014
      retirePending (endRun c o stCancelled 0x3014 false) o hit stCancelled 0x3014
  driveAll (commitS c e stDone 0 (pack [(0, 32, n)]))

/-- Remove a pending event (Table 4-6). -/
def dropPending (c : Chip) (k : Key) : Chip :=
  { c with outs := c.outs.map (fun x => { x with q := x.q.filter (fun e => e.key ≠ k) }) }

/-- An event is still pending in a queue. -/
def isPending (c : Chip) (k : Key) : Bool := c.outs.toList.any (fun x => x.q.any (fun e => e.key = k))

/-- Replay reinserts a pending event (Table 4-7). -/
def reinsert (c : Chip) (e : Entry) : Chip :=
  match fin? 24 (targetOf e - 20) with
  | some o => updOut c o (fun x => { x with q := insertEv (eventOf e) x.q })
  | none => c

/-! ### What follows in every step (R348, R350, R360 to R362) -/

/-- A running event under a lost base goes on to its end by time. [DEDUCED: log 41] -/
def markLost (c : Chip) (o : Fin 24) : Chip := updOut c o (fun x => { x with run := x.run.map (fun r => { r with lost := true }) })

/-- The block of an output's base. [DEDUCED: log 41] -/
def baseBlock (c : Chip) (o : Fin 24) : Block :=
  let g := outcfg c o
  .obj (if baseIsCh g then ixCh (baseCh g) else ixWh (baseWh g))

/-- The tick in which an output, which sees it in this tick, lost its base (R360): the one before, in which VALID cleared; for a base that
entered DRAINING the tick after that (R26), and for one in a block reset the tick of its begin. [DEDUCED: log 41] -/
def lossTick (c : Chip) (o : Fin 24) : Nat :=
  match baseBlock c o with
  | .obj i => if inReset c (.obj i) then resetTick c (.obj i) else if inTransit c i then c.tick else c.tick - 1
  | .exc _ => c.tick

/-- The base was lost (R360), or its provisional sync withdrawn (R361). -/
def baseLost (c : Chip) (o : Fin 24) : Chip :=
  let x := c.outs[o]
  let g := outcfg c o
  let st := c.wh[baseWh g].st
  let withdrawn := x.baseProv && !baseIsCh g && (st = .seek || st = .confirm) && !inReset c (.obj (ixWh (baseWh g)))
  let c := markLost c o
  if withdrawn then
    if fld g 49 48 = 1 then retirePendingAt c o (fun _ => true) stMissed 0x3006 (lossTick c o) else c
  else if bit g 47 then c
  else retirePendingAt c o (fun _ => true) stMissed 0x3017 (lossTick c o)

/-- A jump of the base in this tick (R362); in CONFIG a start that it passes is lost as R162 lays down. -/
def baseJump (c : Chip) (o : Fin 24) (old new : Int) : Chip :=
  if old < new then
    let passes (s : Int) : Bool := decide (old < s ∧ s ≤ new)
    let det := if inRun c then 0x3007 else 0x0020
    let c := retirePending c o (fun e => passes e.start && (!evLateok e.cmdc || !inRun c) && !e.held) stMissed det
    let c := updOut c o (fun x => { x with q := x.q.map (fun e =>
      if passes e.start && !e.held then
        { e with jumped := true, deadline := some (c.tick + 1), gated := false, notBefore := c.tick + 1 }
      else e) })
    match c.outs[o].run with
    | some r =>
      if evAngle r.cmdc && passes (evEnd r.start r.cmdc) then endRun c o stDone (if r.lost then 0x3002 else r.det) true else c
    | none => c
  else c

/-- The outputs of a wheel take its jump in the recognition tick (R362). -/
def wheelJump (c : Chip) (w : Fin 4) : Chip :=
  match c.wh[w].jumpNow with
  | none => c
  | some j =>
    driveAll ((allFin 24).foldl (fun c o =>
      let x := c.outs[o]
      if x.enabled && x.baseOk && (basePub c o).isSome && !baseIsCh (outcfg c o) && baseWh (outcfg c o) = w then baseJump c o j.1 j.2
      else c) (updWh c w (fun x => { x with jumpNow := none })))

/-- An output follows its base: a return of VALID is seen in the next tick (R22, R348). [DEDUCED: log 41] -/
def outState (c : Chip) (o : Fin 24) : Chip :=
  let x := c.outs[o]
  let p := basePub c o
  let c :=
    if x.enabled = false then c
    else match x.baseOk, p with
      | true, none => baseLost c o
      | false, some p => x.q.foldl (fun c e => classifyEv c o (baseTheta c o p) 0x0020 c.tick e) c
      | _, _ => c
  let moved : Bool := match p with | some p => p.t0 ≠ x.seen | none => false
  recompute (updOut c o (fun x => { x with
    baseOk := x.enabled && p.isSome, baseProv := x.enabled && baseProv c o, wait := x.wait && !moved })) o

/-- Every output, then the balls. -/
def hopperState (c : Chip) : Chip := if c.isN then c else driveAll ((allFin 24).foldl outState c)

/-- No trigger remains for the next step. -/
def clearTrigs (c : Chip) : Chip := { c with outs := c.outs.map (fun x => { x with trig := 0 }) }

/-! ### APPLY and words (R368, R371, R372) -/

/-- The APPLY checks of an OUT, 0 if none refuses (R368). [DEDUCED: log 41] -/
def outCheckApply (c : Chip) (o : Fin 24) : Nat :=
  let g := stg c (objBase (.out o))
  let i := ixOut o
  let wide := !baseIsCh g && decide (3 < fld g 61 58)
  let baseOwned := if baseIsCh g then sameOwner c i (ixCh (baseCh g)) else wide || sameOwner c i (ixWh (baseWh g))
  if baseOwned = false ∨ (outBanken g = true ∧ sameOwner c i (ixHsb (outBank g)) = false) then 0x0011
  else if c.outs[o].enabled = true ∧ g &&& 0xBE70000000000000#64 ≠ outcfg c o &&& 0xBE70000000000000#64 then 0x0416
  else if fld g 49 48 = 3 ∨ wide = true ∨ (outBanken g = false ∧ fld g 54 52 ≠ 0) then 0x0417
  else 0

/-- The object words of an OUT (Table 12-9). -/
def outWord (c : Chip) (o : Fin 24) (off : Nat) : Word :=
  let x := c.outs[o]
  match off with
  | 0x40 => pack [(63, 1, b2n x.enabled), (62, 1, b2n x.trip), (61, 1, b2n x.level),
      (60, 1, b2n (if hizBall c x.trip then x.rbBad else x.level)), (59, 1, b2n (hizBall c x.trip)), (58, 1, b2n (basePub c o).isSome),
      (57, 1, b2n (baseProv c o)), (48, 6, x.q.length), (0, 32, match x.run with | some r => r.key.seq | none => 0)]
  | 0x48 => match x.run with | some r => w64 r.tick | none => 0
  | 0x50 => match x.run with
    | some r => if evAngle r.cmdc then w64 (r.endDl.getD 0) else w64 (r.tick + fld r.cmdc 31 0)
    | none => 0
  | 0x58 => pack [(48, 16, x.fired), (32, 16, x.missed), (16, 16, x.overlap), (0, 16, x.trips)]
  | _ =>
    if 0x100 ≤ off ∧ off < 0x500 then
      match x.q[(off - 0x100) / 0x20]? with
      | none => 0
      | some e =>
        match off % 0x20 with
        | 0x00 => pack [(63, 1, 1), (62, 1, b2n e.deadline.isSome), (61, 1, b2n e.held), (0, 32, e.key.seq)]
        | 0x08 => w64i e.start
        | 0x10 => e.cmdc
        | _ => w64 (e.deadline.getD 0)
    else 0

/-- The object words of a HSB (Tables 12-9, 12-12). -/
def hsbWord (c : Chip) (b : Fin 8) (off : Nat) : Word :=
  let x := c.banks[b]
  let mem := (members c b).filter (fun o => c.outs[o].level)
  match off with
  | 0x40 => pack ([(63, 1, b2n x.enabled), (62, 1, b2n x.trip), (61, 1, b2n x.level), (60, 1, b2n (if hizBall c x.trip then x.rbBad else x.level)),
      (59, 1, b2n (hizBall c x.trip)), (56, 1, b2n (x.level && mem.isEmpty))] ++ mem.map (fun o => (o.val, 1, 1)))
  | 0x58 => pack [(16, 16, x.overlap), (0, 16, x.trips)]
  | _ => 0

/-- A state code of HOPSTAT (R372). -/
def outCode (enabled trip level : Bool) : Nat := if trip then 3 else if !enabled then 0 else if level then 2 else 1

end Sys2Proof.Machine
end

