-- ==== Sys2Proof/Machine/AnalogOut.lean ====
section
/-! DEFINITION. Supervised analog outputs (chapter 15): spans and codes, sources, SPANCHANGE, the readback monitor. -/

namespace Sys2Proof.Machine

/-- Change an analog output. -/
def updAo (c : Chip) (a : Fin 8) (f : Ao → Ao) : Chip := { c with ao := upd c.ao a f }
/-- Change a loop. -/
def updLp (c : Chip) (n : Fin 16) (f : Lp → Lp) : Chip := { c with lp := upd c.lp n f }

/-! ### Configuration in force (Tables 13-8, 15-6, 15-7) -/

/-- Address of output a. -/
def aoBase (a : Fin 8) : Nat := objBase (.ao a)
/-- AOCFG. -/
def aocfg (c : Chip) (a : Fin 8) : Word := act c (aoBase a)
/-- TOL; 0 means 256. -/
def aoTol (w : Word) : Nat := orDef (fld w 47 32) 256
/-- MMCOUNT; 0 means 4. -/
def aoMmcount (w : Word) : Nat := orDef (fld w 31 24) 4
/-- OPENCOUNT; 0 means 4. -/
def aoOpencount (w : Word) : Nat := orDef (fld w 23 16) 4
/-- BLANK; 0 means 1600. -/
def aoBlank (w : Word) : Nat := orDef (fld w 15 0) 1600
/-- Address of loop n (R402). -/
def lpBase (n : Fin 16) : Nat := objBase (.lp n)
/-- LPCFG in force. -/
def lpcfg (c : Chip) (n : Fin 16) : Word := act c (lpBase n)
/-- DESTEN. -/
def lpDesten (w : Word) : Bool := bit w 15
/-- DESTAO. -/
def lpDestao (w : Word) : Nat := fld w 19 16
/-- The loop whose configuration in force drives an output (R436). -/
def aoSource (c : Chip) (a : Fin 8) : Option (Fin 16) :=
  (allFin 16).find? (fun n => lpDesten (lpcfg c n) && lpDestao (lpcfg c n) = a.val)

/-! ### Spans and codes (R433, R434) -/

/-- lo and hi of a span, in volts or milliamperes (Table 15-1). -/
def spanRange (s : Nat) : Int × Int :=
  match s with
  | 0 => (-10, 10) | 1 => (-5, 5) | 2 => (0, 10) | 3 => (0, 5) | 4 => (0, 24) | _ => (4, 20)
/-- A current span. -/
def spanCurrent (s : Nat) : Bool := decide (4 ≤ s)

/-- The code of a physical value in Q16.48 under a span, and whether it saturated (R434). -/
def aoCode (s : Nat) (v : Int) : Nat × Bool :=
  let r := spanRange s
  let k := rdiv ((v - r.1 * 2 ^ 48) * 65536) ((r.2 - r.1) * 2 ^ 48).toNat
  ((clampI 0 65535 k).toNat, decide (k < 0 ∨ 65535 < k))

/-- The physical value of a code in Q16.48 (R434). -/
def aoPhys (s : Nat) (k : Nat) : Int := (spanRange s).1 * 2 ^ 48 + (k : Int) * ((spanRange s).2 - (spanRange s).1) * 2 ^ 32

/-- The value in force, which AOVAL reports. -/
def aoVal (c : Chip) (a : Fin 8) : Int := aoPhys c.ao[a].span c.ao[a].code

/-- The safe value of a span's kind as a code of that span (R439). -/
def aoSafe (c : Chip) (a : Fin 8) (s : Nat) : Nat × Bool :=
  aoCode s (act c (aoBase a + if spanCurrent s then 0x10 else 0x08)).toInt

/-- CLAMPED and CLAMPS after a conversion. -/
def noteClamp (sat : Bool) (x : Ao) : Ao :=
  { x with clamped := sat, clamps := if sat then wrapInc16 x.clamps else x.clamps }

/-! ### The code in force (Table 15-2) -/

/-- Analog outputs are at mid-scale as when Benched (R437, Table 6-3, Table 6-4): from 2 ticks after the Bench decision (Table 1-2).
[DEDUCED: log 43] -/
def aoHeld (c : Chip) : Bool := (c.flt.benched && !c.benchNow) || !(inRun c || c.pw.state = .sleep)

/-- The row of Table 15-2 that decides. [DEDUCED: log 43] -/
def aoRow (c : Chip) (a : Fin 8) : Nat :=
  let x := c.ao[a]
  if x.checkfail then 1 else if aoHeld c then 2 else if x.spanbusy then 3
  else if !x.enabled || x.safehold || inReset c (.obj (ixAo a)) then 4 else 5

/-- The output in this step: its code, the tick of its change, when it became OWNED, MONVALID (R437, R443, R448). -/
def aoState (c : Chip) (a : Fin 8) : Chip :=
  let x := c.ao[a]
  let row := aoRow c a
  let safe := aoSafe c a x.span
  let code := match row with
    | 1 | 2 => 0x8000
    | 3 => x.seqCode
    | 4 => safe.1
    | _ => x.last
  let owned : Bool := (ownE c (ixAo a)).st = .owned
  let newSafe := row = 4 && (x.row ≠ 4 || x.code ≠ code)
  updAo c a (fun x =>
    let x := if newSafe then noteClamp safe.2 x else x
    { x with
      row := row, code := code, chgtick := if x.code = code then x.chgtick else c.tick,
      own := if owned then some (x.own.getD c.tick) else none,
      monvalid := x.monvalid && owned })

/-! ### Delivery (R436) -/

/-- A value in Q16.48 from the source of an output. -/
def aoDeliver (c : Chip) (a : Fin 8) (v : Int) : Chip :=
  let x := c.ao[a]
  if x.enabled && !x.spanbusy && !x.checkfail then
    let k := aoCode x.span v
    updAo c a (fun x => { noteClamp k.2 x with last := k.1, safehold := false })
  else c

/-- What the balls of output a carry in Q16.48, the voltage of AOa and the current of IOUTa (R434, R435): none while they are unpowered
(R163, R438). -/
def aoBalls (c : Chip) (a : Fin 8) : Option (Int × Int) :=
  if unpowered c then none
  else some (if spanCurrent c.ao[a].span then (0, aoVal c a) else (aoVal c a, 0))

/-- A loop delivers at the application of its output: the code changes in that tick (R436). -/
def aoApply (c : Chip) (a : Fin 8) (v : Int) : Chip := aoState (aoDeliver c a v) a

/-- A commit of AOSET: it delivers while no loop is the source; the code changes in the next tick (R436). -/
def aoSetWritten (c : Chip) (a : Fin 8) : Chip :=
  if (aoSource c a).isSome then c else aoDeliver c a (liveW c (aoBase a + 0x20)).toInt

/-- SAFEHOLD is set (Table 15-3). -/
def aoHold (c : Chip) (a : Fin 8) : Chip := updAo c a (fun x => { x with safehold := true })

/-! ### Output states (Table 15-3) -/

/-- ENABLE: 0, or the detail of its refusal. -/
def aoEnable (c : Chip) (a : Fin 8) : Chip × Nat :=
  let x := c.ao[a]
  if x.enabled then (c, 0)
  else if bit (aocfg c a) 63 = false then (c, 0x0010)
  else if x.checkfail then (c, 0x2005)
  else (updAo c a (fun x => { x with enabled := true, safehold := true }), 0)

/-- DISABLE and DRAINING. -/
def aoDisable (c : Chip) (a : Fin 8) : Chip := updAo c a (fun x => { x with enabled := false })

/-- The all-zero output: ±10 V at mid-scale (Table 3-4). [DESIGN CHOICE: log 18; DEDUCED: log 22] -/
def aoZero : Ao :=
  { enabled := false, span := 0, code := 0x8000, row := 4, last := 0x8000, spanbusy := false, safehold := false, mismatch := false,
    opn := false, monvalid := false, clamped := false, checkfail := false, seqCode := 0x8000, emitTick := 0, verN := 0,
    verErr := 0, oldSpan := 0, own := none, chgtick := 0, moncode := 0, monval := 0, mmRun := 0, okRun := 0, openRun := 0,
    closeRun := 0, mmevents := 0, openevents := 0, spanchanges := 0, clamps := 0 }

/-- The end of a block reset (R441, R449). -/
def aoBlockReset (c : Chip) (a : Fin 8) : Chip :=
  levelB (updAo c a (fun x => { x with safehold := true, checkfail := false })) (482 + 3 * a.val) false

/-- The entry of a running SPANCHANGE on an output. -/
def spanEntry (c : Chip) (a : Fin 8) : Option Entry :=
  c.wb.entries.find? (fun e => opcodeOf e = 0x52 && targetOf e = 68 + a.val && e.state = .active && decide (0 < e.ckpt))

/-- SPANCHANGE's result word (R452). -/
def spanResult (c : Chip) (e : Entry) (a : Fin 8) : Word :=
  pack [(48, 8, c.ao[a].oldSpan), (40, 8, fld e.cmdb 2 0), (0, 16, c.ao[a].verErr)]

/-- The sequence ends or is given up: SPANBUSY clears and SAFEHOLD is set. -/
def spanEnd (c : Chip) (a : Fin 8) : Chip := updAo c a (fun x => { x with spanbusy := false, safehold := true })

/-- AO_CHECK_MISMATCH (R449): a SPANCHANGE that holds the output, ACTIVE or SUSPENDED, ends. [DEDUCED: log 43] -/
def aoCheckMismatch (c : Chip) (a : Fin 8) : Chip :=
  if serving c then
    let c1 := levelB (updAo c a (fun x => { x with checkfail := true, enabled := false })) (482 + 3 * a.val) true
    aoState (match c.wb.entries.find? (fun e => opcodeOf e = 0x52 && targetOf e = 68 + a.val &&
        (e.state = .active || e.state = .suspended) && decide (0 < e.ckpt)) with
      | some e => spanEnd (retire c1 (keyOf e) stFaulted 0x5206 (spanResult c1 e a)) a
      | none => c1) a
  else c

/-! ### SPANCHANGE (R442 to R444) -/

/-- Emit the safe value of the span in force (R443). -/
def spanEmit (c : Chip) (a : Fin 8) : Chip :=
  let k := aoSafe c a c.ao[a].span
  updAo c a (fun x => { noteClamp k.2 x with seqCode := k.1, emitTick := c.tick, verN := 0, verErr := 0 })

/-- One step of SPANCHANGE (Table 15-4). -/
def spanStep (c : Chip) (e : Entry) (a : Fin 8) : Chip × LStep :=
  let x := c.ao[a]
  let new := fld e.cmdb 2 0
  let driven : Bool := match aoSource c a with | some n => c.lp[n].mode ≠ .disabled | none => false
  let verify (n detail : Nat) : Chip × LStep :=
    if 2 ≤ x.verN then (c, .pass n)
    else if x.emitTick + 64000 ≤ c.tick then (spanEnd c a, .final n stFaulted detail (spanResult c e a))
    else (c, .none)
  match e.ckpt with
  | 0 =>
    if driven then (c, .final 1 stRefused 0x5201 0)
    else if x.checkfail then (c, .final 1 stRefused 0x5202 0)
    else if new = x.span then
      (c, .final 1 stDone 0x5205 (pack [(48, 8, x.span), (40, 8, new)]))
    else (spanEmit (updAo c a (fun x => { x with spanbusy := true, oldSpan := x.span })) a, .pass 1)
  | 1 => verify 2 0x5203
  | 2 => (spanEmit (updAo c a (fun x => { x with span := new, monvalid := false, opn := x.opn && spanCurrent new })) a, .pass 3)
  | 3 => verify 4 0x5204
  | _ =>
    (spanEnd (updAo c a (fun x => { x with spanchanges := wrapInc16 x.spanchanges })) a, .final 5 stDone 0 (spanResult c e a))

/-- A scrub begins with the first half of the SPANCHANGE sequence (R93, R441): the source is ignored and the old span's safe value is
emitted; the scrub's end switches to ±10 V at 0x8000. [DESIGN CHOICE: log 62] -/
def aoScrub (c : Chip) (a : Fin 8) : Chip :=
  spanEmit (updAo c a (fun x => { x with spanbusy := true, oldSpan := x.span })) a

/-- The ticks from the checkpoint before (Table 15-4). -/
def spanTicks (e : Entry) : Nat :=
  match e.ckpt with
  | 0 => 1024 | 2 => 1 | 4 => 1024 | _ => 0

/-- A resumed SPANCHANGE re-runs the step after its checkpoint (R444). [DEDUCED: log 43] -/
def spanResume (c : Chip) (e : Entry) (a : Fin 8) : Chip :=
  match e.ckpt with
  | 1 | 3 => spanEmit c a
  | 4 => setCkpt (spanEmit c a) (keyOf e) 3
  | _ => c

/-- Argument rules of SPANCHANGE (R442). -/
def spanArgsOk (t : Nat) (b k : Word) : Bool :=
  decide (b.toNat ≤ 5) && (decide (b.toNat ≤ 3) || decide (t < 72)) && k = 0

/-! ### The readback monitor (R445 to R448) -/

/-- OPEN after a reading with the comparator at its limit or not (R447). -/
def openReading (c : Chip) (a : Fin 8) (lim : Bool) : Chip :=
  let x := c.ao[a]
  let n := aoOpencount (aocfg c a)
  if spanCurrent x.span = false then updAo c a (fun x => { x with opn := false, openRun := 0, closeRun := 0 })
  else if aoVal c a * 2 < 2 ^ 48 then updAo c a (fun x => { x with openRun := 0, closeRun := 0 })
  else
    let o := if lim then x.openRun + 1 else 0
    let k := if lim then 0 else x.closeRun + 1
    if !x.opn && decide (n ≤ o) then
      countB (updAo c a (fun x => { x with opn := true, openRun := 0, closeRun := 0, openevents := wrapInc16 x.openevents })) (481 + 3 * a.val)
    else if x.opn && decide (n ≤ k) then updAo c a (fun x => { x with opn := false, openRun := 0, closeRun := 0 })
    else updAo c a (fun x => { x with openRun := o, closeRun := k })

/-- MISMATCH after a counted reading (R446). -/
def mismatchReading (c : Chip) (a : Fin 8) (bad : Bool) : Chip :=
  let x := c.ao[a]
  let n := aoMmcount (aocfg c a)
  if x.opn then c
  else
    let m := if bad then x.mmRun + 1 else 0
    let k := if bad then 0 else x.okRun + 1
    if !x.mismatch && decide (n ≤ m) then
      countB (updAo c a (fun x => { x with mismatch := true, mmRun := 0, okRun := 0, mmevents := wrapInc16 x.mmevents })) (480 + 3 * a.val)
    else if x.mismatch && decide (n ≤ k) then updAo c a (fun x => { x with mismatch := false, mmRun := 0, okRun := 0 })
    else updAo c a (fun x => { x with mmRun := m, okRun := k })

/-- MONITOR_READING (R445): the 12-bit result of the sample 400 ticks ago becomes available; lim is the compliance
comparator sampled with it. -/
def monitorReading (c : Chip) (a : Fin 8) (m : Fin 4096) (lim : Bool) : Chip :=
  let x := c.ao[a]
  let s := c.tick - 400
  let owned : Bool := (ownE c (ixAo a)).st = .owned
  if serving c && owned && decide (400 ≤ c.tick ∧ s % 3200 = 400 * a.val) then
    let since := match x.own with | some t => decide (t ≤ s) | none => false
    let counted := since && decide (x.emitTick ≤ s) && decide (x.chgtick + aoBlank (aocfg c a) ≤ s)
    let mc := m.val * 16
    let err := ((mc : Int) - x.code).natAbs
    let bad := decide (aoTol (aocfg c a) < err)
    let c := openReading (updAo c a (fun x => { x with moncode := mc })) a lim
    if counted then
      let good := !bad && !c.ao[a].opn
      let c := updAo c a (fun x => { x with
        monval := aoPhys x.span mc, monvalid := true,
        verN := if good then x.verN + 1 else 0, verErr := if good then max x.verErr err else 0 })
      mismatchReading c a bad
    else c
  else c

/-! ### APPLY and words (R450, R451) -/

/-- The APPLY check of an output. -/
def aoCheck (c : Chip) (a : Fin 8) : Nat :=
  if c.ao[a].enabled = true ∧ bit (stg c (aoBase a)) 63 = false then 0x0424 else 0

/-- The STATUS words of an output (Table 15-6). -/
def aoWord (c : Chip) (a : Fin 8) (off : Nat) : Word :=
  let x := c.ao[a]
  let src := aoSource c a
  match off with
  | 0x40 => pack [(63, 1, b2n x.enabled), (60, 3, x.span), (59, 1, b2n x.spanbusy), (58, 1, b2n (x.row = 2)), (57, 1, b2n x.safehold),
      (56, 1, b2n x.mismatch), (55, 1, b2n x.opn), (54, 1, b2n x.monvalid), (53, 1, b2n x.clamped), (52, 1, b2n x.checkfail),
      (51, 1, b2n src.isSome), (44, 4, match src with | some n => n.val | none => 0)]
  | 0x48 => w64i (aoVal c a)
  | 0x50 => w64i x.monval
  | 0x58 => pack [(48, 16, x.code), (32, 16, x.moncode)]
  | 0x60 => w64 x.chgtick
  | 0x68 => pack [(48, 16, x.mmevents), (32, 16, x.openevents), (16, 16, x.spanchanges), (0, 16, x.clamps)]
  | _ => 0

/-- One output's field of DACSTAT (R451). -/
def dacstatField (x : Ao) : Nat :=
  x.span + 8 * b2n x.enabled + 16 * b2n x.mismatch + 32 * b2n x.opn + 64 * b2n x.spanbusy + 128 * b2n x.checkfail

end Sys2Proof.Machine
end

