-- ==== Sys2Proof/Machine/Loops.lean ====
section
/-! DEFINITION. The control engine (chapters 13 and 14): frames, signals, laws, set-points, modes, groups, AUTOTUNE. -/

namespace Sys2Proof.Machine

/-! ### Configuration in force (Tables 13-8, 14-7) -/

/-- FRAME in ticks (R374, R403). -/
def ceFrame (c : Chip) : Nat := orDef (fld (act c 0x0C000000) 15 0) 8000
/-- TRIGGATE. -/
def trigGate (c : Chip) : Word := act c 0x0C000008
/-- LPSIG in force. -/
def lpsig (c : Chip) (n : Fin 16) : Word := act c (lpBase n + 0x08)
/-- LPTRIG in force. -/
def lptrig (c : Chip) (n : Fin 16) : Word := act c (lpBase n + 0x10)
/-- LPSUPCFG in force. -/
def lpsup (c : Chip) (n : Fin 16) : Word := act c (lpBase n + 0x180)
/-- A Q16.48 or Q8.56 word in force, as a number. -/
def lpQ (c : Chip) (n : Fin 16) (off : Nat) : Int := (act c (lpBase n + off)).toInt
/-- NSEC sections of the law, and the order of each (Table 13-3). -/
def lpSecs (w : Word) : Nat := if fld w 63 62 = 1 then 1 else min 8 (fld w 59 56)
/-- The order of each section. -/
def lpOrder (w : Word) : Nat := if fld w 63 62 = 1 then fld w 59 56 else 2
/-- NREG. -/
def lpRegs (w : Word) : Nat := fld w 54 52 + 1
/-- RUNMODE. -/
def lpRunmode (w : Word) : Nat := fld w 39 38
/-- DIV. -/
def lpDiv (w : Word) : Nat := fld w 37 32 + 1
/-- PHASE. -/
def lpPhase (w : Word) : Nat := fld w 29 24
/-- GRPEN. -/
def lpGrpen (w : Word) : Bool := bit w 59
/-- GRP. -/
def lpGrp (w : Word) : Fin 4 := ⟨fld w 57 56 % 4, Nat.mod_lt _ (by decide)⟩
/-- FETIME; 0 means 16. -/
def lpFetime (w : Word) : Nat := orDef (fld w 47 32) 16
/-- Coefficient i of section j in region r, Q8.56 (Table 13-7). -/
def lpCoef (c : Chip) (n : Fin 16) (r j i : Nat) : Int := lpQ c n (0x1000 + 0x200 * r + 0x40 * j + 8 * i)

/-! ### Arithmetic (R388) -/

/-- A product of a Q16.48 value and a Q8.56 coefficient at 102 fraction bits. -/
def prodQ (v k : Int) : Int := rdiv (v * k) 4
/-- A Q16.48 value at 102 fraction bits. -/
def liftQ (v : Int) : Int := v * 2 ^ 54
/-- A sum stored as Q16.48, and whether it saturated. -/
def storeQ (a : Int) : Int × Bool :=
  let x := rdiv a (2 ^ 54)
  let y := clampS 64 x
  (y, x ≠ y)
/-- A value stored as Q16.48. -/
def satQ (x : Int) : Int := clampS 64 x
/-- The nearest integer square root. -/
def isqrtNear (n : Nat) : Nat := let r := isqrt n; if r < n - r * r then r + 1 else r

/-! ### Signals (Table 13-2) -/

/-- A signal number's object: none for a number that is not used. -/
def sigInfo (s : Nat) : Option (Option ObjIx) :=
  if s = 0 ∨ s = 0x100 then some none
  else if 0x10 ≤ s ∧ s < 0x50 then (fin? 88 ((s - 0x10) / 4)).map some
  else if 0x50 ≤ s ∧ s < 0x60 then (if s % 4 = 3 then none else (fin? 88 (16 + (s - 0x50) / 4)).map some)
  else if 0x60 ≤ s ∧ s < 0xA0 then (fin? 88 (52 + (s - 0x60) / 4)).map some
  else if 0xA0 ≤ s ∧ s < 0xE0 then (fin? 88 (52 + (s - 0xA0) / 4)).map some
  else if 0xE0 ≤ s ∧ s < 0xE8 then (fin? 88 (68 + (s - 0xE0))).map some
  else if 0xF0 ≤ s ∧ s < 0x100 then (fin? 88 (84 + (s - 0xF0) / 4)).map some
  else none

/-- Channel signals (R380). -/
def chSignal (c : Chip) (n : Fin 16) (i : Nat) : Option Int :=
  let t := c.trk[n]
  if !t.valid || inReset c (.obj (ixCh n)) then none
  else some (satQ (match i with
    | 0 => t.mechspd * 2 ^ 16
    | 1 => t.mechang % 2 ^ 32 * 2 ^ 16
    | 2 => t.elecspd * 2 ^ 16
    | _ => rdiv (t.elecacc * 2 ^ 16) (polesOf (trkcfg c n))))

/-- Wheel signals (R326, R380). -/
def whSignal (c : Chip) (w : Fin 4) (i : Nat) : Option Int :=
  if !whValid c w || inReset c (.obj (ixWh w)) then none
  else match i with
    | 0 => some (satQ (whSpeed c w * 2 ^ 16))
    | 1 => some (whTheta c w % cycleOf c w * 2 ^ 16)
    | _ => if c.wh[w].phsync then some (c.wh[w].phf * 2 ^ 16) else none

/-- Loop signals (R379, R380): the values of the run last applied. -/
def lpSignal (c : Chip) (n : Fin 16) (i : Nat) : Option Int :=
  let l := c.lp[n]
  if !l.applied then none
  else some (match i with
    | 0 => l.run.ua
    | 1 => l.run.core.r
    | 2 => l.run.x
    | _ => (l.run.trign : Int) * 2 ^ 48)

/-- A signal's value in Q16.48; none while it is lost (Table 13-2). -/
def sigVal (c : Chip) (s : Nat) : Option Int :=
  if s = 0 then some 0
  else if s < 0x50 then chSignal c ⟨(s - 0x10) / 4 % 16, Nat.mod_lt _ (by decide)⟩ (s % 4)
  else if s < 0x60 then whSignal c ⟨(s - 0x50) / 4 % 4, Nat.mod_lt _ (by decide)⟩ (s % 4)
  else if s < 0xA0 then lpSignal c ⟨(s - 0x60) / 4 % 16, Nat.mod_lt _ (by decide)⟩ (s % 4)
  else if s < 0xE0 then some (liveW c (0x04000000 + 0x10000 * ((s - 0xA0) / 4) + 0x80 + 8 * (s % 4))).toInt
  else if s < 0xF0 then
    let a : Fin 8 := ⟨(s - 0xE0) % 8, Nat.mod_lt _ (by decide)⟩
    if c.ao[a].monvalid then some c.ao[a].monval else none
  else if s < 0x100 then
    let k : Fin 4 := ⟨(s - 0xF0) / 4 % 4, Nat.mod_lt _ (by decide)⟩
    if c.link.sats[k].admitted then some (if c.link.sats[k].level.testBit (s % 4) then 2 ^ 48 else 0) else none
  else some (satQ (rdiv ((c.tick % 5242880000000 : Nat) * 2 ^ 48) 160000000))

/-- The four signals that LPSIG names: MEASSEL, REFSEL, FFSEL, SCHEDSEL. -/
def sigList (w : Word) : List Nat := [fld w 63 48, fld w 47 32, fld w 31 16, fld w 15 0]

/-- A signal is present for a loop (R384). -/
def sigPresent (c : Chip) (n : Fin 16) (s : Nat) : Bool :=
  (sigVal c s).isSome &&
  (match sigInfo s with
    | some (some i) => sameOwner c (ixLp n) i
    | _ => true)

/-- An input of the loop is lost (R384). -/
def inputLost (c : Chip) (n : Fin 16) : Bool := !(sigList (lpsig c n)).all (sigPresent c n)

/-- The value of one of the loop's signals. -/
def sampleSig (c : Chip) (s : Nat) : Int := (sigVal c s).getD 0

/-! ### Sections and regions (R387, R390, R391) -/

/-- A place of a list, written. -/
def setAt (l : List Int) (i : Nat) (x : Int) : List Int := l.set i x

/-- The sections' outputs in order: b0 of each, the b0 used before where R391 applies, and the sum that presets the final
section where one is pending (R392, R417). The result is the inputs and outputs, the adjusted states, and saturation. -/
def runSections (b0 : Nat → Int) (old : Option (List Int)) (preset : Option Int) (nsec : Nat) (x : Int) (st : List Int) :
    List (Int × Int) × List Int × Bool :=
  let step (a : List (Int × Int) × List Int × Bool × Int) (j : Nat) : List (Int × Int) × List Int × Bool × Int :=
    let v := a.2.2.2
    let st := a.2.1
    let s := st.getD (3 * j) 0
    let s1 : Int × Bool :=
      match (if j + 1 = nsec then preset else none) with
      | some t => storeQ (t - prodQ v (b0 j))
      | none =>
        match old with
        | none => (s, false)
        | some o => if o.getD j (b0 j) = b0 j then (s, false) else storeQ (liftQ s + prodQ v (o.getD j (b0 j) - b0 j))
    let o := storeQ (prodQ v (b0 j) + liftQ s1.1)
    (a.1 ++ [(v, o.1)], setAt st (3 * j) s1.1, a.2.2.1 || s1.2 || o.2, o.1)
  let r := (List.range nsec).foldl step ([], st, false, x)
  (r.1, r.2.1, r.2.2.1)

/-- The states after a run (R387, R389): the last section follows wt. -/
def updateStates (co : Nat → Nat → Int) (q nsec : Nat) (secs : List (Int × Int)) (wt : Int) (st : List Int) : List Int × Bool :=
  (List.range nsec).foldl (fun (a : List Int × Bool) j =>
    let p := secs.getD j (0, 0)
    let v := p.1
    let o := if j + 1 = nsec then wt else p.2
    let s (i : Nat) : Int := a.1.getD (3 * j + i) 0
    let s3 := if q = 3 then s 2 else 0
    let n1 := storeQ (prodQ v (co j 1) - prodQ o (co j 4) + liftQ (s 1))
    let n2 := storeQ (prodQ v (co j 2) - prodQ o (co j 5) + liftQ s3)
    let n3 := if q = 3 then storeQ (prodQ v (co j 3) - prodQ o (co j 6)) else (0, false)
    (setAt (setAt (setAt a.1 (3 * j) n1.1) (3 * j + 1) n2.1) (3 * j + 2) n3.1, a.2 || n1.2 || n2.2 || n3.2)) (st, false)

/-- BOUNDj. -/
def lpBound (c : Chip) (n : Fin 16) (j : Nat) : Int := lpQ c n (0x40 + 8 * (j - 1))

/-- Rise through the regions while s exceeds the bound above by more than HYST. -/
def regionUp (c : Chip) (n : Fin 16) (nreg : Nat) (s h : Int) (fuel j : Nat) : Nat :=
  match fuel with
  | 0 => j
  | k + 1 => if j + 1 < nreg ∧ lpBound c n (j + 1) + h < s then regionUp c n nreg s h k (j + 1) else j

/-- Fall through the regions while s lies below the bound by more than HYST. -/
def regionDown (c : Chip) (n : Fin 16) (s h : Int) (fuel j : Nat) : Nat :=
  match fuel with
  | 0 => j
  | k + 1 => if 0 < j ∧ s < lpBound c n j - h then regionDown c n s h k (j - 1) else j

/-- Region selection (R390). -/
def selectRegion (c : Chip) (n : Fin 16) (cur : Option Nat) (s : Int) : Nat :=
  let nreg := lpRegs (lpcfg c n)
  let h := lpQ c n 0x38
  match cur with
  | none => ((List.range nreg).filter (fun i => i ≠ 0 && decide (lpBound c n i ≤ s))).foldl max 0
  | some j => regionDown c n s h 8 (regionUp c n nreg s h 8 j)

/-- Limit to [OUTMIN, OUTMAX] (R389). -/
def limitOut (c : Chip) (n : Fin 16) (v : Int) : Int :=
  let lo := lpQ c n 0x28
  let hi := lpQ c n 0x30
  if lo = 0 ∧ hi = 0 then v else clampI lo hi v

/-! ### The ramp (R412, R413) -/

/-- One move of the ramp over T ticks: r, rv, LIMITING, RATELIM, ACCLIM. -/
def rampMove (rate acc : Int) (wrap : Bool) (target r rv : Int) (t : Nat) : Int × Int × Bool × Bool × Bool :=
  let e0 := target - r
  let e := if wrap then wrapHalf e0 else e0
  let sg (x v : Int) : Int := if x < 0 then -v else if x = 0 then 0 else v
  if rate = 0 ∧ acc = 0 then (target, 0, false, false, false)
  else
    let vd := satQ (rdiv (e * 160000000) t)
    let vd := if 0 < acc then sg e (min vd.natAbs (satQ (isqrtNear (2 * acc * e.natAbs).toNat))) else vd
    let vd := if 0 < rate then sg vd (min vd.natAbs rate) else vd
    let da := satQ (rdiv (acc * t) 160000000)
    let dv := vd - rv
    let lim : Bool := decide (0 < acc) && decide (dv < -da ∨ da < dv)
    let rv1 := if 0 < acc then satQ (rv + clampI (-da) da dv) else vd
    let p := satQ (rdiv (rv1 * t) 160000000)
    if (e.natAbs : Int) ≤ sg e p then (target, 0, false, false, lim)
    else
      let r1 := satQ (r + p)
      (r1, rv1, decide (r1 ≠ target), decide (0 < rate) && decide ((rv1.natAbs : Int) = rate), lim)

/-! ### AUTOTUNE's relay (R423) -/

/-- A relay run at boundary b with error x and measurement y: the relay and its output before limiting. -/
def relayRun (k : Relay) (b : Nat) (x y : Int) : Relay × Int :=
  let up : Bool := match k.high with
    | none => decide (0 ≤ x)
    | some h => if k.eps < x then true else if x < -k.eps then false else h
  let ends := k.high = some false && up
  let lo := min (k.ylo.getD y) y
  let hi := max (k.yhi.getD y) y
  let k1 := { k with
    high := some up,
    cycles := if ends then k.cycles ++ [{ period := b - k.from_.getD b, swing := hi - lo }] else k.cycles,
    from_ := if ends then some b else k.from_,
    ylo := if ends then none else some lo, yhi := if ends then none else some hi }
  (k1, satQ (if up then k.u0 + k.d else k.u0 - k.d))

/-! ### One run (R389, R407, R409, R417) -/

/-- The loop computes nothing at a boundary (R377). -/
def lpFrozen (c : Chip) (n : Fin 16) : Bool :=
  outputsHeld c || (ownE c (ixLp n)).st ≠ .owned || c.lp[n].checkfail || inReset c (.obj (ixLp n)) || inputLost c n

/-- Due at boundary k (R376). -/
def lpDue (c : Chip) (n : Fin 16) (k : Nat) : Bool :=
  let w := lpcfg c n
  let per := decide (lpPhase w ≤ k ∧ (k - lpPhase w) % lpDiv w = 0)
  let trg := decide (0 < c.lp[n].trigcount)
  match lpRunmode w with
  | 0 => per
  | 1 => trg
  | _ => per || trg

/-- The start value S of R407: the destination's value in force, or LPOUT. [DEDUCED: log 42] -/
def startValue (c : Chip) (n : Fin 16) : Int :=
  let w := lpcfg c n
  match (if lpDesten w then fin? 8 (lpDestao w) else none) with
  | some a => aoVal c a
  | none => c.lp[n].run.ua

/-- The state a start pending begins from (R407), or the core as it stands. -/
def startCore (l : Lp) (start : Bool) (y : Int) : LpCore :=
  if start then { l.core with st := List.replicate 24 0, b0s := [], hasReg := false, r := y, rv := 0 }
  else if l.zero then { l.core with hasReg := false, b0s := [] } else l.core

/-- The ticks since the previous run that was not frozen, capped (R412). -/
def rampTicks (c : Chip) (n : Fin 16) : Nat :=
  let w := lpcfg c n
  let cap := if lpRunmode w = 0 then lpDiv w * ceFrame c else 64 * ceFrame c
  match c.lp[n].lastRun with
  | none => cap
  | some t => max 1 (min cap (c.tick - t))

/-- A run up to its candidate, from the state at the start of the boundary tick (R389). [DEDUCED: log 42] -/
def preRun (c : Chip) (n : Fin 16) : Pre :=
  let l := c.lp[n]
  let w := lpcfg c n
  let sup := lpsup c n
  let sg := lpsig c n
  let y := sampleSig c (fld sg 63 48)
  let ff := sampleSig c (fld sg 31 16)
  let start := decide (l.pend = .start) || (l.warm && bit sup 60)
  let k0 := startCore l start y
  let s0 := startValue c n
  let manval := if start ∧ l.mode = .manual then s0 else l.manval
  let wrap := bit w 22
  let target := if fld sg 47 32 = 0 then l.sptarget else sampleSig c (fld sg 47 32)
  let track := l.mode = .manual && bit sup 62
  let held := track || l.mode = .tuning
  let mv := if track then (y, 0, false, false, false)
    else if l.mode = .tuning then (k0.r, k0.rv, false, false, false)
    else rampMove (lpQ c n 0x188) (lpQ c n 0x190) wrap target k0.r k0.rv (rampTicks c n)
  let r := mv.1
  let xr := satQ (if bit w 23 ∧ l.mode ≠ .tuning then y else r - y)
  let x := if wrap then wrapHalf xr else xr
  let reg := selectRegion c n (if k0.hasReg then some k0.region else none) (sampleSig c (fld sg 15 0))
  let nsec := lpSecs w
  let kff := lpQ c n 0x20
  let b0 (j : Nat) : Int := lpCoef c n reg j 0
  let bumpless := !bit w 21 && !k0.b0s.isEmpty
  let level (v : Int) : Int := liftQ v - prodQ ff kff
  let preset : Option Int :=
    if start then (if l.mode = .auto then some (level s0) else none)
    else if l.pend = .preset ∧ l.mode = .auto then some (level l.run.ua)
    else if l.zero then some (level l.run.ua) else none
  let rs := runSections b0 (if bumpless && preset.isNone then some k0.b0s else none) preset nsec x k0.st
  let wv := (rs.1.getLastD (x, x)).2
  let u := storeQ (liftQ wv + prodQ ff kff)
  let uc := limitOut c n u.1
  let rl := if l.mode = .tuning then relayRun l.relay c.tick x y else (l.relay, 0)
  let cand := match l.mode with
    | .manual => limitOut c n manval
    | .tuning => limitOut c n rl.2
    | _ => uc
  let core : LpCore := { st := rs.2.1, b0s := (List.range nsec).map b0, region := reg, hasReg := true, r := r, rv := mv.2.1 }
  { n := n, y := y, x := x, ff := ff, secs := rs.1, st := rs.2.1, w := wv, u := u.1, uc := uc, cand := cand, sat := rs.2.2 || u.2,
    trign := l.trigcount, limiting := mv.2.2.1, ratelim := mv.2.2.2.1, acclim := mv.2.2.2.2, held := held,
    lp := { l with
      core := core, relay := rl.1, manval := manval, pend := .none, zero := false, warm := false, frozen := false, inlost := false,
      trigcount := 0, trigsat := false, lastRun := some c.tick,
      switches := if k0.hasReg && reg ≠ k0.region then wrapInc16 l.switches else l.switches,
      ferun := if start then 0 else l.ferun, feclear := if start then 0 else l.feclear, feover := l.feover && !start,
      fepeak := if start then 0 else l.fepeak } }

/-- Following error (R422): the loop, and whether S419 counts. -/
def followError (l : Lp) (x lim : Int) (time : Nat) : Lp × Bool :=
  let p := max l.fepeak (min x.natAbs (2 ^ 63 - 1))
  if lim < x.natAbs then
    let r := min (l.ferun + 1) 65535
    let hit := !l.feover && decide (time ≤ r)
    ({ l with fepeak := p, ferun := r, feclear := 0, feover := l.feover || hit, fecount := if hit then wrapInc16 l.fecount else l.fecount }, hit)
  else
    let k := l.feclear + 1
    ({ l with fepeak := p, ferun := 0, feclear := k, feover := l.feover && !decide (time ≤ k) }, false)

/-- What a run takes from the tick it falls in (R22, R398): the run's loop record l came from the start o of the tick; a mode, a
set-point or a manual value that a command gave in the tick stands, and so do the triggers of the tick. -/
def mergeRun (o k l : Lp) : Lp :=
  let same := decide (k.transfers = o.transfers)
  { l with
    mode := k.mode, sptarget := k.sptarget, transfers := k.transfers, checkfail := k.checkfail,
    pend := if same then l.pend else k.pend, manval := if same && decide (k.manval = o.manval) then l.manval else k.manval,
    zero := l.zero || (k.zero && !o.zero), warm := l.warm || (k.warm && !o.warm),
    trigcount := k.trigcount - o.trigcount, trigsat := k.trigsat && decide (k.trigdrop ≠ o.trigdrop), trigdrop := k.trigdrop,
    suppressed := k.suppressed, run := k.run, applied := k.applied, runcount := k.runcount, satcount := k.satcount,
    relay := if same then { l.relay with applied := k.relay.applied } else k.relay, atres := k.atres,
    feover := l.feover && k.mode ≠ .disabled }

/-- A run with its applied value (R389, R420), computed from the part v as it stood at the start of the boundary tick: the final
states, what its application will write, supervision. A loop that is DISABLED in the boundary's tick has no run. [DEDUCED: log 42] -/
def finishRun (v c : Chip) (p : Pre) (ua : Int) (win lose : Bool) : Chip :=
  let n := p.n
  let w := lpcfg v n
  let kff := lpQ v n 0x20
  let wt := if bit w 20 then (p.w, false) else storeQ (liftQ ua - prodQ p.ff kff)
  let co (j i : Nat) : Int := lpCoef v n p.lp.core.region j i
  let us := updateStates co (lpOrder w) (lpSecs w) p.secs wt.1 p.st
  let sat := p.sat || wt.2 || us.2
  let core := { p.lp.core with st := us.1 }
  let run : LpRun := {
    tick := c.tick, y := p.y, x := p.x, w := p.w, ua := ua, trign := p.trign, outlim := decide (p.uc ≠ p.u), satstore := sat,
    limiting := p.limiting, ratelim := p.ratelim, acclim := p.acclim, held := p.held, grpwin := win, grplose := lose, core := core }
  let lim := lpQ v n 0x198
  let l := { p.lp with core := core, flight := c.lp[n].flight ++ [run] }
  let f := if p.lp.mode = .auto ∧ lose = false ∧ lim ≠ 0 then followError l p.x lim (lpFetime (lpsup v n)) else (l, false)
  if c.lp[n].mode = .disabled then c
  else
    let c := levelB (updLp c n (fun k => mergeRun v.lp[n] k f.1)) (416 + 4 * n.val) false
    if f.2 then countB c (419 + 4 * n.val) else c

/-! ### Modes (Table 14-2) -/

/-- A change of mode (R406, R422). -/
def lpMode (c : Chip) (n : Fin 16) (m : LpMode) (p : LpPend) : Chip :=
  updLp c n (fun l => { l with
    mode := m, pend := if l.pend = .start ∧ m ≠ .disabled then .start else p, transfers := wrapInc16 l.transfers,
    ferun := if l.mode = .auto then 0 else l.ferun, feclear := if l.mode = .auto then 0 else l.feclear,
    feover := l.feover && l.mode ≠ .auto })

/-- TUNING ends (R426): AUTO with a preset pending. -/
def tuneEnd (c : Chip) (n : Fin 16) : Chip := if c.lp[n].mode = .tuning then lpMode c n .auto .preset else c

/-- The AUTOTUNE that runs on a loop. -/
def tuneEntry (c : Chip) (n : Fin 16) : Option Entry :=
  c.wb.entries.find? (fun e => opcodeOf e = 0x12 && targetOf e = 52 + n.val && e.state = .active && decide (0 < e.ckpt))

/-- A due boundary at which a loop is frozen, with an input lost or not (R377, R384, R426). A relay ends there: with a Bench
the command stops at this its next checkpoint (frameTick); any other cause faults it. -/
def frozenRun (c : Chip) (n : Fin 16) (lost : Bool) : Chip :=
  if c.lp[n].mode = .disabled then c else
  let c := levelB (updLp c n (fun l => { l with frozen := true, inlost := lost })) (416 + 4 * n.val) lost
  if c.lp[n].mode = .tuning ∧ benched c = false then
    match tuneEntry c n with
    | some e => retire (tuneEnd c n) (keyOf e) stFaulted 0x1207 0
    | none => c
  else c

/-- The winner of a group among the members that compute (R420). -/
def groupWinner (l : List Pre) : Option Pre :=
  match l with
  | [] => none
  | p :: t => some (t.foldl (fun a b => if b.cand < a.cand ∨ (b.cand = a.cand ∧ b.n < a.n) then b else a) p)

/-! ### Triggers (R396 to R399) -/

/-- k triggers reach a loop's task input. -/
def addTrigs (c : Chip) (n : Fin 16) (k : Nat) : Chip :=
  (List.range k).foldl (fun c _ =>
    if c.lp[n].trigcount < 255 then updLp c n (fun l => { l with trigcount := l.trigcount + 1 })
    else countB (updLp c n (fun l => { l with trigsat := true, trigdrop := satInc16 l.trigdrop })) (417 + 4 * n.val)) c

/-- k triggers of source b, whose object is i, for the loops that p admits (R396). -/
def deliverTrig (c : Chip) (b : Nat) (i : ObjIx) (k : Nat) (p : Fin 16 → Bool) : Chip :=
  if k = 0 then c
  else
    (allFin 16).foldl (fun c n =>
      if bit (lptrig c n) b && !bit (trigGate c) b && sameOwner c (ixLp n) i && c.lp[n].mode ≠ .disabled && p n then
        if outputsHeld c then updLp c n (fun l => { l with suppressed := min (l.suppressed + k) 65535 }) else addTrigs c n k
      else c) c

/-- The triggers of this step's events, tooth edges and channel turns (Table 13-4). -/
def loopTriggers (c : Chip) : Chip :=
  let c := (allFin 24).foldl (fun c o => deliverTrig c o.val (ixOut o) c.outs[o].trig (fun _ => true)) c
  let c := (allFin 4).foldl (fun c w =>
    let x := c.wh[w]
    let hit := x.edgeNow && !x.dir && (x.st = .provisional || x.st = .synced)
    deliverTrig c (24 + w.val) (ixWh w) (b2n hit) (fun n => fld (act c (lpBase n + 0x18)) (8 * w.val + 7) (8 * w.val) = x.idx)) c
  (allFin 16).foldl (fun (c : Chip) (n : Fin 16) =>
    let t := c.trk[n]
    let new := t.valid && c.eng.turns[n] ≠ t.outtick
    let c := { c with eng := { c.eng with turns := c.eng.turns.set n t.outtick } }
    deliverTrig c (48 + n.val) (ixCh n) (b2n (new && t.mechang / 2 ^ 32 = t.prevAng / 2 ^ 32 + 1)) (fun _ => true)) c

/-! ### The frame (R374 to R378) -/

/-- FRAME_BOUNDARY (R374 to R378, R420): every due loop samples and computes, from the part v as it stood at the start of the
boundary's tick (R22, Table 13-1), with the triggers delivered in the tick before (R398). -/
def frameBoundary (v c : Chip) : Chip :=
  let v := loopTriggers v
  let f := ceFrame v
  if serving c = true ∧ c.tick % f = 0 ∧ c.eng.boundary ≠ some c.tick then
    let due := (allFin 16).filter (fun n => v.lp[n].mode ≠ .disabled && lpDue v n (c.tick / f))
    let pres := (due.filter (fun n => !lpFrozen v n)).map (preRun v)
    let inGroup (g : Fin 4) : List Pre := pres.filter (fun p => lpGrpen (lpsup v p.n) && lpGrp (lpsup v p.n) = g)
    let c1 := (due.filter (fun n => lpFrozen v n)).foldl (fun k n => frozenRun k n (inputLost v n)) c
    let c2 := pres.foldl (fun k p =>
      let s := lpsup v p.n
      if lpGrpen s then
        match groupWinner (inGroup (lpGrp s)) with
        | some w => finishRun v k p w.cand (w.n = p.n) (w.n ≠ p.n)
        | none => k
      else finishRun v k p p.cand false false) c1
    { c2 with eng := { c2.eng with
        boundary := some c.tick,
        groups := Vector.ofFn (fun g => (!(inGroup g).isEmpty, (groupWinner (inGroup g)).map (·.n))) } }
  else c

/-! ### Application (Table 13-1) -/

/-- Apply one run of a loop. [DEDUCED: log 42] -/
def applyRun (c : Chip) (n : Fin 16) (r : LpRun) : Chip :=
  let w := lpcfg c n
  let c := updLp c n (fun l => { l with
    run := r, applied := true, runcount := wrapInc32 l.runcount, satcount := if r.satstore then wrapInc16 l.satcount else l.satcount,
    relay := { l.relay with applied := l.relay.applied || (l.mode = .tuning && l.relay.high.isSome) } })
  let c := match (if lpDesten w then fin? 8 (lpDestao w) else none) with
    | some a => aoApply c a r.ua
    | none => c
  deliverTrig c (32 + n.val) (ixLp n) 1 (fun _ => true)

/-- OUTPUT_APPLICATION (R378): every run sampled a frame ago is applied. -/
def outputApplication (c : Chip) : Chip :=
  let f := ceFrame c
  if serving c = true then
    (allFin 16).foldl (fun c n =>
      let l := c.lp[n].flight
      let due (r : LpRun) : Bool := decide (r.tick + f ≤ c.tick)
      (l.filter due).foldl (fun c r => applyRun c n r) (updLp c n (fun x => { x with flight := x.flight.filter (fun r => !due r) }))) c
  else c

/-- Runs that will not be applied any more are dropped; the engine goes back to the run last applied. [DEDUCED: log 42] -/
def dropFlight (l : Lp) : Lp :=
  if l.flight.isEmpty then l else { l with flight := [], core := l.run.core }

/-! ### ENABLE, DISABLE, resets (Table 14-2, R392, R401, R408, R409) -/

/-- ENABLE: no effect on a loop that is enabled. -/
def lpEnable (c : Chip) (n : Fin 16) : Chip :=
  if c.lp[n].mode = .disabled then
    lpMode (updLp c n (fun l => { l with applied := false, warm := false })) n (if bit (lpsup c n) 63 then .manual else .auto) .start
  else c

/-- CHECKFAIL clears as both copies are rewritten (R401). -/
def lpRewrite (c : Chip) (n : Fin 16) : Chip := levelB (updLp c n (fun l => { l with checkfail := false })) (418 + 4 * n.val) false

/-- The loop stops: its runs in flight are not applied, TRIGCOUNT is zeroed (R399, R408). -/
def lpStop (c : Chip) (n : Fin 16) : Chip :=
  lpMode (updLp c n (fun l => { dropFlight l with trigcount := 0, trigsat := false, pend := .none, ferun := 0, feclear := 0, feover := false })) n
    .disabled .none

/-- DISABLE. -/
def lpDisable (c : Chip) (n : Fin 16) : Chip :=
  let c0 := lpRewrite c n
  if c.lp[n].mode = .disabled then c0
  else
    let w := lpcfg c n
    let c1 := lpStop c0 n
    match (if lpDesten w && bit (lpsup c n) 61 then fin? 8 (lpDestao w) else none) with
    | some a => if c.ao[a].enabled then aoHold c1 a else c1
    | none => c1

/-- DRAINING: the last applied output is held. -/
def lpDrain (c : Chip) (n : Fin 16) : Chip := if c.lp[n].mode = .disabled then c else lpStop c n

/-- A warm reset (R392, R409). -/
def lpReset (l : Lp) : Lp :=
  let l := dropFlight l
  { l with
    warm := true, mode := if l.mode = .tuning then .auto else l.mode, pend := if l.mode = .tuning then .preset else l.pend,
    transfers := if l.mode = .tuning then wrapInc16 l.transfers else l.transfers }

/-- A block reset (R392); the loop is frozen while it lasts. -/
def lpBlockReset (c : Chip) (n : Fin 16) : Chip :=
  lpRewrite (updLp c n (fun l =>
    let l := dropFlight l
    { l with zero := true, core := { l.core with st := List.replicate 24 0 }, run := { l.run with core := { l.run.core with st := List.replicate 24 0 } } })) n

/-- LOOP_CHECK_MISMATCH (R401). -/
def lpMismatch (c : Chip) (n : Fin 16) : Chip :=
  if serving c then levelB (updLp c n (fun l => { dropFlight l with checkfail := true })) (418 + 4 * n.val) true else c

/-- A core of zeros. -/
def coreZero : LpCore := { st := List.replicate 24 0, b0s := [], region := 0, hasReg := false, r := 0, rv := 0 }

/-- The all-zero loop (Table 3-4). [DESIGN CHOICE: log 18] -/
def lpZero : Lp :=
  { mode := .disabled, pend := .none, zero := false, warm := false, frozen := false, inlost := false, checkfail := false,
    trigsat := false, trigcount := 0, runcount := 0, satcount := 0, switches := 0, trigdrop := 0, suppressed := 0,
    core := coreZero,
    run := { tick := 0, y := 0, x := 0, w := 0, ua := 0, trign := 0, outlim := false, satstore := false, limiting := false,
             ratelim := false, acclim := false, held := false, grpwin := false, grplose := false, core := coreZero },
    flight := [], applied := false, lastRun := none, sptarget := 0, manval := 0, feover := false, fecount := 0,
    transfers := 0, ferun := 0, feclear := 0, fepeak := 0,
    relay := { u0 := 0, d := 0, eps := 0, high := none, from_ := none, ylo := none, yhi := none, cycles := [], applied := false },
    atres := { valid := false, ckpt := 0, tu := 0, amp := 0, ku := 0, kp := 0, ki := 0, b0 := 0, b1 := 0, a1 := 0, tick := 0 } }

/-! ### SETMODE and SETPOINT (R411, R416, R418) -/

/-- SETMODE of a loop with OP MODE. -/
def lpSetMode (c : Chip) (e : Entry) (n : Fin 16) : Chip :=
  let l := c.lp[n]
  let use := bit e.cmdb 8
  if l.mode = .disabled then refuseLate c e 0x2211
  else if fld e.cmdb 1 0 = 1 then
    if l.mode = .manual then
      doneS (if use then updLp c n (fun l => { l with manval := e.cmdc.toInt }) else c) e
    else doneS (lpMode (updLp c n (fun l => { l with manval := if use then e.cmdc.toInt else l.run.ua })) n .manual .none) e
  else if l.mode = .auto then doneS c e
  else doneS (lpMode c n .auto .preset) e

/-- SETMODE of a loop with OP MANVAL. -/
def lpSetManval (c : Chip) (e : Entry) (n : Fin 16) : Chip :=
  match c.lp[n].mode with
  | .disabled => refuseLate c e 0x2211
  | .manual => doneS (updLp c n (fun l => { l with manval := e.cmdc.toInt })) e
  | _ => refuseLate c e 0x2212

/-- SETPOINT. -/
def lpSetpoint (c : Chip) (e : Entry) (n : Fin 16) : Chip :=
  if fld (lpsig c n) 47 32 ≠ 0 then refuseLate c e 0x2301
  else doneS (updLp c n (fun l => { l with sptarget := e.cmdb.toInt })) e

/-- Argument rules of SETMODE for a loop (Table 14-3). [DEDUCED: log 43] -/
def lpModeArgsOk (b k : Word) : Bool :=
  match fld b 63 60 with
  | 0 => decide (fld b 59 9 = 0 ∧ fld b 7 2 = 0 ∧ fld b 1 0 ≤ 1) && (bit b 8 || k = 0)
  | 1 => decide (fld b 59 0 = 0)
  | _ => false

/-! ### NOTCHSET (R393 to R395) -/

/-- 10^(-1/80) in 2^-128. -/
def notchStep : Nat := 330627859129200673162357817090412859464
/-- 10^(-d/80) in 2^-128. -/
def tenPow (d : Nat) : Nat := (List.range d).foldl (fun a _ => a * notchStep / 2 ^ 128) (2 ^ 128)
/-- Ω = tan(π f0 T) in 2^-96, from F0 in 2^-8 Hz and T in ticks. -/
def notchOmega (f0 t : Nat) : Int :=
  let y := twoPi80 * (f0 * t : Nat) / (2 * 256 * 160000000)
  series (y * y / 2 ^ 80) y 2 * 2 ^ 96 / series (y * y / 2 ^ 80) (2 ^ 80) 1

/-- The exact coefficients in 2^-56, rounded: b0, b1 and a1, b2, a2 (R394). -/
def notchExact (f0 bw depth t : Nat) : List Int :=
  let om := notchOmega f0 t
  let o2 := om * om / 2 ^ 96
  let zp : Int := rdiv ((bw : Int) * 2 ^ 96) (2 * f0)
  let zz := if depth = 0 then 0 else zp * tenPow depth / 2 ^ 128
  let one : Int := 2 ^ 96
  let p := 2 * zp * om / 2 ^ 96
  let z := 2 * zz * om / 2 ^ 96
  let d := (one + p + o2).toNat
  [rdiv ((one + z + o2) * 2 ^ 56) d, rdiv (2 * (o2 - one) * 2 ^ 56) d, rdiv ((one - z + o2) * 2 ^ 56) d, rdiv ((one - p + o2) * 2 ^ 56) d]

/-- A coefficient with its permitted error of less than 2^-52, a free value (R394). [DESIGN CHOICE: log 34] -/
def notchCoef (f0 bw depth t i : Nat) : Word :=
  w64i ((notchExact f0 bw depth t).getD i 0 + clampI (-16) 16 (Config.notchError f0 bw depth t i))

/-- The refusal of a NOTCHSET, 0 if none (R395). -/
def notchRefusal (c : Chip) (e : Entry) (n : Fin 16) : Nat :=
  let w := lpcfg c n
  let j := fld e.cmdb 58 56
  let f0 := fld e.cmdb 31 0
  let bw := fld e.cmdc 63 32
  let t := lpDiv w * ceFrame c
  if bit w (40 + j) = false then 0x2401
  else if lpRunmode w ≠ 0 then 0x2402
  else if f0 = 0 ∨ 18432000000 ≤ f0 * t ∨ bw = 0 ∨ 2 * f0 < bw ∨ 400 < fld e.cmdc 15 0 then 0x2403
  else if bit e.cmdb 48 = false ∧ lpRegs w ≤ fld e.cmdb 54 52 then 0x2404
  else 0

/-- Write a section's notch coefficients into the copy in force of one region. -/
def putNotch (c : Chip) (n : Fin 16) (r j f0 bw depth t : Nat) : Chip :=
  let a := lpBase n + 0x1000 + 0x200 * r + 0x40 * j
  let k (i : Nat) : Word := notchCoef f0 bw depth t i
  let vals : List (Nat × Word) := [(0, k 0), (1, k 1), (2, k 2), (3, 0), (4, k 1), (5, k 3), (6, 0)]
  { c with mem := vals.foldl (fun m p => m.putActive (a + 8 * p.1) p.2) c.mem }

/-- NOTCHSET at its commit point. -/
def notchSet (c : Chip) (e : Entry) (n : Fin 16) : Chip :=
  let r := notchRefusal c e n
  if r ≠ 0 then refuseLate c e r
  else
    let w := lpcfg c n
    let rs := if bit e.cmdb 48 then List.range (lpRegs w) else [fld e.cmdb 54 52]
    let c := rs.foldl (fun c r => putNotch c n r (fld e.cmdb 58 56) (fld e.cmdb 31 0) (fld e.cmdc 63 32) (fld e.cmdc 15 0) (lpDiv w * ceFrame c)) c
    commitS c e stDone 0 (pack [(0, 8, rs.length)])

/-- Argument rules of NOTCHSET (Table 13-12). -/
def notchArgsOk (b k : Word) : Bool :=
  decide (fld b 63 59 = 0 ∧ fld b 55 55 = 0 ∧ fld b 51 49 = 0 ∧ fld b 47 32 = 0 ∧ fld k 31 16 = 0)

/-! ### AUTOTUNE (R423 to R426) -/

/-- CYCTIMEOUT in ticks; 0 means 1526 units. -/
def tuneTimeout (e : Entry) : Nat := orDef (fld e.cmdc 31 0) 1526 * 2 ^ 20

/-- Checkpoint 1's effect: u0 afresh, TUNING (R424, R426). -/
def tuneBegin (c : Chip) (e : Entry) (n : Fin 16) : Chip :=
  let k : Relay := { u0 := c.lp[n].run.ua, d := e.cmdb.toInt, eps := (fld e.cmdc 62 32 : Int) * 2 ^ 32, high := none, from_ := none,
                     ylo := none, yhi := none, cycles := [], applied := false }
  lpMode (updLp c n (fun l => { l with relay := k })) n .tuning .none

/-- The results of R425: a detail of a fault, or the words. [DEDUCED: log 42] -/
def tuneResults (c : Chip) (e : Entry) (n : Fin 16) : Nat × AtRes :=
  let l := c.lp[n]
  let cy := (l.relay.cycles.drop 2).take 4
  let ps := cy.map (·.period)
  let sum := ps.sum
  let sw := (cy.map (·.swing)).sum
  let eps8 := 8 * l.relay.eps
  let t := lpDiv (lpcfg c n) * ceFrame c
  let spread := ps.foldl max 0 - ps.foldl min (ps.headD 0)
  let root := isqrtWide ((sw * sw - eps8 * eps8).toNat * 2 ^ 64)
  let ku := clampS 64 (rdiv (e.cmdb.toInt * 2 ^ 174) (twoPi80 * root).toNat)
  let kp := rdiv (9 * ku) 20
  let ki := clampS 64 (rdiv (kp * 768000000) sum)
  let b0 := clampS 64 (kp + rdiv (ki * t) 160000000)
  let bad := if sum < 40 * spread then 0x1206 else if sw ≤ eps8 then 0x1208 else 0
  (bad, { valid := true, ckpt := 9, tu := (rdiv sum 4).toNat, amp := rdiv sw 8, ku := ku, kp := kp, ki := ki, b0 := b0, b1 := -kp,
          a1 := -(2 ^ 56), tick := c.tick })

/-- ATSTAT's checkpoint follows the command's. -/
def tuneMark (c : Chip) (n : Fin 16) (k : Nat) : Chip := updLp c n (fun l => { l with atres := { l.atres with ckpt := k } })

/-- One step of AUTOTUNE (Table 14-4). -/
def tuneStep (c : Chip) (e : Entry) (n : Fin 16) : Chip × LStep :=
  let l := c.lp[n]
  match e.ckpt with
  | 0 =>
    if l.mode ≠ .auto then (c, .final 1 stRefused 0x1201 0)
    else if lpRunmode (lpcfg c n) ≠ 0 then (c, .final 1 stRefused 0x1202 0)
    else if lpGrpen (lpsup c n) then (c, .final 1 stRefused 0x1203 0)
    else (tuneMark (tuneBegin c e n) n 1, .pass 1)
  | 1 => if l.relay.applied then (tuneMark c n 2, .pass 2) else (c, .none)
  | 8 =>
    let r := tuneResults c e n
    if r.1 ≠ 0 then (tuneEnd (tuneMark c n 9) n, .final 9 stFaulted r.1 0)
    else (tuneEnd (updLp c n (fun l => { l with atres := r.2 })) n, .final 9 stDone 0 0)
  | k =>
    if k ≤ l.relay.cycles.length + 1 then (tuneMark c n (k + 1), .pass (k + 1))
    else if e.ckTick + tuneTimeout e ≤ c.tick then (tuneEnd c n, .final (k + 1) stRefused 0x1205 0)
    else (c, .none)

/-- The ticks from the checkpoint before (Table 14-4). -/
def tuneTicks (e : Entry) : Nat := if e.ckpt = 0 ∨ e.ckpt = 8 then 1024 else 0

/-- A resumed AUTOTUNE re-runs from checkpoint 1 (R426). [DEDUCED: log 42] -/
def tuneResume (c : Chip) (e : Entry) (n : Fin 16) : Chip :=
  if 0 < e.ckpt ∧ c.lp[n].mode = .auto then tuneBegin (setCkpt c (keyOf e) 1) e n else c

/-- Argument rules of AUTOTUNE (R423). -/
def tuneArgsOk (b k : Word) : Bool := decide (0 < b.toInt) && !bit k 63

/-! ### APPLY (R375, R376, R380, R381, R385, R386, R389, R390, R393, R397, R400, R419, R428) -/

/-- The object of a trigger source. -/
def trigObj (b : Nat) : Option ObjIx :=
  if b < 24 then fin? 88 (20 + b)
  else if b < 28 then fin? 88 (16 + (b - 24))
  else if 32 ≤ b ∧ b < 48 then fin? 88 (52 + (b - 32))
  else if 48 ≤ b then fin? 88 (b - 48)
  else none

/-- The other members in force of a group. -/
def groupOthers (c : Chip) (n : Fin 16) (g : Fin 4) : List (Fin 16) :=
  (allFin 16).filter (fun m => m ≠ n && lpGrpen (lpsup c m) && lpGrp (lpsup c m) = g)

/-- Something that the loop names belongs to another client. -/
def lpForeign (c : Chip) (n : Fin 16) : Bool :=
  let b := lpBase n
  let w := stg c b
  let i := ixLp n
  let sup := stg c (b + 0x180)
  (sigList (stg c (b + 8))).any (fun s => match sigInfo s with | some (some o) => !sameOwner c i o | _ => false) ||
  (lpDesten w && (match fin? 8 (lpDestao w) with | some a => !sameOwner c i (ixAo a) | none => true)) ||
  (List.range 64).any (fun k => bit (stg c (b + 0x10)) k && (match trigObj k with | some o => !sameOwner c i o | none => false)) ||
  (lpGrpen sup && (groupOthers c n (lpGrp sup)).any (fun m => !sameOwner c i (ixLp m)))

/-- A field breaks the rules that 0x0419 names. -/
def lpBadField (c : Chip) (n : Fin 16) : Bool :=
  let b := lpBase n
  let w := stg c b
  let q (o : Nat) : Int := (stg c (b + o)).toInt
  let form := fld w 63 62
  let ns := fld w 59 56
  let nreg := lpRegs w
  let mask := fld w 47 40
  let bits := (List.range 8).filter (fun j => mask.testBit j)
  let zero := (storeIn c.mem.staged b (b + 0x10000)).isEmpty
  !zero && (
    decide (lpRunmode w = 3 ∨ lpDiv w ≤ lpPhase w) ||
    (sigList (stg c (b + 8))).any (fun s => (sigInfo s).isNone) ||
    decide (form = 0 ∨ form = 3 ∨ (form = 1 ∧ ns ≠ 2 ∧ ns ≠ 3) ∨ (form = 2 ∧ (ns = 0 ∨ 8 < ns))) ||
    (form = 2 && (List.range nreg).any (fun r => (List.range (min 8 ns)).any (fun j =>
      stg c (b + 0x1000 + 0x200 * r + 0x40 * j + 0x18) ≠ 0 || stg c (b + 0x1000 + 0x200 * r + 0x40 * j + 0x30) ≠ 0))) ||
    decide (q 0x30 < q 0x28) || decide (q 0x38 < 0) ||
    (List.range (nreg - 2)).any (fun j => decide (q (0x48 + 8 * j) ≤ q (0x40 + 8 * j))) ||
    decide (2 < bits.length) || bits.any (fun j => form ≠ 2 || decide (ns ≤ j)) ||
    decide (fld (stg c (b + 0x10)) 31 28 ≠ 0))

/-- A fixed field changes (R400, R419). -/
def lpFixedChange (c : Chip) (n : Fin 16) : Bool :=
  let b := lpBase n
  decide (stg c b &&& 0xCF70FFFF3FCF8000#64 ≠ lpcfg c n &&& 0xCF70FFFF3FCF8000#64) || decide (stg c (b + 8) ≠ lpsig c n) ||
  decide (stg c (b + 0x180) &&& 0x0B00000000000000#64 ≠ lpsup c n &&& 0x0B00000000000000#64)

/-- The group rules of R419. -/
def lpGroupCheck (c : Chip) (n : Fin 16) : Nat :=
  let b := lpBase n
  let w := stg c b
  let sup := stg c (b + 0x180)
  let ms := groupOthers c n (lpGrp sup)
  if lpGrpen sup = false then 0
  else if 4 ≤ ms.length then 0x0420
  else if lpRunmode w ≠ 0 ∨ ms.any (fun m => lpRunmode (lpcfg c m) ≠ 0 || lpDiv (lpcfg c m) ≠ lpDiv w || lpPhase (lpcfg c m) ≠ lpPhase w) = true then 0x0421
  else if 1 < b2n (lpDesten w) + (ms.filter (fun m => lpDesten (lpcfg c m))).length then 0x0422
  else 0

/-- The APPLY checks of a loop, 0 if none refuses. [DEDUCED: log 43] -/
def lpCheck (c : Chip) (n : Fin 16) : Nat :=
  let b := lpBase n
  let w := stg c b
  let q (o : Nat) : Int := (stg c (b + o)).toInt
  let wheelSig : Bool := (sigList (stg c (b + 8))).any (fun s => decide (0x50 ≤ s ∧ s < 0x60))
  if c.isN = true ∧ (wheelSig = true ∨ fld (stg c (b + 0x10)) 27 0 ≠ 0) then 0x041D
  else if lpForeign c n then 0x0011
  else if lpBadField c n then 0x0419
  else if c.lp[n].mode ≠ .disabled ∧ lpFixedChange c n = true then 0x041A
  else if lpDesten w = true ∧ (allFin 16).any (fun m => m ≠ n && lpDesten (lpcfg c m) && lpDestao (lpcfg c m) = lpDestao w) = true then 0x041B
  else if lpGroupCheck c n ≠ 0 then lpGroupCheck c n
  else if q 0x188 < 0 ∨ q 0x190 < 0 ∨ q 0x198 < 0 then 0x0423
  else 0

/-- The APPLY checks of the event router (R375). -/
def routerCheck (c : Chip) : Nat :=
  let f := fld (stg c 0x0C000000) 15 0
  if (1 ≤ f ∧ f < 800) ∨ 16000 < f then 0x041C
  else if f ≠ fld (act c 0x0C000000) 15 0 ∧ (allFin 16).any (fun n => c.lp[n].mode ≠ .disabled) = true then 0x0418
  else 0

/-! ### Words (Tables 13-7, 13-9, 13-10, 14-6, 14-8) -/

/-- Codes of loop modes (Table 14-1). -/
def lpModeCode (m : LpMode) : Nat :=
  match m with
  | .disabled => 0 | .auto => 1 | .manual => 2 | .tuning => 3

/-- The STATUS words of a loop. -/
def lpWord (c : Chip) (n : Fin 16) (off : Nat) : Word :=
  let l := c.lp[n]
  let r := l.run
  let t := l.atres
  match off with
  | 0x100 => pack [(63, 1, b2n l.frozen), (62, 1, b2n l.inlost), (61, 1, b2n l.checkfail), (60, 1, b2n r.outlim), (59, 1, b2n r.satstore),
      (58, 1, b2n l.trigsat), (52, 3, r.core.region), (40, 8, l.trigcount), (32, 8, r.trign), (0, 32, l.runcount)]
  | 0x108 => w64i r.y
  | 0x110 => w64i r.core.r
  | 0x118 => w64i r.x
  | 0x120 => w64i r.w
  | 0x128 => w64i r.ua
  | 0x130 => w64 r.tick
  | 0x138 => pack [(48, 16, l.satcount), (32, 16, l.switches), (16, 16, l.trigdrop), (0, 16, l.suppressed)]
  | 0x1C0 => pack [(63, 1, b2n r.limiting), (62, 1, b2n r.ratelim), (61, 1, b2n r.acclim), (60, 1, b2n r.held)]
  | 0x1C8 => w64i l.sptarget
  | 0x1D0 => w64i r.core.r
  | 0x1D8 => w64i r.core.rv
  | 0x1E0 => w64i l.manval
  | 0x1E8 => pack [(62, 2, lpModeCode l.mode), (61, 1, b2n l.feover), (60, 1, b2n r.grplose), (59, 1, b2n r.grpwin),
      (58, 1, b2n (l.pend ≠ .none)), (32, 16, l.fecount), (16, 16, l.transfers), (0, 16, l.ferun)]
  | 0x1F0 => w64i l.fepeak
  | 0x2000 => pack [(63, 1, b2n t.valid), (48, 8, t.ckpt)]
  | 0x2008 => w64 t.tu
  | 0x2010 => w64i t.amp
  | 0x2018 => w64i t.ku
  | 0x2020 => w64i t.kp
  | 0x2028 => w64i t.ki
  | 0x2030 => w64i t.b0
  | 0x2038 => w64i t.b1
  | 0x2040 => w64i t.a1
  | 0x2048 => w64 t.tick
  | _ =>
    if 0x200 ≤ off ∧ off < 0x300 ∧ (off - 0x200) % 0x20 < 0x18 then
      w64i (r.core.st.getD (3 * ((off - 0x200) / 0x20) + (off - 0x200) % 0x20 / 8) 0)
    else 0

/-- CESTAT (Table 13-11). -/
def cestatWord (c : Chip) : Word := pack [(48, 16, ceFrame c), (0, 32, c.tick / ceFrame c)]

/-- GRPSTAT of group g (R431). -/
def grpstatWord (c : Chip) (g : Fin 4) : Word :=
  let ms := (allFin 16).filter (fun m => lpGrpen (lpsup c m) && lpGrp (lpsup c m) = g)
  let drv := ms.find? (fun m => lpDesten (lpcfg c m))
  let s := c.eng.groups[g]
  pack ([(63, 1, b2n s.1), (52, 4, match drv with | some d => d.val | none => 0), (51, 1, b2n drv.isSome),
    (44, 4, match s.2 with | some d => d.val | none => 0), (43, 1, b2n s.2.isSome)] ++ ms.map (fun m => (m.val, 1, 1)))

/-- One loop's field of LOOPSTAT (R430). -/
def loopstatField (l : Lp) : Nat := lpModeCode l.mode + 4 * b2n l.frozen + 8 * b2n l.feover

end Sys2Proof.Machine
end

