-- ==== Sys2Proof/Machine/Unern.lean ====
section
/-! DEFINITION. The Unern link and the satellites (chapter 10): frames, lanes, training, admission, loss and holds. -/

namespace Sys2Proof.Machine

/-- Change a hop. -/
def updHop (c : Chip) (h : Fin 4) (f : Hop → Hop) : Chip :=
  { c with link := { c.link with hops := upd c.link.hops h f } }
/-- Change an input lane. -/
def updLane (c : Chip) (l : Fin 4) (f : Lane → Lane) : Chip :=
  { c with link := { c.link with lanes := upd c.link.lanes l f } }

/-- HOLDTIME in ticks (Table 10-20). -/
def satHoldTime (w : Word) : Nat := orDef (fld w 31 16) 1526 * 2 ^ 20
/-- FBFILT in frames (Table 10-20). -/
def satFbfilt (w : Word) : Nat := orDef (fld w 7 0) 4

/-! ### Work on satellites (R305, R306) -/

/-- The satellite that a long operation needs: DISCOVER and CALIBRATE on a channel mapped to it (Table 10-9). -/
def satOfEntry (c : Chip) (e : Entry) : Option (Fin 4) :=
  if opcodeOf e = 0x10 ∨ opcodeOf e = 0x11 then
    (match fin? 16 (targetOf e) with
      | some n => if onSat c n then some (feSatk (fecfg c n)) else none
      | none => none)
  else none

/-- A long operation needs a satellite that is absent (R305). -/
def needsAbsentSat (c : Chip) (e : Entry) : Bool :=
  match satOfEntry c e with
  | some k => !c.link.sats[k].admitted
  | none => false

/-- What a DISCOVER that ends without a commit leaves (R231). -/
def discoverCancel (c : Chip) (e : Entry) : Chip :=
  if opcodeOf e = 0x10 then
    (match fin? 16 (targetOf e) with
      | some n => updFe c n (fun f => { f with discrun := false, presN := 0 })
      | none => c)
  else c

/-- A long operation that needs an absent satellite is held, or retired MISSED under HOLDPOL 1 (R137, R305, R306).
[DEDUCED: log 36, 50] -/
def linkHold (c : Chip) (e : Entry) : Chip :=
  match satOfEntry c e with
  | none => c
  | some k =>
    let w := satcfg c k
    if bit w 62 then discoverCancel (retire c (keyOf e) stMissed 0x0020 0) e
    else updEntry c (keyOf e) (fun e => { e with
      state := .suspended, cause := .linkhold, holdTick := c.tick, holdLen := satHoldTime w, resumed := false, redo := true,
      mark := if e.mark = .resume then .none else e.mark })

/-- The hold of every command held for a satellite ends (R306): at BUFREADY. -/
def releaseHolds (c : Chip) (k : Fin 4) : Chip :=
  c.wb.entries.foldl (fun c e =>
    if e.state = .suspended && e.cause = .linkhold && satOfEntry c e = some k then
      updEntry c (keyOf e) (fun e => if benched c then { e with cause := .bench } else { e with resumed := true })
    else c) c

/-- HOLD_EXPIRY (R306). -/
def holdExpiry (c : Chip) (k : Key) : Chip :=
  match findEntry c k with
  | some e =>
    if e.state = .suspended ∧ e.cause = .linkhold ∧ e.resumed = false ∧ e.holdTick + e.holdLen ≤ c.tick then
      discoverCancel (retire c k stMissed 0x0020 0) e
    else c
  | none => c

/-! ### Loss (R297, R304) -/

/-- A driver's levels for a count in a turn of n states (R268, R269). -/
def slotAt (n zc w cnt since : Nat) : SatSlot :=
  { cnt := cnt, n := n, zc := zc, w := w, a := levelA cnt, b := levelBq cnt,
    z := decide (((cnt : Int) - zc) % (n : Int) < w), since := since }

/-- An output set that drives nothing. -/
def slotOff : SatSlot := { cnt := 0, n := 4, zc := 0, w := 0, a := false, b := false, z := false, since := 0 }

/-- A hop that is DOWN with nothing behind it, its satellite in the safe state with every setting cleared (R298, R312). -/
def hopDown (long low : Bool) (wake : Option (Nat × Nat)) : Hop :=
  { st := .down, kick := none, stamp := 0, locked := false, lockTick := 0, serial := 0, part := 0, rev := 0,
    dstate := .none, pos := 0, long := long, delay := 0, dAcc := 0, okClear := 0, admTick := 0, wait := [], pushed := [], nibs := [],
    unlock := false, satSafe := true, satLow := low, satSet := false, satBad := 0, satHopok := false, satDrv := false, satBuf := false,
    slots := Vector.replicate 2 slotOff, due := [], msgType := 0, msgLen := 0, msgGot := [], cfg := 0, trims := Vector.replicate 4 0,
    meas := 0, phase := 0, ackOut := [], lastDown := none, wake := wake }

/-! ### Records sent downstream (R289, R293) -/

/-- The message words of a record (R293): the hop less one, FIRST, TYPE and LEN, then the payload, 13 bits a word, the lowest first.
[DESIGN CHOICE: log 68] -/
def recordWords (h t len p : Nat) : List Nat :=
  (2 ^ 14 * h + 2 ^ 13 + 2 ^ 9 * t + len) :: (List.range len).map (fun i => 2 ^ 14 * h + p / 2 ^ (13 * i) % 2 ^ 13)

/-- LEN of the downstream records (Table 10-3). -/
def recordLen (t : Nat) : Nat :=
  match t with
  | 2 => 8 | 3 => 12 | 4 => 6 | 5 => 2 | 6 => 3 | 7 => 1 | _ => 0

/-- Send a record to a hop from tick t0 on: one word in each frame, behind the words already due. Every record but IDLE and ACK waits for
its acknowledgement (R293). [DEDUCED: log 36] -/
def sendRecord (c : Chip) (h : Fin 4) (t p t0 : Nat) : Chip :=
  let old := c.link.sched.filter (fun w => decide (c.tick / 200 ≤ w.1 + 16))
  let first := old.foldl (fun m w => max m (w.1 + 1)) (t0 / 200 + 1)
  let ws := recordWords h.val t (recordLen t) p
  let c := { c with link := { c.link with sched := old ++ ((List.range ws.length).map (fun i => first + i)).zip ws } }
  if t = 0 ∨ t = 7 then c else updHop c h (fun x => { x with wait := x.wait ++ [(t, max c.tick t0, p)] })

/-- Emulators that drive a slot of a position, in force. -/
def slotEnc (c : Chip) (k : Fin 4) (s : Fin 2) : Option (Fin 8) :=
  (allFin 8).find? (fun e => encSaten (encroute c e) && encSatk (encroute c e) = k && encSlot (encroute c e) = s)

/-- First bit of an emulator's lane (R292). -/
def laneStart (c : Chip) (e : Fin 8) : Nat :=
  24 + ((allFin 8).map (fun x => if x < e && encSaten (encroute c x) then laneBits (encMinspace (enccfg c x)) else 0)).sum

/-- The channel that a satellite input serves (R301). -/
def inputChannel (c : Chip) (k m : Fin 4) : Option (Fin 16) :=
  (allFin 16).find? (fun n => feEn (fecfg c n) && onSat c n && feSatk (fecfg c n) = k && feSatm (fecfg c n) = m)

/-- The payload of CONFIG (Table 10-3): SATCFG in force, the input-to-lane map, 3 bits an input, the output slot map, 9 bits a slot: in
use, and the first bit of the emulator's lane. [DESIGN CHOICE: log 68] -/
def configPayload (c : Chip) (k : Fin 4) : Nat :=
  let lane (m : Fin 4) : Nat :=
    match (allFin 4).find? (fun l => c.link.lanes[l].use = some (k, m)) with | some l => l.val + 1 | none => 0
  let slot (s : Fin 2) : Nat := match slotEnc c k s with | some e => 2 * laneStart c e + 1 | none => 0
  (satcfg c k).toNat + 2 ^ 64 * ((allFin 4).map (fun m => lane m * 2 ^ (3 * m.val))).sum +
    2 ^ 76 * ((allFin 2).map (fun s => slot s * 2 ^ (9 * s.val))).sum

/-- The payload of an input's TRIM (Table 10-3): self-calibration trims, φc, sensor correction (R223, R225). [DESIGN CHOICE: log 68] -/
def trimPayload (c : Chip) (n : Fin 16) : Nat :=
  let f := c.fe[n]
  intBits 16 f.trims.gainS + 2 ^ 16 * intBits 16 f.trims.offS + 2 ^ 32 * intBits 16 f.trims.gainC + 2 ^ 48 * intBits 16 f.trims.offC +
    2 ^ 64 * intBits 16 f.trims.imb + 2 ^ 80 * intBits 32 (f.phi.getD 0) + 2 ^ 112 * intBits 16 f.ampimb +
    2 ^ 128 * intBits 16 f.quaderr + 2 ^ 144 * (feSatm (fecfg c n)).val

/-- The payload of PHASE (Table 10-3): PERIOD and the tick of a rising zero crossing, of which 22 bits. [DESIGN CHOICE: log 68] -/
def phasePayload (c : Chip) (k : Fin 4) : Nat :=
  let g := satBufExc (satcfg c k)
  excPeriod (excCfg c g) + 2 ^ 17 * (c.exc[g].zero % 2 ^ 22)

/-- The payload of a slot's LEVELS (Table 10-3), without the count: N, Zc, W and the slot. [DESIGN CHOICE: log 68] -/
def levelsKey (c : Chip) (e : Fin 8) (s : Fin 2) : Nat :=
  let w := enccfg c e
  (encN w - 1) + 2 ^ 18 * encZc w + 2 ^ 36 * encZW w + 2 ^ 39 * s.val

/-- The payload of a slot's LEVELS: with C mod N and the levels to drive (R279). [DESIGN CHOICE: log 68] -/
def levelsPayload (c : Chip) (e : Fin 8) (s : Fin 2) : Nat :=
  let x := c.enc[e]
  levelsKey c e s + 2 ^ 40 * (x.cnt % (encN (enccfg c e) : Int)).toNat +
    2 ^ 58 * (b2n (levelA x.cnt) + 2 * b2n (levelBq x.cnt) + 4 * b2n (levelZ (enccfg c e) x.cnt))

/-- The offset-term measurement that a channel's DISCOVER step or presence check orders (R227, R232): input, current in microamperes and
winding; 0 where none runs. [DESIGN CHOICE: log 68] -/
def measurePayload (c : Chip) (n : Fin 16) : Nat :=
  let f := c.fe[n]
  let step := match c.wb.entries.find? (fun e => opcodeOf e = 0x10 && targetOf e = n.val && e.state = .active) with
    | some e => e.ckpt
    | none => 0
  let code (i wd : Nat) : Nat := 1 + 2 * (feSatm (fecfg c n)).val + 8 * i + 2 ^ 14 * wd
  if f.presrun then code 10 3
  else if f.discrun then (match step with | 1 => code 40 1 | 2 => code 40 2 | 3 => code 40 4 | 5 => code 20 3 | _ => 0)
  else 0

/-- What a satellite's position asks it to hold: of each record its key, the content whose change sends it again, its type and its
payload (Table 10-3, R293). -/
def pushItems (c : Chip) (k : Fin 4) : List (Nat × Nat × Nat × Nat) :=
  let ins := (allFin 4).filterMap (fun m => (inputChannel c k m).map (fun n => (m, n)))
  [(0, configPayload c k, 2, configPayload c k)] ++
  ins.map (fun i => (4 + i.1.val, trimPayload c i.2, 3, trimPayload c i.2)) ++
  (allFin 2).filterMap (fun s => (slotEnc c k s).map (fun e =>
    (8 + s.val, levelsKey c e s + 2 ^ 40 * (b2n c.enc[e].satgap + 2 * (c.link.sats[k].drvoff / 2 ^ s.val % 2)), 4, levelsPayload c e s))) ++
  (if bit (satcfg c k) 63 then [(1, phasePayload c k, 6, phasePayload c k)] else []) ++
  ins.map (fun i => (12 + i.1.val, measurePayload c i.2, if measurePayload c i.2 = 0 then 0 else 5, measurePayload c i.2))

/-- Send one record if its content is not the one last sent; type 0 only takes note. -/
def pushItem (h : Fin 4) (t0 : Nat) (c : Chip) (i : Nat × Nat × Nat × Nat) : Chip :=
  if c.link.hops[h].pushed.contains (i.1, i.2.1) then c
  else
    let c := updHop c h (fun x => { x with pushed := (i.1, i.2.1) :: x.pushed.filter (fun q => q.1 ≠ i.1) })
    if i.2.2.1 = 0 then c else sendRecord c h i.2.2.1 i.2.2.2 t0

/-- The FY6416 pushes a position's changed words to its satellite (R293, R300). [DEDUCED: log 36] -/
def linkPush (c : Chip) (h : Fin 4) : Chip :=
  let x := c.link.hops[h]
  if x.st = .up ∧ (x.dstate = .admitting ∨ x.dstate = .admitted) then
    (pushItems c x.pos).foldl (pushItem h (max c.tick x.admTick)) c
  else c

/-- Every channel mapped to a position loses its signal (R304). -/
def satSignalLoss (c : Chip) (k : Fin 4) : Chip :=
  (allFin 16).foldl (fun c n =>
    if feEn (fecfg c n) && onSat c n && feSatk (fecfg c n) = k then
      levelB (updFe c n (fun f => { f with
        sigok := false, mismatch := false, clip := false, clipPrev := false, lowRun := 0, okRun := 0, window := [] })) (96 + 8 * n.val) true
    else c) c

/-- SATk is lost (R304, R305, R310): cause 0 a loss of the link, 1 RESET, 2 SLEEP, 3 BACKUP. What replay resumes is held
at the end of BOOT instead (R306). [DEDUCED: log 37] -/
def satLoss (c : Chip) (k : Fin 4) (cause : Nat) : Chip :=
  let c := updSat c k (fun s => { s with
    admitted := false, bufready := false, bufsoft := false, everReady := false, hop := none, losscause := cause,
    losscount := wrapInc16 s.losscount, losttick := c.tick })
  let c := if cause = 0 then countB c (264 + 4 * k.val) else c
  let c := satSignalLoss c k
  if cause ≠ 0 then c
  else c.wb.entries.foldl (fun c e =>
    if e.state = .active && e.kind = .l && satOfEntry c e = some k then linkHold c e else c) c

/-- What a satellite latches when its clock stops (R309): the FBWAKE bits of its position in force, none where it is not admitted, and its
readback levels. -/
def wakeLatch (c : Chip) (h : Fin 4) : Option (Nat × Nat) :=
  let x := c.link.hops[h]
  if x.st = .up ∧ x.satSafe = false then
    some (if x.dstate = .admitted then (fld (satcfg c x.pos) 15 12, c.link.sats[x.pos].raw) else (0, 0))
  else none

/-- One hop goes DOWN: SATk of its device is lost, if it was present, also while it is being readmitted (R297, R304). LONG stays until
the hop is trained again, but not over a reset of the FY6416 (R15). -/
def hopLoss (c : Chip) (h : Fin 4) (cause : Nat) : Chip :=
  let x := c.link.hops[h]
  let long := x.long && decide (cause = 0 ∨ cause = 2)
  let wake := if cause = 2 ∨ cause = 3 then wakeLatch c h else none
  let c := updHop c h (fun x => hopDown long x.satLow wake)
  if x.st = .up ∧ (x.dstate = .admitted ∨ (x.dstate = .admitting ∧ c.link.sats[x.pos].hop = some h)) then satLoss c x.pos cause else c

/-- The loss of hop h and of every hop above it (R285, R297). -/
def linkLoss (c : Chip) (h : Fin 4) (cause : Nat) : Chip :=
  let c := if h = 0 ∧ cause = 0 ∧ c.link.hops[h].st = .up then countN c 256 else c
  (allFin 4).foldl (fun c x => if h ≤ x then hopLoss c x cause else c) c

/-- The link stops: reset, SLEEP, BACKUP (R310). Over a reset EXTRA reads its reset value (R15). [DEDUCED: log 37] -/
def linkStop (c : Chip) (cause : Nat) : Chip :=
  let c := linkLoss c 0 cause
  { c with link := { c.link with
      badRun := 0, lastUp := none, sched := [], extra := c.link.extra && decide (cause = 2),
      lanes := c.link.lanes.map (fun l => { l with bits := 0, bad := 0, last := none }) } }

/-- The attention level at hop 1 (R309): a satellite that was UP when the clock stopped sees a readback input whose FBWAKE bit is set at
another level than the one it latched, and every satellite between it and the FY6416 passes its neighbour's attention on. -/
def linkAttention (c : Chip) (h : Fin 4) (levels : BitVec 4) : Bool :=
  (allFin 4).all (fun g => decide (h < g) || (c.link.hops[g].wake.isSome && !c.link.hops[g].satLow)) &&
  (match c.link.hops[h].wake with
    | some w => (List.range 4).any (fun i => w.1.testBit i && (levels.toNat.testBit i != w.2.testBit i))
    | none => false)

/-! ### Frames (R289 to R292) -/

/-- A frame as it was received: bit i of the frame is bit i of the word. -/
abbrev Frame := BitVec 200

/-- Bits lo to lo + n − 1 of a frame, the first the least significant. [DEDUCED: log 36] -/
def frameBits (f : Frame) (lo n : Nat) : Nat := (f.toNat >>> lo) % 2 ^ n

/-- One bit of CRC-16 (R291). -/
def crc16Bit (c : Nat) (b : Bool) : Nat :=
  let fb := c.testBit 15 ^^ b
  let s := (c * 2) % 65536
  if fb then s ^^^ 0x1021 else s

/-- CRC-16 over bits 8 to 183 in transmission order (R291). -/
def frameCrc (f : Frame) : Nat :=
  (List.range 176).foldl (fun c i => crc16Bit c (f.toNat.testBit (8 + i))) 0xFFFF

/-- The CRC field, sent most significant bit first (R291). [DEDUCED: log 36] -/
def frameCrcField (f : Frame) : Nat :=
  (List.range 16).foldl (fun a i => 2 * a + b2n (f.toNat.testBit (184 + i))) 0

/-- A received frame is good (R291). -/
def frameGood (f : Frame) (sync : Nat) : Bool := frameBits f 0 8 = sync && frameCrc f = frameCrcField f

/-- The number of the frame that has just been received at the link port: its start tick / 200 (R287, R290). [DEDUCED: log 36] -/
def frameNo (c : Chip) : Nat := c.tick / 200 - 1

/-- The number of the downstream frame that has just been received whole at hop h: every hop adds 400 ticks (R288), and a step in frame n
goes with frame n + 1 (R292). -/
def downNo (c : Chip) (h : Fin 4) : Nat := c.tick / 200 - 1 - 2 * h.val

/-- A frame with its CRC over bits 8 to 183, sent most significant bit first (R289 to R291). -/
def withCrc (v : Nat) : Frame :=
  let f : Frame := BitVec.ofNat 200 (v % 2 ^ 184)
  let k := frameCrc f
  BitVec.ofNat 200 (v % 2 ^ 184 + ((List.range 16).map (fun i => b2n (k.testBit (15 - i)) * 2 ^ (184 + i))).sum)

/-- An emulator's lane of a frame (R292): its steps of the frame before, as a map of the cells of 8 ticks, and for each step its
offset and direction. -/
def laneWord (x : Enc) (n : Nat) : Nat :=
  let l := x.steps.filter (fun s => decide (s.1 / 200 = n))
  (l.map (fun s => 2 ^ (s.1 % 200 / 8))).sum +
    (((List.range l.length).zip l).map (fun p => (p.2.1 % 8 + 8 * b2n p.2.2) * 2 ^ (25 + 4 * p.1))).sum

/-- Downstream frame m as the FY6416 sends it (Table 10-1): SYNC, the message word that is due, IDLE where none is, and the encoder lanes
with unused bits zero. -/
def buildDown (c : Chip) (m : Nat) : Frame :=
  let msg := match c.link.sched.find? (fun w => w.1 = m) with | some w => w.2 | none => 2 ^ 13
  let lanes := (allFin 8).map (fun e => if encSaten (encroute c e) then laneWord c.enc[e] (m - 1) * 2 ^ laneStart c e else 0)
  withCrc (0xB8 + 2 ^ 8 * msg + lanes.sum)

/-- HOPOK of a hop in the upstream frame (R290, R294): the satellite and those below it are out of the safe state, it took a good
downstream frame last, and the satellite below it has no bad upstream frame from it, which up tells. -/
def hopOk (c : Chip) (h : Fin 4) (up : BitVec 4) : Bool :=
  (allFin 4).all (fun g => decide (h < g) || !c.link.hops[g].satSafe) && c.link.hops[h].satHopok && !up.toNat.testBit h.val

/-- The hop whose message nibble a frame carries (Table 10-2). -/
def nibHop (m : Nat) : Fin 4 := ⟨m % 4, Nat.mod_lt _ (by decide)⟩

/-- The upstream frame that reaches the link port (Table 10-2): FIELD, INLANES and message nibbles come from the satellites' surroundings
in f, but for the nibble of an acknowledgement that is due; HOPOK and CRC are formed here. [DEDUCED: log 36] -/
def buildUp (c : Chip) (f : Frame) (up : BitVec 4) : Frame :=
  let nib := match c.link.hops[nibHop (frameNo c)].ackOut with | n :: _ => n | [] => frameBits f 28 4
  withCrc (0xE2 + ((allFin 4).map (fun h => b2n (hopOk c h up) * 2 ^ (8 + h.val))).sum + 2 ^ 12 * frameBits f 12 16 + 2 ^ 28 * nib +
    2 ^ 32 * frameBits f 32 152)

/-- The channel that an input lane serves (R301). -/
def laneChannel (c : Chip) (l : Fin 4) : Option (Fin 16) :=
  match c.link.lanes[l].use with
  | none => none
  | some (k, m) => inputChannel c k m

/-- Deliver one pair of a lane (R24, R291, R292): 12 bits each of sine and cosine, its weight from the nominal carrier and the calibration
windows; a bad one carries weight zero. A component at the end of its 12 bits counts as clipped (R208, R210). [DESIGN CHOICE: log 33] -/
def lanePair (c : Chip) (l : Fin 4) (n : Fin 16) (bits : Nat) (bad : Bool) : Chip :=
  let h := chHop c n
  let st := match c.link.lanes[l].last with
    | some s => s + 128
    | none => (c.tick - (192 + 400 * h + 64)) / 128 * 128 + 64
  let c := updLane c l (fun x => { x with last := some st })
  let f := c.fe[n]
  let x := signed 12 (bits % 4096)
  let y := signed 12 (bits / 4096 % 4096)
  let s := if bad then f.pairS else x * 2 ^ 20
  let d := if bad then f.pairC else y * 2 ^ 20
  let clip := !bad && decide (x = 2047 ∨ x = -2048 ∨ y = 2047 ∨ y = -2048)
  if feRunning c n then pairArrive c n st s d s d (if bad then 0 else windowWeight c n st 0) clip else c

/-- A satellite's front ends run for its position: it is admitted, and the position is in no transit (R91, R300). -/
def satFeeds (c : Chip) (k : Fin 4) : Bool :=
  c.link.sats[k].admitted && decide ((ownE c (ixSat k)).st ≠ .draining) && decide ((ownE c (ixSat k)).st ≠ .scrubbing)

/-- A lane's 38 bits of a frame (R292): the pairs of the superframe that they complete are delivered. [DEDUCED: log 36] -/
def laneFrame (c : Chip) (l : Fin 4) (bits38 : Nat) (bad : Bool) : Chip :=
  match laneChannel c l with
  | none => c
  | some n =>
    if !satFeeds c (feSatk (fecfg c n)) then c
    else
      let f := frameNo c % 16
      let x := c.link.lanes[l]
      let bits := (if f = 0 then 0 else x.bits) + (if bad then 0 else bits38 * 2 ^ (38 * f))
      let bads := (if f = 0 then 0 else x.bad) + (if bad then 2 ^ f else 0)
      let c := updLane c l (fun x => { x with bits := bits, bad := bads })
      let js := (List.range 25).filter (fun j => decide (38 * f < 24 * (j + 1) ∧ 24 * (j + 1) ≤ 38 * (f + 1)))
      js.foldl (fun c j =>
        let isBad := (List.range 16).any (fun g => decide (24 * j < 38 * (g + 1) ∧ 38 * g < 24 * (j + 1)) && bads.testBit g)
        lanePair c l n (bits / 2 ^ (24 * j) % 2 ^ 24) isBad) c

/-- Every lane of a frame. -/
def laneFrames (c : Chip) (f : Frame) (bad : Bool) : Chip :=
  (allFin 4).foldl (fun c l => laneFrame c l (frameBits f (32 + 38 * l.val) 38) bad) c

/-- One raw sample of a readback input (R313): LEVEL changes after FBFILT equal samples. -/
def readbackSample (c : Chip) (k m : Fin 4) (b : Bool) : Chip :=
  let s := c.link.sats[k]
  let w := satcfg c k
  if s.level.testBit m.val = b then updSat c k (fun s => { s with filt := upd s.filt m (fun _ => 0) })
  else
    let r := s.filt[m] + 1
    if r < satFbfilt w then updSat c k (fun s => { s with filt := upd s.filt m (fun _ => r) })
    else
      let c := updSat c k (fun s => { s with
        filt := upd s.filt m (fun _ => 0), level := s.level ^^^ 2 ^ m.val, changecount := wrapInc16 s.changecount })
      if bit w (8 + m.val) then notifyObj c (ixSat k) 23 else c

/-- The readback field of a hop (Table 10-2, R313). -/
def readbackField (c : Chip) (k : Fin 4) (v : Nat) : Chip :=
  (allFin 4).foldl (fun c m => readbackSample c k m (v.testBit m.val)) (updSat c k (fun s => { s with raw := v % 16 }))

/-- A record's nibbles are all there (R293): TYPE, the length in units of 4 nibbles, the payload. -/
def nibsDone (l : List Nat) : Bool :=
  match l with
  | _ :: n :: _ => decide (2 + 4 * n ≤ l.length)
  | _ => false

/-- One more nibble of a hop's stream (R293): type 0 is idle, and a complete record makes room for the next. -/
def takeNib (l : List Nat) (v : Nat) : List Nat :=
  let l := if nibsDone l then [] else l
  if l = [] ∧ v = 0 then [] else l ++ [v]

/-- What a good frame carries of one hop: HOPOK, readback levels, its message nibble (R290, R294, R297). -/
def upHop (c : Chip) (f : Frame) (h : Fin 4) : Chip :=
  let x := c.link.hops[h]
  if x.st ≠ .up then c
  else
    let ok := f.toNat.testBit (8 + h.val)
    let r := if ok then 0 else x.okClear + 1
    if 4 ≤ r then linkLoss c h 0
    else
      let c := updHop c h (fun x => { x with
        okClear := r, nibs := if nibHop (frameNo c) = h then takeNib x.nibs (frameBits f 28 4) else x.nibs })
      if x.dstate = .admitted then readbackField c x.pos (frameBits f (12 + 4 * h.val) 4) else c

/-- The satellite whose nibble a frame carries has sent it; a bad frame discards the record it belongs to at both ends (R291, R293). -/
def nibSent (c : Chip) (bad : Bool) : Chip :=
  updHop c (nibHop (frameNo c)) (fun x => { x with ackOut := if bad then [] else x.ackOut.drop 1, nibs := if bad then [] else x.nibs })

/-- UPSTREAM_FRAME (R287, R290, R291, R297, R313): an upstream frame has been received whole at the link port, in a tick whose count is a
multiple of 200, once: what the satellites sent in it (f, up), with the bits that the cable turned in err. [DEDUCED: log 36] -/
def upstreamFrame (c : Chip) (f : Frame) (up : BitVec 4) (err : Frame) : Chip :=
  if serving c && c.link.hops[(0 : Fin 4)].st = .up && decide (c.tick % 200 = 0 ∧ c.link.lastUp ≠ some (frameNo c)) then
    let g := buildUp c f up ^^^ err
    let bad := c.link.hops[(0 : Fin 4)].satSafe || !frameGood g 0xE2
    let c := nibSent { c with link := { c.link with lastUp := some (frameNo c) } } bad
    if !bad then
      let c := { c with link := { c.link with badRun := 0 } }
      laneFrames ((allFin 4).foldl (fun c h => upHop c g h) c) g false
    else
      let c := countN { c with link := { c.link with crcerr := wrapInc16 c.link.crcerr, badRun := c.link.badRun + 1 } } 257
      let c := laneFrames c g true
      if 4 ≤ c.link.badRun then linkLoss { c with link := { c.link with badRun := 0 } } 0 0 else c
  else c

/-! ### The satellite's side (R279, R291, R293, R298) -/

/-- A satellite enters its safe state (R298): drivers and buffer off, every setting cleared. -/
def satSafeState (c : Chip) (h : Fin 4) : Chip :=
  updHop c h (fun x => { x with
    satSafe := true, satSet := false, satDrv := false, satBuf := false, satHopok := false, slots := Vector.replicate 2 slotOff, due := [],
    msgType := 0, msgLen := 0, msgGot := [], cfg := 0, trims := Vector.replicate 4 0, meas := 0, phase := 0, ackOut := [] })

/-- SATELLITE_SAFE_STATE (R298): four bad downstream frames, or the clock absent for 160 ticks. -/
def satelliteSafe (c : Chip) (h : Fin 4) (clockLost : Bool) : Chip :=
  if clockLost || decide (4 ≤ c.link.hops[h].satBad) then satSafeState c h else c

/-- SATELLITE_NRESET (R311): nRESET of a satellite goes low or high; while it is low the satellite stays in its safe state. -/
def satNreset (c : Chip) (h : Fin 4) (low : Bool) : Chip :=
  let c := updHop c h (fun x => { x with satLow := low })
  if low then satSafeState c h else c

/-- The drivers of an admitted satellite take the levels of the current C in one tick (R279, R300). -/
def loadSlots (c : Chip) (h : Fin 4) : Chip :=
  let k := c.link.hops[h].pos
  (allFin 2).foldl (fun c s =>
    match slotEnc c k s with
    | some e =>
      let w := enccfg c e
      updHop c h (fun x => { x with
        slots := upd x.slots s (fun _ => slotAt (encN w) (encZc w) (encZW w) (c.enc[e].cnt % (encN w : Int)).toNat c.tick) })
    | none => c) (updHop c h (fun x => { x with satDrv := true }))

/-- The steps in an encoder lane, as tick within the frame and direction (true: decreasing) (R292). -/
def laneSteps (f : Frame) (lo : Nat) : List (Nat × Bool) :=
  let cells := (List.range 25).filter (fun j => (frameBits f lo 25).testBit j)
  ((List.range cells.length).zip cells).map (fun p =>
    (8 * p.2 + frameBits f (lo + 25 + 4 * p.1) 3, f.toNat.testBit (lo + 25 + 4 * p.1 + 3)))

/-- The steps of a lane set out for a driver, each exactly 400 ticks for each hop after its step at the ball (R270, R278, R288); a
step from before the driver took its count is in it already. -/
def slotSteps (c : Chip) (h : Fin 4) (s : Fin 2) (f : Frame) : Chip :=
  match slotEnc c c.link.hops[h].pos s with
  | none => c
  | some e =>
    let n := downNo c h - 1
    let l := (laneSteps f (laneStart c e)).filter (fun q => decide (c.link.hops[h].slots[s].since ≤ 200 * n + q.1))
    updHop c h (fun x => { x with due := x.due ++ l.map (fun q => (200 * n + q.1 + 400 * (h.val + 1), s, q.2)) })

/-- One step at a driver (R268, R279). -/
def slotStep (y : SatSlot) (down : Bool) : SatSlot :=
  slotAt y.n y.zc y.w (if down then y.cnt + y.n - 1 else y.cnt + 1) y.since

/-- A slot with the steps whose tick has come (R288). -/
def slotNow (x : Hop) (s : Fin 2) (t : Nat) : SatSlot :=
  (x.due.filter (fun q => decide (q.1 ≤ t ∧ q.2.1 = s))).foldl (fun y q => slotStep y q.2.2) x.slots[s]

/-- The drivers take the steps that are due. -/
def slotsDue (c : Chip) (h : Fin 4) : Chip :=
  updHop c h (fun x => { x with
    slots := Vector.ofFn (fun s => slotNow x s c.tick), due := x.due.filter (fun q => decide (c.tick < q.1)) })

/-- The lines LA, LB and LZ of an output set (R298, R308, R311): high impedance in the safe state, before admission and while the set is
off for temperature. -/
def driverBalls (c : Chip) (h : Fin 4) (s : Fin 2) : Ball × Ball × Ball :=
  let x := c.link.hops[h]
  if x.satSafe || !x.satDrv || c.link.sats[x.pos].drvoff.testBit s.val then (.highZ, .highZ, .highZ)
  else let y := slotNow x s c.tick; (ballOf y.a, ballOf y.b, ballOf y.z)

/-- The satellite acknowledges every record but IDLE and ACK (R293): type 7, a length of one unit, the type acknowledged.
[DEDUCED: log 36] -/
def satAck (c : Chip) (h : Fin 4) (t : Nat) : Chip :=
  if t = 0 ∨ t = 7 then c else updHop c h (fun x => { x with ackOut := x.ackOut ++ [7, 1, t % 16, 0, 0, 0] })

/-- A complete downstream record acts at the satellite (Table 10-3, R300): ZERO clears every setting, the others are held; LEVELS loads
the drivers of an admitted satellite anew, before that they stay at high impedance (R312). -/
def satRecord (c : Chip) (h : Fin 4) (t p : Nat) : Chip :=
  let c := satAck c h t
  match t with
  | 1 => updHop c h (fun x => { x with
      satSet := false, satDrv := false, satBuf := false, slots := Vector.replicate 2 slotOff, due := [], cfg := 0,
      trims := Vector.replicate 4 0, meas := 0, phase := 0 })
  | 2 => updHop c h (fun x => { x with satSet := true, cfg := p })
  | 3 => updHop c h (fun x => { x with satSet := true, trims := x.trims.setIfInBounds (p / 2 ^ 144 % 4) p })
  | 4 => if c.link.hops[h].dstate = .admitted then loadSlots c h else c
  | 5 => updHop c h (fun x => { x with meas := p })
  | 6 => updHop c h (fun x => { x with satSet := true, phase := p })
  | _ => c

/-- The message word of a downstream frame (R293). -/
def satMessage (c : Chip) (h : Fin 4) (w : Nat) : Chip :=
  if w / 2 ^ 14 % 4 ≠ h.val then c
  else if w.testBit 13 then
    let t := w / 2 ^ 9 % 16
    let n := w % 512
    let c := updHop c h (fun x => { x with msgType := t, msgLen := n, msgGot := [] })
    if n = 0 then satRecord c h t 0 else c
  else
    let x := c.link.hops[h]
    if x.msgLen ≤ x.msgGot.length then c
    else
      let g := x.msgGot ++ [w % 2 ^ 13]
      let c := updHop c h (fun x => { x with msgGot := g })
      if g.length = x.msgLen then satRecord c h x.msgType (((List.range g.length).zip g).map (fun q => q.2 * 2 ^ (13 * q.1))).sum else c

/-- The path gap of a bad downstream frame (R279, R291): every output of the satellite with a step in that frame. -/
def frameGap (c : Chip) (h : Fin 4) : Chip :=
  let k := c.link.hops[h].pos
  (allFin 8).foldl (fun c e =>
    if encSaten (encroute c e) && encSatk (encroute c e) = k && c.enc[e].steps.any (fun s => s.1 / 200 + 1 = downNo c h) then
      levelB (updEnc c e (fun x => { x with satgap := true })) (227 + 4 * e.val) true
    else c) c

/-- DOWNSTREAM_FRAME (R287, R289, R291 to R294, R298): the satellite at hop h has received a frame whole, once, with the bits that the
cable turned in err. A satellite in its safe state takes nothing, and forwards nothing. [DEDUCED: log 36] -/
def downstreamFrame (c : Chip) (h : Fin 4) (err : Frame) : Chip :=
  let x := c.link.hops[h]
  let m := downNo c h
  if x.st ≠ .up ∨ c.tick % 200 ≠ 0 ∨ x.lastDown = some m ∨ (allFin 4).any (fun g => decide (g ≤ h) && c.link.hops[g].satSafe) = true then c
  else
    let f := buildDown c m ^^^ err
    let c := slotsDue (updHop c h (fun x => { x with lastDown := some m })) h
    if frameGood f 0xB8 then
      let c := updHop c h (fun x => { x with satBad := 0, satHopok := true })
      let c := if x.dstate = .admitted then (allFin 2).foldl (fun c s => slotSteps c h s f) c else c
      satMessage c h (frameBits f 8 16)
    else
      let c := updHop c h (fun x => { x with satBad := x.satBad + 1, satHopok := false })
      let c := if x.dstate = .admitted then frameGap c h else c
      if 4 ≤ x.satBad + 1 then satSafeState c h else c

/-! ### Training and identification (R294 to R296) -/

/-- HOP_TRAIN_START (R294): in the very tick that Table 10-4 gives. -/
def hopTrainStart (c : Chip) (h : Fin 4) : Chip :=
  let x := c.link.hops[h]
  let below := match h.val with
    | 0 => true
    | _ => c.link.hops[h - 1].st = .up
  if serving c && x.st = .down && below && (decide (x.kick = some c.tick) || decide (c.tick % 32000 = 0)) then
    updHop c h (fun x => { x with st := .train, kick := none, stamp := c.tick, locked := false })
  else c

/-- HOP_CLOCK_LOCK (R295); a satellite whose nRESET is low does not lock (R311). -/
def hopClockLock (c : Chip) (h : Fin 4) : Chip :=
  let x := c.link.hops[h]
  if x.st = .train ∧ x.locked = false ∧ x.satLow = false ∧ c.tick ≤ x.stamp + 8000 then
    updHop c h (fun x => { x with locked := true, lockTick := c.tick })
  else c

/-- A hop in TRAIN or IDENT fails: DOWN, S261 (R294). -/
def hopFail (c : Chip) (h : Fin 4) (long : Bool) : Chip := countN (updHop c h (fun x => hopDown long x.satLow none)) 261

/-- The accumulated delay from the port to the satellite below hop h (R286). -/
def delayBelow (c : Chip) (h : Fin 4) : Nat :=
  match h.val with
  | 0 => 0
  | _ => c.link.hops[h - 1].dAcc

/-- TRAINING_COMPLETE (R286, R294, R295): the measured delay of the hop in ticks. The satellite leaves its safe state (R298), and its tick
count is set D_h behind. -/
def trainingComplete (c : Chip) (h : Fin 4) (d : Nat) : Chip :=
  let x := c.link.hops[h]
  if x.st = .train ∧ x.locked = true ∧ x.lockTick + 16000 = c.tick ∧ d ≤ 64 then
    updHop c h (fun x => { x with
      st := .ident, stamp := c.tick, delay := d, dAcc := delayBelow c h + d, long := false, satSafe := x.satLow, satBad := 0,
      satHopok := !x.satLow })
  else c

/-- The satellite's tick count: the FY6416's tick, shifted by the known delay (R286). -/
def satTick (c : Chip) (h : Fin 4) : Nat := c.tick - c.link.hops[h].dAcc

/-- HOP_TRAIN_FAIL (R294, R295): no lock 8000 ticks after the entry, alignment that fails after its 64 frames, or a delay of more than 64
ticks measured after 16 more. -/
def hopTrainFail (c : Chip) (h : Fin 4) (why : TrainFail) : Chip :=
  let x := c.link.hops[h]
  if x.st ≠ .train then c
  else match why with
    | .noLock => if x.locked = false ∧ c.tick = x.stamp + 8000 then hopFail c h x.long else c
    | .align => if x.locked = true ∧ c.tick = x.lockTick + 12800 then hopFail c h x.long else c
    | .delay d => if x.locked = true ∧ c.tick = x.lockTick + 16000 ∧ 64 < d then hopFail c h true else c

/-- IDENT_TIMEOUT (R294): 128 frames without a valid IDENT. -/
def identTimeout (c : Chip) (h : Fin 4) : Chip :=
  let x := c.link.hops[h]
  if x.st = .ident ∧ x.stamp + 25600 ≤ c.tick then hopFail c h x.long else c

/-- The revision's bit is set in the running image's SATSET (R193, Table 6-8), which has none for revisions from 64 on. In MINCONFIG no
image runs, and no revision is in the set: the spec does not say. [DESIGN CHOICE: log 69] -/
def inSatset (c : Chip) (rev : Nat) : Bool :=
  !c.img.minimal && decide (rev < 64) && bit (slotWord (if c.img.actSlot then c.img.slotB else c.img.slotA) 5) rev

/-- The position a serial is bound to (R299). -/
def boundTo (c : Chip) (serial : Word) : Option (Fin 4) :=
  (allFin 4).find? (fun k => c.link.sats[k].bound && c.link.sats[k].serial = serial)

/-- SATBIND.UNSCRUBBED (R93). -/
def satUnscrubbed (c : Chip) (k : Fin 4) : Bool := (ownE c (ixSat k)).unscrubbed

/-- Change an ownership entry. -/
def setUnscrubbed (c : Chip) (k : Fin 4) (b : Bool) : Chip :=
  { c with own := { c.own with entries := upd c.own.entries (ixSat k) (fun o => { o with unscrubbed := b }) } }

/-- Admission of the device at a hop to SATk begins (R300, Table 10-7): an unscrubbed position's ZERO at once, then ZERO and the
position's words, which linkPush sends. [DEDUCED: log 37] -/
def beginAdmission (c : Chip) (h k : Fin 4) : Chip :=
  let t := c.tick + (if satUnscrubbed c k then 800 * (h.val + 1) else 0)
  let c := updHop c h (fun x => { x with dstate := .admitting, pos := k, admTick := t, wait := [], pushed := [] })
  let c := if satUnscrubbed c k then sendRecord c h 1 0 c.tick else c
  linkPush (sendRecord c h 1 0 t) h

/-- IDENT_RECORD (R294 to R296): the device's serial, part code and revision, at the end of the 128 frames; it is acknowledged (R293). -/
def identRecord (c : Chip) (h : Fin 4) (serial : Word) (part rev : Nat) : Chip :=
  let x := c.link.hops[h]
  if x.st = .ident ∧ x.stamp + 25600 = c.tick then
    let c := updHop c h (fun x => { x with st := .up, stamp := c.tick, serial := serial, part := part % 65536, rev := rev % 256, okClear := 0 })
    let c := sendRecord c h 7 8 c.tick
    let c := match fin? 4 (h.val + 1) with
      | some g => updHop c g (fun x => { x with kick := some (c.tick + 1) })
      | none => c
    if !inSatset c (rev % 256) then countN (updHop c h (fun x => { x with dstate := .quarantined })) 259
    else match boundTo c serial with
      | some k => beginAdmission c h k
      | none => notify (updHop c h (fun x => { x with dstate := .offered })) 0 21
  else c

/-! ### Admission (R300) and the buffer (R303) -/

/-- The first rising zero crossing of a position's followed generator in tick t or after it (R300, R303). -/
def bufRise (c : Chip) (k : Fin 4) (t : Nat) : Nat :=
  let g := satBufExc (satcfg c k)
  nextRise c.exc[g] (excPeriod (excCfg c g)) (t - 1)

/-- The conditions in which a satellite's buffer runs (R303, Table 3-3, Table 10-10). -/
def bufWanted (c : Chip) (k : Fin 4) : Bool :=
  let s := c.link.sats[k]
  let w := satcfg c k
  satFeeds c k && bit w 63 && c.exc[satBufExc w].ready && !s.bufoff && (c.pw.state ≠ .idle || c.pw.runPending)

/-- The satellite at the hop of a position switches its buffer. -/
def satBuffer (c : Chip) (k : Fin 4) (on : Bool) : Chip :=
  match c.link.sats[k].hop with
  | some h => updHop c h (fun x => { x with satBuf := on })
  | none => c

/-- The buffer follows its conditions: a soft start begins at the followed generator's first rising zero crossing in tick t or after it, or
the buffer is off (R300, R303). -/
def bufFollow (c : Chip) (k : Fin 4) (t : Nat) : Chip :=
  let s := c.link.sats[k]
  if bufWanted c k then
    if s.bufready || s.bufsoft then c
    else satBuffer (updSat c k (fun s => { s with bufsoft := true, everReady := false, bufTick := bufRise c k t })) k true
  else if s.bufready || s.bufsoft then satBuffer (updSat c k (fun s => { s with bufready := false, bufsoft := false })) k false
  else c

/-- What a satellite's position does of its own in a tick. -/
def satState (c : Chip) (k : Fin 4) : Chip := bufFollow c k c.tick

/-- ADMISSION_COMPLETE (R300); none in the safe state (R298). -/
def admissionComplete (c : Chip) (h : Fin 4) : Chip :=
  let x := c.link.hops[h]
  if x.st = .up ∧ x.dstate = .admitting ∧ x.satSafe = false ∧ x.admTick + 12800 ≤ c.tick then
    let k := x.pos
    let c := updHop c h (fun x => { x with dstate := .admitted, satSet := true })
    let c := updSat c k (fun s => { s with
      hop := some h, admitted := true, admitcount := wrapInc16 s.admitcount, admittick := c.tick, drvfault := 0, drvoff := 0 })
    let c := setUnscrubbed c k false
    let c := loadSlots c h
    let c := { c with link := { c.link with lanes := c.link.lanes.map (fun l =>
      match l.use with
      | some (y, _) => if y = k then { l with bits := 0, bad := 0, last := none } else l
      | none => l) } }
    let c := bufFollow c k c.tick
    match ownerOf c (ixSat k) with
    | some o => notify c o 22
    | none => c
  else c

/-- BUFFER_READY (R300, R306): the sixteenth period ends; held commands are released. -/
def bufferReady (c : Chip) (k : Fin 4) (amp : Nat) : Chip :=
  let s := c.link.sats[k]
  if s.bufsoft && decide (s.bufTick + 16 * excPeriod (excCfg c (satBufExc (satcfg c k))) ≤ c.tick) && serving c then
    releaseHolds (updSat c k (fun s => { s with
      bufready := true, bufsoft := false, everReady := true, ampmeas := amp % 65536, readyTick := c.tick })) k
  else c

/-- The APPLY checks of a satellite, 0 if none refuses (R303). -/
def satCheck (c : Chip) (k : Fin 4) : Nat :=
  let w := stg c (objBase (.sat k))
  let m : Word := 0xB000FFFF00000000
  if (w &&& m) ≠ (satcfg c k &&& m) ∧
      (allFin 16).any (fun n => feEn (fecfg c n) && onSat c n && feSatk (fecfg c n) = k) = true then 0x0410
  else if bit w 63 ∧ ¬(2000 ≤ fld w 47 32 ∧ fld w 47 32 ≤ 14000) then 0x0411
  else 0

/-- An APPLY that changes a present satellite's buffer restarts it at the followed generator's first rising zero crossing after the settings
have reached it (R288, R303); linkPush sends them. -/
def satApplied (c : Chip) (k : Fin 4) (old : Word) : Chip :=
  let m : Word := 0xB000FFFF00000000
  match c.link.sats[k].hop with
  | some h =>
    if (old &&& m) ≠ (satcfg c k &&& m) then
      bufFollow (updSat c k (fun s => { s with bufready := false, bufsoft := false, everReady := false })) k (c.tick + 3200 + 400 * (h.val + 1))
    else c
  | none => c

/-- A channel's APPLY assigns or frees input lanes (R301). -/
def lanesApplied (c : Chip) : Chip :=
  let used (k m : Fin 4) : Bool :=
    (allFin 16).any (fun n => feEn (fecfg c n) && onSat c n && feSatk (fecfg c n) = k && feSatm (fecfg c n) = m)
  let c1 := { c with link := { c.link with lanes := c.link.lanes.map (fun l =>
    match l.use with
    | some (k, m) => if used k m then l else { use := none, bits := 0, bad := 0, last := none }
    | none => l) } }
  (allFin 16).foldl (fun c n =>
    let w := fecfg c n
    let u := (feSatk w, feSatm w)
    if feEn w && onSat c n && !(allFin 4).any (fun l => c.link.lanes[l].use = some u) then
      (match (allFin 4).find? (fun l => c.link.lanes[l].use.isNone) with
        | some l => updLane c l (fun _ => { use := some u, bits := 0, bad := 0, last := none })
        | none => c)
    else c) c1

/-! ### Messages (R293, R313) -/

/-- A STATUS record of an admitted satellite (Table 10-21, R313). -/
def satStatus (c : Chip) (k : Fin 4) (r : SatStatus) : Chip :=
  let s := c.link.sats[k]
  let c := updSat c k (fun s => { s with
    buflimit := r.limit, buffold := r.fold, bufoff := r.off, drvfault := r.drvfault.val, drvoff := r.drvoff.val,
    temp := (clampI 0 255 (r.temp + 50)).toNat, ampmeas := r.amp % 65536 })
  let c := if r.drvfault ≠ 0 ∨ r.drvoff ≠ 0 then countB c (265 + 4 * k.val) else c
  let c := if (r.limit && !s.buflimit) || (r.fold && !s.buffold) || (r.off && !s.bufoff) || r.readback then countB c (266 + 4 * k.val) else c
  levelB c (267 + 4 * k.val) r.check

/-- A complete record of a type stands in a hop's nibbles (R293). -/
def recordAt (x : Hop) (t : Nat) : Bool := nibsDone x.nibs && x.nibs.head? = some t

/-- The type of an upstream record (Table 10-3). -/
def upType (r : UpRecord) : Nat :=
  match r with
  | .ack _ => 7
  | .status _ => 9
  | .result _ _ _ => 10

/-- A satellite PLL that has lost lock while its hop is UP asserts S260 (R313). -/
def linkUnlock (c : Chip) : Chip := levelN c 260 ((allFin 4).any (fun h => c.link.hops[h].st = .up && c.link.hops[h].unlock))

/-- What the link does of its own in a tick. -/
def linkState (c : Chip) : Chip := (allFin 4).foldl linkPush (linkUnlock c)

/-- MESSAGE_RECORD (R293): an upstream record of a hop is complete; what its payload says is the operand's, but for the type that an ACK
acknowledges. RESULT is acknowledged. [DEDUCED: log 36] -/
def messageRecord (c : Chip) (h : Fin 4) (r : UpRecord) : Chip :=
  let x := c.link.hops[h]
  if x.st ≠ .up ∨ serving c = false ∨ recordAt x (upType r) = false then c
  else
    let c := updHop c h (fun x => { x with nibs := [] })
    match r with
    | .ack _ =>
      let t := (x.nibs.drop 2).headD 0
      let c := updHop c h (fun x => { x with wait := x.wait.eraseP (fun w => w.1 = t) })
      if t = 1 ∧ (x.dstate = .admitting ∨ x.dstate = .admitted) ∧ satUnscrubbed c x.pos = true then setUnscrubbed c x.pos false else c
    | .status s =>
      let c := updHop c h (fun x => { x with unlock := s.unlock })
      linkUnlock (if x.dstate = .admitted then satStatus c x.pos s else c)
    | .result m a b =>
      let c := sendRecord c h 7 10 c.tick
      if x.dstate = .admitted then
        (match inputChannel c x.pos m with
          | some n => updFe c n (fun f => { f with offS := clampS 32 a, offC := clampS 32 b })
          | none => c)
      else c

/-- MESSAGE_REPEAT (R293): every record not acknowledged for 16 frames is sent again. -/
def messageRepeat (c : Chip) (h : Fin 4) : Chip :=
  let old := c.link.hops[h].wait.filter (fun w => decide (w.2.1 + 3200 ≤ c.tick))
  old.foldl (fun c w => sendRecord c h w.1 w.2.2 c.tick)
    (updHop c h (fun x => { x with wait := x.wait.filter (fun w => !decide (w.2.1 + 3200 ≤ c.tick)) }))

/-- EXTRA_DEVICE (R298): training activity beyond hop 4. -/
def extraDevice (c : Chip) : Chip :=
  if serving c && c.link.hops[(3 : Fin 4)].st = .up && !c.link.hops[(3 : Fin 4)].satSafe then countN { c with link := { c.link with extra := true } } 258 else c

/-! ### SATACCEPT and SATRELEASE (R299) -/

/-- The hop of the device that is being admitted or admitted to a position. -/
def hopOfSat (c : Chip) (k : Fin 4) : Option (Fin 4) :=
  (allFin 4).find? (fun h => c.link.hops[h].st = .up && c.link.hops[h].pos = k &&
    (c.link.hops[h].dstate = .admitting || c.link.hops[h].dstate = .admitted))

/-- The refusal of SATACCEPT, 0 if it commits (R299, Table 10-14). -/
def acceptRefusal (c : Chip) (k h : Fin 4) (serial : Word) (replace : Bool) : Nat :=
  let x := c.link.hops[h]
  if x.st = .up ∧ x.dstate = .quarantined ∧ x.serial = serial then 0x0019
  else if replace = false ∧ c.link.sats[k].bound = true then 0x6001
  else if replace = true ∧ (c.link.sats[k].bound = false ∨ (hopOfSat c k).isSome = true) then 0x6003
  else if x.st = .up ∧ x.dstate = .offered ∧ x.serial = serial then 0
  else 0x6002

/-- The effect of SATACCEPT (R299). -/
def satAccept (c : Chip) (k h : Fin 4) (serial : Word) : Chip :=
  beginAdmission (updSat c k (fun s => { s with bound := true, serial := serial })) h k

/-- The refusal of SATRELEASE, 0 if it commits (R299). -/
def releaseRefusal (c : Chip) (k : Fin 4) : Nat :=
  if c.link.sats[k].bound = false then 0x6101
  else if (allFin 16).any (fun n => feEn (fecfg c n) && onSat c n && feSatk (fecfg c n) = k) = true ∨
      (allFin 8).any (fun e => encSaten (encroute c e) && encSatk (encroute c e) = k) = true then 0x6102
  else 0

/-- The effect of SATRELEASE (R299). -/
def satRelease (c : Chip) (k : Fin 4) : Chip :=
  let h := hopOfSat c k
  let c := updSat c k (fun s => { s with
    bound := false, serial := 0, hop := none, admitted := false, bufready := false, bufsoft := false, everReady := false })
  match h with
  | some h => notify (sendRecord (updHop c h (fun x => { x with
      dstate := .offered, satDrv := false, satBuf := false, wait := [], pushed := [] })) h 1 0 c.tick) 0 21
  | none => c

/-! ### Resets, drains, scrubs -/

/-- The block reset of a satellite (Table 16-7): readmission with the hop kept UP. -/
def satBlockReset (c : Chip) (k : Fin 4) : Chip :=
  let c := satSignalLoss (satBuffer (updSat c k (fun s => { s with
    admitted := false, bufready := false, bufsoft := false, everReady := false })) k false) k
  match hopOfSat c k with
  | some h => beginAdmission c h k
  | none => c

/-- A SAT enters DRAINING (Table 3-3): its front ends stop, and so does its buffer; mapped channels report signal loss. -/
def satDrain (c : Chip) (k : Fin 4) : Chip :=
  satSignalLoss (satBuffer (updSat c k (fun s => { s with bufready := false, bufsoft := false, everReady := false })) k false) k

/-- The all-zero position (Table 3-4); its binding and presence are no part of it. -/
def satZero (s : Sat) : Sat :=
  { s with
    bufready := false, bufsoft := false, buflimit := false, buffold := false, bufoff := false, bufTick := 0, readyTick := 0,
    drvfault := 0, drvoff := 0, losscause := 0, ampmeas := 0, temp := 0, losscount := 0, everReady := false, level := 0, raw := 0,
    changecount := 0, filt := Vector.replicate 4 0, losttick := 0, admittick := 0 }

/-- A position after a cold start (R299). [DESIGN CHOICE: log 18; DEDUCED: log 37] -/
def satCold : Sat :=
  { serial := 0, bound := false, hop := none, admitcount := 0, admitted := false, bufready := false, bufsoft := false,
    buflimit := false, buffold := false, bufoff := false, bufTick := 0, readyTick := 0, drvfault := 0, drvoff := 0, losscause := 0,
    everReady := false, ampmeas := 0, temp := 0, losscount := 0, level := 0, raw := 0, changecount := 0, filt := Vector.replicate 4 0,
    losttick := 0, admittick := 0 }

/-- The link after a cold start. [DESIGN CHOICE: log 18] -/
def linkCold : Link :=
  { hops := Vector.replicate 4 (hopDown false false none), sats := Vector.replicate 4 satCold,
    lanes := Vector.replicate 4 { use := none, bits := 0, bad := 0, last := none }, badRun := 0, lastUp := none,
    sched := [], extra := false, crcerr := 0 }

/-! ### Words -/

/-- Codes of hop states (Table 10-17). -/
def hopCode (s : HopSt) : Nat :=
  match s with
  | .down => 0 | .train => 1 | .ident => 2 | .up => 3
/-- Codes of device states (Table 10-18). -/
def dCode (s : DState) : Nat :=
  match s with
  | .none => 0 | .offered => 1 | .quarantined => 2 | .admitting => 3 | .admitted => 4

/-- LINKSTAT (Table 10-17). -/
def linkstatWord (c : Chip) : Word :=
  let l := c.link
  pack ((allFin 4).map (fun k => (60 + k.val, 1, b2n l.sats[k].admitted)) ++
    (allFin 4).map (fun k => (56 + k.val, 1, b2n l.sats[k].bound)) ++
    (allFin 4).map (fun h => (52 + h.val, 1, b2n (l.hops[h].dstate = .offered))) ++
    (allFin 4).map (fun h => (48 + h.val, 1, b2n (l.hops[h].dstate = .quarantined))) ++
    (allFin 4).map (fun h => (40 + 2 * h.val, 2, hopCode l.hops[h].st)) ++
    [(37, 3, (allFin 4).countP (fun h => l.hops[h].st = .up)), (36, 1, b2n l.extra), (35, 1, b2n (c.pw.wakecause.testBit 2)),
     (32, 3, inputsUsed c), (24, 8, encBits c), (0, 16, l.crcerr)])

/-- HOPSERIAL and HOPINFO (Table 10-18). -/
def hopWord (c : Chip) (h : Fin 4) (info : Bool) : Word :=
  let x := c.link.hops[h]
  if info then
    pack [(48, 16, x.part), (40, 8, x.rev), (37, 3, dCode x.dstate), (36, 1, b2n x.long),
      (34, 2, if x.dstate = .admitting ∨ x.dstate = .admitted then x.pos.val else 0), (0, 16, x.delay)]
  else x.serial

/-- BINDSERIAL and SATBIND (Table 10-18). -/
def bindWord (c : Chip) (k : Fin 4) (info : Bool) : Word :=
  let s := c.link.sats[k]
  if info then
    pack [(63, 1, b2n s.bound), (62, 1, b2n s.hop.isSome), (61, 1, b2n (satUnscrubbed c k)),
      (48, 3, match s.hop with | some h => h.val + 1 | none => 0), (32, 16, s.admitcount)]
  else s.serial

/-- SATLANES (Table 10-19). -/
def satlanesWord (c : Chip) (k : Fin 4) : Word :=
  pack ((allFin 4).map (fun m => (3 * m.val, 3,
      match (allFin 4).find? (fun l => c.link.lanes[l].use = some (k, m)) with | some l => l.val + 1 | none => 0)) ++
    [(24, 1, b2n (slotEnc c k 0).isSome), (25, 1, b2n (slotEnc c k 1).isSome)])

/-- The STATUS words of a position (Table 10-19, 10-21). -/
def satWord (c : Chip) (k : Fin 4) (off : Nat) : Word :=
  let s := c.link.sats[k]
  match off with
  | 0x40 => pack [(63, 1, b2n s.admitted), (62, 1, b2n s.bufready), (61, 1, b2n (s.bufsoft && decide (s.bufTick ≤ c.tick))), (60, 1, b2n s.buflimit),
      (59, 1, b2n s.buffold), (58, 1, b2n s.bufoff), (56, 2, s.drvfault), (54, 2, s.drvoff), (52, 2, s.losscause),
      (48, 3, match s.hop with | some h => h.val + 1 | none => 0), (32, 16, s.ampmeas), (24, 8, s.temp), (0, 16, s.losscount)]
  | 0x48 => pack [(16, 16, s.changecount), (4, 4, s.raw), (0, 4, s.level)]
  | 0x50 => satlanesWord c k
  | 0x58 => w64 s.losttick
  | 0x60 => w64 s.admittick
  | _ => 0

end Sys2Proof.Machine
end

