-- ==== Sys2Proof/Machine/Hooks.lean ====
section
/-! DEFINITION. What each event of the whole part does to every functional block: Bench, resets, drains, scrubs, power
states; and how a long operation stops at a checkpoint and goes on from it. -/

namespace Sys2Proof.Machine

/-! ### Long operations -/

/-- A long operation stops at a checkpoint, SUSPENDED: a relay ends (R426). -/
def suspendBlock (c : Chip) (e : Entry) : Chip :=
  if opcodeOf e = 0x12 then (match fin? 16 (targetOf e - 52) with | some n => tuneEnd c n | none => c) else c

/-- A long operation is cancelled (R231, R426, R444). -/
def cancelBlock (c : Chip) (e : Entry) : Chip :=
  match opcodeOf e with
  | 0x10 => discoverCancel c e
  | 0x12 => (match fin? 16 (targetOf e - 52) with | some n => tuneEnd c n | none => c)
  | 0x52 =>
    (match fin? 8 (targetOf e - 68) with
      | some a => if 0 < e.ckpt ∧ c.ao[a].spanbusy = true then spanEnd c a else c
      | none => c)
  | _ => c

/-- A long operation goes on from its last checkpoint (Table 4-7, R305, R426, R444): held where its satellite is absent. -/
def resumeBlock (c : Chip) (k : Key) : Chip :=
  match findEntry c k with
  | none => c
  | some e =>
    if e.kind = .l ∧ e.state = .active then
      if needsAbsentSat c e then linkHold c e
      else
        let c := updEntry c k (fun e => { e with ckTick := c.tick, redo := true })
        match opcodeOf e with
        | 0x10 | 0x11 => (match fin? 16 (targetOf e) with | some n => feStepBegin c n | none => c)
        | 0x12 => (match fin? 16 (targetOf e - 52) with | some n => tuneResume c e n | none => c)
        | 0x52 => (match fin? 8 (targetOf e - 68) with | some a => spanResume c e a | none => c)
        | _ => c
    else c

/-- Detail of a CANCELLED target: by its own client or by the warden (Table 4-5). -/
def cancelDetail (by_ : Client) (t : Entry) : Nat := if by_ = t.client then 0x0001 else 0x0002

/-- A checkpoint that is not final: a mark, the Bench or a SLEEP request acts there (R121, R120, R133, R134). -/
def checkpointActs (c : Chip) (k : Key) : Chip :=
  match findEntry c k with
  | none => c
  | some e =>
    let stop (c : Chip) (z : Cause) : Chip :=
      suspendBlock (updEntry c k (fun e => { e with state := .suspended, cause := z, mark := .none, marker := none, redo := true })) e
    let markerDone (c : Chip) : Chip := match e.marker with
      | some m => retireOne c m stDone 0 (ctrlResult e) c.tick
      | none => c
    match e.mark with
    | .cancel =>
      let d := cancelDetail (match e.marker with | some m => m.client | none => e.client) e
      cancelBlock (retireOne (markerDone c) k stCancelled d 0 c.tick) e
    | .suspend => stop (markerDone c) .suspend
    | _ => if benched c then stop c .bench else if c.pw.sleepPending then stop c .sleep else c

/-! ### Bench -/

/-- The blocks at a Bench decision (Table 16-8): running events end; a SPANCHANGE in steps 2 to 4 ends its step, and that tick is
the command's next checkpoint (R444). -/
def benchBlocks (c : Chip) : Chip :=
  let c := (allFin 24).foldl outBench c
  (allFin 8).foldl (fun (c : Chip) (a : Fin 8) =>
    match spanEntry c a with
    | some e => if e.ckpt ≤ 3 then checkpointActs c (keyOf e) else c
    | none => c) c

/-- FRAME_BOUNDARY with what a frozen run does to a relay: frozen by a Bench, the run's tick is the AUTOTUNE's next checkpoint (R426). -/
def frameTick (v c : Chip) : Chip :=
  let c := frameBoundary v c
  if benched c then
    (allFin 16).foldl (fun (c : Chip) (n : Fin 16) =>
      match tuneEntry c n with
      | some e => if c.lp[n].mode = .tuning && c.lp[n].frozen then checkpointActs c (keyOf e) else c
      | none => c) c
  else c

/-- The blocks at the end of the Bench (Tables 15-3, 16-8). -/
def releaseBlocks (c : Chip) : Chip :=
  (allFin 8).foldl (fun (c : Chip) (a : Fin 8) => if c.ao[a].enabled then aoHold c a else c) c

/-! ### Block resets (Table 16-7) -/

/-- The start of a block reset. [DEDUCED: log 48] -/
def blockResetStart (c : Chip) (b : Block) : Chip :=
  match b with
  | .exc g => excBlockReset c g
  | .obj i =>
    match objOf i with
    | .ch n => updTrk (updFe c n feReinit) n trkReset
    | .wh w => whReset c w
    | .out o => outBlockReset c o
    | .hsb h => bankBlockReset c h
    | .lp n => lpBlockReset c n
    | .ao _ => c
    | .enc e => updEnc c e encFreeze
    | .sat k => satBlockReset c k

/-- Commands of a block that had not reached their commit point are fetched again, and a long operation goes on from its
last checkpoint (R137). [DEDUCED: log 48] -/
def refetchBlock (c : Chip) (i : ObjIx) : Chip :=
  c.wb.entries.foldl (fun (c : Chip) (e : Entry) =>
    if targetOf e = i.val ∧ e.state = .active then
      (if e.kind = .l then (if opcodeOf e = 0x53 then c else resumeBlock c (keyOf e))
       else if e.commit then c else updEntry c (keyOf e) (fun e => { e with state := .queued }))
    else c) c

/-- The end of a block reset. [DEDUCED: log 48] -/
def blockResetFinish (c : Chip) (b : Block) : Chip :=
  match b with
  | .exc _ => c
  | .obj i =>
    refetchBlock (match objOf i with
      | .wh w => whResume (updWh c w (fun x => { x with mismatch := false })) w
      | .ao a => aoBlockReset c a
      | .enc e => updEnc c e encReset
      | .out o => outRewrite c o
      | .hsb h => bankRewrite c h
      | _ => c) i

/-- The length of a block reset has passed: READY for a generator, readmission for a satellite. -/
def blockResetDue (c : Chip) (b : Block) (t : Nat) : Bool :=
  match b with
  | .exc g => c.exc[g].ready || !excEn (excCfg c g)
  | .obj i =>
    match objOf i with
    | .ch _ => decide (t + 1024 ≤ c.tick)
    | .sat k => c.link.sats[k].admitted
    | _ => decide (t + 64 ≤ c.tick)

/-! ### Resets of the whole part -/

/-- Every level source of an object deasserts: its condition was scrubbed away. -/
def clearLevels (c : Chip) (i : ObjIx) : Chip :=
  (allFin 512).foldl (fun (c : Chip) (n : Fin 512) =>
    if c.flt.srcs[n].level && decide (srcBlock n = some (.obj i)) then setLevelR c n false (evN c n) else c) c

/-- The blocks at a warm reset (R15 and the chapters); brown: the cause is a loss of VDD (R310). -/
def warmBlocks (c : Chip) (brown : Bool) : Chip :=
  let c := { c with
    fe := Vector.ofFn (feWarm c), trk := c.trk.map trkReset, exc := Vector.replicate 4 excOff, enc := c.enc.map encReset,
    lp := c.lp.map lpReset, outs := c.outs.map outReset, banks := c.banks.map bankReset,
    eng := { c.eng with boundary := none, groups := Vector.replicate 4 (false, none) } }
  let c := (allFin 4).foldl whReset (linkStop c (if brown then 3 else 1))
  { c with raised := [], flt := { c.flt with srcs := c.flt.srcs.map (fun s => { s with level := false }) } }

/-- The blocks at the end of a BOOT that ends in a running state. -/
def bootEndBlocks (c : Chip) : Chip :=
  let c := excStartAll c
  let c := if c.pw.state = .idle then { c with exc := c.exc.map (fun x => { x with drvoff := true }) } else c
  let c := updHop c 0 (fun h => { h with kick := some c.tick, stamp := c.tick })
  let c := (allFin 4).foldl whResume c
  let c := (allFin 8).foldl aoHold c
  c.wb.entries.foldl (fun (c : Chip) (e : Entry) =>
    if e.kind = .l ∧ e.state = .active ∧ opcodeOf e ≠ 0x53 then resumeBlock c (keyOf e) else c) c

/-! ### Drains and scrubs -/

/-- An object's function at its DRAINING entry (Table 3-3). -/
def drainBlock (c : Chip) (i : ObjIx) : Chip :=
  match objOf i with
  | .ch n => trkDisable c n
  | .wh w => whDisable c w
  | .out o => outDrain c o
  | .hsb b => bankDisable c b
  | .lp n => lpDrain c n
  | .ao a => aoDisable c a
  | .enc e => encDisable c e
  | .sat k => satDrain c k

/-- What a scrub zeroes beside the object's words (Table 3-4). A present satellite gets a zeroing order over the link, an absent one is
marked unscrubbed (R93). -/
def scrubBlock (c : Chip) (i : ObjIx) : Chip :=
  let c := match objOf i with
    | .ch n =>
      let c := updTrk (updFe c n (fun _ => feZero)) n (fun _ => trkZero)
      { c with face := { c.face with masters := c.face.masters.map (fun m =>
          if m.holdCh = some n then { m with spdHold := 0, snapHold := 0, holdCh := none } else m) } }
    | .wh w => updWh c w (fun _ => whZero)
    | .out o => updOut c o (fun _ => outZero)
    | .hsb b => updBank c b (fun _ => bankZero)
    | .lp n => updLp c n (fun _ => lpZero)
    | .ao a => updAo c a (fun _ => aoZero)
    | .enc e => updEnc c e (fun _ => encZero)
    | .sat k =>
      let c := updSat c k satZero
      match hopOfSat c k with
      | some h => sendRecord (updHop c h (fun x => { x with pushed := [] })) h 1 0 c.tick
      | none => setUnscrubbed c k true
  clearLevels c i

/-- What a scrub does as it begins (R93): an analog output goes through the SPANCHANGE sequence. -/
def scrubStartBlock (c : Chip) (i : ObjIx) : Chip :=
  match objOf i with
  | .ao a => aoScrub c a
  | _ => c

/-- What a new epoch discards in the blocks (R112): events, rings and the runs of long operations. [DEDUCED: log 49] -/
def epochBlocks (c : Chip) : Chip :=
  let c := { c with
    outs := c.outs.map (fun x => { x with q := [], run := none, ring := [] }),
    fe := c.fe.map (fun f => { f with discrun := false }) }
  let c := (allFin 16).foldl tuneEnd c
  (allFin 8).foldl (fun (c : Chip) (a : Fin 8) => if c.ao[a].spanbusy then spanEnd c a else c) c

/-- Replay merges every retire ring into the journal (R135). -/
def mergeRings (c : Chip) : Chip := (allFin 24).foldl mergeRing c

/-! ### Power states -/

/-- A channel is enabled, on local or satellite inputs (R175). -/
def anyChannelEnabled (c : Chip) : Bool := c.trk.toList.any (fun t => t.st ≠ .disabled)

/-- A channel, wheel, OUT, HSB, loop, analog output or encoder emulator is enabled (R177). -/
def anyEnabled (c : Chip) : Bool :=
  anyChannelEnabled c || c.wh.toList.any (fun x => x.st ≠ .disabled) || c.outs.toList.any (fun x => x.enabled) ||
  c.banks.toList.any (fun x => x.enabled) || c.lp.toList.any (fun x => x.mode ≠ .disabled) || c.ao.toList.any (fun x => x.enabled) ||
  c.enc.toList.any (fun x => x.st ≠ .disabled)

/-- The driver stages off in IDLE, and on again (R206). [DEDUCED: log 27] -/
def drivers (c : Chip) (off : Bool) : Chip := { c with exc := c.exc.map (fun x => { x with drvoff := off }) }

/-- A stay in SLEEP or BACKUP begins (R255, R332). -/
def beginStay (c : Chip) : Chip :=
  whStay { c with stays := { entry := c.tick, armed := c.pw.motionen && !c.isN, wh := c.pw.motionwh, moved := false } :: c.stays }

/-- The motion comparator sees an edge in a stay (R181, R255): one after its end, up to the switch to SYSCLK, is none of the stay's. -/
def moveStay (c : Chip) : Chip :=
  match c.stays with
  | s :: t => if c.pw.state ≠ .sleep ∧ c.pw.state ≠ .backup then c else { c with stays := { s with moved := s.armed || s.moved } :: t }
  | [] => c

/-- The blocks when SLEEP is entered (R178, R206, R310). -/
def sleepBlocks (c : Chip) : Chip := beginStay { linkStop c 2 with exc := Vector.replicate 4 excOff }

/-- The blocks after a wake (R180, R203). -/
def wakeBlocks (c : Chip) : Chip :=
  let c := excStartAll c
  let c := if c.pw.state = .idle then drivers c true else c
  updHop c 0 (fun h => { h with kick := some c.tick, stamp := c.tick })

end Sys2Proof.Machine
end

