-- ==== Sys2Proof/Machine/Settle.lean ====
section
/-! DEFINITION. Resets of the whole part, block resets and the sequencer's slots (chapters 4, 6 and 16). -/

namespace Sys2Proof.Machine

/-- The clock net runs from SYSCLK; after a brown-out it does so to the next oscillator edge (R166). -/
def onSysclk (c : Chip) : Bool := !c.pw.lfclk && c.pw.state ≠ .off

/-- A master's items that every change of its client zeroes (R45, R79, R104). -/
def clearMaster (m : Master) : Master :=
  { m with
    rdVal := 0, rdTag := none, wr0 := 0, wr1 := 0, wr2 := 0, wf0 := false, wf1 := false, wf2 := false,
    wrTag := none, addr := 0, view := false, cmda := 0, cmdb := 0, cmdc := 0, submit := 0, snapCh := 0,
    snapMech := false, spdHold := 0, snapHold := 0, holdCh := none }

/-- A master at a reset (R15, R45, R67, R83): SCRATCH, FAILS and the lockout are kept. -/
def resetMaster (m : Master) : Master :=
  { clearMaster m with flags := 0, flagsNow := 0, claim := none, badlast := false, endcause := if m.claim.isSome then 2 else 0 }

/-- Priority of a reset cause, 1 the highest (Table 6-6). [DEDUCED: log 27] -/
def causePrio (k : Nat) : Nat :=
  match k with
  | 1 => 5 | 2 => 4 | 3 => 3 | 4 => 6 | 5 => 2 | 6 => 1 | _ => 7

/-- Sticky bit of a cause within STICKY (Table 6-14): PIN 5, WDOG 4, FAULT 3, SOFT 2, BROWNOUT 1, CLOCK 0. -/
def causeBit (k : Nat) : Nat := if 1 ≤ k ∧ k ≤ 6 then 2 ^ (6 - k) else 0

/-- The resume state of R160 when a reset takes effect. -/
def resumeOf (p : Power) : PState :=
  match p.state with
  | .sleep => p.sleepFrom
  | .boot | .backup => p.resume
  | s => s

/-- The reset unit at a warm reset of a cause (R169, R170, R172): BOOT restarts at the step that the cause requires, held
while nRESET is low; the causes that take effect in one tick are kept together for its end (R170, R171). [DEDUCED: log 27] -/
def powerReset (p : Power) (cause src tick : Nat) : Power :=
  let same := p.state = .boot ∧ p.causeTick = tick ∧ p.causeMask ≠ 0
  let mask := (if same then p.causeMask else 0) ||| causeBit cause
  let best := if same ∧ causePrio p.cause ≤ causePrio cause then p.cause else cause
  let toLf := p.lfclk || cause = 6
  let step := if p.nresetLow then BootStep.held else if toLf then BootStep.a1 else BootStep.b
  { p with
    state := .boot, step := step,
    stepTick := if step = .b then tick + 16 else tick,
    cause := best, causeMask := mask, brown := p.brown || cause = 5, causeSrc := if cause = 3 then src else p.causeSrc,
    causeTick := tick,
    causeState := if same then p.causeState else p.state,
    resume := resumeOf p,
    lfclk := toLf, frac := if toLf ∧ !p.lfclk then 0 else p.frac, lfCount := 0,
    reqstat := 0, refuse := 0, wakecause := 0, runPending := false, sleepPending := false, quiescent := false,
    wake := none, wakeAt := none, motionMoved := false, motionCount := 0, motionArmed := p.motionArmed && toLf,
    wdFired := p.wdFired || cause = 2 }

/-- Hold every event that the collector has not processed (R495). -/
def holdRaised (c : Chip) : Chip := c.raised.foldl holdEvent { c with raised := [] }

/-- Clients' Weighbridge state at a warm reset (R15, Table 4-15): RECOVERED, LASTREASON and REFCOUNT take their reset value. -/
def resetClientWb (k : ClientWb) : ClientWb := { k with recovered := false, lastReason := 0, refCount := 0, now := 0, refNow := 0 }

/-- A reset or a supply loss during the programming of the anti-rollback steps leaves the counter where verification last
confirmed it (R194): which step that was is a free value. [DESIGN CHOICE: log 3] -/
def stopProgramming (m : Images) (n : Nat) : Images :=
  match m.rollGoal with
  | none => m
  | some g => { m with rollGoal := none, rollctr := min 64 (m.rollctr + Config.freeValue n % (g - m.rollctr + 1)) }

/-- What the blocks do changes neither the variant nor TICK, the Face, the map, the calendar, the images or the object words.
[DEDUCED: log 17] -/
def keep (a b : Chip) : Chip :=
  { b with isN := a.isN, tick := a.tick, face := a.face, own := a.own, cal := a.cal, img := a.img, mem := a.mem }

/-- A warm reset that takes effect at the start of tick t (R170, R172, R83, R45, R485): everything it changes outside the
blocks, and the blocks. [DEDUCED: log 17] -/
def warmReset (c : Chip) (cause src t : Nat) : Chip :=
  let c := holdRaised c
  let c := collectorReset c
  let c := { c with
    face := { c.face with masters := c.face.masters.map resetMaster, testen := false, keyTick := none, d := none, nwaitLow := false },
    wb := { c.wb with clients := c.wb.clients.map resetClientWb, asks := [], lastFetch := none, factory := none, factoryDirect := false },
    cal := { c.cal with stage := none },
    flt := { c.flt with firstSrc := 0, safeTick := 0, releaseTick := 0, selftest := 0, carried := c.flt.benched },
    img := stopProgramming { c.img with hvIgnored := false, hostMismatch := false } c.freeN, freeN := c.freeN + 1,
    pw := powerReset c.pw cause src t,
    chipReset := none, blockResets := [], benchNow := false }
  keep c (warmBlocks c (cause = 5))

/-- A block can be reset: a generator always, an ownable object when OWNED (R475). -/
def resettable (c : Chip) (b : Block) : Bool :=
  match b with
  | .exc _ => true
  | .obj i => (ownE c i).st = .owned

/-- Begin the block resets whose tick has come (R475). -/
def beginBlockResets (c : Chip) : Chip :=
  c.blockResets.foldl (fun c b =>
    if b.2 ≤ c.tick ∧ resettable c b.1 = true ∧ c.flt.resets.any (fun r => r.1 = b.1) = false then
      blockResetStart { c with flt := { c.flt with resets := c.flt.resets ++ [b] } } b.1
    else c) { c with blockResets := c.blockResets.filter (fun b => decide (c.tick < b.2)) }

/-- A chip reset that a reaction asked for takes effect in this tick (R476); the event that caused it is held for step C (R495),
an escalation is no event. -/
def takeChipReset (c : Chip) (r : ResetAsk) : Chip :=
  let d := warmReset c 3 r.src.val r.tick
  keep d (if r.escalation then d else holdEvent d { evB c r.src with tick := r.tick - 2, byReset := true })

/-- Free sequencer slots (R118): four less the ACTIVE long operations other than SCRUB. -/
def slotsUsed (c : Chip) : Nat :=
  c.wb.entries.countP (fun e => e.kind = .l && e.state = .active && opcodeOf e ≠ 0x53)

/-- Another command of the same client and lane on the same object is in progress, or is a long operation suspended before e:
two never run together there (R116). [DEDUCED: log 23] -/
def busyObject (c : Chip) (e : Entry) : Bool :=
  c.wb.entries.any (fun x => x.client = e.client && x.ctrl = e.ctrl && targetOf x = targetOf e && keyOf x ≠ keyOf e &&
    (x.state = .active || x.state = .waiting ||
      (x.state = .suspended && x.kind = .l && decide (x.acceptTick < e.acceptTick ∨ x.acceptTick = e.acceptTick ∧ x.seq < e.seq))))

/-- A suspended long operation whose turn to resume has come: it has been resumed, no other command holds it (R116) and its object
is not in transit for its client (R96). -/
def resumeTurn (c : Chip) (e : Entry) : Bool :=
  e.state = .suspended && e.resumed && !busyObject c e &&
  (match targetObj e with
    | some i => !(inTransit c i && (ownE c i).next = some e.client)
    | none => true)

/-- Its object belongs to its client, or it is a SCRUB (R96). -/
def resumesOwned (c : Chip) (e : Entry) : Bool :=
  match targetObj e with
  | some i => opcodeOf e = 0x53 || ownerOf c i = some e.client
  | none => true

end Sys2Proof.Machine
end

