-- ==== Sys2Proof/Machine/Views.lean ====
section
/-! DEFINITION. Register and object words of chapters 2 to 6 and 16, composed from the state as their tables lay out. -/

namespace Sys2Proof.Machine

/-- IDENT (Table 2-8). -/
def identWord (c : Chip) : Word := if c.isN then 0x641610010000A55A else 0x641600010000A55A
/-- CAPS (Table 2-9). -/
def capsWord (c : Chip) : Word := if c.isN then 0x4400000008081010 else 0x4408180408081010

/-! ### Clients and ownership -/

/-- LOCKREM (R81): the lockout's end less TICK in units of 16 ticks, rounded up. -/
def lockRem (c : Chip) (m : Master) : Nat :=
  match m.lockEnd with
  | some e => (e - c.tick + 15) / 16
  | none => 0

/-- A master is locked out in this tick (R81). -/
def lockedOut (c : Chip) (m : Master) : Bool :=
  match m.lockEnd with
  | some e => decide (c.tick < e)
  | none => false

/-- CLIENT of a master (Table 3-9); at the lockout's end value FAILS and LOCKED read zero (R81). -/
def clientWord (c : Chip) (i : Mid) : Word :=
  let m := c.face.masters[i]
  let past := m.lockEnd.isSome && !lockedOut c m
  pack [(63, 1, b2n m.claim.isSome), (62, 1, b2n (lockedOut c m)), (61, 1, b2n m.badlast),
    (56, 4, if past then 0 else m.fails), (32, 24, lockRem c m), (24, 2, m.endcause), (16, 2, i.val),
    (0, 4, match m.claim with | some k => k.val | none => 0)]

/-- The master that holds a client (R84). -/
def holder (c : Chip) (k : Client) : Option Mid :=
  (allFin 4).find? (fun m => c.face.masters[m].claim = some k)

/-- Code of an ownership state (Table 3-12). -/
def ownCode (s : OwnSt) : Nat :=
  match s with
  | .free => 0 | .owned => 1 | .draining => 2 | .scrubbing => 3 | .absent => 7

/-- The ownership entries that satisfy a test. -/
def countOwn (c : Chip) (p : OwnEntry → Bool) : Nat := c.own.entries.toList.countP p

/-- OWNMAP (Table 3-10). -/
def ownmapWord (c : Chip) : Word :=
  pack [(48, 16, c.own.gen), (40, 8, countOwn c (fun e => e.st = .draining || e.st = .scrubbing)),
    (32, 8, countOwn c (fun e => e.st = .free)),
    (16, 16, ((allFin 16).map (fun k => if c.own.prov[k].enabled then 2 ^ k.val else 0)).sum),
    (0, 16, ((allFin 16).map (fun k => if (holder c k).isSome then 2 ^ k.val else 0)).sum)]

/-- An ownership entry (Table 3-12). -/
def ownWord (e : OwnEntry) : Word :=
  pack [(48, 16, e.gen), (20, 4, match e.next with | some k => k.val | none => 0), (19, 1, b2n e.next.isSome),
    (16, 3, ownCode e.st), (0, 4, match e.st with | .free | .absent => 0 | _ => e.owner.val)]

/-- A provisioning entry (Table 3-13). -/
def provWord (c : Chip) (k : Client) : Word :=
  let p := c.own.prov[k]
  pack [(63, 1, b2n p.enabled), (62, 1, b2n (p.passcode != 0)), (61, 1, b2n p.pinen), (58, 2, p.pinmid.val),
    (32, 2, match holder c k with | some m => m.val | none => 0), (31, 1, b2n (holder c k).isSome)]

/-- The hop a present satellite lies at; none if absent. Filled in by the link (R93). -/
def satHopLen (hop : Option Nat) : Nat :=
  match hop with
  | some h => 1024 + 800 * h
  | none => 1024

/-- OBJSTAT of a master (Table 2-11). -/
def objstatWord (m : Master) : Word :=
  pack [(32, 9, match m.wrTag with | some t => 8 * t.val | none => 0), (26, 1, b2n m.wf2), (25, 1, b2n m.wf1),
    (24, 1, b2n m.wf0)] ||| (m.flags.zeroExtend 64 &&& 0x7FE#64)

/-! ### Weighbridge -/

/-- Normal-lane entries that a client holds (R109). -/
def heldNormal (c : Chip) (k : Client) : Nat := c.wb.entries.countP (fun e => e.client = k && !e.ctrl)
/-- Control-lane entries that a client holds (R109). -/
def heldControl (c : Chip) (k : Client) : Nat := c.wb.entries.countP (fun e => e.client = k && e.ctrl)

/-- Free journal locations: not held and not withdrawn (R111). -/
def freeLocs (c : Chip) : List Nat :=
  (List.range 1024).filter (fun j => !(c.wb.withdrawn.contains j) && !(c.wb.entries.any (fun e => e.loc = j)))

/-- The number of free journal entries: a withdrawal takes effect once the command held there has been freed (R111). -/
def jfree (c : Chip) : Nat :=
  1024 - c.wb.entries.length - c.wb.withdrawn.countP (fun j => !(c.wb.entries.any (fun e => e.loc = j)))

/-- CMDACK of a client (Table 4-15). -/
def cmdackWord (c : Chip) (k : Client) : Word :=
  pack [(48, 16, c.wb.epoch), (40, 8, heldNormal c k), (37, 3, heldControl c k), (0, 32, c.wb.clients[k].lastSeq)]

/-- Record word 0 of a retired entry (Table 4-16); more: a later record of the client has retired. -/
def recWord0 (e : Entry) (more : Bool) : Word :=
  pack [(63, 1, 1), (62, 1, b2n more), (61, 1, b2n e.recovered), (60, 1, b2n e.ctrl), (56, 4, e.status),
    (48, 8, opcodeOf e), (32, 16, e.detail), (0, 32, e.seq)]

/-- Codes of entry states (Table 4-18). -/
def eCode (s : EState) : Nat :=
  match s with
  | .queued => 1 | .active => 2 | .suspended => 3 | .waiting => 4 | .retired => 5
/-- Codes of marks (Table 4-18). -/
def markCode (m : Mark) : Nat :=
  match m with
  | .none => 0 | .suspend => 1 | .resume => 2 | .cancel => 3
/-- Codes of suspension causes (Table 4-18). -/
def causeCode (m : Cause) : Nat :=
  match m with
  | .linkhold => 0 | .suspend => 1 | .bench => 2 | .sleep => 3
/-- Codes of kinds (Table 4-18). -/
def kindCode (m : Kind) : Nat :=
  match m with
  | .s => 0 | .d => 1 | .l => 2

/-- The words of a journal entry (Table 4-18). -/
def entryWord (e : Entry) (off : Nat) : Word :=
  match off with
  | 0x00 => pack [(61, 3, eCode e.state), (60, 1, b2n e.ctrl), (59, 1, b2n e.commit), (58, 1, b2n e.started),
      (56, 2, markCode e.mark), (48, 8, e.ckpt), (46, 2, if e.state = .suspended then causeCode e.cause else 0),
      (44, 2, kindCode e.kind), (40, 4, e.client.val), (36, 4, if e.state = .retired then e.status else 0), (0, 32, e.seq)]
  | 0x08 => e.cmda
  | 0x10 => e.cmdb
  | 0x18 => e.cmdc
  | 0x20 => w64 e.acceptTick
  | 0x28 => pack [(32, 16, if e.state = .retired then e.detail else 0), (0, 32, e.hosttag.toNat)]
  | 0x30 => if e.state = .retired then e.result else 0
  | 0x38 => if e.state = .retired then w64 e.retireTick else 0
  | _ => 0

/-- The head entry of a client: its lowest-numbered outstanding entry (R125). -/
def clientHead (c : Chip) (k : Client) : Option Entry := c.wb.entries.find? (fun e => e.client = k)

/-- The words of a client view (Table 4-17). -/
def clientViewWord (c : Chip) (k : Client) (off : Nat) : Word :=
  let v := c.wb.clients[k]
  match off with
  | 0x00 => v.rec0
  | 0x08 => v.rec1
  | 0x10 => v.rec2
  | 0x18 => v.rec3
  | 0x20 => pack [(32, 32, v.lastAccSeq), (0, 32, v.lastTag.toNat)]
  | 0x28 => (match clientHead c k with
      | some e => pack [(42, 1, 1), (32, 10, e.loc), (0, 32, e.seq)]
      | none => 0)
  | _ => 0

/-! ### Power and images -/

/-- Codes of power states (Table 6-1). -/
def pCode (s : PState) : Nat :=
  match s with
  | .off => 0 | .config => 1 | .minconfig => 2 | .run => 3 | .idle => 4 | .sleep => 5 | .backup => 6 | .boot => 7

/-- POWERCTL (Table 6-13); on the FY6416-N the motion fields read zero (R181). -/
def powerctlWord (c : Chip) : Word :=
  let p := c.pw
  pack [(60, 4, pCode p.state), (58, 2, p.reqstat), (48, 8, p.refuse), (39, 1, b2n p.autoresume),
    (32, 4, if c.isN then p.wakeen % 8 else p.wakeen), (31, 1, b2n (p.motionen && !c.isN)),
    (28, 2, if c.isN then 0 else p.motionwh.val), (8, 8, p.wakecause)]

/-- RESETCAUSE (Table 6-14). -/
def resetcauseWord (c : Chip) : Word :=
  let p := c.pw
  pack [(63, 1, b2n p.rcCold), (62, 1, b2n p.lfstop), (48, 6, p.sticky), (44, 4, p.last), (40, 4, p.laststate),
    (16, 16, p.warmcount), (0, 9, p.faultsrc)]

/-- Codes of slot states (R187). -/
def slotCode (s : SlotSt) : Nat :=
  match s with
  | .empty => 0 | .writing => 1 | .staged => 2 | .eligible => 3

/-- IMAGESTAT (Table 6-16). -/
def imagestatWord (c : Chip) : Word :=
  let m := c.img
  pack [(63, 1, b2n m.minimal), (62, 1, b2n m.hostMismatch), (61, 1, b2n m.hostTol), (60, 1, b2n m.hvIgnored),
    (56, 1, b2n (m.actSlot && !m.minimal)), (52, 4, slotCode m.slotA.st), (48, 4, slotCode m.slotB.st),
    (44, 4, m.slotA.fail), (40, 4, m.slotB.fail), (32, 7, m.rollctr), (0, 32, if m.minimal then 0 else m.actVer)]

/-- The watchdog's period in ticks; a TIMEOUT of 0 acts as 1 (R173, Table 6-17). [DEDUCED: log 56] -/
def wdPeriod (p : Power) : Nat := (if p.wdTimeout = 0 then 1 else p.wdTimeout) * 65536

/-- WDOG (Table 6-17). [DEDUCED: log 56] -/
def wdogWord (c : Chip) : Word :=
  pack [(63, 1, b2n c.pw.wdEn), (62, 1, b2n c.pw.wdFired), (32, 16, c.pw.wdTimeout),
    (16, 16, (c.pw.wdCount + 65535) / 65536)]

/-! ### Fault collector -/

/-- FLTSUMMARY (Table 16-12). -/
def fltsummaryWord (c : Chip) : Word :=
  let n1 := countSrc c (fun s => s.st = .corrected)
  let n2 := countSrc c (fun s => s.st = .contained)
  let n3 := countSrc c (fun s => s.st = .fatal)
  let low := lowSrc c (fun s => s.st ≠ .ok)
  pack [(62, 2, if 0 < n3 then 3 else if 0 < n2 then 2 else if 0 < n1 then 1 else 0), (61, 1, b2n c.flt.benched),
    (60, 1, b2n c.flt.cap.valid), (59, 1, b2n c.flt.balls3.alarm), (58, 1, b2n c.flt.balls3.irq), (57, 1, b2n c.flt.balls3.fault),
    (56, 1, b2n (anySrc c (fun s => s.unack))), (41, 1, b2n low.isSome), (32, 9, low.getD 0), (20, 10, n1), (10, 10, n2),
    (0, 10, n3)]

/-- FLTCAPA (Table 16-13). -/
def fltcapaWord (c : Chip) : Word := if c.flt.cap.valid then w64 c.flt.cap.ev.tick else 0
/-- FLTCAPB (Table 16-13). -/
def fltcapbWord (c : Chip) : Word :=
  let k := c.flt.cap
  if k.valid then
    pack [(63, 1, 1), (62, 1, b2n k.unset), (58, 4, k.ev.master), (55, 3, k.ev.access), (52, 2, k.ev.kind),
      (32, 9, k.ev.src.val), (0, 32, k.ev.addr)]
  else 0
/-- FLTCAPC (Table 16-13). -/
def fltcapcWord (c : Chip) : Word :=
  let k := c.flt.cap
  pack [(48, 16, k.later), (47, 1, b2n (k.valid && k.ev.client.isSome)),
    (40, 4, if k.valid then (match k.ev.client with | some x => x.val | none => 0) else 0),
    (0, 34, if k.valid then k.calsec else 0)]

/-- FLTACK as read (Table 16-14). -/
def fltackWord (c : Chip) : Word :=
  let p : Source → Bool := fun s => s.unack || s.irqpend
  let low := lowSrc c p
  pack [(32, 10, countSrc c p), (25, 1, b2n low.isSome), (16, 9, low.getD 0)]

/-- FLTINJECT as read (Table 16-15). -/
def fltinjectWord (c : Chip) : Word := pack [(16, 10, countSrc c (fun s => s.force))]

/-- ALARMSTAT (Table 16-16). -/
def alarmstatWord (c : Chip) : Word :=
  pack [(63, 1, b2n c.flt.alarmPend), (62, 1, b2n (anyFatal c)), (32, 9, c.flt.firstSrc), (0, 16, c.flt.alarmCount)]

/-- SAFESTAT (Table 16-17). -/
def safestatWord (c : Chip) : Word :=
  let f := c.flt
  pack [(63, 1, b2n f.benched), (62, 1, b2n (anyFatal c)), (61, 1, b2n (f.benched && !anyFatal c)),
    (60, 1, b2n f.carried), (56, 4, f.cause), (32, 9, f.causeSrc), (0, 16, f.benchCount)]

/-- SRCSTAT (Table 16-21). -/
def srcstatWord (c : Chip) (n : Src) : Word :=
  let s := c.flt.srcs[n]
  pack [(62, 2, stCode s.st), (61, 1, b2n s.unack), (60, 1, b2n s.irqpend), (59, 1, b2n s.pinhold),
    (58, 1, b2n s.escrun), (57, 1, b2n s.escalated), (56, 1, b2n s.forced), (55, 1, b2n (isLevel n && asserted s n)),
    (54, 1, b2n (isEnv n)), (53, 1, b2n (isFixed n)), (51, 2, if isEnv n then 0 else polClass (polW c n)),
    (40, 8, s.wcount)]

/-- The STATUS, LIVE and TABLE-RO words of a source's table entry (Table 16-19). -/
def srcWord (c : Chip) (n : Src) (off : Nat) : Word :=
  let s := c.flt.srcs[n]
  match off with
  | 0x10 => pack [(63, 1, b2n s.force)]
  | 0x18 => srcstatWord c n
  | 0x20 => pack [(32, 32, s.events), (16, 16, s.recov), (0, 16, s.reacts)]
  | 0x28 => w64 s.last
  | 0x30 => defPol n
  | 0x38 => defTime n
  | _ => 0

end Sys2Proof.Machine
end

