-- ==== Sys2Proof/Machine/Objects.lean ====
section
/-! DEFINITION. The object space (R50 to R58): which addresses hold words, of which class, readable and writable by whom,
and what they read as. -/

namespace Sys2Proof.Machine

/-- Classes of object words (Table 2-6). -/
inductive WClass where
  | config | live | status | tableRo
deriving DecidableEq, Repr

/-- Who may access a word (Table 2-5). -/
inductive OAccess where
  | system            -- read by any claimed master, written by the warden
  | trim              -- as system, unless TRIMLOCK
  | owner (i : ObjIx) -- the object's owner
  | view (k : Client) -- the client of a client view
  | journal (j : Nat) -- the client of a journal entry
deriving DecidableEq, Repr

/-- Words of the system region (Tables 6-19, 7-6, 10-17, 3-12, 3-13; R490). -/
def sysClass (a : Nat) : Option WClass :=
  if a = 0x100 then some .live
  else if a = 0x108 ∨ a = 0x110 ∨ a = 0x118 then some .status
  else if 0x200 ≤ a ∧ a < 0x280 then some .tableRo
  else if 0x400 ≤ a ∧ a < 0x500 then (if a % 0x40 = 0 then some .config else if a % 0x40 = 8 then some .status else none)
  else if 0x600 ≤ a ∧ a < 0x640 then (if a % 0x10 ≤ 8 then some .status else none)
  else if 0x680 ≤ a ∧ a < 0x6C0 then (if a % 0x10 ≤ 8 then some .status else none)
  else if a = 0x800 then some .live
  else if a = 0x808 ∨ a = 0x810 ∨ a = 0x818 then some .status
  else if 0x1000 ≤ a ∧ a < 0x1000 + 8 * 88 then some .status
  else if 0x1400 ≤ a ∧ a < 0x1400 + 8 * 16 then some .status
  else if 0x8000 ≤ a ∧ a < 0x9000 then some .live
  else none

/-- Words of a source's table entry (Table 16-19). -/
def srcClass (off : Nat) : WClass :=
  match off with
  | 0x00 | 0x08 => .config
  | 0x10 => .live
  | 0x30 | 0x38 => .tableRo
  | _ => .status

/-- One of the consecutive words from lo to hi. -/
def between (o lo hi : Nat) : Bool := decide (lo ≤ o ∧ o ≤ hi)

/-- Words of a channel (Tables 7-8, 8-6). -/
def chClass (o : Nat) : Option WClass :=
  if between o 0 0x10 || between o 0x100 0x110 then some .config
  else if between o 0x40 0x58 || between o 0x80 0xE0 || between o 0x140 0x180 || between o 0x1C0 0x1D8 ||
      between o 0x200 0x208 || between o 0x1000 0x17F8 then some .status
  else none

/-- Words of a wheel (Table 11-8). -/
def whClass (o : Nat) : Option WClass :=
  if between o 0 0x7F8 || between o 0x800 0x818 then some .config
  else if between o 0x900 0x958 || between o 0x980 0x990 || between o 0xA00 0xA08 || between o 0x1000 0x17F8 then some .status
  else none

/-- Words of a timed output (Table 12-9). -/
def outClass (o : Nat) : Option WClass :=
  if between o 0 8 then some .config
  else if between o 0x40 0x58 then some .status
  else if between o 0x100 0x4F8 then some .tableRo
  else none

/-- Words of a bank (Table 12-9). -/
def hsbClass (o : Nat) : Option WClass :=
  if between o 0 8 then some .config else if o = 0x40 ∨ o = 0x58 then some .status else none

/-- Words of a loop (Tables 13-7, 14-6). -/
def lpClass (o : Nat) : Option WClass :=
  if between o 0 0x38 || between o 0x40 0x70 || between o 0x180 0x198 then some .config
  else if between o 0x1000 0x1FF8 then (if o % 0x40 ≤ 0x30 then some .config else none)
  else if between o 0x80 0x98 then some .live
  else if between o 0x100 0x138 || between o 0x1C0 0x1F0 || between o 0x2000 0x2048 then some .status
  else if between o 0x200 0x2F8 then (if o % 0x20 ≤ 0x10 then some .status else none)
  else none

/-- Words of an analog output (Table 15-6). -/
def aoClass (o : Nat) : Option WClass :=
  if between o 0 0x10 then some .config
  else if o = 0x20 then some .live
  else if between o 0x40 0x68 then some .status
  else none

/-- Words of a satellite position (Table 10-19). -/
def satClass (o : Nat) : Option WClass :=
  if o = 0 then some .config else if between o 0x40 0x60 then some .status else none

/-- Words of an encoder emulator (Table 9-4). -/
def encClass (o : Nat) : Option WClass :=
  if between o 0 8 then some .config else if between o 0x40 0x60 then some .status else none

/-- Words of the event router (Table 13-11, R431). -/
def routerClass (o : Nat) : Option WClass :=
  if between o 0 8 then some .config
  else if o = 0x40 ∨ o = 0x80 ∨ o = 0x88 ∨ o = 0x90 ∨ o = 0x98 then some .status
  else none

/-- The words of the ownable object that lies at an address (Table 17-3). -/
def ownedInfo (obj : Obj) (i : ObjIx) (o : Nat) : Option (WClass × OAccess) :=
  (match obj with
    | .ch _ => chClass o
    | .wh _ => whClass o
    | .out _ => outClass o
    | .hsb _ => hsbClass o
    | .lp _ => lpClass o
    | .ao _ => aoClass o
    | .enc _ => encClass o
    | .sat _ => satClass o).map (fun k => (k, .owner i))

/-- The ownable object in whose address range an address lies (Table 17-3). -/
def objAt (a : Nat) : Option Obj :=
  let o := a % 0x1000000
  match a / 0x1000000 with
  | 1 => (fin? 16 (o / 0x10000)).map Obj.ch
  | 2 => (fin? 4 (o / 0x10000)).map Obj.wh
  | 3 => if o < 0x18000 then (fin? 24 (o / 0x1000)).map Obj.out else (fin? 8 ((o - 0x18000) / 0x1000)).map Obj.hsb
  | 4 => (fin? 16 (o / 0x10000)).map Obj.lp
  | 5 => (fin? 8 (o / 0x1000)).map Obj.ao
  | 7 => (fin? 4 (o / 0x10000)).map Obj.sat
  | 10 => (fin? 8 (o / 0x1000)).map Obj.enc
  | _ => none

/-- The map index of an object (Table 3-1). -/
def ixOf (o : Obj) : ObjIx :=
  match o with
  | .ch n => ixCh n
  | .wh n => ixWh n
  | .out n => ixOut n
  | .hsb n => ixHsb n
  | .lp n => ixLp n
  | .ao n => ixAo n
  | .enc n => ixEnc n
  | .sat n => ixSat n

/-- The class of an address and who may access it; none where no word is implemented (R54). -/
def objInfo (a : Nat) : Option (WClass × OAccess) :=
  let o := a % 0x1000000
  match a / 0x1000000 with
  | 0x00 => (sysClass o).map (fun k => (k, .system))
  | 0x06 => if o < 0x40 * 512 then some (srcClass (o % 0x40), .system) else none
  | 0x08 =>
    if o < 0x40 * 16 then
      (if h : o / 0x40 < 16 then (if o % 0x40 ≤ 0x28 then some (.status, .view ⟨o / 0x40, h⟩) else none) else none)
    else if 0x10000 ≤ o ∧ o < 0x10000 + 0x40 * 1024 then some (.status, .journal ((o - 0x10000) / 0x40))
    else none
  | 0x09 => if o < 8 * 32 then some (.live, .trim) else none
  | 0x0B => if o ≤ 0x28 then some (.status, .system) else none
  | 0x0C => (routerClass o).map (fun k => (k, .system))
  | _ =>
    match objAt a with
    | some obj => ownedInfo obj (ixOf obj) (a - objBase obj)
    | none => none

/-! ### The fields of the words that a master writes (R16) -/

/-- The fields of a word of an ownable object that a master writes, by its offset; every other bit is reserved. -/
def ownedFields (obj : Obj) (o : Nat) : Word :=
  match obj with
  | .ch _ =>                                            -- Tables 7-8, 7-9, 7-14, 8-6 to 8-8
    if o = 0 then 0xF3FC000000000000#64
    else if o = 0x10 then 0xFFFFFFFFFFFF0000#64
    else if o = 0x100 then 0xFFB0FFFFFFFFFFFF#64
    else if o = 0x108 then 0xFFFFFF00FFFFFFFF#64
    else if o = 0x110 then 0xFFFFFFFF00000000#64
    else -1
  | .wh _ =>                                            -- Tables 11-8, 11-9, R319
    if o < 0x800 then 0x000FFFFFFFFFFFFF#64
    else if o = 0x800 then 0xFEF0FFF001FFFFFF#64
    else if o = 0x808 then 0xFFFFF0C000000000#64
    else if o = 0x818 then 0xBF00FFFFFFFFFFFF#64
    else -1
  | .out _ => if o = 0 then 0xBE738000FFFFFFFF#64 else 0xFFFFFFFF00000000#64        -- Tables 12-9, 12-10
  | .hsb _ => if o = 0 then 0xC000FFFFFFFFFFFF#64 else 0xFFFFFFFF00000000#64        -- Tables 12-9, 12-11
  | .lp _ =>                                            -- Tables 13-7, 13-8, 14-6, 14-7
    if o = 0 then 0xCF70FFFF3FFF8000#64
    else if o = 0x18 then 0x00000000FFFFFFFF#64
    else if o = 0x180 then 0xFB00FFFF00000000#64
    else -1
  | .ao _ => if o = 0 then 0x8000FFFFFFFFFFFF#64 else -1                            -- Tables 15-6, 15-7
  | .sat _ => 0xF000FFFFFFFFFFFF#64                                                 -- Table 10-20
  | .enc _ => if o = 8 then 0xFFF1000001FFFFFF#64 else -1                           -- Tables 9-5, 9-6

/-- The fields of a CONFIG or LIVE word at an address: every other bit is reserved, reads as zero and is ignored when the word is
staged (R16). -/
def fields (a : Nat) : Word :=
  let o := a % 0x1000000
  match a / 0x1000000 with
  | 0x00 =>
    if 0x400 ≤ o ∧ o < 0x500 then 0x8000FFFF0001FFFF#64           -- Table 7-6
    else if o = 0x800 then 0x8000000000000000#64                  -- R490
    else -1
  | 0x06 => if o % 0x40 = 0 then 0xF01F1FFFFFFF0000#64 else 0xFFFFFFFF00000000#64   -- Tables 16-19, 16-20
  | 0x09 => 0xFFFFFFFF00000000#64                                 -- Table 7-13
  | 0x0C => if o = 0 then 0x000000000000FFFF#64 else -1           -- Table 13-11
  | _ => (match objAt a with | some obj => ownedFields obj (a - objBase obj) | none => -1)

/-! ### What words read as -/

/-- A STATUS or TABLE-RO word of the system region. -/
def sysWord (c : Chip) (a : Nat) : Word :=
  if a = 0x108 then pack [(63, 1, b2n c.pw.motionMoved), (0, 16, c.pw.motionCount)]
  else if a = 0x110 then w64 c.pw.resettick
  else if a = 0x118 then pack [(16, 16, c.img.slotB.pages.toNat), (0, 16, c.img.slotA.pages.toNat)]
  else if a < 0x240 then slotWord c.img.slotA ((a - 0x200) / 8)
  else if a < 0x280 then slotWord c.img.slotB ((a - 0x240) / 8)
  else if 0x400 ≤ a ∧ a < 0x500 then excstatWord c ⟨(a - 0x400) / 0x40 % 4, by omega⟩
  else if 0x600 ≤ a ∧ a < 0x640 then hopWord c ⟨(a - 0x600) / 0x10 % 4, by omega⟩ (decide (a % 0x10 = 8))
  else if 0x680 ≤ a ∧ a < 0x6C0 then bindWord c ⟨(a - 0x680) / 0x10 % 4, by omega⟩ (decide (a % 0x10 = 8))
  else if a = 0x808 then w64 c.flt.safeTick
  else if a = 0x810 then w64 c.flt.releaseTick
  else if a = 0x818 then c.flt.selftest
  else if 0x1000 ≤ a ∧ a < 0x1400 then
    (match fin? 88 ((a - 0x1000) / 8) with | some i => ownWord (ownE c i) | none => 0)
  else if 0x1400 ≤ a ∧ a < 0x1480 then
    (match fin? 16 ((a - 0x1400) / 8) with | some k => provWord c k | none => 0)
  else 0

/-- A STATUS or TABLE-RO word of an ownable object. -/
def ownedWord (c : Chip) (obj : Obj) (o : Nat) : Word :=
  match obj with
  | .ch n => if o < 0x100 then feWord c n o else trkWord c n o
  | .wh w => whWord c w o
  | .out x => outWord c x o
  | .hsb b => hsbWord c b o
  | .lp n => lpWord c n o
  | .ao a => aoWord c a o
  | .enc e => encWord c e o
  | .sat k => satWord c k o

/-- A STATUS word of the event router region (R431, R378). -/
def routerWord (c : Chip) (o : Nat) : Word :=
  if o = 0x40 then cestatWord c else grpstatWord c ⟨(o - 0x80) / 8 % 4, by omega⟩

/-- The current value of a STATUS or TABLE-RO word. -/
def statusWord (c : Chip) (a : Nat) : Word :=
  let o := a % 0x1000000
  match a / 0x1000000 with
  | 0x00 => sysWord c o
  | 0x06 => srcWord c (srcN (o / 0x40)) (o % 0x40)
  | 0x08 =>
    if o < 0x400 then (match fin? 16 (o / 0x40) with | some k => clientViewWord c k (o % 0x40) | none => 0)
    else (match c.wb.entries.find? (fun e => e.loc = (o - 0x10000) / 0x40) with
      | some e => entryWord e (o % 0x40)
      | none => 0)
  | 0x0B => calWord c o
  | 0x0C => routerWord c o
  | _ => (match objAt a with | some obj => ownedWord c obj (a - objBase obj) | none => 0)

/-- A LIVE word's current value: FORCE lives with its source. -/
def liveValue (c : Chip) (a : Nat) : Word :=
  if a / 0x1000000 = 0x06 then srcWord c (srcN (a % 0x1000000 / 0x40)) 0x10 else liveW c a

/-- The word at an address in a view (R50, Table 2-6); a write-only bit reads as zero (Chapter 0). -/
def objValue (c : Chip) (k : WClass) (view : Bool) (a : Nat) : Word :=
  match k with
  | .config => clrgapOff a (if view then act c a else stg c a)
  | .live => liveValue c a
  | _ => statusWord c a

/-- The target number whose APPLY (or FAULTPOLICY) freezes a CONFIG address (R57, R58, Table 4-1). -/
def blockTarget (a : Nat) (k : OAccess) : Nat :=
  match k with
  | .owner i => i.val
  | _ =>
    if a / 0x1000000 = 0x0C then 0x300
    else if 0x400 ≤ a ∧ a < 0x500 then 0x200 + (a - 0x400) / 0x40
    else 0

/-- A FAULTPOLICY pending on a source (R472). -/
def policyFrozen (c : Chip) (n : Nat) : Bool :=
  c.wb.entries.any (fun e => opcodeOf e = 0x06 && e.state ≠ .retired &&
    decide (targetOf e - 0x400 ≤ n ∧ n ≤ targetOf e - 0x400 + fld e.cmdb 8 0))

/-- A write of an address is frozen (R58, R195, R472). -/
def isFrozen (c : Chip) (a : Nat) (k : WClass) (o : OAccess) : Bool :=
  match k with
  | .config =>
    if a / 0x1000000 = 0x06 then policyFrozen c (a % 0x1000000 / 0x40)
    else frozenBy c 0x04 (blockTarget a o)
  | .live => decide (0x8000 ≤ a ∧ a < 0x9000) && c.wb.entries.any (fun e => opcodeOf e = 0x50 && e.state ≠ .retired)
  | _ => false

/-- A client may access a word (Table 2-5); an object in transit is accessible to none (R95). -/
def mayAccess (c : Chip) (k : Client) (o : OAccess) (write : Bool) : Bool :=
  match o with
  | .system | .trim => !write || k = 0
  | .owner i => ownerOf c i = some k
  | .view n => !write && k = n
  | .journal j => !write && c.wb.entries.any (fun e => e.loc = j && e.client = k)

/-- What an accepted write of a LIVE word does beside storing it: SRCFORCE (R470). -/
def writeLive (c : Chip) (a : Nat) (w : Word) (m : Mid) (k : Client) : Chip :=
  if a / 0x1000000 = 0x06 then
    let n := srcN (a % 0x1000000 / 0x40)
    setForce c n (bit w 63) (evAt c n m.val accCommit 2 a (some k))
  else
    let c := { c with mem := c.mem.putLive a (w &&& fields a) }
    match objAt a with
    | some (.ao x) => aoSetWritten c x
    | _ => c

end Sys2Proof.Machine
end

