-- ==== Sys2Proof/Machine/Face.lean ====
section
/-! DEFINITION. The Face (chapter 2): bus conditions, halfword reads and writes, the shadows and the object window. -/

namespace Sys2Proof.Machine

/-- How the Face answers (Table 2-3): bus undriven, 0xDEAD without a latch, held, served. -/
inductive FaceCond where
  | highZ | dead | held | serves
deriving DecidableEq, Repr

/-- The condition of the Face (Table 2-3). -/
def faceCond (c : Chip) : FaceCond :=
  match c.pw.state with
  | .off => if c.pw.vdd then .dead else .highZ
  | .backup => .highZ
  | .sleep => .dead
  | .boot => (match c.pw.step with | .c | .dCold | .dWarm => .held | _ => .dead)
  | _ => if c.pw.nresetLow then .dead else .serves

/-- The condition in which an access that began n ticks ago is answered (R38): one that began before the Face served is held, or
unserved, to its end. -/
def faceAt (c : Chip) (n : Nat) : FaceCond :=
  if faceCond c = .serves ∧ c.tick < c.pw.serveTick + n then (if c.pw.serveHeld then .held else .dead) else faceCond c

/-- Ticks from the synchronised start of a write access to its effect: its least (Table 2-2); the commands give no start.
[DESIGN CHOICE: log 63] -/
def writeTicks : Nat := 4
/-- Ticks from the synchronised start of an access to the bus timeout (R37). -/
def timeoutTicks : Nat := 1600

/-- 0xDEAD. -/
def deadHalf : Half := 0xDEAD

/-- Change a master. -/
def updM (c : Chip) (m : Mid) (f : Master → Master) : Chip :=
  { c with face := { c.face with masters := upd c.face.masters m f } }
/-- A master. -/
def mst (c : Chip) (m : Mid) : Master := c.face.masters[m]
/-- Set a sticky flag of OBJSTAT (Table 2-11). -/
def setFlag (c : Chip) (m : Mid) (i : Nat) : Chip :=
  updM c m (fun s => { s with flags := s.flags ||| (1#11 <<< i), flagsNow := s.flagsNow ||| (1#11 <<< i) })
/-- Drive D with a halfword. -/
def driveD (c : Chip) (d : Option Half) (w : Bool) : Chip := { c with face := { c.face with d := d, nwaitLow := w } }
/-- Halfword h of a word (R32). -/
def halfOf (w : Word) (h : Nat) : Half := (w >>> (16 * h)).truncate 16

/-- Permissions of Table 2-4. -/
inductive Perm where
  | any | claimed | warden | none
deriving DecidableEq, Repr

/-- Read permission of a register, by A[8:3] (Table 2-4). -/
def readPerm (r : Fin 64) : Perm :=
  let k := r.val
  if k ≤ 4 ∨ k = 15 ∨ k = 26 ∨ k = 44 ∨ k = 45 then .any
  else if 20 ≤ k ∧ k ≤ 23 ∨ k = 25 then .warden
  else .claimed

/-- Write permission of a register, by A[8:3] (Table 2-4); none: no writable field. -/
def writePerm (r : Fin 64) : Perm :=
  let k := r.val
  if k = 3 ∨ k = 15 ∨ k = 45 then .any
  else if k = 5 ∨ k = 6 ∨ k = 7 ∨ k = 8 ∨ k = 10 ∨ k = 12 ∨ k = 13 ∨ k = 14 ∨ k = 17 ∨ k = 18 ∨ k = 34 then .claimed
  else if k = 2 ∨ k = 19 ∨ k = 23 ∨ k = 25 ∨ k = 27 ∨ k = 28 ∨ k = 29 ∨ k = 30 ∨ k = 35 ∨ k = 46 ∨ k = 47 then .warden
  else .none

/-- A permission holds for a master acting as a client (Table 2-4). -/
def permits (p : Perm) (k : Option Client) : Bool :=
  match p with
  | .any => true
  | .claimed => k.isSome
  | .warden => k = some 0
  | .none => true

/-- Access codes of S008, S040, S044 and S045 captures with the Face offset (Table 17-2). [DEDUCED: log 20] -/
def faceEvent (c : Chip) (n : Nat) (m : Mid) (acc : Nat) (r : Fin 64) : Raise :=
  evAt c (srcN n) m.val acc 1 (8 * r.val) (mst c m).claim

/-- The Face offset of A[8:1], for S045 and S008. [DEDUCED: log 20] -/
def hwEvent (c : Chip) (n : Nat) (m : Mid) (acc : Nat) (r : Fin 64) (h : Nat) : Raise :=
  evAt c (srcN n) m.val acc 1 (8 * r.val + 2 * h) (mst c m).claim

/-- A protocol error or an unmapped offset (R33, R47): UNMAPPED is set and S045 counts. -/
def unmapped (c : Chip) (m : Mid) (acc : Nat) (r : Fin 64) (h : Nat) : Chip :=
  raiseR (setFlag c m 4) (hwEvent c 45 m acc r h)

/-- The offset holds a register (R46, R47). -/
def mapped (r : Fin 64) : Bool := r.val < 48

/-! ### The object window -/

/-- The byte address in OBJADDR (R64). -/
def objAddr (s : Master) : Nat := 8 * s.addr

/-- The wheel and Hopper regions are foreign on the FY6416-N (R3). -/
def foreignRegion (c : Chip) (a : Nat) : Bool := c.isN && (a / 0x1000000 = 2 || a / 0x1000000 = 3)

/-- Raise an object access refusal (R54): the flag and the source, with the object address. -/
def objRefuse (c : Chip) (m : Mid) (flag n acc a : Nat) : Chip :=
  raiseR (setFlag c m flag) (evAt c (srcN n) m.val acc 2 a (mst c m).claim)

/-- An uncorrectable retention error found outside replay (R113): the Weighbridge halts and S065 is raised. -/
def retUncorr (c : Chip) (r : Raise) : Chip := raiseR { c with wb := { c.wb with halted := true } } r

/-- A corrected single-bit error of a journal word (R110, R111): S064, and the second correction of the same word of a
location withdraws it, counting S066. -/
def retCorrected (c : Chip) (r : Raise) (loc : Option (Nat × Nat)) : Chip :=
  let c := raiseR c r
  match loc with
  | none => c
  | some p =>
    if c.wb.corrected.contains p then
      (if c.wb.withdrawn.contains p.1 then c
       else raiseR { c with wb := { c.wb with withdrawn := c.wb.withdrawn ++ [p.1] } }
         (evAt c 66 15 0 2 (0x08010000 + 0x40 * p.1) none))
    else { c with wb := { c.wb with corrected := c.wb.corrected ++ [p] } }

/-- The journal location and word of an object address (R111). -/
def journalWord (a : Nat) : Option (Nat × Nat) :=
  if 0x08010000 ≤ a ∧ a < 0x08020000 then some ((a - 0x08010000) / 0x40, (a - 0x08010000) % 0x40 / 8) else none

/-- The object word that a read of OBJDATA latches, as it stood in v, with the checks of R54 and R55; the effect is on c. -/
def objRead (v c : Chip) (m : Mid) (ecc : Ecc) : Chip × Word :=
  let s := mst c m
  let a := objAddr s
  if foreignRegion c a then (objRefuse c m 6 40 accRead a, 0)
  else match objInfo a with
    | none => (objRefuse c m 7 46 accRead a, 0)
    | some (k, o) =>
      match s.claim with
      | none => (c, 0)
      | some cl =>
        if !mayAccess v cl o false then (objRefuse c m 6 40 accRead a, 0)
        else match ecc with
          | .clean => (c, objValue v k s.view a)
          | .single => (retCorrected c (evAt c 64 m.val accRead 2 a (some cl)) (journalWord a), objValue v k s.view a)
          | .double => (retUncorr (setFlag c m 10) (evAt c 65 m.val accRead 2 a (some cl)), 0)

/-- A commit of OBJDATA: the fields of the word at OBJADDR (R16), with the checks of R54 and R56 to R58. [DEDUCED: log 23] -/
def objWrite (c : Chip) (m : Mid) (w : Word) : Chip :=
  let s := mst c m
  let a := objAddr s
  if foreignRegion c a then objRefuse c m 6 40 accCommit a
  else match objInfo a with
    | none => objRefuse c m 7 46 accCommit a
    | some (k, o) =>
      match s.claim with
      | none => c
      | some cl =>
        if !mayAccess c cl o true then objRefuse c m 6 40 accCommit a
        else if s.view then setFlag c m 9
        else match k with
          | .config => if isFrozen c a k o then setFlag c m 8 else { c with mem := c.mem.putStaged a (w &&& fields a) }
          | .live =>
            if o = .trim && c.face.trimlock then setFlag c m 9
            else if isFrozen c a k o then setFlag c m 8
            else writeLive c a w m cl
          | _ => setFlag c m 9

/-- Advance OBJADDR by one word (R52). -/
def objAdvance (c : Chip) (m : Mid) : Chip := updM c m (fun s => { s with addr := (s.addr + 1) % 2 ^ 29 })

/-! ### Halfword writes -/

/-- A write to halfword 0, 1 or 2 enters the write shadow (R41). -/
def shadowWrite (c : Chip) (m : Mid) (r : Fin 64) (h : Fin 3) (d : Half) : Chip :=
  let s := mst c m
  let other := s.wrTag.isSome && s.wrTag != some r
  let c := if other then setFlag c m 2 else c
  updM c m (fun s =>
    let s := if other then { s with wr0 := 0, wr1 := 0, wr2 := 0, wf0 := false, wf1 := false, wf2 := false } else s
    match h with
    | 0 => { s with wrTag := some r, wr0 := d, wf0 := true }
    | 1 => { s with wrTag := some r, wr1 := d, wf1 := true }
    | 2 => { s with wrTag := some r, wr2 := d, wf2 := true })

/-- The write shadow empties. -/
def emptyShadow (c : Chip) (m : Mid) : Chip :=
  updM c m (fun s => { s with
    wr0 := 0, wr1 := 0, wr2 := 0, wf0 := false, wf1 := false, wf2 := false, wrTag := none })

/-- The 64 bits that a commit with halfword 3 = d writes. -/
def shadowWord (s : Master) (d : Half) : Word := d ++ s.wr2 ++ s.wr1 ++ s.wr0

/-- All three lower halfwords of register r are in the shadow (R42). -/
def shadowReady (s : Master) (r : Fin 64) : Bool := s.wrTag = some r && s.wf0 && s.wf1 && s.wf2

end Sys2Proof.Machine
end

