-- ==== Sys2Proof/Machine/Clients.lean ====
section
/-! DEFINITION. Clients, claims and the ownership path (chapter 3), with the epoch and FACTORYRESET (R112, R140). -/

namespace Sys2Proof.Machine

/-! ### Claims -/

/-- A master's claim ends with a cause (R82, R75, R78): R79 and R45 apply, and the calendar stage is cleared when the
master held CL0 (R150). [DEDUCED: log 21] -/
def endClaim (c : Chip) (m : Mid) (cause : Nat) : Chip :=
  match (mst c m).claim with
  | none => c
  | some k =>
    let c := if k = 0 then { c with cal := { c.cal with stage := none } } else c
    updM c m (fun s => { clearMaster s with claim := none, endcause := cause })

/-- A lockout whose end value TICK has reached is over: FAILS and LOCKED clear (R81). -/
def lockoutOver (c : Chip) (m : Mid) : Chip :=
  if (mst c m).lockEnd.isSome && !lockedOut c (mst c m) then
    updM c m (fun s => { s with lockEnd := none, fails := 0 })
  else c

/-- The conditions of R77 on the client. -/
def claimOk (c : Chip) (m : Mid) (k : Client) (pass : BitVec 32) : Bool :=
  let p := c.own.prov[k]
  p.enabled && (p.passcode != 0 || k = 0) && p.passcode = pass && (!p.pinen || p.pinmid = m)

/-- A successful claim (R78). [DEDUCED: log 21] -/
def claimGrant (c : Chip) (m : Mid) (k : Client) : Chip :=
  if (mst c m).claim = some k then updM c m (fun s => { s with fails := 0, badlast := false })
  else
    let c := match holder c k with
      | some h => endClaim c h 1
      | none => c
    let c := endClaim c m 0
    let c := if k = 0 then { c with cal := { c.cal with stage := none } } else c
    updM c m (fun s => { clearMaster s with claim := some k, fails := 0, badlast := false })

/-- A failed claim (R80), and the lockout that the eighth begins (R81). -/
def claimFail (c : Chip) (m : Mid) : Chip :=
  let c := raiseR c (faceEvent c 32 m accCommit 3)
  let n := (mst c m).fails + 1
  let c := updM c m (fun s => { s with badlast := true, fails := n })
  if 8 ≤ n then
    raiseR (updM c m (fun s => { s with fails := 8, lockEnd := some (c.tick + secTicks) })) (faceEvent c 33 m accCommit 3)
  else c

/-- A commit of CLAIM (R77 to R82). -/
def commitClaim (c : Chip) (m : Mid) (w : Word) : Chip :=
  let op := fld w 37 36
  if op = 1 then
    let c := lockoutOver c m
    if lockedOut c (mst c m) then c
    else
      match fin? 16 (fld w 35 32) with
      | some k => if claimOk c m k (w.truncate 32) then claimGrant c m k else claimFail c m
      | none => c
  else if op = 2 then endClaim c m 0
  else c

/-- CLAIMCFG executes (R73, R75). -/
def claimCfg (c : Chip) (e : Entry) : Chip :=
  match fin? 16 (targetOf e - 0x100) with
  | none => c
  | some k =>
    let b := e.cmdb
    let old := c.own.prov[k]
    let pass : BitVec 32 := if bit b 44 then old.passcode else b.truncate 32
    if k = 0 ∧ (pass = 0 ∧ bit b 44 = false ∨ bit b 43 = false) then refuseLate c e 0x0018
    else
      let p : Prov := { enabled := bit b 43, passcode := pass, pinen := bit b 42, pinmid := ⟨fld b 41 40 % 4, by omega⟩ }
      let c := { c with own := { c.own with prov := upd c.own.prov k (fun _ => p) } }
      let c := match holder c k with
        | some m => if !p.enabled || (p.pinen && p.pinmid ≠ m) then endClaim c m 3 else c
        | none => c
      doneS c e

/-! ### The ownership map -/

/-- Change an ownership entry without a change of its state. -/
def updOwn (c : Chip) (i : ObjIx) (f : OwnEntry → OwnEntry) : Chip :=
  { c with own := { c.own with entries := upd c.own.entries i f } }

/-- A state change of an entry: OWNMAP.GEN increments and the entry takes it (Tables 3-10, 3-12). -/
def moveOwn (c : Chip) (i : ObjIx) (f : OwnEntry → OwnEntry) : Chip :=
  let g := wrapInc16 c.own.gen
  { c with own := { c.own with gen := g, entries := upd c.own.entries i (fun e => { f e with gen := g }) } }

/-- The commands that move an object along the ownership path: GRANT, RELEASE, SCRUB. -/
def isTransitOp (op : Nat) : Bool := op = 0x02 || op = 0x03 || op = 0x53

/-- A command has started on its object (R92): past a commit point, or past checkpoint 0. -/
def hasStarted (e : Entry) : Bool := e.commit || decide (0 < e.ckpt)

/-- A GRANT, RELEASE or SCRUB in progress on object i, which retires when the object is owned or free (R87, R88). -/
def isTransitKey (c : Chip) (i : ObjIx) (e : Entry) : Bool :=
  (ownE c i).nextBy = some (keyOf e) || (ownE c i).atFree.contains (keyOf e)

/-- An item that DRAINING of object i retires (R92): it belongs to another client than NEXT, or has started; the commands that act on
the transit, those of the warden and those in progress, are none. [DEDUCED: log 22] -/
def isDrainItem (c : Chip) (i : ObjIx) (e : Entry) : Bool :=
  targetOf e = i.val && e.state ≠ .retired &&
  (if isTransitOp (opcodeOf e) then e.client ≠ 0 && (ownE c i).next != some e.client && !isTransitKey c i e
   else (ownE c i).next != some e.client || hasStarted e)

/-- A running long operation that DRAINING waits for (R92). -/
def isRunningItem (c : Chip) (i : ObjIx) (e : Entry) : Bool :=
  isDrainItem c i e && e.kind = .l && e.state = .active

/-- Retire CANCELLED the drain items of object i that satisfy p, in sequence order, in tick t (R92). -/
def cancelItems (c : Chip) (i : ObjIx) (p : Entry → Bool) (t : Nat) : Chip :=
  (c.wb.entries.filter (fun e => isDrainItem c i e && p e)).foldl (fun c e =>
    retireAt (if e.kind = .l ∧ e.state = .suspended then keep c (cancelBlock c e) else c) (keyOf e) stCancelled 0x0003
      (if opcodeOf e = 0x30 then e.result else 0) t) c

/-- The entry enters DRAINING (R91, R92, R96): work of NEXT that was fetched but has not started returns to QUEUED, a suspended long
operation is retired at once, and the object's function stops. -/
def enterDraining (c : Chip) (i : ObjIx) (next : Option Client) (by_ : Option Key) (free : List Key) : Chip :=
  let c := moveOwn c i (fun e => { e with
    st := .draining, next := next, nextBy := by_, atFree := e.atFree ++ free, drainTick := c.tick })
  let c := { c with wb := { c.wb with entries := c.wb.entries.map (fun e =>
      if targetOf e = i.val && e.state = .active && !hasStarted e && !(isTransitOp (opcodeOf e) && e.client = 0) &&
          next = some e.client then
        { e with state := .queued } else e) } }
  let n := c.wb.entries.countP (isDrainItem c i)
  let c := cancelItems (updOwn c i (fun e => { e with drainN := n })) i (fun e => e.state = .suspended) c.tick
  keep c (drainBlock c i)

/-- The GRANT or SCRUB that had set NEXT is replaced (R88): a GRANT is retired CANCELLED, a SCRUB retires DONE when its scrub is
complete, which it is where the object is FREE. -/
def dropNextBy (c : Chip) (i : ObjIx) : Chip :=
  match (ownE c i).nextBy with
  | none => c
  | some k =>
    let c := updOwn c i (fun e => { e with nextBy := none })
    match findEntry c k with
    | none => c
    | some e =>
      if opcodeOf e = 0x02 then retire c k stCancelled 0x0004 0
      else if (ownE c i).st = .free then retire c k stDone 0 0
      else updOwn c i (fun o => { o with atFree := o.atFree ++ [k] })

/-- GRANT of object i to client k executes (R87, Table 3-2). Two rows of the table meet in a GRANT to the owner while that client is
disabled: it is refused. [DESIGN CHOICE: log 67] -/
def grantExec (c : Chip) (e : Entry) (i : ObjIx) (k : Client) : Chip :=
  let o := ownE c i
  let en := c.own.prov[k].enabled
  let done (c : Chip) : Chip := retire (commitD c e) (keyOf e) stDone 0 0
  match o.st with
  | .absent => refuseLate c e 0x0017
  | .free =>
    if en then done (moveOwn (dropNextBy c i) i (fun o => { o with st := .owned, owner := k, next := none, nextBy := none }))
    else refuseLate c e 0x0017
  | .owned =>
    if en then
      (if o.owner = k then done c else enterDraining (commitD c e) i (some k) (some (keyOf e)) [])
    else refuseLate c e 0x0017
  | _ =>
    if en then
      updOwn (dropNextBy (commitD c e) i) i (fun o => { o with next := some k, nextBy := some (keyOf e) })
    else refuseLate c e 0x0017

/-- The client may act on the transit of object i when its command's turn comes: the warden, or the owner (R89, R96). -/
def mayTransit (c : Chip) (e : Entry) (i : ObjIx) : Bool := e.client = 0 || ownerOf c i = some e.client

/-- RELEASE of object i executes (R87, R88, R96, Table 3-2). -/
def releaseExec (c : Chip) (e : Entry) (i : ObjIx) : Chip :=
  if mayTransit c e i = false then refuseLate c e 0x0013
  else match (ownE c i).st with
  | .absent => retire (commitD c e) (keyOf e) stDone 0 0
  | .free =>
    retire (updOwn (dropNextBy (commitD c e) i) i (fun o => { o with next := none })) (keyOf e) stDone 0 0
  | .owned => enterDraining (commitD c e) i none none [keyOf e]
  | _ => updOwn (dropNextBy (commitD c e) i) i (fun o => { o with next := none, atFree := o.atFree ++ [keyOf e] })

/-- The scrub length of an object (Table 3-1, R93). -/
def scrubLen (c : Chip) (i : ObjIx) : Nat :=
  match objOf i with
  | .ch _ | .wh _ | .lp _ => 4096
  | .out _ | .hsb _ | .ao _ | .enc _ => 256
  | .sat k => satHopLen (c.link.sats[k].hop.map (fun h => h.val + 1))

/-- The scrubber takes the next object of its queue when it is idle (R93). -/
def scrubNext (c : Chip) : Chip :=
  match c.own.scrubActive, c.own.scrubQueue with
  | none, i :: t => scrubStartBlock { c with own := { c.own with scrubActive := some i, scrubStart := c.tick, scrubQueue := t } } i
  | _, _ => c

/-- An object leaves DRAINING for SCRUBBING and joins the scrubber's queue (R93). -/
def enterScrubbing (c : Chip) (i : ObjIx) : Chip :=
  let c := moveOwn c i (fun o => { o with st := .scrubbing })
  scrubNext { c with own := { c.own with scrubQueue := c.own.scrubQueue ++ [i] } }

/-- Move the checkpoint of every SCRUB in progress on an object (R90): one that has not executed stands at checkpoint 0.
[DEDUCED: log 22] -/
def scrubCkpt (c : Chip) (i : ObjIx) (n : Nat) : Chip :=
  { c with wb := { c.wb with entries := c.wb.entries.map (fun e =>
      if opcodeOf e = 0x53 && targetOf e = i.val && e.state = .active && decide (0 < e.ckpt) then { e with ckpt := n } else e) } }

/-- SCRUB of object i executes (R87, R90, R96, Table 3-2): it runs as a long operation until its scrub is verified. -/
def scrubExec (c : Chip) (e : Entry) (i : ObjIx) : Chip :=
  let k := keyOf e
  if mayTransit c e i = false then refuseLate c e 0x0013
  else match (ownE c i).st with
  | .absent => retire c k stDone 0 0
  | .free =>
    let c := setCkpt c k 1
    scrubCkpt (enterScrubbing (updOwn (dropNextBy c i) i (fun o => { o with next := none, atFree := o.atFree ++ [k] })) i) i 2
  | .owned =>
    enterDraining (setCkpt c k 1) i (some (ownE c i).owner) (some k) []
  | .draining => updOwn (setCkpt c k 1) i (fun o => { o with atFree := o.atFree ++ [k] })
  | .scrubbing => updOwn (setCkpt c k 2) i (fun o => { o with atFree := o.atFree ++ [k] })

/-- The tick in which the items of a drain have been retired, a running long operation apart (R92). -/
def drainTime (c : Chip) (i : ObjIx) : Nat := (ownE c i).drainTick + 2 + 2 * (ownE c i).drainN

/-- DRAINING may end in this tick (R92). -/
def drainDue (c : Chip) (i : ObjIx) : Bool :=
  (ownE c i).st = .draining && decide (drainTime c i ≤ c.tick) && !(c.wb.entries.any (isRunningItem c i)) && serving c

/-- The pending items are retired CANCELLED in sequence order, and the object joins the scrubber's queue (R92, R93). -/
def drainEnd (c : Chip) (i : ObjIx) : Chip :=
  if drainDue c i then scrubCkpt (enterScrubbing (cancelItems c i (fun _ => true) c.tick) i) i 2 else c

/-- The items of every drain whose 2 + 2·n ticks have passed are retired, whether or not a long operation still runs (R92). -/
def drainItems (c : Chip) : Chip :=
  (allFin 88).foldl (fun (c : Chip) (i : Fin 88) =>
    if (ownE c i).st = .draining ∧ drainTime c i ≤ c.tick then
      cancelItems c i (fun e => !isRunningItem c i e) (drainTime c i)
    else c) c

/-- Retire DONE the commands that wait for the object to be FREE (R87, R88). -/
def retireList (c : Chip) (l : List Key) : Chip := l.foldl (fun c k => retire c k stDone 0 0) c

/-! ### Epoch and FACTORYRESET -/

/-- A new epoch (R112). [DEDUCED: log 49] -/
def newEpoch (c : Chip) : Chip :=
  let c := { c with wb := { c.wb with
    entries := [], epoch := wrapInc16 c.wb.epoch, halted := false, factory := none, factoryDirect := false,
    clients := c.wb.clients.map (fun (k : ClientWb) => { k with
      lastSeq := 0, lastTag := 0, lastAccSeq := 0, epochLost := true, now := k.now ||| 4#3, rec0 := 0, rec1 := 0, rec2 := 0, rec3 := 0,
      mismatch := false }) } }
  let c := { c with
    own := { c.own with entries := c.own.entries.map (fun (o : OwnEntry) => { o with nextBy := none, atFree := [] }) } }
  setLevelR (keep c (epochBlocks c)) 68 false (evN c 68)

/-- Provisioning after a cold start or FACTORYRESET (R72). -/
def provReset : Vector Prov 16 :=
  Vector.ofFn (fun k => { enabled := decide (k = 0), passcode := 0, pinen := false, pinmid := 0 })

/-- An ownership entry that is FREE with nothing held (R100). -/
def freeEntry (e : OwnEntry) : OwnEntry :=
  { e with
    st := if e.st = .absent then .absent else .free, owner := 0, next := none, nextBy := none, atFree := [],
    scrubFailed := false }

/-- FACTORYRESET completes (R100, R112, R140, R299, R487). [DEDUCED: log 49] -/
def factoryDone (c : Chip) : Chip :=
  let c := newEpoch c
  let c := { c with own := { c.own with
    prov := provReset, entries := c.own.entries.map freeEntry, mismatch := false, scrubQueue := [] } }
  let c := (allFin 4).foldl (fun c m => endClaim c m 3) c
  let c := keep c ((allFin 4).foldl (fun (c : Chip) (k : Fin 4) => if c.link.sats[k].bound then satRelease c k else c) c)
  let c := { c with mem := c.mem.zeroBlock 0x06000000 0x07000000 }
  let c := { c with flt := { c.flt with evtstat := Vector.replicate 16 0, evtmask := Vector.replicate 16 0 } }
  setLevelR c 35 false (evN c 35)

/-- The objects that FACTORYRESET still has to pass when it comes to the end of its list: those granted meanwhile, and those whose
scrub has not ended (R95, R100). -/
def factoryAgain (c : Chip) : List ObjIx := (allFin 88).filter (fun i => (ownE c i).st ≠ .free ∧ (ownE c i).st ≠ .absent)

/-- FACTORYRESET passes its objects through the scrubber in ascending map index (R140): the next one starts when the
scrubber is idle; an object in transit first finishes its own transit; ABSENT objects are skipped. It completes when every object
is scrubbed (R100): an object that is owned again by then passes again, and one whose scrub failed verification keeps it from
completing. [DEDUCED: log 49] -/
def factoryNext (c : Chip) : Chip :=
  match c.wb.factory with
  | none => c
  | some f =>
    if c.own.scrubActive.isSome || !c.own.scrubQueue.isEmpty then c
    else
      let l := f.rest.dropWhile (fun i => (ownE c i).st = .absent)
      let l := if l.isEmpty then factoryAgain c else l
      match l with
      | [] => factoryDone c
      | i :: t =>
        if inTransit c i then { c with wb := { c.wb with factory := some { rest := l } } }
        else
          let c := if (ownE c i).st = .owned then keep c (drainBlock c i) else c
          let c := moveOwn c i (fun o => { o with st := .scrubbing, next := none, nextBy := none })
          { c with
            wb := { c.wb with factory := some { rest := t } },
            own := { c.own with scrubActive := some i, scrubStart := c.tick } }

/-- FACTORYRESET starts (R140). -/
def factoryStart (c : Chip) : Chip :=
  factoryNext { c with wb := { c.wb with factory := some { rest := allFin 88 }, factoryDirect := false } }

/-- The scrub of the active object completes (R93, R87); fail names a nonzero word found by verification (R95). -/
def scrubComplete (c : Chip) (fail : Option Nat) : Chip :=
  match c.own.scrubActive with
  | none => c
  | some i =>
    if c.own.scrubStart + scrubLen c i ≤ c.tick ∧ serving c = true then
      let b := objBase (objOf i)
      let c := { c with
        mem := c.mem.zeroBlock b (b + objSpan (objOf i)), own := { c.own with scrubActive := none } }
      let c := { scrubBlock c i with mem := c.mem }
      match fail with
      | some a =>
        factoryNext (scrubNext (raiseR (updOwn c i (fun o => { o with scrubFailed := true }))
          (evAt c 34 9 accRead 2 a none)))
      | none =>
        let o := ownE c i
        let c := { c with own := { c.own with scrubCount := wrapInc16 c.own.scrubCount } }
        let c := moveOwn (scrubCkpt c i 3) i (fun o => { o with
          st := .free, atFree := [], freeTick := c.tick, owner := 0, scrubFailed := false })
        factoryNext (scrubNext (retireList c o.atFree))
    else c

/-- An object FREE for one tick with NEXT set passes to that client (R87, Table 3-2). -/
def takeover (c : Chip) (i : ObjIx) : Chip :=
  let o := ownE c i
  match o.st, o.next with
  | .free, some k =>
    if o.freeTick < c.tick ∧ serving c = true then
      let c := moveOwn c i (fun o => { o with st := .owned, owner := k, next := none, nextBy := none })
      factoryNext (match o.nextBy with
        | some b => retire c b stDone 0 0
        | none => c)
    else c
  | _, _ => c

/-- The copies of the ownership map disagree (R86): S035 asserts with the address of the first mismatching entry. -/
def ownershipMismatch (c : Chip) (a : Nat) : Chip :=
  let c := { c with own := { c.own with mismatch := true } }
  setLevelR c 35 true (evAt c 35 15 0 2 a none)

end Sys2Proof.Machine
end

