-- ==== Sys2Proof/Machine/Opcodes.lean ====
section
/-! DEFINITION. The opcode table (Table 4-10): lane, kind, submitter and target of every opcode. -/

namespace Sys2Proof.Machine

/-- The Submitter column of Table 4-10. -/
inductive Submitter where
  | anyClient | warden | owner | ownerOrWarden | applies | clientOrWarden
deriving DecidableEq, Repr

/-- The Target column of Table 4-10. -/
inductive TKind where
  | chip | client | source | ownable | ownableExcRouter | ownableNotSat | channel | loop | wheel | chLp | out | ao | sat
deriving DecidableEq, Repr

/-- One row of Table 4-10. -/
structure OpInfo where
  ctrl : Bool
  kind : Kind
  sub : Submitter
  tgt : TKind
deriving DecidableEq, Repr

/-- The row of an opcode; none for an opcode that the table does not hold. -/
def opInfo (op : Nat) : Option OpInfo :=
  match op with
  | 0x01 => some ⟨false, .s, .anyClient, .chip⟩
  | 0x02 => some ⟨false, .d, .warden, .ownable⟩
  | 0x03 => some ⟨false, .d, .ownerOrWarden, .ownable⟩
  | 0x04 => some ⟨false, .s, .applies, .ownableExcRouter⟩
  | 0x05 => some ⟨false, .s, .warden, .client⟩
  | 0x06 => some ⟨false, .s, .warden, .source⟩
  | 0x07 => some ⟨true, .s, .warden, .chip⟩
  | 0x08 => some ⟨false, .s, .warden, .chip⟩
  | 0x09 => some ⟨false, .s, .warden, .chip⟩
  | 0x0A => some ⟨true, .s, .warden, .chip⟩
  | 0x0B => some ⟨true, .s, .warden, .chip⟩
  | 0x10 => some ⟨false, .l, .owner, .channel⟩
  | 0x11 => some ⟨false, .l, .owner, .channel⟩
  | 0x12 => some ⟨false, .l, .owner, .loop⟩
  | 0x13 => some ⟨false, .l, .owner, .wheel⟩
  | 0x20 => some ⟨false, .s, .owner, .ownableNotSat⟩
  | 0x21 => some ⟨false, .s, .owner, .ownableNotSat⟩
  | 0x22 => some ⟨false, .s, .owner, .chLp⟩
  | 0x23 => some ⟨false, .s, .owner, .loop⟩
  | 0x24 => some ⟨false, .s, .owner, .loop⟩
  | 0x30 => some ⟨false, .d, .owner, .out⟩
  | 0x31 => some ⟨false, .s, .owner, .out⟩
  | 0x40 => some ⟨true, .d, .clientOrWarden, .chip⟩
  | 0x41 => some ⟨true, .s, .clientOrWarden, .chip⟩
  | 0x42 => some ⟨true, .d, .clientOrWarden, .chip⟩
  | 0x50 => some ⟨false, .l, .warden, .chip⟩
  | 0x51 => some ⟨false, .s, .warden, .chip⟩
  | 0x52 => some ⟨false, .l, .owner, .ao⟩
  | 0x53 => some ⟨false, .l, .ownerOrWarden, .ownable⟩
  | 0x54 => some ⟨false, .l, .warden, .chip⟩
  | 0x60 => some ⟨false, .s, .warden, .sat⟩
  | 0x61 => some ⟨false, .s, .warden, .sat⟩
  | _ => none

/-- A target number is of a kind (Table 4-1). -/
def targetOk (k : TKind) (t : Nat) : Bool :=
  match k with
  | .chip => t = 0x800
  | .client => decide (0x100 ≤ t ∧ t < 0x110)
  | .source => decide (0x400 ≤ t ∧ t < 0x600)
  | .ownable => decide (t < 88)
  | .ownableExcRouter => decide (t < 88 ∨ 0x200 ≤ t ∧ t < 0x204 ∨ t = 0x300)
  | .ownableNotSat => decide (t < 84)
  | .channel => decide (t < 16)
  | .loop => decide (52 ≤ t ∧ t < 68)
  | .wheel => decide (16 ≤ t ∧ t < 20)
  | .chLp => decide (t < 16 ∨ 52 ≤ t ∧ t < 68)
  | .out => decide (20 ≤ t ∧ t < 44)
  | .ao => decide (68 ≤ t ∧ t < 76)
  | .sat => decide (84 ≤ t ∧ t < 88)

/-- The commands that the FY6416-N lacks (R4): those on a WH, OUT or HSB object, and LEARNTEETH, EVENTPOST, EVENTCANCEL. -/
def lackedByN (op t : Nat) : Bool :=
  op = 0x13 || op = 0x30 || op = 0x31 || decide (16 ≤ t ∧ t < 52)

/-- A submitter is permitted (Table 4-10, R89, R96, R132). -/
def submitterOk (c : Chip) (s : Submitter) (k : Client) (t : Nat) (b : Word) : Bool :=
  let owns : Bool := (match fin? 88 t with | some i => actingOwner c i = some k | none => false)
  match s with
  | .anyClient => true
  | .warden => k = 0
  | .owner => owns
  | .ownerOrWarden => owns || k = 0
  | .applies => if t < 88 then owns else k = 0
  | .clientOrWarden => k = 0 || fld b 35 32 = k.val

end Sys2Proof.Machine
end

