-- ==== Sys2Proof/Machine/Weighbridge.lean ====
section
/-! DEFINITION. The Weighbridge (chapter 4): acceptance, fetch and order, checkpoints, control commands, completion. -/

namespace Sys2Proof.Machine

/-! ### Acceptance -/

/-- The next sequence number of a client (R108). -/
def nextSeq (n : Nat) : Nat := if n = 4294967295 then 1 else n + 1

/-- A master's CMDSUBMIT while the decision is outstanding: PENDING (Table 4-14). -/
def pendingWord : Word := pack [(61, 1, 1)]

/-- The outcome of a submission in CMDSUBMIT, unless the master's client changed since its commit (R104). -/
def writeSubmit (c : Chip) (a : Ask) (w : Word) : Chip :=
  if (mst c a.master).claim = some a.client ∧ (mst c a.master).submit = pendingWord then
    updM c a.master (fun s => { s with submit := w })
  else c

/-- A refusal (R107). -/
def refuseSubmit (c : Chip) (a : Ask) (reason : Nat) : Chip :=
  let c := writeSubmit c a (pack [(62, 1, 1), (52, 4, reason)])
  let c := { c with wb := { c.wb with clients := upd c.wb.clients a.client (fun v => { v with
    lastReason := reason, refused := true, refCount := satInc16 v.refCount, now := v.now ||| 2#3, refNow := v.refNow + 1 }) } }
  if reason = 4 then raiseR c (evAt c 67 a.master.val accCommit 1 0x40 (some a.client)) else c

/-- The journal location that a command takes: which free one is a free value of the model. [DESIGN CHOICE: log 6] -/
def chooseLoc (c : Chip) : Nat × Chip :=
  let l := freeLocs c
  (l.getD (Config.journalPlace c.wb.placeN % l.length) 0, { c with wb := { c.wb with placeN := c.wb.placeN + 1 } })

/-- The journal entry of an accepted command at location l with number n (R106, Table 4-18). -/
def newEntry (c : Chip) (a : Ask) (o : OpInfo) (l n : Nat) : Entry :=
  { loc := l, client := a.client, seq := n, state := .queued, ctrl := o.ctrl, kind := o.kind, commit := false,
    started := false, mark := .none, marker := none, resumed := false, redo := false, ckpt := 0, cause := .linkhold, status := 0,
    detail := 0, recovered := false, cmda := a.cmda, cmdb := a.cmdb, cmdc := a.cmdc, hosttag := a.w.truncate 32,
    acceptTick := c.tick, fetchTick := 0, commitTick := 0, ckTick := 0, holdTick := 0, holdLen := 0, result := 0, retireTick := 0 }

/-- An accepted command (R106): its sequence number, its journal entry and the reports of both. -/
def acceptSubmit (c : Chip) (a : Ask) (o : OpInfo) : Chip :=
  let n := nextSeq c.wb.clients[a.client].lastSeq
  let p := chooseLoc c
  let c := p.2
  let c := { c with wb := { c.wb with
    entries := c.wb.entries ++ [newEntry c a o p.1 n],
    clients := upd c.wb.clients a.client (fun v => { v with lastSeq := n, lastAccSeq := n, lastTag := a.w.truncate 32 }) } }
  writeSubmit c a (pack [(63, 1, 1), (60, 1, b2n o.ctrl), (32, 16, c.wb.epoch), (0, 32, n)])

/-- The reason with which a submission is refused, 0 if it is accepted (Table 4-2); args is the argument check of the
command's chapter. -/
def submitReason (c : Chip) (a : Ask) (args : Bool) : Nat :=
  let k := a.client
  let op := fld a.cmda 63 56
  let t := fld a.cmda 47 32
  if c.wb.halted || (c.wb.clients[k].mismatch && op ≠ 0x0A) then 5
  else match opInfo op with
    | none => 1
    | some o =>
      if (c.isN && lackedByN op t) || fld a.cmda 55 48 ≠ 0 || fld a.cmda 31 0 ≠ 0 || fld a.w 63 32 ≠ 0 ||
          !targetOk o.tgt t || !args || (c.pw.state = .minconfig && op ≠ 0x50) then 1
      else if !submitterOk c o.sub k t a.cmdb then 2
      else if c.wb.clients[k].mismatch then 0
      else if (if o.ctrl then decide (4 ≤ heldControl c k) else decide (64 ≤ heldNormal c k)) then 3
      else if (freeLocs c).isEmpty then 4
      else 0

/-- A commit of CMDSUBMIT (R102, R104, R105, Table 1-2): the command is captured, and PENDING stands until the decision, which
CMDSUBMIT and CMDSTAT show 1 to 8 ticks after the commit; how late it comes is a free value. [DESIGN CHOICE: log 19] -/
def submit (c : Chip) (m : Mid) (k : Client) (w : Word) : Chip :=
  let p := drawFree c
  let s := mst c m
  let a : Ask := { master := m, client := k, cmda := s.cmda, cmdb := s.cmdb, cmdc := s.cmdc, w := w,
                   due := c.tick + Config.freeValue p.1 % 8 }
  updM { p.2 with wb := { c.wb with asks := c.wb.asks ++ [a] } } m (fun s => { s with submit := pendingWord })

/-- The decision of a submission (R105 to R107). FACTORYRESET of a client whose counters disagree is accepted without a number
or an entry (R114). -/
def decideAsk (c : Chip) (a : Ask) (args : Bool) : Chip :=
  let r := submitReason c a args
  if r ≠ 0 then refuseSubmit c a r
  else match opInfo (fld a.cmda 63 56) with
    | none => c
    | some o =>
      if c.wb.clients[a.client].mismatch then
        writeSubmit { c with wb := { c.wb with factoryDirect := true } } a (pack [(63, 1, 1), (60, 1, 1), (32, 16, c.wb.epoch)])
      else acceptSubmit c a o

/-! ### Order and fetch -/

/-- Two commands name the same object (R116); the chip is one object. -/
def sameTarget (a b : Entry) : Bool := targetOf a = targetOf b

/-- R116: a long operation of the same client and lane holds a command that names its object; a long operation waits for
a command of its client in progress on its object; nothing overtakes a command on its object that was fetched and is held before
its commit point (R27). [DEDUCED: log 23] -/
def blockedByOrder (c : Chip) (e : Entry) : Bool :=
  c.wb.entries.any (fun x => x.client = e.client && x.ctrl = e.ctrl && keyOf x ≠ keyOf e && sameTarget x e &&
    ((x.kind = .l && (x.state = .active || x.state = .suspended)) || (x.kind ≠ .l && x.state = .active && !x.commit) ||
     (e.kind = .l && (x.state = .active || x.state = .waiting))))

/-- R96: a command of the NEXT client is held while its object is in transit; the warden's GRANT, RELEASE and SCRUB act
on the transit itself. -/
def heldByTransit (c : Chip) (e : Entry) : Bool :=
  match targetObj e with
  | none => false
  | some i =>
    inTransit c i && (ownE c i).next = some e.client && !(e.client = 0 && isTransitOp (opcodeOf e))

/-- A head is eligible (R116, R117, R118): nothing of Table 4-3 holds it back, so no normal head is while Benched and none
while the Weighbridge is halted. -/
def eligible (c : Chip) (e : Entry) : Bool :=
  (e.ctrl || !benched c) && !c.wb.halted && decide (e.acceptTick + 6 ≤ c.tick) && !blockedByOrder c e && !heldByTransit c e &&
  (!(e.kind = .l && opcodeOf e ≠ 0x53) || decide (slotsUsed c < 4))

/-- The head of a lane: its lowest-numbered command that has not started. -/
def laneHead (c : Chip) (k : Client) (ctrl : Bool) : Option Entry :=
  c.wb.entries.find? (fun e => e.client = k && e.ctrl = ctrl && e.state = .queued)

/-- The clients in the order of R117 that begins after p. -/
def clientOrder (p : Client) : List Client := (allFin 16).map (fun i => p + 1 + i)

/-- The eligible head of the first client after a pointer (R117). -/
def pickHead (c : Chip) (p : Client) (ctrl : Bool) : Option Entry :=
  (clientOrder p).findSome? (fun k =>
    match laneHead c k ctrl with
    | some e => if eligible c e then some e else none
    | none => none)

/-- The executor may fetch in this tick (R117, R119, R120). -/
def mayFetch (c : Chip) : Bool :=
  serving c && !c.wb.halted && !c.pw.sleepPending &&
  (match c.wb.lastFetch with | some t => decide (t + 64 ≤ c.tick) | none => true)

/-- The command that the executor fetches (R117): control lanes first; no normal lane while Benched (Table 4-3). -/
def pick (c : Chip) : Option Entry :=
  match pickHead c c.wb.ctlptr true with
  | some e => some e
  | none => pickHead c c.wb.normptr false

/-- Fetch one command (R117). -/
def fetchEntry (c : Chip) (e : Entry) : Chip :=
  let c := { c with wb := { c.wb with
    lastFetch := some c.tick,
    ctlptr := if e.ctrl then e.client else c.wb.ctlptr,
    normptr := if e.ctrl then c.wb.normptr else e.client } }
  let c := updEntry c (keyOf e) (fun e => { e with state := .active, fetchTick := c.tick, ckTick := c.tick })
  if e.kind = .l && needsAbsentSat c e then linkHold c e else c

/-- COMMAND_FETCH (R117), with what the read of the entry's word w finds (R110, R113). [DESIGN CHOICE: log 47] -/
def commandFetch (c : Chip) (ecc : Ecc) (w : Fin 8) : Chip :=
  let c := retireDue c
  if mayFetch c then
    match pick c with
    | none => c
    | some e =>
      let a := 0x08010000 + 0x40 * e.loc + 8 * w.val
      match ecc with
      | .clean => fetchEntry c e
      | .single => fetchEntry (retCorrected c (evAt c 64 5 5 2 a (some e.client)) (some (e.loc, w.val))) e
      | .double => retUncorr c (evAt c 65 5 5 2 a (some e.client))
  else c

/-! ### Execution -/

/-- A command on an object whose block is being reset waits for the end of that reset (R475); a transit does not.
[DEDUCED: log 48] -/
def inBlockReset (c : Chip) (e : Entry) : Bool :=
  match targetObj e with
  | some i => inReset c (.obj i) && !isTransitOp (opcodeOf e)
  | none => false

/-- A fetched command does not start: its block is being reset (R475); it is a GRANT, RELEASE or SCRUB and the part is Benched
(R99); or the copies of the ownership map disagree and it would change the map (R86). -/
def execHeld (c : Chip) (e : Entry) : Bool :=
  inBlockReset c e || (isTransitOp (opcodeOf e) && benched c) ||
  ((isTransitOp (opcodeOf e) || opcodeOf e = 0x05) && c.own.mismatch)

/-- The least number of ticks from a command's fetch to its commit point (R115): EVENTPOST's insertion completes 1 to 40 ticks
after it (R347), and Table 4-3 may refuse AUTOTUNE and LEARNTEETH at their checkpoint 0, the fetch. [DEDUCED: log 55] -/
def commitDelay (op : Nat) : Nat := if op = 0x30 then 1 else if op = 0x12 ∨ op = 0x13 then 0 else 4

/-- The greatest number of ticks from the fetch of an S or D command to its commit point (R115, R347). -/
def commitLatest (op : Nat) : Nat := if op = 0x30 then 40 else 4

/-- The fetched command of an opcode whose turn it is: ACTIVE, not committed, at checkpoint 0, at its commit point (R115), and
not held. [DESIGN CHOICE: log 24; DEDUCED: log 55] -/
def findExec (c : Chip) (op : Nat) (p : Entry → Bool) : Option Entry :=
  if serving c then
    c.wb.entries.find? (fun e => opcodeOf e = op && e.state = .active && !e.commit && e.ckpt = 0 &&
      decide (e.fetchTick + commitDelay op ≤ c.tick) && !execHeld c e && p e)
  else none

/-- Execute the fetched command of an opcode; without one nothing happens. [DESIGN CHOICE: log 24] -/
def execOp (c : Chip) (op : Nat) (p : Entry → Bool) (body : Chip → Entry → Chip) : Chip :=
  match findExec c op p with
  | some e => body c e
  | none => c

/-- Execute a command that its target's owner submitted: one whose NEXT changed away is retired REFUSED_LATE (R96).
[DEDUCED: log 22; DESIGN CHOICE: log 24] -/
def execOwned (c : Chip) (op : Nat) (p : Entry → Bool) (body : Chip → Entry → ObjIx → Chip) : Chip :=
  execOp c op p (fun c e =>
    match targetObj e with
    | none => c
    | some i => if ownerOf c i = some e.client then body c e i else refuseLate c e 0x0013)

/-- ENABLE, EVENTPOST, AUTOTUNE and LEARNTEETH are not allowed in CONFIG (Table 4-3). [DEDUCED: log 25] -/
def notInConfig (c : Chip) (e : Entry) (k : Chip) : Chip := if inConfig c then refuseLate c e 0x0012 else k

/-! ### Control commands -/

/-- The target of a control command (R132). -/
def ctrlKey (e : Entry) : Option Key :=
  (fin? 16 (fld e.cmdb 35 32)).map (fun k => ⟨k, fld e.cmdb 31 0⟩)

/-- The outstanding target of a control command. [DEDUCED: log 23] -/
def ctrlTarget (c : Chip) (e : Entry) : Option Entry := (ctrlKey e).bind (findEntry c)

/-- A control command ends at once with a status and detail. -/
def ctrlEnd (c : Chip) (e t : Entry) (status detail : Nat) : Chip :=
  if e.kind = .d then retire (commitD c e) (keyOf e) status detail (ctrlResult t)
  else commitS c e status detail (ctrlResult t)

/-- A control command refused late. -/
def ctrlRefuse (c : Chip) (e t : Entry) (detail : Nat) : Chip := retire c (keyOf e) stRefused detail (ctrlResult t)

/-- Place a mark on an ACTIVE target: the control command waits for its next checkpoint (R133). -/
def placeMark (c : Chip) (e t : Entry) (m : Mark) : Chip :=
  updEntry (commitD c e) (keyOf t) (fun x => { x with mark := m, marker := some (keyOf e) })

/-- SUSPEND (Table 4-6, R134). -/
def suspendExec (c : Chip) (e : Entry) : Chip :=
  match ctrlTarget c e with
  | none => refuseLate c e 0x0014
  | some t =>
    if t.state = .retired then ctrlRefuse c e t 0x0014
    else if t.ctrl || t.kind ≠ .l then ctrlRefuse c e t 0x0015
    else if t.mark ≠ .none then ctrlRefuse c e t 0x0015
    else match t.state with
      | .queued => ctrlEnd (updEntry c (keyOf t) (fun x => { x with state := .suspended, cause := .suspend })) e t stDone 0
      | .active => if opcodeOf t = 0x53 then ctrlRefuse c e t 0x0016 else placeMark c e t .suspend
      | .suspended =>
        if t.cause = .bench ∨ t.cause = .sleep then
          ctrlEnd (updEntry c (keyOf t) (fun x => { x with cause := .suspend, resumed := false })) e t stDone 0
        else ctrlRefuse c e t 0x0015
      | _ => ctrlRefuse c e t 0x0015

/-- RESUME (Table 4-6). -/
def resumeExec (c : Chip) (e : Entry) : Chip :=
  match ctrlTarget c e with
  | none => refuseLate c e 0x0014
  | some t =>
    if t.state = .retired then ctrlRefuse c e t 0x0014
    else if t.kind = .l ∧ t.ctrl = false ∧ t.state = .suspended ∧ t.cause = .suspend ∧ t.mark = .none then
      ctrlEnd (updEntry c (keyOf t) (fun x =>
        if benched c then { x with cause := .bench } else { x with resumed := true, mark := .resume })) e t stDone 0
    else ctrlRefuse c e t 0x0015

/-- The SUSPEND whose pending mark a CANCEL replaces is retired REFUSED_LATE (R134). -/
def dropMarker (c : Chip) (t : Entry) : Chip :=
  match t.marker with
  | some k => updEntry (retireOne c k stRefused 0x0015 (ctrlResult t) c.tick) (keyOf t) (fun x => { x with mark := .none, marker := none })
  | none => c

/-- CANCEL (Table 4-6, R134, R90, R305). -/
def cancelExec (c : Chip) (e : Entry) : Chip :=
  match ctrlTarget c e with
  | none => refuseLate c e 0x0014
  | some t =>
    let atOnce (c : Chip) : Chip := ctrlEnd (retire c (keyOf t) stCancelled (cancelDetail e.client t) 0) e t stDone 0
    if t.state = .retired then ctrlRefuse c e t 0x0014
    else if t.ctrl then ctrlRefuse c e t 0x0015
    else if t.state = .queued then atOnce c
    else if t.kind = .l then
      if t.state = .active then
        if opcodeOf t = 0x53 then ctrlRefuse c e t 0x0016
        else match t.mark with
          | .none => placeMark c e t .cancel
          | .suspend => placeMark (dropMarker c t) e t .cancel
          | _ => ctrlRefuse c e t 0x0015
      else match t.mark with
        | .none => atOnce (cancelBlock c t)
        | .suspend => atOnce (cancelBlock (dropMarker c t) t)
        | _ => ctrlRefuse c e t 0x0015
    else if opcodeOf t = 0x30 ∧ t.state = .waiting ∧ t.started = false then
      (if isPending c (keyOf t) then atOnce (dropPending c (keyOf t)) else ctrlRefuse c e t 0x0014)
    else ctrlRefuse c e t 0x0015

/-! ### Checkpoints -/

/-- Apply the outcome of a step of a long operation (R123). -/
def applyLStep (c : Chip) (k : Key) (s : LStep) : Chip :=
  match s with
  | .none => c
  | .pass n => checkpointActs (updEntry c k (fun e => { e with ckpt := n, ckTick := c.tick, redo := false })) k
  | .final n st d r => retire (setCkpt c k n) k st d r

/-- Ticks of a SELFTEST's next step (Table 16-9): a part that is not selected takes one. [DESIGN CHOICE: log 45] -/
def selftestTicks (e : Entry) : Nat :=
  let part (i n : Nat) : Nat := if bit e.cmdb i then n else 1
  match e.ckpt with
  | 1 => part 0 (64 * (fld e.cmdc 40 32 - fld e.cmdc 8 0 + 1))
  | 2 => part 1 4096
  | 3 => if bit e.cmdb 2 then 0 else 1
  | 4 => part 3 1024
  | _ => 1024

/-- The least number of ticks from a long operation's last checkpoint to its next (Tables 7-2, 7-4, 11-5, 14-4, 15-4,
16-9); a time that a table only bounds from above may be shorter. [DESIGN CHOICE: log 45] -/
def ckptTicks (c : Chip) (e : Entry) : Nat :=
  match opcodeOf e with
  | 0x10 | 0x11 => (match fin? 16 (targetOf e) with | some n => feCkptTicks c e n | none => 0)
  | 0x12 => tuneTicks e
  | 0x13 => learnTicks e
  | 0x52 => spanTicks e
  | 0x54 => selftestTicks e
  | _ => 0

/-- A long operation's next checkpoint is due. [DESIGN CHOICE: log 45] -/
def ckptDue (c : Chip) (e : Entry) : Bool := decide (e.ckTick + ckptTicks c e ≤ c.tick) && !inBlockReset c e

/-- A long operation reaches a checkpoint (R123); one whose object is DRAINING is cancelled there (R92). -/
def longCheckpoint (c : Chip) (k : Key) (step : Chip → Entry → Chip × LStep) : Chip :=
  match findEntry c k with
  | none => c
  | some e =>
    if e.kind = .l ∧ e.state = .active ∧ 0 < e.ckpt ∧ opcodeOf e ≠ 0x53 ∧ serving c = true ∧ ckptDue c e = true then
      match targetObj e with
      | some i =>
        if (ownE c i).st = .draining ∧ isDrainItem c i e = true then
          cancelBlock (retire c k stCancelled 0x0003 0) e
        else let p := step c e; applyLStep p.1 k p.2
      | none => let p := step c e; applyLStep p.1 k p.2
    else c

/-- AUTOTUNE and LEARNTEETH are refused in CONFIG at their execution (Table 4-3). -/
def longBarred (c : Chip) (e : Entry) : Bool := inConfig c && decide (e.ckpt = 0) && decide (opcodeOf e = 0x12 ∨ opcodeOf e = 0x13)

/-- The first step of a long operation on an ownable object, to its checkpoint 1. [DESIGN CHOICE: log 24] -/
def execLong (c : Chip) (op : Nat) (p : Entry → Bool) (step : Chip → Entry → ObjIx → Chip × LStep) : Chip :=
  execOp c op (fun e => p e && (ckptDue c e || longBarred c e)) (fun c e =>
    match targetObj e with
    | none => c
    | some i =>
      if longBarred c e then refuseLate c e 0x0012
      else if (ownE c i).st = .draining ∧ isDrainItem c i e = true then retire c (keyOf e) stCancelled 0x0003 0
      else if ownerOf c i = some e.client then let r := step c e i; applyLStep r.1 (keyOf e) r.2
      else refuseLate c e 0x0013)

/-- The first step of a long operation on the chip. -/
def execLongChip (c : Chip) (op : Nat) (p : Entry → Bool) (step : Chip → Entry → Chip × LStep) : Chip :=
  execOp c op (fun e => p e && ckptDue c e) (fun c e => let r := step c e; applyLStep r.1 (keyOf e) r.2)

/-- Resume every long operation suspended for a cause (R120, R121). -/
def resumeCause (c : Chip) (z : Cause) : Chip :=
  { c with wb := { c.wb with entries := c.wb.entries.map (fun e =>
      if e.kind = .l ∧ e.state = .suspended ∧ e.cause = z then { e with resumed := true } else e) } }

/-! ### Completion -/

/-- What a read of COMPLETION halfword 0 latches (R125). -/
def completionWord (c : Chip) (k : Client) : Word :=
  match clientHead c k with
  | none => 0
  | some e =>
    let more := c.wb.entries.any (fun x => x.client = k && x.state = .retired && keyOf x ≠ keyOf e)
    if e.state = .retired then recWord0 e more else pack [(62, 1, b2n more), (0, 32, e.seq)]

/-- The end of a halfword 0 access that latched a record of v (R126): the entry is freed and LASTREC takes the record. -/
def completionEnd (v c : Chip) (k : Client) : Chip :=
  match clientHead v k with
  | none => c
  | some e =>
    if e.state = .retired ∧ (findEntry c (keyOf e)).isSome = true then
      let w := completionWord v k
      { c with wb := { c.wb with
          entries := c.wb.entries.filter (fun x => keyOf x ≠ keyOf e),
          clients := upd c.wb.clients k (fun v => { v with
            rec0 := w, rec1 := w64 e.retireTick, rec2 := e.result,
            rec3 := pack [(32, 16, c.wb.epoch), (0, 32, e.hosttag.toNat)] }) } }
    else c

/-- A read of COMPLETION halfword 0 (R125, R126), with what the read of word w of the entry finds (R55, R110, R113): an
uncorrectable error returns zero and removes nothing. [DESIGN CHOICE: log 47] -/
def completionRead (v c : Chip) (m : Mid) (k : Client) (ecc : Ecc) (w : Fin 8) : Chip × Word :=
  match clientHead v k with
  | none => (c, 0)
  | some e =>
    let a := 0x08010000 + 0x40 * e.loc + 8 * w.val
    match ecc with
    | .clean => (completionEnd v c k, completionWord v k)
    | .single => (completionEnd v (retCorrected c (evAt c 64 m.val accRead 2 a (some k)) (some (e.loc, w.val))) k, completionWord v k)
    | .double => (retUncorr (setFlag c m 10) (evAt c 65 m.val accRead 2 a (some k)), 0)

/-- CMDSTAT of a client (Table 4-15). -/
def cmdstatWord (c : Chip) (k : Client) : Word :=
  let v := c.wb.clients[k]
  let blocked := (match laneHead c k false with
    | some e => !eligible c e
    | none => false)
  pack [(63, 1, b2n v.epochLost), (62, 1, b2n v.refused), (61, 1, b2n v.recovered), (60, 1, b2n (benched c)),
    (59, 1, b2n blocked), (52, 4, v.lastReason), (32, 16, v.refCount), (0, 11, jfree c)]

/-- The duplicated counters of a client disagree (R114): S068 asserts. -/
def counterMismatch (c : Chip) (k : Client) : Chip :=
  let c := { c with wb := { c.wb with clients := upd c.wb.clients k (fun v => { v with mismatch := true }) } }
  setLevelR c 68 true (evAt c 68 15 0 2 (0x08000000 + 0x40 * k.val) none)

end Sys2Proof.Machine
end

