-- ==== Sys2Proof/Machine/Images.lean ====
section
/-! DEFINITION. Firmware slots and images (chapter 6): the slot checks, selection, host version, anti-rollback, staging. -/

namespace Sys2Proof.Machine

/-! ### CRC-32C (R186) -/

/-- One bit of CRC-32C, reflected form. -/
def crcBit (c : Nat) : Nat := if c % 2 = 1 then (c / 2) ^^^ 0x82F63B78 else c / 2

/-- One byte of CRC-32C. -/
def crcByte (c b : Nat) : Nat :=
  let x := c ^^^ b
  crcBit (crcBit (crcBit (crcBit (crcBit (crcBit (crcBit (crcBit x)))))))

/-- The eight bytes of a little-endian word. -/
def crcWord (c : Nat) (w : Word) : Nat :=
  (List.range 8).foldl (fun c i => crcByte c (w.toNat >>> (8 * i) % 256)) c

/-- CRC-32C of words (R186). -/
def crc32c (l : List Word) : Nat := (l.foldl crcWord 0xFFFFFFFF) ^^^ 0xFFFFFFFF

/-! ### Slot checks -/

/-- LENGTH of an image in bytes (Table 6-8). -/
def imgLength (s : Slot) : Nat := fld (slotWord s 2) 16 0

/-- The words that an image's CRC covers (Table 6-8). -/
def imgWords (s : Slot) : List Word :=
  (List.range 7).map (slotWord s) ++ (List.range (imgLength s / 8 - 8)).map (fun i => slotWord s (i + 8))

/-- Checks 1 to 5 of Table 6-9 on a slot's content: the FAIL code of the first that fails, 0 if all pass. -/
def imageFail (s : Slot) (ctr : Nat) : Nat :=
  let len := imgLength s
  let roll := fld (slotWord s 6) 6 0
  if s.readErr then 6
  else if slotWord s 0 ≠ 0x4F565552494D4731 ∨ len < 64 ∨ 65536 < len ∨ len % 8 ≠ 0 ∨ 64 < roll ∨
      fld (slotWord s 1) 63 32 ≠ 0 ∨ fld (slotWord s 2) 63 17 ≠ 0 ∨ fld (slotWord s 6) 63 7 ≠ 0 ∨
      fld (slotWord s 7) 63 32 ≠ 0 then 1
  else if crc32c (imgWords s) ≠ fld (slotWord s 7) 31 0 then 2
  else if bit (slotWord s 3) 1 = false then 3
  else if roll < ctr then 4
  else 0

/-- The FAIL code of a slot (Table 6-9). -/
def slotFail (s : Slot) (ctr : Nat) : Nat :=
  if s.readErr then 6
  else match s.st with
    | .empty | .writing => 5
    | _ => imageFail s ctr

/-- IMGVER of a slot (Table 6-8). -/
def imgVer (s : Slot) : Nat := fld (slotWord s 1) 31 0

/-- A slot by number: false A, true B. -/
def slotOf (c : Chip) (b : Bool) : Slot := if b then c.img.slotB else c.img.slotA
/-- Change a slot. -/
def updSlot (c : Chip) (b : Bool) (f : Slot → Slot) : Chip :=
  if b then { c with img := { c.img with slotB := f c.img.slotB } }
  else { c with img := { c.img with slotA := f c.img.slotA } }

/-- Ticks within which a slot record is written to both nonvolatile copies (R199). -/
def recordTicks : Nat := 160000

/-- Change a slot's record (R199): it takes effect in retention in this tick; the records that the nonvolatile copies may still hold
are kept. The FAIL code stays that of step C (R187) and R194. -/
def setRecord (c : Chip) (b : Bool) (st : SlotSt) (pages : BitVec 16) : Chip :=
  updSlot c b (fun s => { s with
    st := st, pages := pages,
    hist := { tick := c.tick, st := s.st, pages := s.pages } :: s.hist.filter (fun r => decide (c.tick < r.tick + recordTicks)) })

/-- Change a slot's state (R199). -/
def setSlotSt (c : Chip) (b : Bool) (st : SlotSt) : Chip := setRecord c b st (slotOf c b).pages

/-- The running slot (R187). -/
def runSlot (c : Chip) : Slot := slotOf c c.img.actSlot

/-! ### Host interface version -/

/-- A host version's bit in the tested set, or with off = 32 in the tolerated set (Table 6-8). -/
def hostBit (c : Chip) (off v : Nat) : Bool := 0 < v && v ≤ 32 && bit (slotWord (runSlot c) 4) (off + v - 1)

/-- The ACCEPTHOST record matches (R190, R191). -/
def acceptMatches (c : Chip) : Bool := c.img.accept = some (c.img.actSlot, c.img.actVer, c.pw.hostver)

/-- The host version check (R190), with the event that S506 raises. -/
def hostCheck (c : Chip) (r : Raise) : Chip :=
  let v := c.pw.hostver
  let mis := !c.img.minimal && v ≠ 0 && !hostBit c 0 v && !acceptMatches c
  let c1 := { c with img := { c.img with hostMismatch := mis, hostTol := !c.img.minimal && acceptMatches c } }
  if mis && !c.img.hostMismatch then raiseR c1 r else c1

/-- A commit of HOSTVER (R189). -/
def commitHostver (c : Chip) (m : Mid) (w : Word) : Chip :=
  if inConfig c then
    let v := fld w 7 0
    let acc := if v = c.pw.hostver then c.img.accept else none
    let c := { c with pw := { c.pw with hostver := v }, img := { c.img with hvIgnored := false, accept := acc } }
    hostCheck c (faceEvent c 506 m accCommit 2)
  else { c with img := { c.img with hvIgnored := true } }

/-- ACCEPTHOST executes (R191). -/
def acceptHost (c : Chip) (e : Entry) : Chip :=
  if c.pw.state ≠ .config then refuseLate c e 0x0903
  else if c.img.hostMismatch = false then refuseLate c e 0x0902
  else if hostBit c 32 c.pw.hostver = false then refuseLate c e 0x0901
  else
    doneS { c with img := { c.img with
      hostMismatch := false, hostTol := true, accept := some (c.img.actSlot, c.img.actVer, c.pw.hostver) } } e

/-- RUN executes (R192, R194). -/
def runCommand (c : Chip) (e : Entry) : Chip :=
  match c.pw.state with
  | .run | .idle => doneS c e
  | .config =>
    if c.pw.hostver = 0 then refuseLate c e 0x0801
    else if c.img.hostMismatch then refuseLate c e 0x0802
    else
      let roll := fld (slotWord (runSlot c) 6) 6 0
      let c := { c with
        pw := { c.pw with state := .run },
        img := { c.img with rollGoal := if c.img.rollctr < roll then some roll else none } }
      doneS c e
  | _ => refuseLate c e 0x0803

/-- Check 5 of Table 6-9 is applied again to a slot that passes the checks before it (R194). -/
def recheck (s : Slot) (ctr : Nat) : Slot :=
  if s.fail = 0 ∨ s.fail = 4 then { s with fail := if fld (slotWord s 6) 6 0 < ctr then 4 else 0 } else s

/-- The programming of the anti-rollback steps ends (R194): confirmed steps, and whether one failed verification. -/
def rollbackDone (c : Chip) (confirmed : Nat) (failed : Bool) : Chip :=
  match c.img.rollGoal with
  | none => c
  | some roll =>
    let n := if failed then min roll (max c.img.rollctr confirmed) else roll
    let c := { c with img := { c.img with rollctr := max c.img.rollctr (min n 64), rollGoal := none } }
    let c := updSlot c false (fun s => recheck s c.img.rollctr)
    let c := updSlot c true (fun s => recheck s c.img.rollctr)
    if failed then countN c 508 else c

/-! ### Boot selection -/

/-- Step C checks both slots and selects the image to run (R187). -/
def selectImage (c : Chip) (errA errB : Bool) : Chip :=
  let c := updSlot c false (fun s => let s := { s with readErr := errA }; { s with fail := slotFail s c.img.rollctr })
  let c := updSlot c true (fun s => let s := { s with readErr := errB }; { s with fail := slotFail s c.img.rollctr })
  let a := c.img.slotA
  let b := c.img.slotB
  let c := if a.st = .eligible ∧ a.fail ≠ 0 then raiseR c (evAt c 504 7 accRead 2 0x200 none) else c
  let c := if b.st = .eligible ∧ b.fail ≠ 0 then raiseR c (evAt c 504 7 accRead 2 0x240 none) else c
  let okA := a.st = .eligible ∧ a.fail = 0
  let okB := b.st = .eligible ∧ b.fail = 0
  let sel : Option Bool :=
    if okA then (if okB ∧ imgVer a < imgVer b then some true else some false) else if okB then some true else none
  match sel with
  | none => { c with img := { c.img with minimal := true, actSlot := false, actVer := 0 } }
  | some x =>
    let v := imgVer (slotOf c x)
    let keep := (match c.img.accept with | some (sl, iv, _) => sl = x && iv = v | none => true)
    { c with img := { c.img with
        minimal := false, actSlot := x, actVer := v, accept := if keep then c.img.accept else none } }

/-! ### Staging -/

/-- The slot that a STAGEIMAGE or ACTIVATEIMAGE names (Table 6-18). -/
def argSlot (e : Entry) (i : Nat) : Bool := bit e.cmdb i

/-- The 512 words of IMGBUF (R195). -/
def imgbuf (c : Chip) : List Word := (List.range 512).map (fun i => liveW c (0x8000 + 8 * i))

/-- A STAGEIMAGE may touch the slot it names (R196). -/
def slotRefused (c : Chip) (e : Entry) : Bool :=
  c.pw.state ≠ .minconfig && argSlot e 56 = c.img.actSlot && !c.img.minimal

/-- STAGEIMAGE PAGE, checkpoint 1 (Table 6-10). -/
def pageStart (c : Chip) (e : Entry) : Chip × LStep :=
  if slotRefused c e then (c, .final 1 stRefused 0x5001 0)
  else if crc32c (imgbuf c) ≠ fld e.cmdc 31 0 then (c, .final 1 stRefused 0x5002 0)
  else
    let b := argSlot e 56
    (if (slotOf c b).st = .writing then c else setRecord c b .writing 0, .pass 1)

/-- STAGEIMAGE ERASE, checkpoint 1 (Table 6-10). -/
def eraseStart (c : Chip) (e : Entry) : Chip × LStep :=
  if slotRefused c e then (c, .final 1 stRefused 0x5001 0)
  else
    let b := argSlot e 56
    (setRecord c b .writing 0, .pass 1)

/-- Every page below LENGTH is marked (Table 6-10). -/
def pagesComplete (s : Slot) : Bool :=
  (List.range ((imgLength s + 4095) / 4096)).all (fun k => s.pages.toNat.testBit k) && s.pages.toNat.testBit 0

/-- STAGEIMAGE FINISH, checkpoint 1 (Table 6-10); err: a nonvolatile read error occurs in the slot (check 1). -/
def finishStart (c : Chip) (e : Entry) (err : Bool) : Chip × LStep :=
  let c := updSlot c (argSlot e 56) (fun s => { s with readErr := err })
  let s := slotOf c (argSlot e 56)
  let f := imageFail s c.img.rollctr
  if slotRefused c e then (c, .final 1 stRefused 0x5001 0)
  else if s.st ≠ .writing then (c, .final 1 stRefused 0x5009 0)
  else if !pagesComplete s then (c, .final 1 stRefused 0x5004 0)
  else if f = 6 then
    let p := drawFree c
    (p.2, .final 1 stRefused (Config.readErrDetail p.1).toNat 0)
  else if f ≠ 0 then (c, .final 1 stRefused (0x5004 + f) 0)
  else (c, .pass 1)

/-- Erase page k of a slot. -/
def erasePage (c : Chip) (b : Bool) (k : Nat) : Chip :=
  updSlot c b (fun s => { s with
    words := storeZero s.words (512 * k) (512 * k + 512), erased := s.erased ||| (1#16 <<< k) })

/-- Program page k of a slot from IMGBUF (R196): it holds IMGBUF after a read-back that fails too. [DESIGN CHOICE: log 10] -/
def programPage (c : Chip) (b : Bool) (k : Nat) : Chip :=
  let l := imgbuf c
  updSlot c b (fun s => { s with
    words := (List.range 512).foldl (fun st i => storePut st (512 * k + i) (l.getD i 0)) s.words,
    erased := s.erased &&& ~~~(1#16 <<< k) })

/-- The steps of a STAGEIMAGE after its first (Table 6-10, R197); ok: the page reads back equal. [DESIGN CHOICE: log 10] -/
def stageStep (c : Chip) (e : Entry) (ok : Bool) : Chip × LStep :=
  let b := argSlot e 56
  let k := fld e.cmdb 3 0
  match fld e.cmdb 63 62 with
  | 0 =>
    if e.ckpt = 1 ∨ (e.redo ∧ (e.ckpt = 2 ∨ e.ckpt = 3)) then (erasePage c b k, .pass 2)
    else if e.ckpt = 2 then (programPage c b k, .pass 3)
    else if e.ckpt = 3 then
      if ok then (setRecord c b (slotOf c b).st ((slotOf c b).pages ||| (1#16 <<< k)), .final 4 stDone 0 0)
      else (raiseR c (evAt c 507 7 accWrite 2 (if b then 0x240 else 0x200) none), .final 4 stRefused 0x5003 0)
    else (c, .none)
  | 2 =>
    if 1 ≤ e.ckpt ∧ e.ckpt ≤ 16 then (erasePage c b (e.ckpt - 1), .pass (e.ckpt + 1))
    else if e.ckpt = 17 then (setSlotSt c b .empty, .final 18 stDone 0 0)
    else (c, .none)
  | 1 =>
    if e.ckpt = 1 then
      (setSlotSt c b (if c.pw.state = .minconfig then .eligible else .staged), .final 2 stDone 0 0)
    else (c, .none)
  | _ => (c, .none)

/-- ACTIVATEIMAGE PROMOTE (R198); err: a nonvolatile read error occurs in the slot (check 1). -/
def promote (c : Chip) (e : Entry) (err : Bool) : Chip :=
  let b := argSlot e 0
  let c := updSlot c b (fun s => { s with readErr := err })
  let s := slotOf c b
  if s.st = .empty ∨ s.st = .writing then refuseLate c e 0x5101
  else if imageFail s c.img.rollctr ≠ 0 then refuseLate c e 0x5102
  else doneS (setSlotSt c b .eligible) e

/-- ACTIVATEIMAGE DEMOTE (R198); err: a nonvolatile read error occurs in the other slot (check 1). -/
def demote (c : Chip) (e : Entry) (err : Bool) : Chip :=
  let b := argSlot e 0
  let c := updSlot c (!b) (fun s => { s with readErr := err })
  let o := slotOf c (!b)
  if (slotOf c b).st ≠ .eligible ∨ o.st ≠ .eligible ∨ imageFail o c.img.rollctr ≠ 0 then refuseLate c e 0x5103
  else doneS (setSlotSt c b .staged) e

end Sys2Proof.Machine
end

