-- ==== Sys2Proof/Machine/Power.lean ====
section
/-! DEFINITION. Power states, resets, BOOT, replay and the watchdog (chapter 6, R135). -/

namespace Sys2Proof.Machine

/-! ### Requests -/

/-- Answer a POWERCTL request: REQSTAT and REFUSE (Table 6-13). -/
def reqAnswer (c : Chip) (stat refuse : Nat) : Chip := { c with pw := { c.pw with reqstat := stat, refuse := refuse } }

/-- IDLE request (R175). -/
def reqIdle (c : Chip) : Chip :=
  let r := (if benched c then 128 else 0) + (if anyChannelEnabled c then 4 else 0) + (if c.pw.state ≠ .run then 1 else 0)
  if r ≠ 0 then reqAnswer c 3 r
  else drivers (reqAnswer { c with pw := { c.pw with state := .idle } } 2 0) true

/-- RUN request from IDLE (R176). -/
def reqRun (c : Chip) : Chip :=
  if c.pw.state ≠ .idle then reqAnswer c 3 1
  else reqAnswer { c with pw := { c.pw with runPending := true, reqTick := c.tick } } 1 0

/-- The front ends are ready (R176). -/
def frontEndsReady (c : Chip) : Chip :=
  if c.pw.runPending = true ∧ c.pw.state = .idle then
    drivers (reqAnswer { c with pw := { c.pw with state := .run, runPending := false } } 2 0) false
  else c

/-- SLEEP request (R177). [DEDUCED: log 26] -/
def reqSleep (c : Chip) : Chip :=
  let transit := c.own.entries.toList.any (fun e => e.st = .draining || e.st = .scrubbing)
  let r := (if benched c then 128 else 0) + (if anyEnabled c then 64 else 0) + (if transit then 32 else 0) +
    (if c.pw.wakeen = 0 then 16 else 0) + (if c.flt.srcs[(2 : Src)].st ≠ .ok then 8 else 0) +
    (if c.pw.state = .minconfig then 1 else 0)
  if r ≠ 0 then reqAnswer c 3 r
  else reqAnswer { c with pw := { c.pw with sleepPending := true, reqTick := c.tick, sleepFrom := c.pw.state } } 1 0

/-- A commit of POWERCTL (Table 6-13). [DEDUCED: log 26] -/
def commitPowerctl (c : Chip) (w : Word) : Chip :=
  let c := { c with pw := { c.pw with
    autoresume := bit w 39,
    wakeen := if c.isN then fld w 34 32 else fld w 35 32,
    motionen := bit w 31 && !c.isN,
    motionwh := if c.isN then 0 else ⟨fld w 29 28 % 4, by omega⟩ } }
  match fld w 42 40 with
  | 1 => reqRun c
  | 2 => reqIdle c
  | 3 => reqSleep c
  | _ => c

/-- A commit of RESETCAUSE: W1C of LFSTOP and STICKY (Table 6-14). -/
def commitResetcause (c : Chip) (w : Word) : Chip :=
  { c with pw := { c.pw with
    lfstop := c.pw.lfstop && !bit w 62,
    sticky := (BitVec.ofNat 6 c.pw.sticky &&& ~~~(BitVec.ofNat 6 (fld w 53 48))).toNat } }

/-- A commit of WDOG (R173, R174). [DEDUCED: log 56] -/
def commitWdog (c : Chip) (m : Mid) (w : Word) : Chip :=
  let p := c.pw
  let en := p.wdEn || bit w 63
  let t := fld w 47 32
  let key := fld w 15 0
  let p1 := { p with wdEn := en, wdTimeout := t }
  let kick := key = 0x4B1C
  let restart := (en && !p.wdEn) || kick || (p.wdEn && t ≠ p.wdTimeout)
  let p2 := { p1 with
    wdCount := if restart then wdPeriod p1 else p.wdCount,
    wdFired := p.wdFired && !kick }
  let c1 := { c with pw := p2 }
  if key ≠ 0 ∧ key ≠ 0x4B1C then raiseR c1 (faceEvent c 3 m accCommit 35) else c1

/-! ### SLEEP, BACKUP and wakes -/

/-- Arm the motion comparator at entry to SLEEP or BACKUP (R181). [DEDUCED: log 28] -/
def armMotion (c : Chip) : Chip :=
  if c.pw.motionen && !c.isN then
    { c with pw := { c.pw with motionArmed := true, motionCount := 0, motionMoved := false } }
  else c

/-- The net switches to the 32.768 kHz oscillator (R144). -/
def toLf (c : Chip) : Chip := { c with pw := { c.pw with lfclk := true, frac := 0, lfCount := 0 } }

/-- The net switches to SYSCLK: FRAC is discarded and the motion comparator stops (R144, R181). [DEDUCED: log 28] -/
def toSysclk (c : Chip) : Chip := { c with pw := { c.pw with lfclk := false, frac := 0, lfCount := 0, motionArmed := false } }

/-- At quiescence, with no submission left to decide, the part enters SLEEP (R178); the net switches at the next oscillator edge
(R144). [DEDUCED: log 26] -/
def sleepEntry (c : Chip) : Chip :=
  let c := retireDue c
  if c.pw.sleepPending = true ∧ serving c = true ∧ c.wb.entries.any (fun e => e.state = .active) = false ∧ c.wb.asks = [] then
    let c := armMotion (sleepBlocks c)
    reqAnswer { c with pw := { c.pw with state := .sleep, sleepFrom := c.pw.state, sleepPending := false, wake := none } } 2 0
  else c

/-- A SLEEP request that is not quiescent within 100 ms is abandoned (R178). -/
def sleepTimeout (c : Chip) : Chip :=
  let c := retireDue c
  if c.pw.sleepPending = true ∧ c.pw.reqTick + 16000000 ≤ c.tick ∧ c.wb.entries.any (fun e => e.state = .active) = true then
    resumeCause (reqAnswer { c with pw := { c.pw with sleepPending := false } } 3 2) .sleep
  else c

/-- A wake source is sampled at an oscillator edge after the switch, in SLEEP (R179); bit is its place in WAKECAUSE. -/
def wakeBy (c : Chip) (bit : Nat) (ok : Bool) : Chip :=
  if c.pw.state = .sleep ∧ c.pw.lfclk = true ∧ (1 ≤ c.pw.lfCount ∨ c.pw.wake.isSome = true) ∧ ok = true then
    match c.pw.wake with
    | none => { c with pw := { c.pw with wake := some (2 ^ bit), stepTick := c.tick, lfCount := 0 } }
    | some w =>
      if c.pw.stepTick = c.tick then { c with pw := { c.pw with wake := some (w ||| 2 ^ bit) } } else c
  else c

/-- A wake source that WAKEEN enables (R179). -/
def wakeEnabled (c : Chip) (bit : Nat) (ok : Bool) : Chip := wakeBy c bit (ok && c.pw.wakeen.testBit bit)

/-- The watchdog restarts from its full value (R173). -/
def wdRestart (c : Chip) : Chip := { c with pw := { c.pw with wdCount := wdPeriod c.pw } }

/-- Ticks from the switch of the net to the end of a wake (Table 6-7). -/
def wakeTicks : Nat := 16

/-- The net switches back to SYSCLK in a wake, 1 to 7 periods after its edge (Table 6-7), or where the oscillator is lost (R184). -/
def wakeSwitch (c : Chip) : Chip :=
  if c.pw.wake.isSome = true ∧ c.pw.state = .sleep ∧ c.pw.wakeAt = none ∧ (1 ≤ c.pw.lfCount ∨ c.pw.lfLost = true) then
    let c := toSysclk c
    { c with pw := { c.pw with wakeAt := some (c.tick + wakeTicks) } }
  else c

/-- A wake completes 16 ticks after the switch (R180, Table 6-7): Face, fetching and suspended work return, and what the collector
held is processed (R486). -/
def wakeDone (c0 : Chip) : Chip :=
  let c := { c0 with pw := { c0.pw with
    state := c0.pw.sleepFrom, wake := none, wakecause := c0.pw.wake.getD 0, wakeAt := none, serveTick := c0.tick, serveHeld := false } }
  let c := if c.pw.lfLost then levelN c 2 true else c
  keep c0 (wakeBlocks (resumeCause (processHeld (wdRestart c)) .sleep))

/-- The increment of TICK and FRAC by one 32.768 kHz period (R143). -/
def lfStep (c : Chip) : Chip :=
  let f := c.pw.frac + 13
  if 16 ≤ f then
    { c with tick := c.tick + 4883, pw := { c.pw with frac := f - 16, lfCount := c.pw.lfCount + 1 } }
  else { c with tick := c.tick + 4882, pw := { c.pw with frac := f, lfCount := c.pw.lfCount + 1 } }

/-- A rising edge of the 32.768 kHz oscillator: a period where it drives the net (R143), with the switch of a wake at the seventh at the
latest (Table 6-7); after SLEEP was entered or VDD was lost, the switch of the net to it (R144, R166); while the power-on reset is
held, one of its periods (R165). -/
def lfTick (c : Chip) : Chip :=
  if c.pw.lfLost then c
  else if c.pw.state = .off then
    (if c.pw.vdd || c.pw.vbak then { c with pw := { c.pw with lfCount := c.pw.lfCount + 1 } } else c)
  else if c.pw.lfclk then
    let c := lfStep c
    if 7 ≤ c.pw.lfCount then wakeSwitch c else c
  else if (c.pw.state = .sleep ∧ c.pw.wakeAt = none) ∨ c.pw.state = .backup then toLf c
  else c

/-- A qualified edge of the motion comparator (R181). [DEDUCED: log 28] -/
def motionEdge (c : Chip) : Chip :=
  if c.pw.motionArmed then
    moveStay (whMotion { c with pw := { c.pw with motionCount := satInc16 c.pw.motionCount, motionMoved := true } } c.pw.motionwh)
  else c

/-! ### Resets and supplies -/

/-- VDD is present. -/
def vddUp (c : Chip) : Bool := c.pw.state ≠ .off && c.pw.state ≠ .backup

/-- nRESET low for a number of ticks (R170, R564). [DESIGN CHOICE: log 9] -/
def nresetPin (c : Chip) (len : Nat) : Chip :=
  let p := drawFree c
  let takes := decide (162 ≤ len) || (decide (158 ≤ len) && Config.nresetBand p.1)
  let c := p.2
  if vddUp c && takes then
    warmReset { c with pw := { c.pw with nresetLow := true } } 1 0 (c.tick + 1)
  else c

/-- nRESET returns high (R169). -/
def nresetRelease (c : Chip) : Chip :=
  let c := { c with pw := { c.pw with nresetLow := false } }
  if c.pw.state = .boot ∧ c.pw.step = .held then
    { c with pw := { c.pw with step := if c.pw.lfclk then .a1 else .b, stepTick := c.tick, lfCount := 0 } }
  else c

/-- A brown-out with VBAK present (R158, R166): the net runs on to the next oscillator edge where it is on SYSCLK. With the oscillator lost
TICK stops, as when it is lost in BACKUP (R184). [DEDUCED: log 27] -/
def brownout (c : Chip) : Chip :=
  if vddUp c then
    let t := c.tick
    let c := warmReset c 5 0 (t + 1)
    let c := { c with pw := { c.pw with state := .backup, vdd := false, vbak := true, nresetLow := false, lfCount := 0, vddTick := t,
                                        lfStopped := c.pw.lfLost } }
    let c := if c.pw.lfLost then toLf c else c
    armMotion (keep c (beginStay c))
  else c

/-- VDD has been present for 32 oscillator periods (R158, R169); without the oscillator the wait ends at the switch and
BOOT continues with step B (R184), with S002 captured. A stop of the oscillator in BACKUP sets LFSTOP and is captured. -/
def backupExit (c : Chip) : Chip :=
  if c.pw.state = .backup ∧ (32 ≤ c.pw.lfCount ∨ c.pw.lfLost = true) then
    let c := { c with pw := { c.pw with state := .boot, vdd := true, stepTick := c.tick } }
    let c := if c.pw.lfStopped then
        holdEvent { c with pw := { c.pw with lfstop := true, lfStopped := false } } (evN c 2)
      else c
    if c.pw.lfLost then levelN (toSysclk { c with pw := { c.pw with step := .b } }) 2 true
    else { c with pw := { c.pw with step := .a1, lfCount := 0 } }
  else c

/-- The part goes to OFF: the always-on domain has lost both supplies (R158, R165, R194). -/
def off (c : Chip) : Chip :=
  { c with img := stopProgramming c.img c.freeN, freeN := c.freeN + 1,
           pw := { c.pw with state := .off, vdd := false, vbak := false, lfCount := 0,
                             vddTick := if vddUp c then c.tick else c.pw.vddTick } }

/-- VBAK falls below its retention limit (R158): in BACKUP the part goes to OFF, unless VDD33 is present again, in the wait of 32
periods; the domain keeps its contents while either supply stays (R164). -/
def vbakLoss (c : Chip) (vdd33 : Bool) : Chip :=
  if c.pw.state = .backup ∧ vdd33 = false then off c
  else { c with pw := { c.pw with vbak := false } }

/-- VDD is lost while VBAK is absent (R158), also in the wait of 32 periods or while the power-on reset is held. -/
def vddLoss (c : Chip) : Chip :=
  if vddUp c ∨ (c.pw.state = .backup ∧ c.pw.vbak = false) ∨ c.pw.state = .off then off c else c

/-- Loss of the 20 MHz crystal, or of the PLL range (R184): S000 or S001, and a CLOCK reset. -/
def clockLoss (c : Chip) (pll : Bool) : Chip :=
  if vddUp c && !c.pw.lfclk then
    warmReset (countN c (if pll then 1 else 0)) 6 0 (c.tick + 1)
  else c

/-- Loss of the 32.768 kHz oscillator (R184); vdd33: in BACKUP, VDD is present again, in the wait of 32 periods, which then ends. -/
def lfLoss (c : Chip) (vdd33 : Bool) : Chip :=
  if c.pw.lfLost || c.pw.state = .off then c
  else
    let c := { c with pw := { c.pw with lfLost := true } }
    match c.pw.state with
    | .sleep => (if c.pw.wakeAt.isSome then c
        else { c with pw := { c.pw with wake := some (c.pw.wake.getD 0 ||| 16) } })
    | .backup => (if vdd33 then c else { c with pw := { c.pw with lfStopped := true } })
    | .boot =>
      let c := levelN c 2 true
      if c.pw.step = .a1 ∨ c.pw.step = .a2 then
        toSysclk { c with pw := { c.pw with step := .b, stepTick := c.tick } }
      else c
    | _ => levelN c 2 true

/-- The 32.768 kHz oscillator returns (R184). -/
def lfRestored (c : Chip) : Chip := levelN { c with pw := { c.pw with lfLost := false } } 2 false

/-! ### BOOT -/

/-- The trim and one-time-cell load of step A1 or B completes (R167). [DESIGN CHOICE: log 29] -/
def trimLoad (c : Chip) : Chip :=
  let settleSlots (c : Chip) : Chip :=
    updSlot (updSlot c false (fun s => { s with hist := [] })) true (fun s => { s with hist := [] })
  if c.pw.state = .boot then
    match c.pw.step with
    | .a1 => if 8 ≤ c.pw.lfCount then settleSlots { c with pw := { c.pw with step := .a2, lfCount := 0 } } else c
    | .b =>
      if c.pw.stepTick + 8192 ≤ c.tick then settleSlots { c with pw := { c.pw with step := .c, stepTick := c.tick } } else c
    | _ => c
  else c

/-- The PLL locks and the net switches at the next oscillator edge (R167, R168). -/
def pllLock (c : Chip) : Chip :=
  if c.pw.state = .boot ∧ c.pw.step = .a2 ∧ 1 ≤ c.pw.lfCount ∧ c.pw.lfCount ≤ 7 then
    toSysclk { c with pw := { c.pw with step := .c, stepTick := c.tick + 1 } }
  else c

/-- No lock within 7 periods (R169): step A2 restarts and S001 counts. -/
def pllRetry (c : Chip) : Chip :=
  if c.pw.state = .boot ∧ c.pw.step = .a2 ∧ 7 ≤ c.pw.lfCount then
    countN { c with pw := { c.pw with lfCount := 0 } } 1
  else c

/-- The comparisons of duplicated copies and the clock monitor find again what stands when the collector runs (R86, R114, R485). -/
def standingAgain (c : Chip) : Chip :=
  let c := if c.pw.lfLost then levelN c 2 true else c
  let c := if c.own.mismatch then ownershipMismatch c 0x1000 else c
  (allFin 16).foldl (fun c k => if c.wb.clients[k].mismatch then counterMismatch c k else c) c

/-- Step C (R187): held events are processed (R495), both slots are checked and an image is selected. -/
def imageCheck (c : Chip) (errA errB : Bool) : Chip :=
  if c.pw.state = .boot ∧ c.pw.step = .c then
    let c := { c with pw := { c.pw with
      step := if c.pw.cold then .dCold else .dWarm, stepTick := c.pw.stepTick + 66560 } }
    selectImage (standingAgain (processHeld c)) errA errB
  else c

/-- The resume conditions of R160. -/
def resumes (c : Chip) : Bool :=
  c.pw.autoresume && (c.pw.resume = .run || c.pw.resume = .idle) &&
  c.img.ran = some (c.img.actSlot, c.img.actVer) && c.pw.hostver ≠ 0 && !c.img.hostMismatch

/-- The end of the Bench (R480, R481). -/
def benchRelease (c : Chip) : Chip :=
  releaseBlocks (notifyEnabled { c with flt := { c.flt with
    benched := false, carried := false, releaseTick := c.tick } } 3)

/-- BENCHPOL.CLEARONRESET (R481). -/
def clearOnReset (c : Chip) : Bool := bit (liveW c 0x800) 63

/-- The Bench latch at the end of a BOOT (R481). -/
def bootBench (c : Chip) : Chip :=
  if c.flt.benched && clearOnReset c && !anyFatal c then resumeCause (benchRelease c) .bench else c

/-- Transits after a reset (R98): drains are counted afresh, scrubs restart from their first word. -/
def restartTransits (c : Chip) : Chip :=
  let c := (allFin 88).foldl (fun c i =>
    if (ownE c i).st = .draining then
      updOwn c i (fun o => { o with drainTick := c.tick, drainN := c.wb.entries.countP (isDrainItem c i) })
    else if (ownE c i).st = .free ∧ (ownE c i).next.isSome then updOwn c i (fun o => { o with freeTick := c.tick })
    else c) c
  let waiting := (match c.own.scrubActive with | some i => [i] | none => []) ++ c.own.scrubQueue
  let rest := (allFin 88).filter (fun i => (ownE c i).st = .scrubbing && !waiting.contains i)
  scrubNext { c with own := { c.own with scrubActive := none, scrubQueue := waiting ++ rest } }

/-- RESETCAUSE at the end of a BOOT (R171, R174). [DEDUCED: log 27] -/
def bootCause (p : Power) : Power :=
  if p.cold then
    { p with rcCold := true, lfstop := false, sticky := 0, last := 0, laststate := 0, warmcount := 0, faultsrc := 0,
             resettick := p.causeTick, wdFired := false }
  else
    { p with
      rcCold := false, sticky := p.sticky ||| p.causeMask, last := p.cause,
      laststate := (match p.causeState with
        | .off => 0 | .config => 1 | .minconfig => 2 | .run => 3 | .idle => 4 | .sleep => 5 | .backup => 6 | .boot => 7),
      warmcount := wrapInc16 p.warmcount,
      faultsrc := p.causeSrc,
      resettick := p.causeTick,
      wdFired := p.wdFired && p.causeMask.testBit 4 }

/-- BOOT_COMPLETE (R160, R171, R188, R190, R481). [DEDUCED: log 27] -/
def bootEnd (c : Chip) : Chip :=
  let wasCold := c.pw.cold
  let brown := !wasCold && c.pw.brown
  let c := hostCheck c (evN c 506)
  let st : PState := if c.img.minimal then .minconfig else if !wasCold && resumes c then c.pw.resume else .config
  let c := { c with
    pw := { bootCause c.pw with state := st, cold := false, causeMask := 0, brown := false, serveTick := c.tick, serveHeld := true },
    img := { c.img with ran := if c.img.minimal then none else some (c.img.actSlot, c.img.actVer) },
    wb := { c.wb with lastFetch := none } }
  let c := wdRestart c
  let c := if c.img.minimal then countN c 505 else c
  let c := if brown then countN c 5 else c
  let c := if c.pw.vexcLow then levelN c 24 true else c
  bootEndBlocks (bootBench (restartTransits c))

/-- Retention initialisation of a cold start ends BOOT (R167, R112). -/
def retentionInit (c : Chip) : Chip :=
  if c.pw.state = .boot ∧ c.pw.step = .dCold ∧ c.pw.stepTick + 8192 ≤ c.tick then
    bootEnd (newEpoch c)
  else c

/-- One entry by the classification of Table 4-7; whether replay retired it. [DEDUCED: log 50] -/
def replayEntry (c : Chip) (e : Entry) : Entry × Bool :=
  match e.state with
  | .active =>
    (match e.kind with
      | .l =>
        if c.flt.benched && !(clearOnReset c && !anyFatal c) && (opcodeOf e ≠ 0x53 || e.ckpt = 0) then
          ({ e with state := .suspended, cause := .bench, redo := true }, false)
        else ({ e with redo := true }, false)
      | .s =>
        if e.commit then ({ e with state := .retired, recovered := true, retireTick := e.commitTick }, true)
        else ({ e with state := .queued }, false)
      | .d => ({ e with state := .queued }, false))
  | .suspended => (if e.cause = .sleep then { e with cause := .suspend } else e, false)
  | .waiting =>
    if opcodeOf e = 0x30 ∧ e.started = true then
      ({ e with state := .retired, recovered := true, status := stDone, detail := 0, retireTick := c.pw.causeTick }, true)
    else (e, false)
  | _ => (e, false)

/-- Replay's classification of the journal, with CMDSTAT.RECOVERED (R135). -/
def classifyAll (c : Chip) : Chip :=
  let l : List (Entry × (Entry × Bool)) := c.wb.entries.map (fun e => (e, replayEntry c e))
  let touched (k : Client) : Bool := l.any (fun (p : Entry × (Entry × Bool)) => p.1.client = k && p.2.2)
  let c1 := { c with wb := { c.wb with
    entries := l.map (fun (p : Entry × (Entry × Bool)) => p.2.1),
    clients := Vector.ofFn (fun k => let v := c.wb.clients[k]; { v with recovered := v.recovered || touched k }) } }
  c1.wb.entries.foldl (fun (c : Chip) (e : Entry) =>
    if e.state = .waiting ∧ opcodeOf e = 0x30 then reinsert c e else c) c1

/-- Merge the retire rings, noting the clients whose entries became RETIRED (R130, R135). [DEDUCED: log 23] -/
def replayRings (c : Chip) : Chip :=
  let before := c.wb.entries
  let c := mergeRings c
  let merged (k : Client) : Bool := c.wb.entries.any (fun e => e.client = k && e.state = .retired &&
    before.any (fun b => keyOf b = keyOf e && b.state ≠ .retired))
  { c with wb := { c.wb with
    clients := Vector.ofFn (fun k => let v := c.wb.clients[k]; { v with recovered := v.recovered || merged k }) } }

/-- Single-bit errors that replay corrects (R110, R135): location and word. -/
def replaySingles (c : Chip) (l : List (Nat × Nat)) : Chip :=
  l.foldl (fun c p =>
    let k := (c.wb.entries.find? (fun e => e.loc = p.1)).map (fun e => e.client)
    retCorrected c (evAt c 64 5 4 2 (0x08010000 + 0x40 * p.1 + 8 * p.2) k) (some p)) c

/-- Replay after a warm reset (R135, R113): it ends BOOT. uncorr is the location of an uncorrectable error it finds. -/
def replay (c : Chip) (singles : List (Nat × Nat)) (uncorr : Option Nat) : Chip :=
  if c.pw.state = .boot ∧ c.pw.step = .dWarm ∧ c.pw.stepTick + 8192 + 256 * c.wb.entries.length ≤ c.tick then
    let c := replaySingles c singles
    match uncorr with
    | some j =>
      bootEnd (newEpoch (raiseR c { evAt c 65 5 4 2 (0x08010000 + 0x40 * j) none with countOnly := true }))
    | none =>
      if c.wb.halted then bootEnd (newEpoch c)
      else bootEnd (classifyAll (replayRings c))
  else c

/-- SOFTRESET executes (R140): its COMMIT mark, then the warm reset of cause SOFT. -/
def softReset (c : Chip) (e : Entry) : Chip := warmReset (doneS c e) 4 0 (c.tick + 1)

/-- The watchdog expires (R174). -/
def watchdogExpiry (c : Chip) : Chip :=
  if c.pw.wdEn = true ∧ c.pw.wdCount = 0 ∧ serving c = true then
    warmReset (raiseR c { evN c 4 with kind := 1, addr := 0x118 }) 2 0 (c.tick + 1)
  else c

/-- BENCHRELEASE executes (R480). -/
def benchReleaseExec (c : Chip) (e : Entry) : Chip :=
  if anyFatal c then refuseLate c e 0x0701
  else if !benched c then commitS c e stDone 0x0702 0
  else resumeCause (benchRelease (doneS c e)) .bench

/-- VBAK is checked once every 160 000 000 ticks while VDD is present (R182): below 2.0 V counts S006. -/
def vbakCheck (c : Chip) (low : Bool) : Chip :=
  let due := (match c.pw.vbakTick with | some t => decide (t + secTicks ≤ c.tick) | none => true)
  if vddUp c && due then
    let c := { c with pw := { c.pw with vbakTick := some c.tick } }
    if low then countN c 6 else c
  else c

/-- The sequencer's memory or execution check fails at a byte offset of the running slot (R508). -/
def sequencerFail (c : Chip) (offset : Nat) : Chip :=
  if serving c then raiseR c (evAt c 509 7 5 0 offset none) else c

/-- BLOCK_RESET_COMPLETE (R475, Table 16-7): the first block reset whose length has passed ends. -/
def blockResetEnd (c : Chip) : Chip :=
  match c.flt.resets.find? (fun r => blockResetDue c r.1 r.2) with
  | none => c
  | some r =>
    if serving c then
      blockResetFinish { c with flt := { c.flt with resets := c.flt.resets.filter (fun x => x.1 ≠ r.1) } } r.1
    else c

/-- FACTORYRESET executes (R140): it stays ACTIVE until the new epoch discards it with the journal. -/
def factoryExec (c : Chip) : Chip := if c.wb.factory.isSome then c else factoryStart c

end Sys2Proof.Machine
end

