-- ==== Sys2Proof/Machine/Cold.lean ====
section
/-! DEFINITION. The cold start (R165): the part with every field at its reset value, and the release of the power-on reset. -/

namespace Sys2Proof.Machine

/-- A master after a cold start (R45, R64, R67, R68, R101). [DESIGN CHOICE: log 18] -/
def coldMaster : Master :=
  { rdVal := 0, rdTag := none, wr0 := 0, wr1 := 0, wr2 := 0, wf0 := false, wf1 := false, wf2 := false, wrTag := none, addr := 0,
    view := false, flags := 0, flagsNow := 0, scratch := 0, claim := none, badlast := false, fails := 0, lockEnd := none, endcause := 0, cmda := 0,
    cmdb := 0, cmdc := 0, submit := 0, snapCh := 0, snapMech := false, spdHold := 0, snapHold := 0, holdCh := none }

/-- The Face after a cold start (R69, R70); nothing drives D or nWAIT. [DESIGN CHOICE: log 18] -/
def coldFace : Face :=
  { masters := Vector.replicate 4 coldMaster, trimlock := false, testlock := false, testen := false, keyTick := none, d := none,
    nwaitLow := false }

/-- The ownership map after a cold start (R100, R3): FREE, ABSENT for what the FY6416-N lacks. -/
def coldOwn (isN : Bool) : Own :=
  { prov := provReset,
    entries := Vector.ofFn (fun i => {
      st := if isN && lacksOnN (objOf i) then .absent else .free, owner := 0, next := none, gen := 0, nextBy := none, atFree := [],
      drainTick := 0, drainN := 0, freeTick := 0, scrubFailed := false, unscrubbed := false }),
    gen := 0, mismatch := false, scrubActive := none, scrubStart := 0, scrubQueue := [], scrubCount := 0 }

/-- A client's Weighbridge state after a cold start. -/
def coldClientWb : ClientWb :=
  { lastSeq := 0, lastTag := 0, lastAccSeq := 0, epochLost := false, refused := false, recovered := false, lastReason := 0,
    refCount := 0, now := 0, refNow := 0, rec0 := 0, rec1 := 0, rec2 := 0, rec3 := 0, mismatch := false }

/-- The Weighbridge after a cold start; CL0 is the first client in the order of R117. [DESIGN CHOICE: log 2, 11] -/
def coldWb (epoch placeN : Nat) : Wb :=
  { asks := [], entries := [], clients := Vector.replicate 16 coldClientWb, patrolNo := 0, patrolled := [], withdrawn := [], corrected := [], placeN := placeN, epoch := epoch,
    halted := false, ctlptr := 15, normptr := 15, lastFetch := none, factory := none, factoryDirect := false }

/-- The calendar after a cold start (Table 5-7). -/
def coldCal : Cal :=
  { offset := 0, wrTick := 0, stage := none, unset := true, endhold := false, badwrite := false, cause := 0, badcount := 0,
    wrcount := 0 }

/-- The power controller at the release of the power-on reset (R165, Tables 6-13, 6-14, 6-17). -/
def coldPower (vdd vbak : Bool) : Power :=
  { state := if vdd then .boot else .backup, step := .a1, stepTick := 0, cold := true, cause := 0, causeMask := 0, brown := false, causeSrc := 0,
    causeTick := 0, causeState := .off, resume := .config, sleepFrom := .config, vdd := vdd, vbak := vbak, nresetLow := false,
    lfclk := true, frac := 0, lfCount := 0, lfLost := false, lfStopped := false, vexcLow := false, reqstat := 0, refuse := 0,
    autoresume := false, wakeen := 0, motionen := false, motionwh := 0, wakecause := 0, runPending := false, sleepPending := false,
    reqTick := 0, quiescent := false, wake := none, motionMoved := false, motionCount := 0, motionArmed := false, rcCold := false,
    lfstop := false, sticky := 0, last := 0, laststate := 0, warmcount := 0, faultsrc := 0, resettick := 0, wdEn := false,
    wdFired := false, wdTimeout := 0x0989, wdCount := 0x0989 * 65536, hostver := 0, serveTick := 0, serveHeld := false,
    wakeAt := none, vbakTick := none, vddTick := 0 }

/-- The images after a cold start: what is nonvolatile is kept (R187, R194). [DESIGN CHOICE: log 5] -/
def coldImages (a b : Slot) (roll : Nat) : Images :=
  { slotA := a, slotB := b, rollctr := roll, rollGoal := none, minimal := false, actSlot := false, actVer := 0, ran := none,
    hostMismatch := false, hostTol := false, hvIgnored := false, accept := none }

/-- A source after a cold start: OK (R456). -/
def coldSource : Source :=
  { st := .ok, unack := false, irqpend := false, pinhold := false, escrun := false, escalated := false, forced := false,
    force := false, level := false, wcount := 0, winTick := 0, deadline := 0, quiet := 0, events := 0, recov := 0, reacts := 0,
    last := 0 }

/-- No status ball is held low. -/
def ballsHigh : Balls := { irq := false, alarm := false, fault := false }

/-- The collector after a cold start: the capture is empty and armed (R467). -/
def coldCollector : Collector :=
  { srcs := Vector.replicate 512 coldSource,
    cap := { valid := false, armed := true,
             ev := { src := 0, tick := 0, master := 0, access := 0, kind := 0, addr := 0, client := none, forced := false,
                     countOnly := false, byReset := false },
             unset := false, calsec := 0, later := 0 },
    alarmPend := false, firstSrc := 0, alarmCount := 0, benched := false, carried := false, cause := 0, causeSrc := 0,
    benchCount := 0, safeTick := 0, releaseTick := 0, selftest := 0, evtstat := Vector.replicate 16 0,
    evtmask := Vector.replicate 16 0, evtNow := Vector.replicate 16 0, alarmNow := false, balls1 := ballsHigh, balls2 := ballsHigh,
    balls3 := ballsHigh, held := [], resets := [], mismatch := false }

/-- The whole part at the release of the power-on reset (R165): TICK is 0, and the next start is cold. [DESIGN CHOICE: log 1] -/
def coldChip (isN vdd vbak : Bool) (a b : Slot) (roll epoch placeN freeN : Nat) : Chip :=
  { isN := isN, tick := 0, face := coldFace, own := coldOwn isN, wb := coldWb epoch placeN, cal := coldCal,
    pw := coldPower vdd vbak, img := coldImages a b roll, mem := { staged := [], active := [], live := [] },
    flt := coldCollector, exc := Vector.replicate 4 excOff, fe := Vector.replicate 16 feZero, trk := Vector.replicate 16 trkZero,
    stays := [], link := linkCold, enc := Vector.replicate 8 encZero, wh := Vector.replicate 4 whZero,
    outs := Vector.replicate 24 outZero, banks := Vector.replicate 8 bankZero, ao := Vector.replicate 8 aoZero,
    lp := Vector.replicate 16 lpZero,
    eng := { boundary := none, turns := Vector.replicate 16 0, groups := Vector.replicate 4 (false, none) },
    raised := [], chipReset := none, blockResets := [], benchNow := false, freeN := freeN }

/-- A slot record after the loss of VDD in tick t (R199): of the records of the last millisecond before it, the one before any of the
changes may stand; which one is a free value. A write that was pending when BACKUP began stays pending in it. [DESIGN CHOICE: log 8] -/
def coldSlot (s : Slot) (t n : Nat) : Slot :=
  let l := s.hist.filter (fun r => decide (t < r.tick + recordTicks))
  match l[Config.slotRecord n % (l.length + 1)]? with
  | some r => { s with st := r.st, pages := r.pages, hist := [] }
  | none => { s with hist := [] }

/-- The oscillator periods for which the power-on reset is held (R165). -/
def porPeriods : Nat := 64

/-- The always-on domain regains a supply: the power-on reset is held; after 64 oscillator periods it is released (R165), with the
supplies that are then present. [DESIGN CHOICE: log 59] -/
def powerOnReset (c : Chip) (vdd vbak : Bool) : Chip :=
  if c.pw.state = .off ∧ (vdd || vbak) = true then
    if (c.pw.vdd || c.pw.vbak) && decide (porPeriods ≤ c.pw.lfCount) then
      coldChip c.isN vdd vbak (coldSlot c.img.slotA c.pw.vddTick c.freeN) (coldSlot c.img.slotB c.pw.vddTick (c.freeN + 1)) c.img.rollctr
        c.wb.epoch c.wb.placeN (c.freeN + 2)
    else { c with pw := { c.pw with vdd := vdd, vbak := vbak, lfCount := if c.pw.vdd || c.pw.vbak then c.pw.lfCount else 0,
                                    lfLost := if c.pw.vdd || c.pw.vbak then c.pw.lfLost else false } }
  else c

end Sys2Proof.Machine
end

