-- ==== Sys2Proof/Machine/State.lean ====
section
/-! DEFINITION. The machine's state: the part and the queue of waiting commands; how a step can stop; the state after reset. -/

namespace Sys2Proof.Machine

/-- The part as it stands, the part as it stood at the start of the current tick, on which a read looks (R22, R35), and the commands
that wait, first in, first out. -/
structure State where
  chip : Chip
  was : Chip
  pending : List Instr
deriving DecidableEq, Repr

/-- Why a step could stop with a fault. No command raises one: the spec gives every command an effect in every state, and
where its conditions do not hold the command leaves the part as it is. -/
inductive Fault where
deriving DecidableEq, Repr

/-- Why a command could have no meaning. -/
inductive Refusal where
  /-- The command has no meaning yet: raised by its arm of exec alone. Safe: the machine stops. -/
  | notModelled (mnemonic : String)
deriving DecidableEq, Repr

/-- A header word of the image in slot A after reset (Table 6-8): version 1.3.2, header only, tested with silicon A1, host
interface version 1 and AY0404 A0, ROLLBACK 3 (Worked example 1 of chapter 6; the rest is a DESIGN CHOICE, log 5).
[DESIGN CHOICE: log 5] -/
def resetImage : Store :=
  [(0, 0x4F565552494D4731), (1, 0x01030002), (2, 0x40), (3, 0x2), (4, 0x1), (5, 0x1), (6, 0x3), (7, 0xA5AC7A8A)]

/-- Slot A after reset: that image, ELIGIBLE (Table 6-11). [DESIGN CHOICE: log 5] -/
def resetSlotA : Slot :=
  { st := .eligible, fail := 0, words := resetImage, pages := 1, erased := 0, readErr := false, hist := [] }

/-- Slot B after reset: EMPTY, FAIL 5 (Table 6-11). [DESIGN CHOICE: log 5] -/
def resetSlotB : Slot :=
  { st := .empty, fail := 5, words := [], pages := 0, erased := 0xFFFF, readErr := false, hist := [] }

/-- The FY6416 in the first tick of CONFIG after the cold start of Table 6-11: TICK 143 112, slot A running 1.3.2, every
client's EPOCHLOST set (R112), CALSTAT.UNSET set, hop 1 about to train (R294). [DESIGN CHOICE: log 1, 2, 4] -/
def resetChip : Chip :=
  let c := coldChip false true true resetSlotA resetSlotB 3 1 0 0
  { c with
    tick := 143112,
    pw := { c.pw with state := .config, step := .dCold, stepTick := 134920, cold := false, causeTick := 0, rcCold := true,
                      lfclk := false, lfCount := 0, serveTick := 143112, serveHeld := true },
    wb := { c.wb with clients := Vector.replicate 16 { coldClientWb with epochLost := true } },
    img := { c.img with actSlot := false, actVer := 0x01030002, ran := some (false, 0x01030002) },
    link := { c.link with hops := upd c.link.hops 0 (fun h => { h with kick := some 143112, stamp := 143112 }) } }

/-- The machine right after reset, with no command waiting. [DESIGN CHOICE: log 1, 4] -/
def State.reset : State := { chip := resetChip, was := resetChip, pending := [] }

end Sys2Proof.Machine
end

