-- ==== Sys2Proof/Machine/FaultOps.lean ====
section
/-! DEFINITION. The warden's operations on the fault collector: FLTACK, FLTINJECT, FAULTPOLICY and SELFTEST (chapter 16),
with EVTACK, ALARMSTAT, LOCK and TESTKEY. -/

namespace Sys2Proof.Machine

/-- A commit of FLTACK (R463, R467, Table 16-14). -/
def commitFltack (c : Chip) (w : Word) : Chip :=
  let c := if bit w 63 then { c with flt := { c.flt with cap := { c.flt.cap with armed := true } } } else c
  let c := if bit w 62 then updSrc c (srcN (fld w 8 0)) ackSource else c
  if bit w 61 then { c with flt := { c.flt with srcs := c.flt.srcs.map ackSource } } else c

/-- A commit of FLTINJECT (R470, R471, Table 16-15). -/
def commitFltinject (c : Chip) (m : Mid) (w : Word) : Chip :=
  let n := srcN (fld w 8 0)
  let r := { faceEvent c n.val m accCommit 25 with forced := true }
  match fld w 63 62 with
  | 1 => raiseR c r
  | 2 => setForce c n true r
  | 3 => setForce c n false r
  | _ => c

/-- A commit of EVTACK by the client k (R469): an event that was raised in this tick stays (R44). -/
def commitEvtack (c : Chip) (k : Client) (w : Word) : Chip :=
  { c with flt := { c.flt with evtstat := upd c.flt.evtstat k (fun v => v &&& (~~~w ||| c.flt.evtNow[k])) } }

/-- A commit of EVTMASK by the client k (Table 16-18). -/
def commitEvtmask (c : Chip) (k : Client) (w : Word) : Chip :=
  { c with flt := { c.flt with evtmask := upd c.flt.evtmask k (fun _ => w) } }

/-- A commit of ALARMSTAT: W1C of PEND (Table 16-16), which stays where it was set in this tick (R44). -/
def commitAlarmstat (c : Chip) (w : Word) : Chip :=
  if bit w 63 && !c.flt.alarmNow then { c with flt := { c.flt with alarmPend := false } } else c

/-- A commit of LOCK: bits can only be set (R69). -/
def commitLock (c : Chip) (w : Word) : Chip :=
  { c with face := { c.face with trimlock := c.face.trimlock || bit w 1, testlock := c.face.testlock || bit w 0 } }

/-- A commit of TESTKEY (R70). -/
def commitTestkey (c : Chip) (m : Mid) (w : Word) : Chip :=
  if c.face.testlock then c
  else
    let k := fld w 15 0
    if k = 0x7E57 then { c with face := { c.face with keyTick := some c.tick } }
    else
      let ok := k = 0x0A11 && (match c.face.keyTick with | some t => decide (c.tick ≤ t + 16000) | none => false)
      let c1 := { c with face := { c.face with keyTick := none, testen := c.face.testen || ok } }
      if ok then raiseR c1 (faceEvent c 7 m accCommit 47) else c1

/-! ### FAULTPOLICY -/

/-- The last source of a FAULTPOLICY's range. -/
def policyLast (e : Entry) : Nat := targetOf e - 0x400 + fld e.cmdb 8 0

/-- The sources of a FAULTPOLICY's range (R474). -/
def policyRange (e : Entry) : List Src :=
  (List.range (fld e.cmdb 8 0 + 1)).filterMap (fun i => fin? 512 (targetOf e - 0x400 + i))

/-- A staged custom policy keeps R473 and R474. -/
def policyValid (c : Chip) (n : Src) : Bool :=
  let w := stg c (srcBase n)
  let t := stg c (srcBase n + 8)
  let noBlock := (srcBlock n).isNone || (c.isN && decide (288 ≤ n.val ∧ n.val < 416))
  let cls := polClass w
  !bit w 63 ||
  ((if isEnv n then decide (cls = 0 ∧ 1 ≤ polN w ∧ 1 ≤ fld w 31 16) else decide (1 ≤ cls)) &&
   decide (1 ≤ fld t 63 48 ∧ fld t 63 48 ≤ 10000 ∧ 1 ≤ fld t 47 32 ∧ fld t 47 32 ≤ 60000) &&
   !(noBlock && (bit w 50 || bit w 42)))

/-- Zero the window count of every source of a range whose N or W changes (R474). -/
def rewindow (old c : Chip) (l : List Src) : Chip :=
  l.foldl (fun c n =>
    if polN (polW old n) ≠ polN (polW c n) ∨ polWin (polW old n) ≠ polWin (polW c n) then
      updSrc c n (fun s => { s with wcount := 0 })
    else c) c

/-- The object addresses of a FAULTPOLICY's range. -/
def policyLo (e : Entry) : Nat := 0x06000000 + 0x40 * (targetOf e - 0x400)
/-- The end of that range. -/
def policyHi (e : Entry) : Nat := 0x06000000 + 0x40 * (policyLast e + 1)

/-- FAULTPOLICY executes (R474). -/
def faultPolicy (c : Chip) (e : Entry) : Chip :=
  let l := policyRange e
  if l.any (fun n => isFixed n && (stg c (srcBase n) ≠ 0 || stg c (srcBase n + 8) ≠ 0)) then refuseLate c e 0x0601
  else if l.any (fun n => !policyValid c n) then refuseLate c e 0x0602
  else doneS (rewindow c { c with mem := c.mem.applyBlock (policyLo e) (policyHi e) } l) e

/-- FAULTPOLICY with DEFAULT executes (R474). -/
def faultPolicyDefault (c : Chip) (e : Entry) : Chip :=
  doneS (rewindow c { c with mem := c.mem.zeroBlock (policyLo e) (policyHi e) } (policyRange e)) e

/-! ### SELFTEST -/

/-- SELFTEST, checkpoint 1 (Table 16-9): PINS only in CONFIG or while Benched. -/
def selftestStart (c : Chip) (e : Entry) : Chip × LStep :=
  if bit e.cmdb 3 && !(inConfig c || benched c) then (c, .final 1 stRefused 0x5401 0)
  else (updEntry c (keyOf e) (fun e => { e with result := 0 }), .pass 1)

/-- A part of SELFTEST fails: FAILED and the lowest failing source of the result word (Table 16-22). -/
def selftestFail (r : Word) (part : Nat) (src : Option Src) : Word :=
  let r1 := r ||| (1#64 <<< (48 + part))
  match src with
  | none => r1
  | some n =>
    if bit r 41 ∧ fld r 40 32 ≤ n.val then r1
    else (r1 &&& ~~~(0x1FF#64 <<< 32)) ||| (1#64 <<< 41) ||| (w64 n.val <<< 32)

/-- A later checkpoint of SELFTEST (Table 16-9, R483): fail says that the part just run failed, src its lowest failing
source. A part that is not selected cannot fail. -/
def selftestStep (c : Chip) (e : Entry) (fail : Bool) (src : Option Src) : Chip × LStep :=
  if 1 ≤ e.ckpt ∧ e.ckpt ≤ 4 then
    let part := e.ckpt - 1
    let r := if fail && bit e.cmdb part then selftestFail e.result part src else e.result
    (updEntry c (keyOf e) (fun e => { e with result := r }), .pass (e.ckpt + 1))
  else if e.ckpt = 5 then
    let failed := fld e.result 51 48 ≠ 0
    let res := e.result ||| (6#64 <<< 56)
    let c := { c with flt := { c.flt with selftest := res } }
    if failed then (raiseR c (evAt c 510 7 0 2 0x818 (some e.client)), .final 6 stFaulted 0x5402 e.result)
    else (c, .final 6 stDone 0 e.result)
  else (c, .none)

end Sys2Proof.Machine
end

