-- ==== Sys2Proof/Machine/Args.lean ====
section
/-! DEFINITION. The argument checks of acceptance (Table 4-2, MALFORMED): each command's reserved bits and argument values. -/

namespace Sys2Proof.Machine

/-- Arguments of CLAIMCFG (Table 3-8). -/
def claimcfgArgsOk (b k : Word) : Bool := decide (fld b 63 45 = 0 ∧ fld b 39 32 = 0) && k = 0

/-- Arguments of FAULTPOLICY (Table 16-22, R474): the range ends at S511 at the latest. -/
def policyArgsOk (t : Nat) (b k : Word) : Bool := decide (fld b 62 9 = 0 ∧ t - 0x400 + fld b 8 0 ≤ 511) && k = 0

/-- Arguments of a control command (Table 4-9, Table 4-2). -/
def ctrlArgsOk (b k : Word) : Bool := decide (fld b 63 36 = 0 ∧ fld b 31 0 ≠ 0) && k = 0

/-- Arguments of STAGEIMAGE (Table 6-18). -/
def stageArgsOk (b k : Word) : Bool :=
  decide (fld b 63 62 ≠ 3 ∧ fld b 61 57 = 0 ∧ fld b 55 4 = 0) &&
  (if fld b 63 62 = 0 then decide (fld k 63 32 = 0) else decide (fld b 3 0 = 0) && k = 0)

/-- Arguments of ACTIVATEIMAGE (Table 6-18). -/
def activateArgsOk (b k : Word) : Bool := decide (fld b 63 9 = 0 ∧ fld b 7 1 = 0) && k = 0

/-- Arguments of SELFTEST (Table 16-22). -/
def selftestArgsOk (b k : Word) : Bool :=
  decide (fld b 63 4 = 0 ∧ fld b 3 0 ≠ 0 ∧ fld k 63 41 = 0 ∧ fld k 31 9 = 0 ∧ fld k 8 0 ≤ fld k 40 32)

/-- Arguments of CALIBRATE (Table 7-12). -/
def calibrateArgsOk (b k : Word) : Bool := decide (fld b 63 48 = 0 ∧ fld b 31 2 = 0 ∧ fld b 1 0 ≤ 1) && k = 0

/-- Arguments of SETMODE for a channel (Table 8-12). -/
def chModeArgsOk (b k : Word) : Bool :=
  match fld b 63 60 with
  | 0 => decide (fld b 59 9 = 0 ∧ fld b 7 2 = 0 ∧ fld b 1 0 ≠ 3) && k = 0
  | 1 => decide (fld b 59 0 = 0)
  | _ => false

/-- Arguments of SATACCEPT (Table 10-22). -/
def acceptArgsOk (b : Word) : Bool := decide (fld b 63 9 = 0 ∧ fld b 7 3 = 0 ∧ 1 ≤ fld b 2 0 ∧ fld b 2 0 ≤ 4)

/-- The argument check of a command's chapter (Table 4-2, R139). [DEDUCED: log 23] -/
def argsOk (a b k : Word) : Bool :=
  let t := fld a 47 32
  match fld a 63 56 with
  | 0x02 => decide (fld b 63 4 = 0) && k = 0
  | 0x05 => claimcfgArgsOk b k
  | 0x06 => policyArgsOk t b k
  | 0x0A => b = 0xFAC7 && k = 0
  | 0x11 => calibrateArgsOk b k
  | 0x12 => tuneArgsOk b k
  | 0x13 => learnArgsOk b
  | 0x22 => if t < 16 then chModeArgsOk b k else lpModeArgsOk b k
  | 0x23 => k = 0
  | 0x24 => notchArgsOk b k
  | 0x30 => eventArgsOk k
  | 0x31 => decide (fld b 63 1 = 0)
  | 0x40 | 0x41 | 0x42 => ctrlArgsOk b k
  | 0x50 => stageArgsOk b k
  | 0x51 => activateArgsOk b k
  | 0x52 => spanArgsOk t b k
  | 0x54 => selftestArgsOk b k
  | 0x60 => acceptArgsOk b
  | _ => b = 0 && k = 0

end Sys2Proof.Machine
end

