-- ==== Sys2Proof/Machine/Registers.lean ====
section
/-! DEFINITION. The 48 registers of the Face (Table 2-4): what a halfword 0 read latches, what a commit writes, and the four
kinds of bus access (R36 to R49). -/

namespace Sys2Proof.Machine

/-! ### Read words -/

/-- A filtered field (R49). -/
def filtered (c : Chip) (k : Client) (i : ObjIx) (v : Nat) : Nat := if k = 0 || ownerOf c i = some k then v else 0

/-- DISCOVERY as a client reads it (R237, R49). -/
def discoveryRead (c : Chip) (k : Client) : Word :=
  pack ((allFin 16).map (fun n => (3 * n.val, 3, filtered c k (ixCh n) c.fe[n].field)) ++
    (allFin 16).map (fun n => (48 + n.val, 1, filtered c k (ixCh n) (b2n (c.fe[n].attn)))))

/-- WHEELSTAT as a client reads it (R344). -/
def wheelstatRead (c : Chip) (k : Client) : Word :=
  pack ((allFin 4).map (fun w => (16 * w.val, 16, filtered c k (ixWh w) (wheelstatField c w))))

/-- HOPSTAT as a client reads it (R372). -/
def hopstatRead (c : Chip) (k : Client) : Word :=
  pack ((allFin 24).map (fun o => (2 * o.val, 2, filtered c k (ixOut o) (outCode c.outs[o].enabled c.outs[o].trip c.outs[o].level))) ++
    (allFin 8).map (fun b => (48 + 2 * b.val, 2, filtered c k (ixHsb b) (outCode c.banks[b].enabled c.banks[b].trip c.banks[b].level))))

/-- LOOPSTAT as a client reads it (R430). -/
def loopstatRead (c : Chip) (k : Client) : Word :=
  pack ((allFin 16).map (fun n => (4 * n.val, 4, filtered c k (ixLp n) (loopstatField c.lp[n]))))

/-- DACSTAT as a client reads it (R451). -/
def dacstatRead (c : Chip) (k : Client) : Word :=
  pack ((allFin 8).map (fun a => (8 * a.val, 8, filtered c k (ixAo a) (dacstatField c.ao[a]))))

/-- SCRUBSTAT (Table 3-11). -/
def scrubstatWord (c : Chip) : Word :=
  match c.own.scrubActive with
  | some i => pack [(63, 1, 1), (56, 7, i.val), (48, 8, c.own.scrubQueue.length),
      (16, 16, c.own.scrubStart + scrubLen c i - c.tick), (0, 16, c.own.scrubCount)]
  | none => pack [(48, 8, c.own.scrubQueue.length), (0, 16, c.own.scrubCount)]

/-- SNAPSEL (Table 8-11). -/
def snapselWord (s : Master) : Word := pack [(60, 4, s.snapCh.val), (59, 1, b2n s.snapMech)] ||| (s.snapHold &&& 0x00FFFFFFFFFFFFFF#64)

/-- OBJADDR (Table 2-10). -/
def objaddrWord (s : Master) : Word := pack [(32, 1, b2n s.view), (3, 29, s.addr)]

/-- AGE of a captured output (R263). -/
def ageOf (tick stamp : Nat) : Nat := min 0xFFFF (tick - 1 - stamp)

/-- ANGSNAP is refused: the channel is not the client's (R263). -/
def angsnapRefuse (c : Chip) (m : Mid) : Chip := raiseR (setFlag c m 6) (faceEvent c 40 m accRead 32)

/-- The capture of ANGSNAP by a client (R261 to R263): the hold is filled from v, and the angle is what the read latches. -/
def angsnapCapture (v c : Chip) (m : Mid) (k : Client) : Chip × Word :=
  let s := mst c m
  let n := s.snapCh
  let t := v.trk[n]
  if ownerOf v (ixCh n) = some k then
    (updM c m (fun s => { s with
        spdHold := w64i (if s.snapMech then t.mechspd else t.elecspd),
        snapHold := pack [(48, 8, qualOf t), (32, 16, ageOf c.tick t.outtick), (0, 32, t.outtick)], holdCh := some n }),
      w64i (if s.snapMech then t.mechang else t.elecang))
  else
    (angsnapRefuse (updM c m (fun s => { s with spdHold := 0, snapHold := pack [(48, 8, 4)], holdCh := none })) m, 0)

/-- What a halfword 0 read of a register latches, for a master that Table 2-4 permits, with the side effect of the read
(R39, R40, R51, R52, R126): the value as it stood in v, at the start of the tick (R22, R35), the effect on c. ecc is what the read
of a retention word finds (R55), w the word of a journal entry. -/
def regRead (v c : Chip) (m : Mid) (r : Fin 64) (ecc : Ecc) (w : Fin 8) : Chip × Word :=
  let s := mst c m
  let k := s.claim.getD 0
  match r.val with
  | 0 => (c, identWord v)
  | 1 => (c, capsWord v)
  | 2 => (c, w64 v.pw.hostver)
  | 4 => (c, clientWord v m)
  | 5 => (c, s.cmda)
  | 6 => (c, s.cmdb)
  | 7 => (c, s.cmdc)
  | 8 => (c, s.submit)
  | 9 => (c, cmdackWord v k)
  | 10 => ({ c with wb := { c.wb with clients := upd c.wb.clients k (fun x => { x with refCount := x.refNow }) } }, cmdstatWord v k)
  | 11 => completionRead v c m k ecc w
  | 12 => (c, objaddrWord s)
  | 13 => objRead v c m ecc
  | 14 => let p := objRead v c m ecc; (objAdvance p.1 m, p.2)
  | 15 => (c, objstatWord s)
  | 16 => (c, v.flt.evtstat[k])
  | 17 => (c, v.flt.evtmask[k])
  | 19 => (c, alarmstatWord v)
  | 20 => (c, fltcapaWord v)
  | 21 => (c, fltcapbWord v)
  | 22 => (c, fltcapcWord v)
  | 23 => (c, fltackWord v)
  | 24 => (c, fltsummaryWord v)
  | 25 => (c, fltinjectWord v)
  | 26 => (c, w64 v.tick)
  | 27 => (c, caldateWord v)
  | 28 => (c, caltimeWord v)
  | 29 => (c, powerctlWord v)
  | 30 => (c, resetcauseWord v)
  | 31 => (c, imagestatWord v)
  | 32 => angsnapCapture v c m k
  | 33 => (c, s.spdHold)
  | 34 => (c, snapselWord s)
  | 35 => (c, wdogWord v)
  | 36 => (c, linkstatWord v)
  | 37 => (c, discoveryRead v k)
  | 38 => (c, wheelstatRead v k)
  | 39 => (c, hopstatRead v k)
  | 40 => (c, loopstatRead v k)
  | 41 => (c, dacstatRead v k)
  | 42 => (c, ownmapWord v)
  | 43 => (c, scrubstatWord v)
  | 44 => (c, safestatWord v)
  | 45 => (c, s.scratch)
  | 46 => (c, pack [(1, 1, b2n v.face.trimlock), (0, 1, b2n v.face.testlock)])
  | 47 => (c, pack [(63, 1, b2n v.face.testen)])
  | _ => (c, 0)

/-! ### Commits -/

/-- W1C of CMDSTAT by a client (Table 4-15): a bit that was set in this tick stays (R44). -/
def commitCmdstat (c : Chip) (k : Client) (w : Word) : Chip :=
  { c with wb := { c.wb with clients := upd c.wb.clients k (fun v => { v with
    epochLost := v.epochLost && (!bit w 63 || v.now.getLsbD 2), refused := v.refused && (!bit w 62 || v.now.getLsbD 1),
    recovered := v.recovered && (!bit w 61 || v.now.getLsbD 0) }) } }

/-- W1C of OBJSTAT (Table 2-11): a flag that was set in this tick stays (R44). -/
def commitObjstat (c : Chip) (m : Mid) (w : Word) : Chip :=
  updM c m (fun s => { s with flags := s.flags &&& (~~~(w.truncate 11) ||| s.flagsNow) })

/-- A commit of SNAPSEL (R260). -/
def commitSnapsel (c : Chip) (m : Mid) (w : Word) : Chip :=
  updM c m (fun s => { s with snapCh := ⟨fld w 63 60 % 16, Nat.mod_lt _ (by decide)⟩, snapMech := bit w 59 })

/-- The submissions whose decision tick has come are decided (R105): no decision moves an object or writes a word. -/
def decideDue (c : Chip) : Chip :=
  let d := c.wb.asks.foldl (fun (c : Chip) (a : Ask) =>
    if a.due ≤ c.tick then decideAsk { c with wb := { c.wb with asks := c.wb.asks.erase a } } a (argsOk a.cmda a.cmdb a.cmdc)
    else c) c
  { d with isN := c.isN, tick := c.tick, own := c.own, mem := c.mem }

/-- What an accepted commit of the word w does (R43), for a master that Table 2-4 permits. -/
def regWrite (c : Chip) (m : Mid) (r : Fin 64) (w : Word) : Chip :=
  let s := mst c m
  let k := s.claim.getD 0
  match r.val with
  | 2 => commitHostver c m w
  | 3 => commitClaim c m w
  | 5 => updM c m (fun s => { s with cmda := w })
  | 6 => updM c m (fun s => { s with cmdb := w })
  | 7 => updM c m (fun s => { s with cmdc := w })
  | 8 => decideDue (submit c m k w)
  | 10 => commitCmdstat c k w
  | 12 => updM c m (fun s => { s with addr := fld w 31 3, view := bit w 32 })
  | 13 => objWrite c m w
  | 14 => objAdvance (objWrite c m w) m
  | 15 => commitObjstat c m w
  | 17 => commitEvtmask c k w
  | 18 => commitEvtack c k w
  | 19 => commitAlarmstat c w
  | 23 => commitFltack c w
  | 25 => commitFltinject c m w
  | 27 => stageDate c w
  | 28 => calendarWrite c m w s.claim
  | 29 => commitPowerctl c w
  | 30 => commitResetcause c w
  | 34 => commitSnapsel c m w
  | 35 => commitWdog c m w
  | 45 => updM c m (fun s => { s with scratch := w })
  | 46 => commitLock c w
  | 47 => commitTestkey c m w
  | _ => c

/-! ### Bus accesses (R36 to R48) -/

/-- An access while the Face holds the bus counts on S008 without its window (R38). [DEDUCED: log 20] -/
def heldAccess (c : Chip) (m : Mid) (acc : Nat) (r : Fin 64) : Chip :=
  raiseR c { faceEvent c 8 m acc r with countOnly := true }

/-- An access while the Face does not serve, in the condition f: what it drives, and what it counts (Table 2-3). -/
def unserved (c : Chip) (f : FaceCond) (m : Mid) (acc : Nat) (r : Fin 64) : Chip :=
  match f with
  | .highZ => driveD c none false
  | .dead => driveD c (if acc = accRead then some deadHalf else none) false
  | _ => heldAccess (driveD c (if acc = accRead then some deadHalf else none) true) m acc r

/-- The OBJDATAINC increment (R52). [DEDUCED: log 20] -/
def bump (c : Chip) (m : Mid) (r : Fin 64) : Chip := if r.val = 14 then objAdvance c m else c

/-- An access that Table 2-4 does not permit (R48): DENIED, and S040 with the Face offset. [DEDUCED: log 20] -/
def deny (c : Chip) (m : Mid) (acc : Nat) (r : Fin 64) : Chip := raiseR (setFlag c m 5) (faceEvent c 40 m acc r)

/-- The read shadow takes a latched word (R39). -/
def latch (c : Chip) (m : Mid) (r : Fin 64) (w : Word) : Chip :=
  driveD (updM c m (fun s => { s with rdVal := w, rdTag := some r })) (some (halfOf w 0)) false

/-- A halfword 0 read that the Face serves (R39, R48). -/
def readLow (v c : Chip) (m : Mid) (r : Fin 64) (ecc : Ecc) (w : Fin 8) : Chip :=
  if permits (readPerm r) (mst c m).claim then
    let p := regRead v c m r ecc w
    latch p.1 m r p.2
  else latch (bump (deny c m accRead r) m r) m r 0

/-- A read of halfword 1, 2 or 3 that the Face serves (R39). -/
def readHigh (c : Chip) (m : Mid) (r : Fin 64) (h : Fin 4) : Chip :=
  let s := mst c m
  if s.rdTag = some r then driveD c (some (halfOf s.rdVal h.val)) false
  else driveD (setFlag c m 3) (some 0) false

/-- A read access of a halfword (R39, R47): its read latch tick is its synchronised start (Table 2-2). -/
def busRead (v c : Chip) (m : Mid) (r : Fin 64) (h : Fin 4) (ecc : Ecc) (w : Fin 8) : Chip :=
  if faceCond c = .serves then
    if mapped r then (if h = 0 then readLow v c m r ecc w else readHigh c m r h)
    else driveD (unmapped c m accRead r h.val) (some 0) false
  else unserved c (faceCond c) m accRead r

/-- A write access to halfword 0, 1 or 2 (R41, R47). -/
def busShadow (c : Chip) (m : Mid) (r : Fin 64) (h : Fin 3) (d : Half) : Chip :=
  if faceAt c writeTicks = .serves then
    if mapped r then driveD (shadowWrite c m r h d) none false
    else driveD (unmapped c m accWrite r h.val) none false
  else unserved c (faceAt c writeTicks) m accWrite r

/-- A write to halfword 3 that the Face serves, of a register that exists (R42, R43, R48, R52). -/
def commitAt (c : Chip) (m : Mid) (r : Fin 64) (d : Half) : Chip :=
  let s := mst c m
  if writePerm r = .none then emptyShadow c m
  else if permits (writePerm r) s.claim = false then bump (deny (emptyShadow c m) m accCommit r) m r
  else if shadowReady s r then regWrite (emptyShadow c m) m r (shadowWord s d)
  else bump (raiseR (setFlag (emptyShadow c m) m 1) (faceEvent c 44 m accCommit r)) m r

/-- A write access to halfword 3: a commit request (R42, R43, R47). -/
def busCommit (c : Chip) (m : Mid) (r : Fin 64) (d : Half) : Chip :=
  if faceAt c writeTicks = .serves then
    if mapped r then driveD (commitAt c m r d) none false
    else driveD (unmapped c m accCommit r 3) none false
  else unserved c (faceAt c writeTicks) m accCommit r

/-- The access type of a capture: a write to halfword 3 is a commit (Table 16-5). -/
def accOf (read : Bool) (h : Fin 4) : Nat := if read then accRead else if h = 3 then accCommit else accWrite

/-- A protocol error (R33): nothing is driven, latched or written; UNMAPPED and S045. [DEDUCED: log 20] -/
def protocolError (c : Chip) (m : Mid) (r : Fin 64) (h : Fin 4) (write : Bool) : Chip :=
  if faceCond c = .serves then
    driveD (unmapped c m (accOf (!write) h) r h.val) none false
  else unserved c (faceCond c) m (accOf (!write) h) r

/-- The flags that a served access sets before the bus timeout ends it: a refused read, one without a latch, or one of an object
word or channel that its master may not read (R39, R47, R48, R54, R263). [DEDUCED: log 20] -/
def timeoutFlags (v c : Chip) (m : Mid) (r : Fin 64) (h : Fin 4) (read : Bool) : Chip :=
  if mapped r = false then unmapped c m (accOf read h) r h.val
  else if read then
    if h = 0 then
      (if permits (readPerm r) (mst c m).claim then
        (if r.val = 13 ∨ r.val = 14 then (objRead v c m .clean).1
         else if r.val = 32 ∧ ownerOf v (ixCh (mst c m).snapCh) ≠ (mst c m).claim then angsnapRefuse c m
         else c)
       else deny c m accRead r)
    else if (mst c m).rdTag = some r then c
    else setFlag c m 3
  else c

/-- An access that the bus timeout ends, 1600 ticks after its start (R37, R38, R40): 0xDEAD, no side effect, the write
discarded, S008; the tag of the read shadow is cleared for a read of any offset, of one that holds no register too.
[DESIGN CHOICE: log 63] -/
def busTimeout (v c : Chip) (m : Mid) (r : Fin 64) (h : Fin 4) (read : Bool) : Chip :=
  let acc := accOf read h
  match faceAt c timeoutTicks with
  | .highZ => driveD c none false
  | .dead => driveD c (if read then some deadHalf else none) false
  | .held => heldAccess (driveD c (if read then some deadHalf else none) false) m acc r
  | .serves =>
    let c := timeoutFlags v c m r h read
    let c := if read then updM c m (fun s => { s with rdTag := none }) else c
    raiseR (driveD c (if read then some deadHalf else none) false) (faceEvent c 8 m acc r)

end Sys2Proof.Machine
end

