-- ==== Sys2Proof/Machine/Configure.lean ====
section
/-! DEFINITION. The commands that act on an object of any kind: APPLY, ENABLE, DISABLE, SETMODE of a channel, and the
executor's view of the other object commands (R57, R97, R240, R258). -/

namespace Sys2Proof.Machine

/-! ### APPLY (R57) -/

/-- The refusal of an APPLY of an ownable object, 0 if it commits. [DEDUCED: log 25] -/
def applyCheck (c : Chip) (o : Obj) : Nat :=
  match o with
  | .ch n => if feCheck c n ≠ 0 then feCheck c n else trkCheck c n
  | .wh w => whCheck c w
  | .out x => outCheckApply c x
  | .hsb _ => 0
  | .lp n => lpCheck c n
  | .ao a => aoCheck c a
  | .enc e => encCheck c e
  | .sat k => satCheck c k

/-- The staged block of an address range comes into force (R57). -/
def applyRange (c : Chip) (lo hi : Nat) : Chip := { c with mem := c.mem.applyBlock lo hi }

/-- What the block does in the tick in which its configuration comes into force; c is the part before. -/
def applyEffect (old c : Chip) (o : Obj) : Chip :=
  match o with
  | .ch n => lanesApplied (feApplied c n (fecfg old n))
  | .sat k => satApplied c k (satcfg old k)
  | .enc e => encApplied c e
  | _ => c

/-- APPLY of an ownable object executes (R57). -/
def applyOwned (c : Chip) (e : Entry) (i : ObjIx) : Chip :=
  let o := objOf i
  let r := applyCheck c o
  if r ≠ 0 then refuseLate c e r
  else
    let d := applyRange c (objBase o) (objBase o + objSpan o)
    let m := match o with | .enc x => encKept d.mem x | _ => d.mem
    doneS { applyEffect c d o with mem := m } e

/-- APPLY of a generator (R202, R203) or of the event router (R375) executes. -/
def applySystem (c : Chip) (e : Entry) : Chip :=
  if targetOf e = 0x300 then
    (if routerCheck c ≠ 0 then refuseLate c e (routerCheck c)
     else doneS (applyRange c 0x0C000000 0x0C000010) e)
  else
    match fin? 4 (targetOf e - 0x200) with
    | none => c
    | some g =>
      if excCheck c g ≠ 0 then refuseLate c e (excCheck c g)
      else doneS (excApplied (applyRange c (excAddr g) (excAddr g + 8)) g (excCfg c g)) e

/-- APPLY executes (R57): a command whose NEXT changed away is refused (R96). -/
def applyCommand (c : Chip) (e : Entry) : Chip :=
  match targetObj e with
  | none => applySystem c e
  | some i => if ownerOf c i = some e.client then applyOwned c e i else refuseLate c e 0x0013

/-! ### ENABLE and DISABLE -/

/-- The configuration in force of an object is all zero (R97). -/
def allZero (c : Chip) (o : Obj) : Bool := (storeIn c.mem.active (objBase o) (objBase o + objSpan o)).isEmpty

/-- ENABLE of an object by its kind: the part after it, and the detail with which it is refused, 0 if it commits. -/
def enableBlock (c : Chip) (o : Obj) : Chip × Nat :=
  match o with
  | .ch n => if feEnableCheck c n ≠ 0 then (c, feEnableCheck c n) else (trkEnable c n, 0)
  | .wh w => (whEnable c w, 0)
  | .out x => let r := outEnable c x; (r.1, if r.2 then 0 else 0x2004)
  | .hsb b => let r := bankEnable c b; (r.1, if r.2 then 0 else 0x2004)
  | .lp n => (lpEnable c n, 0)
  | .ao a => aoEnable c a
  | .enc e => (encEnable c e, 0)
  | .sat _ => (c, 0)

/-- ENABLE executes (R97, Table 4-3). [DEDUCED: log 25] -/
def enableCommand (c : Chip) (e : Entry) (i : ObjIx) : Chip :=
  let o := objOf i
  notInConfig c e (
    if allZero c o then refuseLate c e 0x0010
    else
      let r := enableBlock c o
      if r.2 ≠ 0 then refuseLate c e r.2 else doneS r.1 e)

/-- DISABLE of an object by its kind. -/
def disableBlock (c : Chip) (o : Obj) : Chip :=
  match o with
  | .ch n => trkDisable c n
  | .wh w => whDisable c w
  | .out x => outDisable c x
  | .hsb b => bankDisable c b
  | .lp n => lpDisable c n
  | .ao a => aoDisable c a
  | .enc e => encDisable c e
  | .sat _ => c

/-- DISABLE executes. -/
def disableCommand (c : Chip) (e : Entry) (i : ObjIx) : Chip := doneS (disableBlock c (objOf i)) e

/-! ### SETMODE of a channel (R240, R258) -/

/-- SETMODE with OP MODE of a channel executes (Table 8-13). -/
def chModeCommand (c : Chip) (e : Entry) (n : Fin 16) : Chip :=
  if c.trk[n].st = .disabled then refuseLate c e 0x2201
  else doneS (trkSetMode c n (fld e.cmdb 1 0) (bit e.cmdb 8)) e

/-- An enabled emulator, Hopper output or loop takes a channel as input (R258). -/
def channelTaken (c : Chip) (n : Fin 16) : Bool :=
  (allFin 8).any (fun e => c.enc[e].st ≠ .disabled && encSrc (enccfg c e) = n) ||
  (allFin 24).any (fun o => c.outs[o].enabled && baseIsCh (outcfg c o) && baseCh (outcfg c o) = n) ||
  (allFin 16).any (fun m => c.lp[m].mode ≠ .disabled &&
    (sigList (lpsig c m)).any (fun s => decide (sigInfo s = some (some (ixCh n)))))

/-- SETMODE with OP ANCHOR executes (R258). [DEDUCED: log 25] -/
def anchorCommand (c : Chip) (e : Entry) (n : Fin 16) : Chip :=
  let k := anchorTurns c n e.cmdc.toInt
  if c.trk[n].st = .disabled then refuseLate c e 0x2201
  else if c.trk[n].st ≠ .locked then refuseLate c e 0x2202
  else if channelTaken c n then refuseLate c e 0x2204
  else if k.2 = false then refuseLate c e 0x2203
  else doneS (anchorApply c n k.1) e

/-! ### Satellite bindings (R299) -/

/-- SATACCEPT executes. -/
def acceptCommand (c : Chip) (e : Entry) : Chip :=
  match fin? 4 (targetOf e - 84), fin? 4 (fld e.cmdb 2 0 - 1) with
  | some k, some h =>
    let r := acceptRefusal c k h e.cmdc (bit e.cmdb 8)
    if r ≠ 0 then refuseLate c e r else doneS (satAccept c k h e.cmdc) e
  | _, _ => c

/-- SATRELEASE executes. -/
def releaseCommand (c : Chip) (e : Entry) : Chip :=
  match fin? 4 (targetOf e - 84) with
  | some k => if releaseRefusal c k ≠ 0 then refuseLate c e (releaseRefusal c k) else doneS (satRelease c k) e
  | none => c

/-! ### Checkpoints of every long operation (R123) -/

/-- The next step of a long operation after its checkpoint 1: data are the measurements that the step reads (Tables 7-2,
7-4), its verification result, or the failure of a self-test part with its lowest failing source. [DEDUCED: log 25] -/
def longStep (c : Chip) (e : Entry) (data : List Int) : Chip × LStep :=
  match opcodeOf e with
  | 0x10 => (match fin? 16 (targetOf e) with | some n => discoverStep c e n data | none => (c, .none))
  | 0x11 => (match fin? 16 (targetOf e) with | some n => calibrateStep c e n data | none => (c, .none))
  | 0x12 => (match fin? 16 (targetOf e - 52) with | some n => tuneStep c e n | none => (c, .none))
  | 0x13 => (match fin? 4 (targetOf e - 16) with | some w => learnStep c e w | none => (c, .none))
  | 0x50 => stageStep c e (data.headD 1 ≠ 0)
  | 0x52 => (match fin? 8 (targetOf e - 68) with | some a => spanStep c e a | none => (c, .none))
  | 0x54 => selftestStep c e (data.headD 0 ≠ 0) (match data with | _ :: s :: _ => fin? 512 s.toNat | _ => none)
  | _ => (c, .none)

/-! ### Retention errors (R110, R113, R114) -/

/-- The patrol's period (R110). -/
def patrolPeriod : Nat := 16777216

/-- The patrol has read a word in its current period (R110). -/
def patrolDone (c : Chip) (indexed : Bool) (addr : Nat) : Bool :=
  decide (c.wb.patrolNo = c.tick / patrolPeriod) && c.wb.patrolled.contains (indexed, addr)

/-- The patrol reads a word: once in each period of 16 777 216 ticks (R110), which the model counts from TICK 0.
[DESIGN CHOICE: log 47] -/
def patrolMark (c : Chip) (indexed : Bool) (addr : Nat) : Chip :=
  let p := c.tick / patrolPeriod
  { c with wb := { c.wb with
    patrolNo := p, patrolled := (indexed, addr) :: (if c.wb.patrolNo = p then c.wb.patrolled else []) } }

/-- What the patrol's read of a retention word finds (R110, R500): addr is its object address, or with indexed its word
index. -/
def patrolRead (c : Chip) (indexed : Bool) (addr : Nat) (ecc : Ecc) : Chip :=
  let jw := if indexed then none else journalWord addr
  let k := (c.wb.entries.find? (fun e => jw = some (e.loc, addr % 0x40 / 8))).map (fun e => e.client)
  if serving c && !patrolDone c indexed addr then
    let c := patrolMark c indexed addr
    match ecc with
    | .clean => c
    | .single => retCorrected c (evAt c 64 10 accRead (if indexed then 0 else 2) addr k) jw
    | .double => retUncorr c (evAt c 65 10 accRead (if indexed then 0 else 2) addr k)
  else c

end Sys2Proof.Machine
end

