-- ==== Sys2Proof/Machine/Time.lean ====
section
/-! DEFINITION. Time: what the part does of its own in a tick, and how ticks pass before a command (R22, R142). -/

namespace Sys2Proof.Machine

/-- The step that a resumption starts counts from the tick before, whose commands and retirements gave it its slot (R22); after a wake,
from the tick of the wake. [DESIGN CHOICE: log 45] -/
def stepSince (c : Chip) (e : Entry) (tick : Nat) : Chip :=
  if e.cause = .sleep then c
  else updEntry c (keyOf e) (fun x => if x.state = .active ∧ x.ckTick = tick then { x with ckTick := tick - 1 } else x)

/-- Give free slots to resumed long operations, oldest first (R118, Table 4-19); one whose satellite is absent is held in
that tick (R137); one whose NEXT changed away is retired REFUSED_LATE (R96). A SCRUB takes no slot, and does not start while Benched
(R99). -/
def grantSlots (c : Chip) : Chip :=
  if serving c = false ∨ c.pw.sleepPending = true then c
  else
    c.wb.entries.foldl (fun (c : Chip) (e : Entry) =>
      if resumeTurn c e = false then c
      else if resumesOwned c e = false then refuseLate c e 0x0013
      else if (if opcodeOf e = 0x53 then !benched c else decide (slotsUsed c < 4)) then
        stepSince (resumeBlock (updEntry c (keyOf e) (fun e => { e with
          state := .active, mark := if e.mark = .resume then .none else e.mark, resumed := false })) (keyOf e)) e c.tick
      else c) c

/-- The level sources whose condition a block holds as a flag: they stand after a reset too (R485), and end with it. -/
def standingLevels (c : Chip) : Chip :=
  let c := (allFin 16).foldl (fun (c : Chip) (n : Fin 16) =>
    levelB (levelB (levelB c (100 + 8 * n.val) c.fe[n].calrefbad) (101 + 8 * n.val) c.trk[n].div) (418 + 4 * n.val) c.lp[n].checkfail) c
  let c := (allFin 24).foldl (fun (c : Chip) (o : Fin 24) =>
    levelB (levelB c (320 + 3 * o.val) (c.outs[o].trip && c.outs[o].rbBad)) (322 + 3 * o.val) c.outs[o].mismatch) c
  (allFin 8).foldl (fun (c : Chip) (a : Fin 8) =>
    levelB (levelB (levelB (levelB c (392 + 3 * a.val) (c.banks[a].trip && c.banks[a].rbBad)) (394 + 3 * a.val) c.banks[a].mismatch)
      (482 + 3 * a.val) c.ao[a].checkfail) (226 + 4 * a.val) (c.enc[a].st = .lagstop)) c

/-- What the blocks do of their own in one tick, each on what the others produced before it (R22): the blocks stand against
the direction in which values flow, so that a block acts before the ones that feed it. Outside the running states only the
analog outputs follow (Table 6-4). [DEDUCED: log 15] -/
def blocksRound (c : Chip) : Chip :=
  if serving c then
    let c := clearTrigs (loopTriggers c)
    let c := clearNotes (hopperState ((allFin 8).foldl aoState c))
    let c := if c.isN then c else (allFin 4).foldl wheelState c
    let c := (allFin 8).foldl encState (linkState ((allFin 4).foldl satState c))
    let c := (allFin 16).foldl trackState c
    standingLevels ((allFin 16).foldl superviseState c)
  else
    let c := (allFin 8).foldl aoState c
    clearTrigs (clearNotes { c with enc := c.enc.map (fun x => { x with benchhold := outputsHeld c }) })

/-- The collector's work of one tick: it processes the events that were raised before it (R466), the Bench decision reaches the
outputs 2 ticks after it (Table 1-2), and the block resets that are due begin; where it does not run, events are held (R495). -/
def collectorRound (c : Chip) : Chip :=
  if collectorRuns c then
    let l := c.raised
    let c := processAll { c with raised := [] } l c.tick
    let c := if c.benchNow && decide (c.flt.safeTick + 2 ≤ c.tick) then benchBlocks { c with benchNow := false } else c
    beginBlockResets c
  else holdRaised c

/-- One tick's own work of the part. -/
def round (c : Chip) : Chip := blocksRound (collectorRound (grantSlots (noteBalls c)))

/-- A wake completes in this tick (Table 6-7). -/
def wakeDue (c : Chip) : Bool :=
  c.pw.state = .sleep && (match c.pw.wakeAt with | some t => decide (t ≤ c.tick) | none => false)

/-- The part's own work of a tick in which no chip reset takes effect: a wake may complete, the submissions that are due are decided, and
every block and the collector take what the tick before left (R22). -/
def ownWork (c : Chip) : Chip :=
  let c := decideDue (if wakeDue c then wakeDone c else c)
  keep c (round c)

/-- What the part does of its own in a tick: a chip reset that is due takes effect, or its work of the tick runs.
[DEDUCED: log 15] -/
def settle (c : Chip) : Chip :=
  match c.chipReset with
  | some r => if r.tick ≤ c.tick then takeChipReset c r else ownWork c
  | none => ownWork c

/-! ### Time passes -/

/-- What was set in this tick is no longer new (R44); the data balls and nWAIT are released (R31, Table 2-2). [DESIGN CHOICE: log 63] -/
def clearNow (c : Chip) : Chip :=
  { c with
    face := { c.face with d := none, nwaitLow := false, masters := c.face.masters.map (fun m => { m with flagsNow := 0 }) },
    wb := { c.wb with clients := c.wb.clients.map (fun k => { k with now := 0, refNow := 0 }) },
    flt := { c.flt with evtNow := Vector.replicate 16 0, alarmNow := false } }

/-- n ticks of SYSCLK pass on the clocks alone (R142): TICK counts them, the watchdog counts down in the running states (R173),
and the journal work whose time has come is done: the entries whose 2 ticks have passed are written RETIRED (R115), the items of a
drain are retired (R92), and records that have waited 16 ticks are merged (R130). Off SYSCLK only LF_TICK moves TICK. [DESIGN CHOICE: log 12, 13] -/
def advance (c : Chip) (n : Nat) : Chip :=
  if onSysclk c then
    let c := clearNow { c with tick := c.tick + n }
    let c := if c.pw.wdEn && serving c then { c with pw := { c.pw with wdCount := c.pw.wdCount - n } } else c
    if serving c then keep c (mergeLate (drainItems (retireDue c))) else c
  else c

/-- One tick: TICK counts it, and the part does its own work of it. -/
def tickOnce (c : Chip) : Chip := if onSysclk c then settle (advance c 1) else c

/-- n ticks, each with the part's own work. -/
def ticks (c : Chip) (n : Nat) : Chip :=
  match n with
  | 0 => c
  | k + 1 => ticks (tickOnce c) k

/-- A rising edge of the 32.768 kHz oscillator, and the part's own work where TICK moves by it (R143). -/
def clockEdge (c : Chip) : Chip :=
  let d := lfTick c
  if d.tick = c.tick then d else settle (clearNow d)

/-- Within this many ticks everything that a command set off in the part has run its course (R22, Tables 1-2, 16-4). -/
def settleTicks : Nat := 16

/-- n ticks of SYSCLK pass: the part does its own work in the first of them, and thereafter nothing moves but the clocks, until
the next command. [DESIGN CHOICE: log 13; DEDUCED: log 15] -/
def passTicks (c : Chip) (n : Nat) : Chip :=
  if n ≤ settleTicks then ticks c n else advance (ticks c settleTicks) (n - settleTicks)

/-- The tick of the commit point of a fetched S or D command that nothing holds (R115): none for any other. -/
def commitTickOf (c : Chip) (e : Entry) : Option Nat :=
  if e.state = .active && !e.commit && e.kind ≠ .l && !execHeld c e && !(opcodeOf e = 0x0A && c.wb.factory.isSome) then
    some (e.fetchTick + commitLatest (opcodeOf e))
  else none

/-- The ticks that pass before a command: TICK does not go past the commit point of a fetched S or D command before that command has
executed (R115). [DESIGN CHOICE: log 24] -/
def ticksBefore (c : Chip) (dt : Nat) : Nat :=
  if serving c then
    c.wb.entries.foldl (fun n e => match commitTickOf c e with | some t => min n (t - c.tick) | none => n) dt
  else dt

end Sys2Proof.Machine
end

