-- ==== Sys2Proof/Machine/Exec.lean ====
section
/-! DEFINITION. How a command acts on the state: ticks pass, and its effect takes place; what the part makes of it follows in the next
tick (R22). Each form says which of the variant, TICK, the ownership map, the object words and the Face a command of the form
leaves alone. -/

namespace Sys2Proof.Machine

/-- The part at the start of the tick in which a command comes, dt ticks after the last one, and the part in that tick, after its own
work of the tick (R22). [DESIGN CHOICE: log 12, 13] -/
def lapse (s : State) (dt : Nat) : Chip × Chip :=
  match ticksBefore s.chip dt with
  | 0 => (s.was, s.chip)
  | n + 1 =>
    let b := passTicks s.chip n
    (b, if n < settleTicks then tickOnce b else advance b 1)

/-- The state after a command whose effect takes the part to f of it; g says what the form leaves alone. -/
def runWith (g : Chip → Chip → Chip) (s : State) (dt : Nat) (f : Chip → Chip) : Host.Outcome State Fault Refusal :=
  let p := lapse s dt
  .next { s with chip := g p.2 (f p.2), was := p.1 }

/-- The part on which a read looks (R22, R35): as it stood at the start of the tick, with TICK and the Face's own registers of the
part c as it is. -/
def seen (w c : Chip) : Chip := { w with face := c.face, tick := c.tick }

/-- The variant, TICK, the ownership map, the object words and the Face of a; everything else of b. -/
def leaveFace (a b : Chip) : Chip := { b with isN := a.isN, tick := a.tick, own := a.own, mem := a.mem, face := a.face }
/-- The variant, TICK, the ownership map and the object words of a. -/
def leaveAll (a b : Chip) : Chip := { b with isN := a.isN, tick := a.tick, own := a.own, mem := a.mem }
/-- The variant, TICK, the object words and the Face of a. -/
def leaveMem (a b : Chip) : Chip := { b with isN := a.isN, tick := a.tick, mem := a.mem, face := a.face }
/-- The variant, TICK and the object words of a. -/
def leaveWords (a b : Chip) : Chip := { b with isN := a.isN, tick := a.tick, mem := a.mem }
/-- The variant, TICK, the ownership map and the Face of a. -/
def leaveOwn (a b : Chip) : Chip := { b with isN := a.isN, tick := a.tick, own := a.own, face := a.face }
/-- The variant, TICK and the ownership map of a. -/
def leaveMap (a b : Chip) : Chip := { b with isN := a.isN, tick := a.tick, own := a.own }
/-- The variant and TICK of a. -/
def leaveTick (a b : Chip) : Chip := { b with isN := a.isN, tick := a.tick }
/-- The variant, the ownership map and the object words of a. -/
def leaveClock (a b : Chip) : Chip := { b with isN := a.isN, own := a.own, mem := a.mem }
/-- The variant of a (R2). -/
def leaveVariant (a b : Chip) : Chip := { b with isN := a.isN }

/-- An event or command of a block: it moves no ownership entry, writes no object word and leaves the Face alone. -/
def runBlock (s : State) (dt : Nat) (f : Chip → Chip) : Host.Outcome State Fault Refusal := runWith leaveFace s dt f
/-- An access to the Face that writes no object word, the end of a lockout, or a reset of the part. -/
def runFace (s : State) (dt : Nat) (f : Chip → Chip) : Host.Outcome State Fault Refusal := runWith leaveAll s dt f
/-- A read of the Face: f takes the part on which it looks and the part as it is. -/
def runSeen (s : State) (dt : Nat) (f : Chip → Chip → Chip) : Host.Outcome State Fault Refusal :=
  runFace s dt (f (seen (lapse s dt).1 (lapse s dt).2))
/-- An event of a block that works on what stood at the start of its tick: f takes that part and the part as it is (R22). -/
def runPast (s : State) (dt : Nat) (f : Chip → Chip → Chip) : Host.Outcome State Fault Refusal :=
  runBlock s dt (f (seen (lapse s dt).1 (lapse s dt).2))
/-- A command that may change the ownership map, writes no object word and leaves the Face alone. -/
def runOwn (s : State) (dt : Nat) (f : Chip → Chip) : Host.Outcome State Fault Refusal := runWith leaveMem s dt f
/-- A command that changes the provisioning, and with it claims. -/
def runClaims (s : State) (dt : Nat) (f : Chip → Chip) : Host.Outcome State Fault Refusal := runWith leaveWords s dt f
/-- A command that may write object words, moves no ownership entry and leaves the Face alone. -/
def runMem (s : State) (dt : Nat) (f : Chip → Chip) : Host.Outcome State Fault Refusal := runWith leaveOwn s dt f
/-- A commit that may write object words, and moves no ownership entry. -/
def runStore (s : State) (dt : Nat) (f : Chip → Chip) : Host.Outcome State Fault Refusal := runWith leaveMap s dt f
/-- A command that may do all of these: a scrub ends, an object passes on, FACTORYRESET. -/
def runTrans (s : State) (dt : Nat) (f : Chip → Chip) : Host.Outcome State Fault Refusal := runWith leaveTick s dt f
/-- A period of the 32.768 kHz oscillator: it moves TICK itself. -/
def runClock (s : State) (dt : Nat) (f : Chip → Chip) : Host.Outcome State Fault Refusal := runWith leaveClock s dt f
/-- The release of the power-on reset: everything but the variant is set afresh. -/
def runCold (s : State) (dt : Nat) (f : Chip → Chip) : Host.Outcome State Fault Refusal := runWith leaveVariant s dt f

end Sys2Proof.Machine
end

