-- ==== Sys2Proof/Machine/ChannelCmds.lean ====
section
/-! DEFINITION. The meanings of the events of the generators, the channels and the encoder emulators (chapters 7 to 9). -/

namespace Sys2Proof.Machine

/-- GENERATOR_READY: the amplitude ramp of generator g ends (R203); amp is the measured amplitude. -/
def execGeneratorReady (dt : Nat) (g : Fin 4) (amp : Nat) (s : State) : Host.Outcome State Fault Refusal :=
  runBlock s dt (fun c => generatorReady c g amp)

/-- GENERATOR_THERMAL: the driver temperature of generator g is t °C (R205). -/
def execGeneratorThermal (dt : Nat) (g : Fin 4) (t : Int) (s : State) : Host.Outcome State Fault Refusal :=
  runBlock s dt (fun c => generatorThermal c g t)

/-- GENERATOR_LIMIT: a carrier period of generator g ends: a clip, the amplitude read back and the phase sensed at the balls (R204, R205). -/
def execGeneratorLimit (dt : Nat) (g : Fin 4) (clip : Bool) (x : Sensed) (s : State) : Host.Outcome State Fault Refusal :=
  runBlock s dt (fun c => generatorLimit c g clip x.amp x.phase)

/-- VEXC_MONITOR: VEXC crosses its monitor threshold (R553). -/
def execVexcMonitor (dt : Nat) (low : Bool) (s : State) : Host.Outcome State Fault Refusal :=
  runBlock s dt (fun c => vexcMonitor c low)

/-- PAIR_WINDOW: the 128-tick window of channel n ends: its 16 samples of the sine and the cosine modulator, oldest first, and whether a modulator was beyond full scale (R208, R212, R213). -/
def execPairWindow (dt : Nat) (n : Fin 16) (q0 : Quarter) (q1 : Quarter) (q2 : Quarter) (q3 : Quarter) (overS : Bool) (overC : Bool) (s : State) : Host.Outcome State Fault Refusal :=
  runBlock s dt (fun c => pairWindow c n (windowSamples q0 q1 q2 q3) (overS || overC))

/-- CARRIER_PERIOD_FIT: a carrier period of channel n ends; err is the phase error in 2^-16 carrier turn that a satellite has fitted (R215). -/
def execCarrierPeriodFit (dt : Nat) (n : Fin 16) (err : Int) (s : State) : Host.Outcome State Fault Refusal :=
  runBlock s dt (fun c => carrierPeriodFit c n err)

/-- SELFCAL_MEASUREMENT: a self-calibration measurement of channel n ends (R221); trims and tones are those that a satellite has measured. -/
def execSelfcalMeasurement (dt : Nat) (n : Fin 16) (trims : Trims) (tone : Int × Int) (s : State) : Host.Outcome State Fault Refusal :=
  runBlock s dt (fun c => selfcalMeasurement c n trims tone.1 tone.2)

/-- PRESENCE_CHECK_START: a presence check of channel n starts (R232). -/
def execPresenceCheckStart (dt : Nat) (n : Fin 16) (s : State) : Host.Outcome State Fault Refusal :=
  runBlock s dt (fun c => (if serving c then presenceStart c n else c))

/-- PRESENCE_CHECK_END: a presence check of channel n ends with the changes of both offset terms (R233). -/
def execPresenceCheckEnd (dt : Nat) (n : Fin 16) (dvs : Int) (dvc : Int) (s : State) : Host.Outcome State Fault Refusal :=
  runBlock s dt (fun c => (if serving c then presenceEnd c n dvs dvc else c))

/-- TRACKING_UPDATE: a pair of channel n reaches the estimators (R245). -/
def execTrackingUpdate (dt : Nat) (n : Fin 16) (s : State) : Host.Outcome State Fault Refusal :=
  runBlock s dt (fun c => trackingUpdate c n)

/-- BANDWIDTH_EVALUATION: the bandwidth policy of channel n evaluates its steps (R250). -/
def execBandwidthEvaluation (dt : Nat) (n : Fin 16) (s : State) : Host.Outcome State Fault Refusal :=
  runBlock s dt (fun c => bandwidthEvaluation c n)

/-- ENCODER_STEP: emulator e steps (R267). -/
def execEncoderStep (dt : Nat) (e : Fin 8) (s : State) : Host.Outcome State Fault Refusal :=
  runBlock s dt (fun c => encoderStep c e)

end Sys2Proof.Machine
end

