-- ==== Sys2Proof/Machine/EngineCmds.lean ====
section
/-! DEFINITION. The meanings of the events of the control engine and the analog outputs (chapters 13 to 15). -/

namespace Sys2Proof.Machine

/-- FRAME_BOUNDARY: every due loop samples its inputs and computes its law (R378). -/
def execFrameBoundary (dt : Nat) (s : State) : Host.Outcome State Fault Refusal :=
  runPast s dt (fun v c => frameTick v c)

/-- OUTPUT_APPLICATION: the loops' outputs are applied (R378). -/
def execOutputApplication (dt : Nat) (s : State) : Host.Outcome State Fault Refusal :=
  runBlock s dt (fun c => outputApplication c)

/-- LOOP_CHECK_MISMATCH: the copies of the state of loop n disagree (R401). -/
def execLoopCheckMismatch (dt : Nat) (n : Fin 16) (s : State) : Host.Outcome State Fault Refusal :=
  runBlock s dt (fun c => lpMismatch c n)

/-- MONITOR_READING: a monitor reading of analog output a is available (R445); lim is its current limit. -/
def execMonitorReading (dt : Nat) (a : Fin 8) (code : Fin 4096) (lim : Bool) (s : State) : Host.Outcome State Fault Refusal :=
  runBlock s dt (fun c => monitorReading c a code lim)

/-- AO_CHECK_MISMATCH: the copies of the state of analog output a disagree (R449). -/
def execAoCheckMismatch (dt : Nat) (a : Fin 8) (s : State) : Host.Outcome State Fault Refusal :=
  runBlock s dt (fun c => aoCheckMismatch c a)

end Sys2Proof.Machine
end

