-- ==== Sys2Proof/Machine/FaceCmds.lean ====
section
/-! DEFINITION. The meanings of the commands of the host bus (chapter 2): register accesses and the registers with a row of their own. -/

namespace Sys2Proof.Machine

/-- SHADOW_HALFWORD_WRITE: master m writes d to halfword h of register r (R41). -/
def execShadowHalfwordWrite (dt : Nat) (m : Mid) (r : Fin 64) (h : Fin 3) (d : Half) (s : State) : Host.Outcome State Fault Refusal :=
  runFace s dt (fun c => busShadow c m r h d)

/-- REGISTER_COMMIT: master m writes d to halfword 3 of register r, which has no row of its own (R43). -/
def execRegisterCommit (dt : Nat) (m : Mid) (r : Fin 64) (d : Half) (s : State) : Host.Outcome State Fault Refusal :=
  runStore s dt (fun c => busCommit c m r d)

/-- BUS_TIMEOUT: the bus timeout ends an access of master m to halfword h of register r (R37). -/
def execBusTimeout (dt : Nat) (m : Mid) (r : Fin 64) (h : Fin 4) (read : Bool) (s : State) : Host.Outcome State Fault Refusal :=
  runSeen s dt (fun v c => busTimeout v c m r h read)

/-- OBJDATA_READ: master m reads halfword 0 of OBJDATA (R51); ecc is what the read of a retention word finds (R110). -/
def execObjdataRead (dt : Nat) (m : Mid) (ecc : Ecc) (s : State) : Host.Outcome State Fault Refusal :=
  runSeen s dt (fun v c => busRead v c m 13 0 ecc 0)

/-- OBJDATA_WRITE: master m commits OBJDATA with halfword 3 = d (R51). -/
def execObjdataWrite (dt : Nat) (m : Mid) (d : Half) (s : State) : Host.Outcome State Fault Refusal :=
  runStore s dt (fun c => busCommit c m 13 d)

/-- OBJDATAINC_READ: master m reads halfword 0 of OBJDATAINC (R52). -/
def execObjdataincRead (dt : Nat) (m : Mid) (ecc : Ecc) (s : State) : Host.Outcome State Fault Refusal :=
  runSeen s dt (fun v c => busRead v c m 14 0 ecc 0)

/-- OBJDATAINC_WRITE: master m commits OBJDATAINC with halfword 3 = d (R52). -/
def execObjdataincWrite (dt : Nat) (m : Mid) (d : Half) (s : State) : Host.Outcome State Fault Refusal :=
  runStore s dt (fun c => busCommit c m 14 d)

/-- COMPLETION_READ: master m reads halfword 0 of COMPLETION (R125); with what the read of the entry finds (R110). -/
def execCompletionRead (dt : Nat) (a : CompletionAccess) (s : State) : Host.Outcome State Fault Refusal :=
  runSeen s dt (fun v c => busRead v c a.master 11 0 a.found.ecc a.found.word)

/-- ANGSNAP_CAPTURE: master m reads halfword 0 of ANGSNAP (R261). -/
def execAngsnapCapture (dt : Nat) (m : Mid) (s : State) : Host.Outcome State Fault Refusal :=
  runSeen s dt (fun v c => busRead v c m 32 0 .clean 0)

/-- CMDSUBMIT: master m commits CMDSUBMIT (R105) with halfword 3 = d. -/
def execCmdsubmit (dt : Nat) (m : Mid) (d : Half) (s : State) : Host.Outcome State Fault Refusal :=
  runFace s dt (fun c => busCommit c m 8 d)

/-- CLAIM: master m commits CLAIM with OP 1 (R77) with halfword 3 = d. -/
def execClaim (dt : Nat) (m : Mid) (d : Half) (s : State) : Host.Outcome State Fault Refusal :=
  runFace s dt (fun c => busCommit c m 3 d)

/-- LOCKOUT_END: the lockout of master m reaches its end (R81). -/
def execLockoutEnd (dt : Nat) (m : Mid) (s : State) : Host.Outcome State Fault Refusal :=
  runFace s dt (fun c => (if serving c then lockoutOver c m else c))

/-- CLAIM_RELEASE: master m commits CLAIM with OP 2 (R82) with halfword 3 = d. -/
def execClaimRelease (dt : Nat) (m : Mid) (d : Half) (s : State) : Host.Outcome State Fault Refusal :=
  runFace s dt (fun c => busCommit c m 3 d)

/-- CALDATE: master m commits CALDATE (R150) with halfword 3 = d. -/
def execCaldate (dt : Nat) (m : Mid) (d : Half) (s : State) : Host.Outcome State Fault Refusal :=
  runFace s dt (fun c => busCommit c m 27 d)

/-- CALTIME: master m commits CALTIME (R151) with halfword 3 = d. -/
def execCaltime (dt : Nat) (m : Mid) (d : Half) (s : State) : Host.Outcome State Fault Refusal :=
  runFace s dt (fun c => busCommit c m 28 d)

/-- IDLE_REQUEST: master m commits POWERCTL with REQ 2 (R175) with halfword 3 = d. -/
def execIdleRequest (dt : Nat) (m : Mid) (d : Half) (s : State) : Host.Outcome State Fault Refusal :=
  runFace s dt (fun c => busCommit c m 29 d)

/-- RUN_REQUEST: master m commits POWERCTL with REQ 1 (R176) with halfword 3 = d. -/
def execRunRequest (dt : Nat) (m : Mid) (d : Half) (s : State) : Host.Outcome State Fault Refusal :=
  runFace s dt (fun c => busCommit c m 29 d)

/-- SLEEP_REQUEST: master m commits POWERCTL with REQ 3 (R177) with halfword 3 = d. -/
def execSleepRequest (dt : Nat) (m : Mid) (d : Half) (s : State) : Host.Outcome State Fault Refusal :=
  runFace s dt (fun c => busCommit c m 29 d)

/-- WDOG_KICK: master m commits WDOG (R173) with halfword 3 = d. -/
def execWdogKick (dt : Nat) (m : Mid) (d : Half) (s : State) : Host.Outcome State Fault Refusal :=
  runFace s dt (fun c => busCommit c m 35 d)

/-- HOSTVER: master m commits HOSTVER (R189) with halfword 3 = d. -/
def execHostver (dt : Nat) (m : Mid) (d : Half) (s : State) : Host.Outcome State Fault Refusal :=
  runFace s dt (fun c => busCommit c m 2 d)

/-- FLTACK_REARM: master m commits FLTACK with REARM (R467) with halfword 3 = d. -/
def execFltackRearm (dt : Nat) (m : Mid) (d : Half) (s : State) : Host.Outcome State Fault Refusal :=
  runFace s dt (fun c => busCommit c m 23 d)

/-- FLTACK_ACKSRC: master m commits FLTACK with ACKSRC (R463) with halfword 3 = d. -/
def execFltackAcksrc (dt : Nat) (m : Mid) (d : Half) (s : State) : Host.Outcome State Fault Refusal :=
  runFace s dt (fun c => busCommit c m 23 d)

/-- FLTACK_ACKALL: master m commits FLTACK with ACKALL (R463) with halfword 3 = d. -/
def execFltackAckall (dt : Nat) (m : Mid) (d : Half) (s : State) : Host.Outcome State Fault Refusal :=
  runFace s dt (fun c => busCommit c m 23 d)

/-- FLTINJECT_PULSE: master m commits FLTINJECT with OP PULSE (R471) with halfword 3 = d. -/
def execFltinjectPulse (dt : Nat) (m : Mid) (d : Half) (s : State) : Host.Outcome State Fault Refusal :=
  runFace s dt (fun c => busCommit c m 25 d)

/-- FLTINJECT_SET: master m commits FLTINJECT with OP SET (R471) with halfword 3 = d. -/
def execFltinjectSet (dt : Nat) (m : Mid) (d : Half) (s : State) : Host.Outcome State Fault Refusal :=
  runFace s dt (fun c => busCommit c m 25 d)

/-- FLTINJECT_CLEAR: master m commits FLTINJECT with OP CLEAR (R471) with halfword 3 = d. -/
def execFltinjectClear (dt : Nat) (m : Mid) (d : Half) (s : State) : Host.Outcome State Fault Refusal :=
  runFace s dt (fun c => busCommit c m 25 d)

/-- EVTACK: master m commits EVTACK (R469) with halfword 3 = d. -/
def execEvtack (dt : Nat) (m : Mid) (d : Half) (s : State) : Host.Outcome State Fault Refusal :=
  runFace s dt (fun c => busCommit c m 18 d)

/-- TESTKEY: master m commits TESTKEY (R70) with halfword 3 = d. -/
def execTestkey (dt : Nat) (m : Mid) (d : Half) (s : State) : Host.Outcome State Fault Refusal :=
  runFace s dt (fun c => busCommit c m 47 d)

/-- LOCK: master m commits LOCK (R69) with halfword 3 = d. -/
def execLock (dt : Nat) (m : Mid) (d : Half) (s : State) : Host.Outcome State Fault Refusal :=
  runFace s dt (fun c => busCommit c m 46 d)

/-- REGISTER_READ: master m reads halfword h of register r (R39); proto tells a protocol error, and whether it is a write (R33). -/
def execRegisterRead (dt : Nat) (m : Mid) (r : Fin 64) (h : Fin 4) (proto : Option Bool) (s : State) : Host.Outcome State Fault Refusal :=
  runSeen s dt (fun v c => (match proto with | none => busRead v c m r h .clean 0 | some write => protocolError c m r h write))

end Sys2Proof.Machine
end

