-- ==== Sys2Proof/Machine/FaultCmds.lean ====
section
/-! DEFINITION. The meanings of the events of the fault collector (chapter 16). -/

namespace Sys2Proof.Machine

/-- BLOCK_RESET_COMPLETE: a block reset ends (R475). -/
def execBlockResetComplete (dt : Nat) (s : State) : Host.Outcome State Fault Refusal :=
  runBlock s dt (fun c => blockResetEnd c)

/-- ESCALATION_DEADLINE: source n reaches its escalation deadline (R461). -/
def execEscalationDeadline (dt : Nat) (n : Src) (s : State) : Host.Outcome State Fault Refusal :=
  runPast s dt (fun v c => escalate v c n)

/-- QUIET_PERIOD_END: source n has been quiet for QUIET milliseconds (R464). -/
def execQuietPeriodEnd (dt : Nat) (n : Src) (s : State) : Host.Outcome State Fault Refusal :=
  runBlock s dt (fun c => quietEnd c n)

/-- WINDOW_END: the counting window of source n ends (R458). -/
def execWindowEnd (dt : Nat) (n : Src) (s : State) : Host.Outcome State Fault Refusal :=
  runBlock s dt (fun c => windowEnd c n)

/-- COLLECTOR_SELF_CHECK: the copies of the collector disagree (R482). -/
def execCollectorSelfCheck (dt : Nat) (s : State) : Host.Outcome State Fault Refusal :=
  runBlock s dt (fun c => selfCheck c)

end Sys2Proof.Machine
end

