-- ==== Sys2Proof/Machine/HopperCmds.lean ====
section
/-! DEFINITION. The meanings of the events of the Hopper (chapter 12). -/

namespace Sys2Proof.Machine

/-- EVENT_START: the head event of output o reaches its start deadline (R351). -/
def execEventStart (dt : Nat) (o : Fin 24) (s : State) : Host.Outcome State Fault Refusal :=
  runBlock s dt (fun c => eventStart c o)

/-- EVENT_END: the running event of output o ends (R352). -/
def execEventEnd (dt : Nat) (o : Fin 24) (s : State) : Host.Outcome State Fault Refusal :=
  runBlock s dt (fun c => driveAll (eventEnd c o))

/-- BANK_LEAD_START: the lead deadline of bank a is reached (R354). -/
def execBankLeadStart (dt : Nat) (a : Fin 8) (s : State) : Host.Outcome State Fault Refusal :=
  runBlock s dt (fun c => bankLead c a)

/-- SERIALIZE_TIMEOUT: a held start of output o has waited for SERMAX (R355). -/
def execSerializeTimeout (dt : Nat) (o : Fin 24) (s : State) : Host.Outcome State Fault Refusal :=
  runBlock s dt (fun c => serializeTimeout c o)

/-- READBACK_TRIP: RBFILT samples of an output or bank disagree (R357). -/
def execReadbackTrip (dt : Nat) (b : HopBall) (s : State) : Host.Outcome State Fault Refusal :=
  runBlock s dt (fun c => (match b with | .out o => outTrip c o | .hsb a => bankTrip c a))

/-- SCHEDULER_MISMATCH: the copies of an output's or bank's queue disagree (R369). -/
def execSchedulerMismatch (dt : Nat) (b : HopBall) (s : State) : Host.Outcome State Fault Refusal :=
  runBlock s dt (fun c => (match b with | .out o => outCheck c o | .hsb a => bankCheck c a))

/-- READBACK_AGREE: the ball of a tripped output or bank reads as driven again (R356). -/
def execReadbackAgree (dt : Nat) (b : HopBall) (s : State) : Host.Outcome State Fault Refusal :=
  runBlock s dt (fun c => (match b with | .out o => if c.outs[o].trip then outAgree c o else c | .hsb a => if c.banks[a].trip then bankAgree c a else c))

end Sys2Proof.Machine
end

