-- ==== Sys2Proof/Machine/HostCmds.lean ====
section
/-! DEFINITION. The meanings of the execution of every journal command (chapter 4, Table 4-10), at its commit point or its first step. -/

namespace Sys2Proof.Machine

/-- NOP: NOP executes (R139). -/
def execNop (dt : Nat) (s : State) : Host.Outcome State Fault Refusal :=
  runBlock s dt (fun c => execOp c 0x01 (fun _ => true) doneS)

/-- GRANT: GRANT executes (R87). -/
def execGrant (dt : Nat) (s : State) : Host.Outcome State Fault Refusal :=
  runOwn s dt (fun c => execOp c 0x02 (fun _ => true) (fun c e => match targetObj e, fin? 16 (fld e.cmdb 3 0) with | some i, some k => grantExec c e i k | _, _ => c))

/-- RELEASE: RELEASE executes (R87). -/
def execRelease (dt : Nat) (s : State) : Host.Outcome State Fault Refusal :=
  runOwn s dt (fun c => execOp c 0x03 (fun _ => true) (fun c e => match targetObj e with | some i => releaseExec c e i | none => c))

/-- APPLY: APPLY executes (R57). -/
def execApply (dt : Nat) (s : State) : Host.Outcome State Fault Refusal :=
  runMem s dt (fun c => execOp c 0x04 (fun _ => true) applyCommand)

/-- CLAIMCFG: CLAIMCFG executes (R73). -/
def execClaimcfg (dt : Nat) (s : State) : Host.Outcome State Fault Refusal :=
  runClaims s dt (fun c => execOp c 0x05 (fun _ => true) claimCfg)

/-- FAULTPOLICY: FAULTPOLICY without DEFAULT executes (R474). -/
def execFaultpolicy (dt : Nat) (s : State) : Host.Outcome State Fault Refusal :=
  runMem s dt (fun c => execOp c 0x06 (fun e => !bit e.cmdb 63) faultPolicy)

/-- FAULTPOLICY_DEFAULT: FAULTPOLICY with DEFAULT executes (R474). -/
def execFaultpolicyDefault (dt : Nat) (s : State) : Host.Outcome State Fault Refusal :=
  runMem s dt (fun c => execOp c 0x06 (fun e => bit e.cmdb 63) faultPolicyDefault)

/-- BENCHRELEASE: BENCHRELEASE executes (R480). -/
def execBenchrelease (dt : Nat) (s : State) : Host.Outcome State Fault Refusal :=
  runBlock s dt (fun c => execOp c 0x07 (fun _ => true) benchReleaseExec)

/-- RUN: RUN executes (R192). -/
def execRun (dt : Nat) (s : State) : Host.Outcome State Fault Refusal :=
  runBlock s dt (fun c => execOp c 0x08 (fun _ => true) runCommand)

/-- ACCEPTHOST: ACCEPTHOST executes (R191). -/
def execAccepthost (dt : Nat) (s : State) : Host.Outcome State Fault Refusal :=
  runBlock s dt (fun c => execOp c 0x09 (fun _ => true) acceptHost)

/-- FACTORYRESET: FACTORYRESET executes (R140), also the one that was accepted without an entry (R114). -/
def execFactoryreset (dt : Nat) (s : State) : Host.Outcome State Fault Refusal :=
  runTrans s dt (fun c => (if serving c && c.wb.factoryDirect then factoryExec c else execOp c 0x0A (fun _ => true) (fun c _ => factoryExec c)))

/-- SOFTRESET: SOFTRESET executes (R140). -/
def execSoftreset (dt : Nat) (s : State) : Host.Outcome State Fault Refusal :=
  runFace s dt (fun c => execOp c 0x0B (fun _ => true) softReset)

/-- DISCOVER: DISCOVER takes its first step (R226). -/
def execDiscover (dt : Nat) (s : State) : Host.Outcome State Fault Refusal :=
  runBlock s dt (fun c => execLong c 0x10 (fun _ => true) (fun c e i => match fin? 16 i.val with | some n => discoverStep c e n [] | none => (c, .none)))

/-- CALIBRATE_FAST: CALIBRATE in FAST mode takes its first step (R224). -/
def execCalibrateFast (dt : Nat) (s : State) : Host.Outcome State Fault Refusal :=
  runBlock s dt (fun c => execLong c 0x11 (fun e => decide (fld e.cmdb 1 0 = 0)) (fun c e i => match fin? 16 i.val with | some n => calibrateStep c e n [] | none => (c, .none)))

/-- CALIBRATE_ROTATING: CALIBRATE in ROTATING mode takes its first step (R224, R225). -/
def execCalibrateRotating (dt : Nat) (s : State) : Host.Outcome State Fault Refusal :=
  runBlock s dt (fun c => execLong c 0x11 (fun e => decide (fld e.cmdb 1 0 = 1)) (fun c e i => match fin? 16 i.val with | some n => calibrateStep c e n [] | none => (c, .none)))

/-- AUTOTUNE: AUTOTUNE takes its first step (R423). -/
def execAutotune (dt : Nat) (s : State) : Host.Outcome State Fault Refusal :=
  runBlock s dt (fun c => execLong c 0x12 (fun _ => true) (fun c e i => match fin? 16 (i.val - 52) with | some n => tuneStep c e n | none => (c, .none)))

/-- LEARNTEETH: LEARNTEETH takes its first step (R338). -/
def execLearnteeth (dt : Nat) (s : State) : Host.Outcome State Fault Refusal :=
  runBlock s dt (fun c => execLong c 0x13 (fun _ => true) (fun c e i => match fin? 4 (i.val - 16) with | some w => learnStep c e w | none => (c, .none)))

/-- ENABLE: ENABLE executes (R97). -/
def execEnable (dt : Nat) (s : State) : Host.Outcome State Fault Refusal :=
  runBlock s dt (fun c => execOwned c 0x20 (fun _ => true) enableCommand)

/-- DISABLE: DISABLE executes (R408 and the chapters of the other objects). -/
def execDisable (dt : Nat) (s : State) : Host.Outcome State Fault Refusal :=
  runBlock s dt (fun c => execOwned c 0x21 (fun _ => true) disableCommand)

/-- SETMODE_CHANNEL_MODE: SETMODE of a channel with OP MODE executes (R240). -/
def execSetmodeChannelMode (dt : Nat) (s : State) : Host.Outcome State Fault Refusal :=
  runBlock s dt (fun c => execOwned c 0x22 (fun e => decide (targetOf e < 16 ∧ fld e.cmdb 63 60 = 0)) (fun c e i => match fin? 16 i.val with | some n => chModeCommand c e n | none => c))

/-- SETMODE_ANCHOR: SETMODE of a channel with OP ANCHOR executes (R258). -/
def execSetmodeAnchor (dt : Nat) (s : State) : Host.Outcome State Fault Refusal :=
  runBlock s dt (fun c => execOwned c 0x22 (fun e => decide (targetOf e < 16 ∧ fld e.cmdb 63 60 = 1)) (fun c e i => match fin? 16 i.val with | some n => anchorCommand c e n | none => c))

/-- SETMODE_LOOP_MODE: SETMODE of a loop with OP MODE executes (R416). -/
def execSetmodeLoopMode (dt : Nat) (s : State) : Host.Outcome State Fault Refusal :=
  runBlock s dt (fun c => execOwned c 0x22 (fun e => decide (52 ≤ targetOf e ∧ fld e.cmdb 63 60 = 0)) (fun c e i => match fin? 16 (i.val - 52) with | some n => lpSetMode c e n | none => c))

/-- SETMODE_MANVAL: SETMODE of a loop with OP MANVAL executes (R416). -/
def execSetmodeManval (dt : Nat) (s : State) : Host.Outcome State Fault Refusal :=
  runBlock s dt (fun c => execOwned c 0x22 (fun e => decide (52 ≤ targetOf e ∧ fld e.cmdb 63 60 = 1)) (fun c e i => match fin? 16 (i.val - 52) with | some n => lpSetManval c e n | none => c))

/-- SETPOINT: SETPOINT executes (R411). -/
def execSetpoint (dt : Nat) (s : State) : Host.Outcome State Fault Refusal :=
  runBlock s dt (fun c => execOwned c 0x23 (fun _ => true) (fun c e i => match fin? 16 (i.val - 52) with | some n => lpSetpoint c e n | none => c))

/-- NOTCHSET: NOTCHSET executes (R394). -/
def execNotchset (dt : Nat) (s : State) : Host.Outcome State Fault Refusal :=
  runMem s dt (fun c => execOwned c 0x24 (fun _ => true) (fun c e i => match fin? 16 (i.val - 52) with | some n => notchSet c e n | none => c))

/-- EVENTPOST: EVENTPOST is inserted in its output's queue (R347). -/
def execEventpost (dt : Nat) (s : State) : Host.Outcome State Fault Refusal :=
  runBlock s dt (fun c => execOwned c 0x30 (fun _ => true) (fun c e i => match fin? 24 (i.val - 20) with | some o => notInConfig c e (postEvent c e o) | none => c))

/-- EVENTCANCEL: EVENTCANCEL executes (R366). -/
def execEventcancel (dt : Nat) (s : State) : Host.Outcome State Fault Refusal :=
  runBlock s dt (fun c => execOwned c 0x31 (fun _ => true) (fun c e i => match fin? 24 (i.val - 20) with | some o => eventCancel c e o | none => c))

/-- SUSPEND: SUSPEND executes (R133). -/
def execSuspend (dt : Nat) (s : State) : Host.Outcome State Fault Refusal :=
  runBlock s dt (fun c => execOp c 0x40 (fun _ => true) suspendExec)

/-- RESUME: RESUME executes (R133). -/
def execResume (dt : Nat) (s : State) : Host.Outcome State Fault Refusal :=
  runBlock s dt (fun c => execOp c 0x41 (fun _ => true) resumeExec)

/-- CANCEL: CANCEL executes (R133). -/
def execCancel (dt : Nat) (s : State) : Host.Outcome State Fault Refusal :=
  runBlock s dt (fun c => execOp c 0x42 (fun _ => true) cancelExec)

/-- STAGEIMAGE_PAGE: STAGEIMAGE with OP PAGE takes its first step (R196). -/
def execStageimagePage (dt : Nat) (s : State) : Host.Outcome State Fault Refusal :=
  runBlock s dt (fun c => execLongChip c 0x50 (fun e => decide (fld e.cmdb 63 62 = 0)) pageStart)

/-- STAGEIMAGE_ERASE: STAGEIMAGE with OP ERASE takes its first step (R196). -/
def execStageimageErase (dt : Nat) (s : State) : Host.Outcome State Fault Refusal :=
  runBlock s dt (fun c => execLongChip c 0x50 (fun e => decide (fld e.cmdb 63 62 = 2)) eraseStart)

/-- STAGEIMAGE_FINISH: STAGEIMAGE with OP FINISH takes its first step (R196); with it: whether a nonvolatile read error occurs in the slot. -/
def execStageimageFinish (a : Timed Bool) (s : State) : Host.Outcome State Fault Refusal :=
  runBlock s a.dt (fun c => execLongChip c 0x50 (fun e => decide (fld e.cmdb 63 62 = 1)) (fun c e => finishStart c e a.arg))

/-- ACTIVATEIMAGE_PROMOTE: ACTIVATEIMAGE PROMOTE executes (R198); with it: whether a nonvolatile read error occurs in the slot. -/
def execActivateimagePromote (a : Timed Bool) (s : State) : Host.Outcome State Fault Refusal :=
  runBlock s a.dt (fun c => execOp c 0x51 (fun e => !bit e.cmdb 8) (fun c e => promote c e a.arg))

/-- ACTIVATEIMAGE_DEMOTE: ACTIVATEIMAGE DEMOTE executes (R198); with it: whether a nonvolatile read error occurs in the other slot. -/
def execActivateimageDemote (a : Timed Bool) (s : State) : Host.Outcome State Fault Refusal :=
  runBlock s a.dt (fun c => execOp c 0x51 (fun e => bit e.cmdb 8) (fun c e => demote c e a.arg))

/-- SPANCHANGE: SPANCHANGE takes its first step (R442). -/
def execSpanchange (dt : Nat) (s : State) : Host.Outcome State Fault Refusal :=
  runBlock s dt (fun c => execLong c 0x52 (fun _ => true) (fun c e i => match fin? 8 (i.val - 68) with | some a => spanStep c e a | none => (c, .none)))

/-- SCRUB: SCRUB executes (R90). -/
def execScrub (dt : Nat) (s : State) : Host.Outcome State Fault Refusal :=
  runOwn s dt (fun c => execOp c 0x53 (fun _ => true) (fun c e => match targetObj e with | some i => scrubExec c e i | none => c))

/-- SELFTEST: SELFTEST takes its first step (R483). -/
def execSelftest (dt : Nat) (s : State) : Host.Outcome State Fault Refusal :=
  runBlock s dt (fun c => execLongChip c 0x54 (fun _ => true) selftestStart)

/-- SATACCEPT: SATACCEPT without REPLACE executes (R299). -/
def execSataccept (dt : Nat) (s : State) : Host.Outcome State Fault Refusal :=
  runBlock s dt (fun c => execOp c 0x60 (fun e => !bit e.cmdb 8) acceptCommand)

/-- SATACCEPT_REPLACE: SATACCEPT with REPLACE executes (R299). -/
def execSatacceptReplace (dt : Nat) (s : State) : Host.Outcome State Fault Refusal :=
  runBlock s dt (fun c => execOp c 0x60 (fun e => bit e.cmdb 8) acceptCommand)

/-- SATRELEASE: SATRELEASE executes (R299). -/
def execSatrelease (dt : Nat) (s : State) : Host.Outcome State Fault Refusal :=
  runBlock s dt (fun c => execOp c 0x61 (fun _ => true) releaseCommand)

end Sys2Proof.Machine
end

