-- ==== Sys2Proof/Machine/LinkCmds.lean ====
section
/-! DEFINITION. The meanings of the events of the link and the satellites (chapter 10). -/

namespace Sys2Proof.Machine

/-- HOP_TRAIN_START: hop h + 1 enters TRAIN (R294). -/
def execHopTrainStart (dt : Nat) (h : Fin 4) (s : State) : Host.Outcome State Fault Refusal :=
  runBlock s dt (fun c => hopTrainStart c h)

/-- HOP_CLOCK_LOCK: the satellite of hop h + 1 locks to the forwarded clock (R295). -/
def execHopClockLock (dt : Nat) (h : Fin 4) (s : State) : Host.Outcome State Fault Refusal :=
  runBlock s dt (fun c => hopClockLock c h)

/-- HOP_TRAIN_FAIL: training of hop h + 1 fails (R294). -/
def execHopTrainFail (dt : Nat) (h : Fin 4) (why : TrainFail) (s : State) : Host.Outcome State Fault Refusal :=
  runBlock s dt (fun c => hopTrainFail c h why)

/-- IDENT_RECORD: a valid IDENT record comes over hop h + 1 (R296). -/
def execIdentRecord (dt : Nat) (h : Fin 4) (serial : Word) (part : Nat) (rev : Nat) (s : State) : Host.Outcome State Fault Refusal :=
  runBlock s dt (fun c => identRecord c h serial part rev)

/-- IDENT_TIMEOUT: no valid IDENT within 128 frames (R294). -/
def execIdentTimeout (dt : Nat) (h : Fin 4) (s : State) : Host.Outcome State Fault Refusal :=
  runBlock s dt (fun c => identTimeout c h)

/-- UPSTREAM_FRAME: an upstream frame is received (R291): what the satellites send in it, which of them have a bad frame from the hop above, and the bits that the cable turned. -/
def execUpstreamFrame (dt : Nat) (u : UpFrame) (s : State) : Host.Outcome State Fault Refusal :=
  runBlock s dt (fun c => upstreamFrame c u.frame u.upBad u.turned)

/-- MESSAGE_RECORD: a message record of the satellite of hop h + 1 is complete (R293). -/
def execMessageRecord (dt : Nat) (h : Fin 4) (rec : UpRecord) (s : State) : Host.Outcome State Fault Refusal :=
  runOwn s dt (fun c => messageRecord c h rec)

/-- MESSAGE_REPEAT: a record to hop h + 1 is unacknowledged for 16 frames (R293). -/
def execMessageRepeat (dt : Nat) (h : Fin 4) (s : State) : Host.Outcome State Fault Refusal :=
  runBlock s dt (fun c => messageRepeat c h)

/-- SATELLITE_SAFE_STATE: the satellite of hop h + 1 sees four bad frames or a lost clock (R298). -/
def execSatelliteSafeState (dt : Nat) (h : Fin 4) (clockLost : Bool) (s : State) : Host.Outcome State Fault Refusal :=
  runBlock s dt (fun c => satelliteSafe c h clockLost)

/-- EXTRA_DEVICE: training activity is seen beyond hop 4 (R298). -/
def execExtraDevice (dt : Nat) (s : State) : Host.Outcome State Fault Refusal :=
  runBlock s dt (fun c => extraDevice c)

/-- ADMISSION_COMPLETE: the configuration push to the satellite of hop h + 1 completes (R300). -/
def execAdmissionComplete (dt : Nat) (h : Fin 4) (s : State) : Host.Outcome State Fault Refusal :=
  runOwn s dt (fun c => admissionComplete c h)

/-- BUFFER_READY: the soft start of the buffer of satellite k ends (R300). -/
def execBufferReady (dt : Nat) (k : Fin 4) (amp : Nat) (s : State) : Host.Outcome State Fault Refusal :=
  runBlock s dt (fun c => bufferReady c k amp)

/-- HOLD_EXPIRY: the link hold of a command expires (R306). -/
def execHoldExpiry (dt : Nat) (k : Client) (seq : Nat) (s : State) : Host.Outcome State Fault Refusal :=
  runBlock s dt (fun c => holdExpiry c ⟨k, seq⟩)

/-- TRAINING_COMPLETE: training of hop h + 1 completes with a delay of d ticks (R294). -/
def execTrainingComplete (dt : Nat) (h : Fin 4) (d : Nat) (s : State) : Host.Outcome State Fault Refusal :=
  runBlock s dt (fun c => trainingComplete c h d)

/-- DOWNSTREAM_FRAME: the satellite of hop h + 1 takes a downstream frame (R291); err are the bits that the cable turned. -/
def execDownstreamFrame (dt : Nat) (h : Fin 4) (err : BitVec 200) (s : State) : Host.Outcome State Fault Refusal :=
  runBlock s dt (fun c => downstreamFrame c h err)

/-- SATELLITE_NRESET: nRESET of the satellite of hop h + 1 goes low, or high again (R311). -/
def execSatelliteNreset (dt : Nat) (p : SatPin) (s : State) : Host.Outcome State Fault Refusal :=
  runBlock s dt (fun c => satNreset c p.hop p.low)

end Sys2Proof.Machine
end

