-- ==== Sys2Proof/Machine/PowerCmds.lean ====
section
/-! DEFINITION. The meanings of the events of the supplies, the clocks, the resets, BOOT and SLEEP (chapters 5 and 6). -/

namespace Sys2Proof.Machine

/-- POWER_ON_RESET: the always-on domain regains a supply (R165): VDD, VBAK or both. -/
def execPowerOnReset (dt : Nat) (vdd : Bool) (vbak : Bool) (s : State) : Host.Outcome State Fault Refusal :=
  runCold s dt (fun c => powerOnReset c vdd vbak)

/-- BOOT_TRIM_LOAD: the trim and one-time-cell load of BOOT completes (R167). -/
def execBootTrimLoad (dt : Nat) (s : State) : Host.Outcome State Fault Refusal :=
  runBlock s dt (fun c => trimLoad c)

/-- PLL_LOCK: the PLL locks (R167). -/
def execPllLock (dt : Nat) (s : State) : Host.Outcome State Fault Refusal :=
  runBlock s dt (fun c => pllLock c)

/-- PLL_LOCK_RETRY: no lock within 7 periods (R169). -/
def execPllLockRetry (dt : Nat) (s : State) : Host.Outcome State Fault Refusal :=
  runBlock s dt (fun c => pllRetry c)

/-- IMAGE_CHECK: step C checks both slots (R187); errA and errB tell a nonvolatile read error. -/
def execImageCheck (dt : Nat) (errA : Bool) (errB : Bool) (s : State) : Host.Outcome State Fault Refusal :=
  runBlock s dt (fun c => imageCheck c errA errB)

/-- RETENTION_INIT: retention is initialised on a cold start (R167). -/
def execRetentionInit (dt : Nat) (s : State) : Host.Outcome State Fault Refusal :=
  runOwn s dt (fun c => retentionInit c)

/-- REPLAY: the replay engine checks the journal (R135): the single-bit errors it corrects, by location and word, and the location of an uncorrectable error. -/
def execReplay (dt : Nat) (singles : List (Nat × Nat)) (uncorr : Option Nat) (s : State) : Host.Outcome State Fault Refusal :=
  runOwn s dt (fun c => replay c singles uncorr)

/-- NRESET_PIN: nRESET is low for len ticks (R170). -/
def execNresetPin (dt : Nat) (len : Nat) (s : State) : Host.Outcome State Fault Refusal :=
  runFace s dt (fun c => nresetPin c len)

/-- BROWNOUT: a VDD-group supply falls below its limit, with VBAK present (R166). -/
def execBrownout (dt : Nat) (s : State) : Host.Outcome State Fault Refusal :=
  runFace s dt (fun c => brownout c)

/-- BACKUP_EXIT: VDD has been present for 32 oscillator periods (R158). -/
def execBackupExit (dt : Nat) (s : State) : Host.Outcome State Fault Refusal :=
  runBlock s dt (fun c => backupExit c)

/-- VBAK_LOSS: VBAK falls below its retention limit (R158); with it: whether VDD33 is present in BACKUP (R164). -/
def execVbakLoss (a : Timed Bool) (s : State) : Host.Outcome State Fault Refusal :=
  runBlock s a.dt (fun c => vbakLoss c a.arg)

/-- WATCHDOG_EXPIRY: the host watchdog reaches zero (R174). -/
def execWatchdogExpiry (dt : Nat) (s : State) : Host.Outcome State Fault Refusal :=
  runFace s dt (fun c => watchdogExpiry c)

/-- XTAL_LOSS: the crystal, or with pll the PLL range, is lost (R184). -/
def execXtalLoss (dt : Nat) (pll : Bool) (s : State) : Host.Outcome State Fault Refusal :=
  runFace s dt (fun c => clockLoss c pll)

/-- LF_OSC_LOSS: the 32.768 kHz oscillator is lost (R184); with it: whether VDD is present in BACKUP. -/
def execLfOscLoss (a : Timed Bool) (s : State) : Host.Outcome State Fault Refusal :=
  runBlock s a.dt (fun c => lfLoss c a.arg)

/-- LF_TICK: a 32.768 kHz period passes (R143). -/
def execLfTick (dt : Nat) (s : State) : Host.Outcome State Fault Refusal :=
  runClock s dt (fun c => clockEdge c)

/-- SLEEP_ENTRY: the part is quiescent (R178). -/
def execSleepEntry (dt : Nat) (s : State) : Host.Outcome State Fault Refusal :=
  runBlock s dt (fun c => sleepEntry c)

/-- SLEEP_TIMEOUT: quiescence was not reached within 100 ms (R178). -/
def execSleepTimeout (dt : Nat) (s : State) : Host.Outcome State Fault Refusal :=
  runBlock s dt (fun c => sleepTimeout c)

/-- WAKE_PIN: nWAKE is low at two consecutive oscillator edges (R179). -/
def execWakePin (dt : Nat) (s : State) : Host.Outcome State Fault Refusal :=
  runBlock s dt (fun c => wakeEnabled c 0 true)

/-- WAKE_TIMER: an oscillator edge finds TICK at WAKETIME or past it (R179). -/
def execWakeTimer (dt : Nat) (s : State) : Host.Outcome State Fault Refusal :=
  runBlock s dt (fun c => wakeEnabled c 1 (decide ((liveW c 0x100).toNat ≤ c.tick)))

/-- WAKE_LINK: the readback inputs of the satellite of hop h + 1 are at some levels while the link is stopped: the hop-1 return pair may be at the attention level (R179, R309). -/
def execWakeLink (a : Timed (Fin 4 × BitVec 4)) (s : State) : Host.Outcome State Fault Refusal :=
  runBlock s a.dt (fun c => (if linkAttention c a.arg.1 a.arg.2 then wakeEnabled c 2 true else c))

/-- WAKE_MOTION: the motion comparator sees a qualified edge in SLEEP (R179). -/
def execWakeMotion (dt : Nat) (s : State) : Host.Outcome State Fault Refusal :=
  runBlock s dt (fun c => wakeEnabled c 3 (c.pw.motionArmed && c.pw.motionMoved))

/-- WAKE_SWITCH: after a wake the net switches to SYSCLK (R180). -/
def execWakeSwitch (dt : Nat) (s : State) : Host.Outcome State Fault Refusal :=
  runFace s dt (fun c => wakeSwitch c)

/-- FRONT_ENDS_READY: the front ends are ready after a RUN request (R176). -/
def execFrontEndsReady (dt : Nat) (s : State) : Host.Outcome State Fault Refusal :=
  runBlock s dt (fun c => frontEndsReady c)

/-- MOTION_EDGE: the motion comparator sees a qualified edge (R181). -/
def execMotionEdge (dt : Nat) (s : State) : Host.Outcome State Fault Refusal :=
  runBlock s dt (fun c => motionEdge c)

/-- VBAK_CHECK: VBAK is checked (R182); low tells a value below its limit. -/
def execVbakCheck (dt : Nat) (low : Bool) (s : State) : Host.Outcome State Fault Refusal :=
  runBlock s dt (fun c => vbakCheck c low)

/-- CALENDAR_END_HOLD: the calendar reaches its last second (R148). -/
def execCalendarEndHold (dt : Nat) (s : State) : Host.Outcome State Fault Refusal :=
  runBlock s dt (fun c => calendarEnd c)

/-- NRESET_RELEASE: nRESET returns high (R169). -/
def execNresetRelease (dt : Nat) (s : State) : Host.Outcome State Fault Refusal :=
  runBlock s dt (fun c => nresetRelease c)

/-- VDD_LOSS_WITHOUT_VBAK: VDD is lost while VBAK is absent (R158). -/
def execVddLossWithoutVbak (dt : Nat) (s : State) : Host.Outcome State Fault Refusal :=
  runBlock s dt (fun c => vddLoss c)

/-- LF_OSC_RESTORED: the 32.768 kHz oscillator returns (R184). -/
def execLfOscRestored (dt : Nat) (s : State) : Host.Outcome State Fault Refusal :=
  runBlock s dt (fun c => lfRestored c)

/-- ROLLBACK_PROGRAM_DONE: the programming of the anti-rollback steps ends (R194): the last confirmed count, and whether a step failed. -/
def execRollbackProgramDone (dt : Nat) (confirmed : Nat) (failed : Bool) (s : State) : Host.Outcome State Fault Refusal :=
  runBlock s dt (fun c => rollbackDone c confirmed failed)

/-- SEQUENCER_CHECK_FAIL: the sequencer's check fails at a byte offset of the running slot (R508). -/
def execSequencerCheckFail (dt : Nat) (offset : Nat) (s : State) : Host.Outcome State Fault Refusal :=
  runBlock s dt (fun c => sequencerFail c offset)

end Sys2Proof.Machine
end

