-- ==== Sys2Proof/Machine/WeighCmds.lean ====
section
/-! DEFINITION. The meanings of the Weighbridge's and the ownership path's own events (chapters 3 and 4). -/

namespace Sys2Proof.Machine

/-- COMMAND_FETCH: the executor fetches the next command (R117); with what the read of its entry finds. -/
def execCommandFetch (dt : Nat) (f : EntryRead) (s : State) : Host.Outcome State Fault Refusal :=
  runBlock s dt (fun c => commandFetch c f.ecc f.word)

/-- LONG_OP_CHECKPOINT: the long operation of client k with number seq completes a step (R123); data are its measurements. -/
def execLongOpCheckpoint (dt : Nat) (k : Client) (seq : Nat) (data : List Int) (s : State) : Host.Outcome State Fault Refusal :=
  runBlock s dt (fun c => longCheckpoint c ⟨k, seq⟩ (fun c e => longStep c e data))

/-- RETIRE_RING_MERGE: a record of output o is merged into the journal (R130); with what the read of the ring finds (R110). -/
def execRetireRingMerge (dt : Nat) (a : RingAccess) (s : State) : Host.Outcome State Fault Refusal :=
  runBlock s dt (fun c => (if serving c then ringMergeRead c a.out a.ecc a.word else c))

/-- RETENTION_PATROL: the patrol reads a retention word, by its object address or its word index (R110, R500). -/
def execRetentionPatrol (dt : Nat) (indexed : Bool) (addr : Nat) (ecc : Ecc) (s : State) : Host.Outcome State Fault Refusal :=
  runBlock s dt (fun c => patrolRead c indexed addr ecc)

/-- SEQ_COUNTER_MISMATCH: the copies of a client's counters disagree (R114). -/
def execSeqCounterMismatch (dt : Nat) (k : Client) (s : State) : Host.Outcome State Fault Refusal :=
  runBlock s dt (fun c => (if serving c then counterMismatch c k else c))

/-- DRAIN_END: DRAINING of an object ends (R92). -/
def execDrainEnd (dt : Nat) (x : ObjIx) (s : State) : Host.Outcome State Fault Refusal :=
  runOwn s dt (fun c => drainEnd c x)

/-- SCRUB_COMPLETE: the scrubber has zeroed and verified its object (R93); fail is the address of a word that failed verification (R95). -/
def execScrubComplete (dt : Nat) (fail : Option Nat) (s : State) : Host.Outcome State Fault Refusal :=
  runTrans s dt (fun c => scrubComplete c fail)

/-- NEXT_OWNER_TAKEOVER: an object passes to its NEXT owner (R87). -/
def execNextOwnerTakeover (dt : Nat) (x : ObjIx) (s : State) : Host.Outcome State Fault Refusal :=
  runTrans s dt (fun c => takeover c x)

/-- OWNERSHIP_MISMATCH: the copies of the ownership map disagree, first at object address a (R86). -/
def execOwnershipMismatch (dt : Nat) (a : Nat) (s : State) : Host.Outcome State Fault Refusal :=
  runOwn s dt (fun c => (if serving c then ownershipMismatch c a else c))

end Sys2Proof.Machine
end

