-- ==== Sys2Proof/Machine/WheelCmds.lean ====
section
/-! DEFINITION. The meanings of the events of the wheels (chapter 11). -/

namespace Sys2Proof.Machine

/-- WHEEL_EDGE: a filtered active edge on wheel w (R317): its place in the synchroniser, and the levels of a VR input in mV (R316). -/
def execWheelEdge (dt : Nat) (w : Fin 4) (lag : Fin 3) (opp : Nat) (pk : Nat) (s : State) : Host.Outcome State Fault Refusal :=
  runBlock s dt (fun c => wheelJump (inputEdge c w lag opp pk) w)

/-- WHEEL_STALL: wheel w has stalled (R318). -/
def execWheelStall (dt : Nat) (w : Fin 4) (s : State) : Host.Outcome State Fault Refusal :=
  runBlock s dt (fun c => (if serving c then wheelStall c w else c))

/-- WHEEL_INPUT_FAULT: the input monitor of wheel w decides open or shorted, or sound again (R316). -/
def execWheelInputFault (dt : Nat) (w : Fin 4) (bad : Bool) (s : State) : Host.Outcome State Fault Refusal :=
  runBlock s dt (fun c => wheelInput c w bad)

/-- WATCHED_EDGE: an edge of wheel w while its input stage watches (R332). -/
def execWatchedEdge (dt : Nat) (w : Fin 4) (lag : Fin 3) (opp : Nat) (pk : Nat) (s : State) : Host.Outcome State Fault Refusal :=
  runBlock s dt (fun c => (if whWatched c w then wheelJump (inputEdge c w lag opp pk) w else c))

/-- WHEEL_STATE_MISMATCH: the copies of the state of wheel w disagree (R342). -/
def execWheelStateMismatch (dt : Nat) (w : Fin 4) (s : State) : Host.Outcome State Fault Refusal :=
  runBlock s dt (fun c => wheelMismatch c w)

end Sys2Proof.Machine
end

