-- ==== Sys2Proof/Machine/Dispatch.lean ====
section
/-! DEFINITION. The meaning of every command, arm by arm. -/

namespace Sys2Proof.Machine

/-- The effect of a command on everything but the queue. -/
def exec (i : Instr) (s : State) : Host.Outcome State Fault Refusal :=
  match i with
  | .shadowHalfwordWrite dt m r h d => Sys2Proof.Machine.execShadowHalfwordWrite dt m r h d s
  | .registerCommit dt m r d => Sys2Proof.Machine.execRegisterCommit dt m r d s
  | .busTimeout dt m r h read => Sys2Proof.Machine.execBusTimeout dt m r h read s
  | .objdataRead dt m ecc => Sys2Proof.Machine.execObjdataRead dt m ecc s
  | .objdataWrite dt m d => Sys2Proof.Machine.execObjdataWrite dt m d s
  | .objdataincRead dt m ecc => Sys2Proof.Machine.execObjdataincRead dt m ecc s
  | .objdataincWrite dt m d => Sys2Proof.Machine.execObjdataincWrite dt m d s
  | .completionRead dt a => Sys2Proof.Machine.execCompletionRead dt a s
  | .angsnapCapture dt m => Sys2Proof.Machine.execAngsnapCapture dt m s
  | .cmdsubmit dt m d => Sys2Proof.Machine.execCmdsubmit dt m d s
  | .claim dt m d => Sys2Proof.Machine.execClaim dt m d s
  | .lockoutEnd dt m => Sys2Proof.Machine.execLockoutEnd dt m s
  | .claimRelease dt m d => Sys2Proof.Machine.execClaimRelease dt m d s
  | .caldate dt m d => Sys2Proof.Machine.execCaldate dt m d s
  | .caltime dt m d => Sys2Proof.Machine.execCaltime dt m d s
  | .idleRequest dt m d => Sys2Proof.Machine.execIdleRequest dt m d s
  | .runRequest dt m d => Sys2Proof.Machine.execRunRequest dt m d s
  | .sleepRequest dt m d => Sys2Proof.Machine.execSleepRequest dt m d s
  | .wdogKick dt m d => Sys2Proof.Machine.execWdogKick dt m d s
  | .hostver dt m d => Sys2Proof.Machine.execHostver dt m d s
  | .fltackRearm dt m d => Sys2Proof.Machine.execFltackRearm dt m d s
  | .fltackAcksrc dt m d => Sys2Proof.Machine.execFltackAcksrc dt m d s
  | .fltackAckall dt m d => Sys2Proof.Machine.execFltackAckall dt m d s
  | .fltinjectPulse dt m d => Sys2Proof.Machine.execFltinjectPulse dt m d s
  | .fltinjectSet dt m d => Sys2Proof.Machine.execFltinjectSet dt m d s
  | .fltinjectClear dt m d => Sys2Proof.Machine.execFltinjectClear dt m d s
  | .evtack dt m d => Sys2Proof.Machine.execEvtack dt m d s
  | .testkey dt m d => Sys2Proof.Machine.execTestkey dt m d s
  | .lock dt m d => Sys2Proof.Machine.execLock dt m d s
  | .nop dt => Sys2Proof.Machine.execNop dt s
  | .grant dt => Sys2Proof.Machine.execGrant dt s
  | .release dt => Sys2Proof.Machine.execRelease dt s
  | .apply dt => Sys2Proof.Machine.execApply dt s
  | .claimcfg dt => Sys2Proof.Machine.execClaimcfg dt s
  | .faultpolicy dt => Sys2Proof.Machine.execFaultpolicy dt s
  | .faultpolicyDefault dt => Sys2Proof.Machine.execFaultpolicyDefault dt s
  | .benchrelease dt => Sys2Proof.Machine.execBenchrelease dt s
  | .run dt => Sys2Proof.Machine.execRun dt s
  | .accepthost dt => Sys2Proof.Machine.execAccepthost dt s
  | .factoryreset dt => Sys2Proof.Machine.execFactoryreset dt s
  | .softreset dt => Sys2Proof.Machine.execSoftreset dt s
  | .discover dt => Sys2Proof.Machine.execDiscover dt s
  | .calibrateFast dt => Sys2Proof.Machine.execCalibrateFast dt s
  | .calibrateRotating dt => Sys2Proof.Machine.execCalibrateRotating dt s
  | .autotune dt => Sys2Proof.Machine.execAutotune dt s
  | .learnteeth dt => Sys2Proof.Machine.execLearnteeth dt s
  | .enable dt => Sys2Proof.Machine.execEnable dt s
  | .disable dt => Sys2Proof.Machine.execDisable dt s
  | .setmodeChannelMode dt => Sys2Proof.Machine.execSetmodeChannelMode dt s
  | .setmodeAnchor dt => Sys2Proof.Machine.execSetmodeAnchor dt s
  | .setmodeLoopMode dt => Sys2Proof.Machine.execSetmodeLoopMode dt s
  | .setmodeManval dt => Sys2Proof.Machine.execSetmodeManval dt s
  | .setpoint dt => Sys2Proof.Machine.execSetpoint dt s
  | .notchset dt => Sys2Proof.Machine.execNotchset dt s
  | .eventpost dt => Sys2Proof.Machine.execEventpost dt s
  | .eventcancel dt => Sys2Proof.Machine.execEventcancel dt s
  | .suspend dt => Sys2Proof.Machine.execSuspend dt s
  | .resume dt => Sys2Proof.Machine.execResume dt s
  | .cancel dt => Sys2Proof.Machine.execCancel dt s
  | .stageimagePage dt => Sys2Proof.Machine.execStageimagePage dt s
  | .stageimageErase dt => Sys2Proof.Machine.execStageimageErase dt s
  | .stageimageFinish a => Sys2Proof.Machine.execStageimageFinish a s
  | .activateimagePromote a => Sys2Proof.Machine.execActivateimagePromote a s
  | .activateimageDemote a => Sys2Proof.Machine.execActivateimageDemote a s
  | .spanchange dt => Sys2Proof.Machine.execSpanchange dt s
  | .scrub dt => Sys2Proof.Machine.execScrub dt s
  | .selftest dt => Sys2Proof.Machine.execSelftest dt s
  | .sataccept dt => Sys2Proof.Machine.execSataccept dt s
  | .satacceptReplace dt => Sys2Proof.Machine.execSatacceptReplace dt s
  | .satrelease dt => Sys2Proof.Machine.execSatrelease dt s
  | .commandFetch dt f => Sys2Proof.Machine.execCommandFetch dt f s
  | .longOpCheckpoint dt k seq data => Sys2Proof.Machine.execLongOpCheckpoint dt k seq data s
  | .retireRingMerge dt a => Sys2Proof.Machine.execRetireRingMerge dt a s
  | .retentionPatrol dt indexed addr ecc => Sys2Proof.Machine.execRetentionPatrol dt indexed addr ecc s
  | .seqCounterMismatch dt k => Sys2Proof.Machine.execSeqCounterMismatch dt k s
  | .drainEnd dt x => Sys2Proof.Machine.execDrainEnd dt x s
  | .scrubComplete dt fail => Sys2Proof.Machine.execScrubComplete dt fail s
  | .nextOwnerTakeover dt x => Sys2Proof.Machine.execNextOwnerTakeover dt x s
  | .ownershipMismatch dt a => Sys2Proof.Machine.execOwnershipMismatch dt a s
  | .powerOnReset dt vdd vbak => Sys2Proof.Machine.execPowerOnReset dt vdd vbak s
  | .bootTrimLoad dt => Sys2Proof.Machine.execBootTrimLoad dt s
  | .pllLock dt => Sys2Proof.Machine.execPllLock dt s
  | .pllLockRetry dt => Sys2Proof.Machine.execPllLockRetry dt s
  | .imageCheck dt errA errB => Sys2Proof.Machine.execImageCheck dt errA errB s
  | .retentionInit dt => Sys2Proof.Machine.execRetentionInit dt s
  | .replay dt singles uncorr => Sys2Proof.Machine.execReplay dt singles uncorr s
  | .nresetPin dt len => Sys2Proof.Machine.execNresetPin dt len s
  | .brownout dt => Sys2Proof.Machine.execBrownout dt s
  | .backupExit dt => Sys2Proof.Machine.execBackupExit dt s
  | .vbakLoss a => Sys2Proof.Machine.execVbakLoss a s
  | .watchdogExpiry dt => Sys2Proof.Machine.execWatchdogExpiry dt s
  | .xtalLoss dt pll => Sys2Proof.Machine.execXtalLoss dt pll s
  | .lfOscLoss a => Sys2Proof.Machine.execLfOscLoss a s
  | .lfTick dt => Sys2Proof.Machine.execLfTick dt s
  | .sleepEntry dt => Sys2Proof.Machine.execSleepEntry dt s
  | .sleepTimeout dt => Sys2Proof.Machine.execSleepTimeout dt s
  | .wakePin dt => Sys2Proof.Machine.execWakePin dt s
  | .wakeTimer dt => Sys2Proof.Machine.execWakeTimer dt s
  | .wakeLink a => Sys2Proof.Machine.execWakeLink a s
  | .wakeMotion dt => Sys2Proof.Machine.execWakeMotion dt s
  | .wakeSwitch dt => Sys2Proof.Machine.execWakeSwitch dt s
  | .frontEndsReady dt => Sys2Proof.Machine.execFrontEndsReady dt s
  | .motionEdge dt => Sys2Proof.Machine.execMotionEdge dt s
  | .vbakCheck dt low => Sys2Proof.Machine.execVbakCheck dt low s
  | .calendarEndHold dt => Sys2Proof.Machine.execCalendarEndHold dt s
  | .generatorReady dt g amp => Sys2Proof.Machine.execGeneratorReady dt g amp s
  | .generatorThermal dt g t => Sys2Proof.Machine.execGeneratorThermal dt g t s
  | .generatorLimit dt g clip x => Sys2Proof.Machine.execGeneratorLimit dt g clip x s
  | .vexcMonitor dt low => Sys2Proof.Machine.execVexcMonitor dt low s
  | .pairWindow dt n q0 q1 q2 q3 overS overC => Sys2Proof.Machine.execPairWindow dt n q0 q1 q2 q3 overS overC s
  | .carrierPeriodFit dt n err => Sys2Proof.Machine.execCarrierPeriodFit dt n err s
  | .selfcalMeasurement dt n trims tone => Sys2Proof.Machine.execSelfcalMeasurement dt n trims tone s
  | .presenceCheckStart dt n => Sys2Proof.Machine.execPresenceCheckStart dt n s
  | .presenceCheckEnd dt n dvs dvc => Sys2Proof.Machine.execPresenceCheckEnd dt n dvs dvc s
  | .trackingUpdate dt n => Sys2Proof.Machine.execTrackingUpdate dt n s
  | .bandwidthEvaluation dt n => Sys2Proof.Machine.execBandwidthEvaluation dt n s
  | .encoderStep dt e => Sys2Proof.Machine.execEncoderStep dt e s
  | .hopTrainStart dt h => Sys2Proof.Machine.execHopTrainStart dt h s
  | .hopClockLock dt h => Sys2Proof.Machine.execHopClockLock dt h s
  | .hopTrainFail dt h why => Sys2Proof.Machine.execHopTrainFail dt h why s
  | .identRecord dt h serial part rev => Sys2Proof.Machine.execIdentRecord dt h serial part rev s
  | .identTimeout dt h => Sys2Proof.Machine.execIdentTimeout dt h s
  | .upstreamFrame dt u => Sys2Proof.Machine.execUpstreamFrame dt u s
  | .messageRecord dt h rec => Sys2Proof.Machine.execMessageRecord dt h rec s
  | .messageRepeat dt h => Sys2Proof.Machine.execMessageRepeat dt h s
  | .satelliteSafeState dt h clockLost => Sys2Proof.Machine.execSatelliteSafeState dt h clockLost s
  | .extraDevice dt => Sys2Proof.Machine.execExtraDevice dt s
  | .admissionComplete dt h => Sys2Proof.Machine.execAdmissionComplete dt h s
  | .bufferReady dt k amp => Sys2Proof.Machine.execBufferReady dt k amp s
  | .holdExpiry dt k seq => Sys2Proof.Machine.execHoldExpiry dt k seq s
  | .wheelEdge dt w lag opp pk => Sys2Proof.Machine.execWheelEdge dt w lag opp pk s
  | .wheelStall dt w => Sys2Proof.Machine.execWheelStall dt w s
  | .wheelInputFault dt w bad => Sys2Proof.Machine.execWheelInputFault dt w bad s
  | .watchedEdge dt w lag opp pk => Sys2Proof.Machine.execWatchedEdge dt w lag opp pk s
  | .wheelStateMismatch dt w => Sys2Proof.Machine.execWheelStateMismatch dt w s
  | .eventStart dt o => Sys2Proof.Machine.execEventStart dt o s
  | .eventEnd dt o => Sys2Proof.Machine.execEventEnd dt o s
  | .bankLeadStart dt a => Sys2Proof.Machine.execBankLeadStart dt a s
  | .serializeTimeout dt o => Sys2Proof.Machine.execSerializeTimeout dt o s
  | .readbackTrip dt b => Sys2Proof.Machine.execReadbackTrip dt b s
  | .schedulerMismatch dt b => Sys2Proof.Machine.execSchedulerMismatch dt b s
  | .frameBoundary dt => Sys2Proof.Machine.execFrameBoundary dt s
  | .outputApplication dt => Sys2Proof.Machine.execOutputApplication dt s
  | .loopCheckMismatch dt n => Sys2Proof.Machine.execLoopCheckMismatch dt n s
  | .monitorReading dt a code lim => Sys2Proof.Machine.execMonitorReading dt a code lim s
  | .aoCheckMismatch dt a => Sys2Proof.Machine.execAoCheckMismatch dt a s
  | .blockResetComplete dt => Sys2Proof.Machine.execBlockResetComplete dt s
  | .escalationDeadline dt n => Sys2Proof.Machine.execEscalationDeadline dt n s
  | .quietPeriodEnd dt n => Sys2Proof.Machine.execQuietPeriodEnd dt n s
  | .windowEnd dt n => Sys2Proof.Machine.execWindowEnd dt n s
  | .collectorSelfCheck dt => Sys2Proof.Machine.execCollectorSelfCheck dt s
  | .registerRead dt m r h proto => Sys2Proof.Machine.execRegisterRead dt m r h proto s
  | .nresetRelease dt => Sys2Proof.Machine.execNresetRelease dt s
  | .vddLossWithoutVbak dt => Sys2Proof.Machine.execVddLossWithoutVbak dt s
  | .lfOscRestored dt => Sys2Proof.Machine.execLfOscRestored dt s
  | .trainingComplete dt h d => Sys2Proof.Machine.execTrainingComplete dt h d s
  | .rollbackProgramDone dt confirmed failed => Sys2Proof.Machine.execRollbackProgramDone dt confirmed failed s
  | .sequencerCheckFail dt offset => Sys2Proof.Machine.execSequencerCheckFail dt offset s
  | .readbackAgree dt b => Sys2Proof.Machine.execReadbackAgree dt b s
  | .downstreamFrame dt h err => Sys2Proof.Machine.execDownstreamFrame dt h err s
  | .satelliteNreset dt p => Sys2Proof.Machine.execSatelliteNreset dt p s

end Sys2Proof.Machine
end

