-- ==== Sys2Proof/Machine/Step.lean ====
section
/-! DEFINITION. One step: the command at the front of the queue, or one tick of SYSCLK on an empty queue. -/

namespace Sys2Proof.Machine

/-- One tick with no command (R142). [DESIGN CHOICE: log 12] -/
def idle (s : State) : Host.Outcome State Fault Refusal := .next { s with chip := (lapse s 1).2, was := (lapse s 1).1 }

/-- Take the command at the front of the queue and execute it with the queue's rest. [DESIGN CHOICE: log 12] -/
def step (s : State) : Host.Outcome State Fault Refusal :=
  match s.pending with
  | [] => idle s
  | i :: rest => exec i { s with pending := rest }

/-- The state with the command that a word spells at the front of its queue. [DESIGN CHOICE: log 4] -/
def State.withFetchWord (s : State) (nbits w : Nat) : State :=
  match Sys2Proof.decodeTableWord nbits w with
  | some i => { s with pending := i :: s.pending }
  | none => s

end Sys2Proof.Machine
end

