-- ==== Sys2Proof/WellFormed.lean ====
section
/-! DEFINITION. Which commands are well formed: each row of the table names the access or event that it is, and the values
that come from outside lie in the ranges that the spec gives them. -/

namespace Sys2Proof

open Sys2Proof.Machine

/-- Registers whose every commit has a row of its own: HOSTVER, CMDSUBMIT, OBJDATA, OBJDATAINC, EVTACK, CALDATE, CALTIME,
WDOG, LOCK, TESTKEY. -/
def ownCommit (r : Fin 64) : Bool := [2, 8, 13, 14, 18, 27, 28, 35, 46, 47].contains r.val

/-- Registers whose read of halfword 0 has a row of its own: COMPLETION, OBJDATA, OBJDATAINC, ANGSNAP. -/
def ownRead (r : Fin 64) : Bool := [11, 13, 14, 32].contains r.val

/-- Halfword 3 of FLTACK with a bit of bits 15 to 13 set: REARM, ACKSRC, ACKALL (Table 16-14). -/
def ackBit (d : Half) (i : Nat) : Bool := d.getLsbD i

/-- OP of FLTINJECT in its halfword 3 (Table 16-15). -/
def injectOp (d : Half) : Nat := d.toNat / 2 ^ 14

/-- A command is well formed. -/
def Instr.wf (i : Instr) : Bool :=
  match i with
  | .registerCommit _ _ r d =>
    !ownCommit r && (r != 23 || decide (d.toNat < 2 ^ 13)) && (r != 25 || decide (injectOp d = 0))
  | .registerRead _ _ r h proto => proto.isSome || !(h = 0 && ownRead r)
  | .fltackRearm _ _ d => ackBit d 15
  | .fltackAcksrc _ _ d => ackBit d 14
  | .fltackAckall _ _ d => ackBit d 13
  | .fltinjectPulse _ _ d => injectOp d = 1
  | .fltinjectSet _ _ d => injectOp d = 2
  | .fltinjectClear _ _ d => injectOp d = 3
  | .longOpCheckpoint _ _ seq _ => decide (1 ≤ seq ∧ seq < 2 ^ 32)
  | .holdExpiry _ _ seq => decide (1 ≤ seq ∧ seq < 2 ^ 32)
  | .scrubComplete _ fail => fail.all (fun a => a % 8 = 0)
  | .ownershipMismatch _ a => a % 8 = 0
  | .powerOnReset _ vdd vbak => vdd || vbak
  | .replay _ singles uncorr => singles.all (fun p => decide (p.1 < 1024 ∧ p.2 < 8)) && uncorr.all (fun j => decide (j < 1024))
  | .rollbackProgramDone _ confirmed _ => decide (confirmed ≤ 64)
  | .sequencerCheckFail _ offset => decide (offset < 65536)
  | .generatorReady _ _ amp => decide (amp < 65536)
  | .generatorLimit _ _ _ x => decide (x.amp < 65536)
  | .carrierPeriodFit _ _ err => decide (err.natAbs ≤ 32768)
  | .trainingComplete _ _ d => decide (d ≤ 64)
  | .hopTrainFail _ _ why => (match why with | .delay d => decide (64 < d) | _ => true)
  | .identRecord _ _ _ part rev => decide (part < 65536 ∧ rev < 256)
  | .bufferReady _ _ amp => decide (amp < 65536)
  | .shadowHalfwordWrite _ _ _ _ _ | .busTimeout _ _ _ _ _ | .objdataRead _ _ _ | .objdataWrite _ _ _ | .objdataincRead _ _ _
  | .objdataincWrite _ _ _ | .completionRead _ _ | .angsnapCapture _ _ | .cmdsubmit _ _ _ | .claim _ _ _ | .lockoutEnd _ _
  | .claimRelease _ _ _ | .caldate _ _ _ | .caltime _ _ _ | .idleRequest _ _ _ | .runRequest _ _ _ | .sleepRequest _ _ _
  | .wdogKick _ _ _ | .hostver _ _ _ | .evtack _ _ _ | .testkey _ _ _ | .lock _ _ _ | .nop _ | .grant _ | .release _ | .apply _
  | .claimcfg _ | .faultpolicy _ | .faultpolicyDefault _ | .benchrelease _ | .run _ | .accepthost _ | .factoryreset _
  | .softreset _ | .discover _ | .calibrateFast _ | .calibrateRotating _ | .autotune _ | .learnteeth _ | .enable _ | .disable _
  | .setmodeChannelMode _ | .setmodeAnchor _ | .setmodeLoopMode _ | .setmodeManval _ | .setpoint _ | .notchset _ | .eventpost _
  | .eventcancel _ | .suspend _ | .resume _ | .cancel _ | .stageimagePage _ | .stageimageErase _ | .stageimageFinish _
  | .activateimagePromote _ | .activateimageDemote _ | .spanchange _ | .scrub _ | .selftest _ | .sataccept _
  | .satacceptReplace _ | .satrelease _ | .commandFetch _ _ | .retireRingMerge _ _ | .retentionPatrol _ _ _ _
  | .seqCounterMismatch _ _ | .drainEnd _ _ | .nextOwnerTakeover _ _ | .bootTrimLoad _ | .pllLock _ | .pllLockRetry _
  | .imageCheck _ _ _ | .retentionInit _ | .nresetPin _ _ | .brownout _ | .backupExit _ | .vbakLoss _ | .watchdogExpiry _
  | .xtalLoss _ _ | .lfOscLoss _ | .lfTick _ | .sleepEntry _ | .sleepTimeout _ | .wakePin _ | .wakeTimer _ | .wakeLink _
  | .wakeMotion _ | .wakeSwitch _ | .frontEndsReady _ | .motionEdge _ | .vbakCheck _ _ | .calendarEndHold _
  | .generatorThermal _ _ _ | .pairWindow _ _ _ _ _ _ _ _ | .vexcMonitor _ _ | .selfcalMeasurement _ _ _ _
  | .presenceCheckStart _ _ | .presenceCheckEnd _ _ _ _ | .trackingUpdate _ _ | .bandwidthEvaluation _ _ | .encoderStep _ _
  | .hopTrainStart _ _ | .hopClockLock _ _ | .identTimeout _ _ | .upstreamFrame _ _ | .messageRecord _ _ _ | .messageRepeat _ _
  | .satelliteSafeState _ _ _ | .extraDevice _ | .admissionComplete _ _ | .wheelEdge _ _ _ _ _ | .wheelStall _ _
  | .wheelInputFault _ _ _ | .watchedEdge _ _ _ _ _ | .wheelStateMismatch _ _ | .eventStart _ _ | .eventEnd _ _
  | .bankLeadStart _ _ | .serializeTimeout _ _ | .readbackTrip _ _ | .schedulerMismatch _ _ | .frameBoundary _
  | .outputApplication _ | .loopCheckMismatch _ _ | .monitorReading _ _ _ _ | .aoCheckMismatch _ _ | .blockResetComplete _
  | .escalationDeadline _ _ | .quietPeriodEnd _ _ | .windowEnd _ _ | .collectorSelfCheck _ | .nresetRelease _
  | .vddLossWithoutVbak _ | .lfOscRestored _ | .readbackAgree _ _ | .downstreamFrame _ _ _ | .satelliteNreset _ _ => true

end Sys2Proof
end

