-- ==== Sys2Proof/Safety.lean ====
section
/-! DEFINITION. The terms in which claims are stated: the part as a command finds it, the state that a command's effect leads
to, what a safe step keeps, and the conditions under which the Face carries out a commit. -/

namespace Sys2Proof

open Sys2Proof.Machine

/-- The part as a command finds it, dt ticks after the last one (R142). -/
def found (s : State) (dt : Nat) : Chip := (lapse s dt).2

/-- The part as a read of a command sees it: as it stood at the start of that tick (R22, R35). -/
def looked (s : State) (dt : Nat) : Chip := seen (lapse s dt).1 (lapse s dt).2

/-- The state after a command that comes dt ticks after the last one and takes the part to c (R22). -/
def ended (s : State) (dt : Nat) (c : Chip) : State := { s with chip := c, was := (lapse s dt).1 }

/-- A step answers a next state. -/
def Goes (s : State) : Prop := ∃ t, step s = .next t

/-- The object words are in canonical form (R59): equal words are equal data. -/
def Canonical (s : State) : Prop := s.chip.mem.wf = true

/-- What a safe step keeps: the canonical form, and the variant (R2). -/
def SafeStep (s t : State) : Prop := Canonical t ∧ t.chip.isN = s.chip.isN

/-- No two masters act as the same client (R78). -/
def ClaimsApart (s : State) : Prop :=
  ∀ (m n : Mid) (k : Client), (mst s.chip m).claim = some k → (mst s.chip n).claim = some k → m = n

/-- The Face serves, and master m, acting for a client that the register permits, has the three lower halfwords of register r
in its write shadow (R42, R43, R48): a write of halfword 3 is then carried out. -/
def CommitRuns (c : Chip) (m : Mid) (r : Fin 64) : Prop :=
  faceAt c writeTicks = .serves ∧ r.val < 48 ∧ writePerm r ≠ .none ∧ permits (writePerm r) (mst c m).claim = true ∧
  shadowReady (mst c m) r = true

/-- The Face after a commit of master m: its shadow is empty and the data balls are undriven (R32, R43). -/
def committed (c : Chip) (m : Mid) : Chip := driveD (emptyShadow c m) none false

/-- The Face serves, and master m may read register r (R39, R48). -/
def ReadRuns (c : Chip) (m : Mid) (r : Fin 64) : Prop :=
  faceCond c = .serves ∧ r.val < 48 ∧ permits (readPerm r) (mst c m).claim = true

/-- The access of a command that is a write of halfword 3 of a register: its dt, master, register and data. -/
def commitOf (i : Instr) : Option (Nat × Mid × Fin 64 × Half) :=
  match i with
  | .registerCommit dt m r d => some (dt, m, r, d)
  | .objdataWrite dt m d => some (dt, m, 13, d)
  | .objdataincWrite dt m d => some (dt, m, 14, d)
  | .cmdsubmit dt m d => some (dt, m, 8, d)
  | .claim dt m d | .claimRelease dt m d => some (dt, m, 3, d)
  | .caldate dt m d => some (dt, m, 27, d)
  | .caltime dt m d => some (dt, m, 28, d)
  | .idleRequest dt m d | .runRequest dt m d | .sleepRequest dt m d => some (dt, m, 29, d)
  | .wdogKick dt m d => some (dt, m, 35, d)
  | .hostver dt m d => some (dt, m, 2, d)
  | .fltackRearm dt m d | .fltackAcksrc dt m d | .fltackAckall dt m d => some (dt, m, 23, d)
  | .fltinjectPulse dt m d | .fltinjectSet dt m d | .fltinjectClear dt m d => some (dt, m, 25, d)
  | .evtack dt m d => some (dt, m, 18, d)
  | .testkey dt m d => some (dt, m, 47, d)
  | .lock dt m d => some (dt, m, 46, d)
  | _ => none

/-- The fields that every commit of POWERCTL writes (Table 6-13): AUTORESUME, WAKEEN and the motion comparator's, which the
FY6416-N lacks. -/
def powerctlFields (c : Chip) (w : Word) : Power :=
  { c.pw with autoresume := bit w 39, wakeen := if c.isN then fld w 34 32 else fld w 35 32,
              motionen := bit w 31 && !c.isN, motionwh := if c.isN then 0 else ⟨fld w 29 28 % 4, by omega⟩ }

/-- The commands that may change the ownership map (chapter 3): GRANT, RELEASE and SCRUB, what a drain, a scrub and a takeover end in,
CLAIMCFG for the provisioning, SATBIND.UNSCRUBBED, a mismatch of the copies, the ends of BOOT, FACTORYRESET and POWER_ON_RESET. -/
def mapRow (i : Instr) : Bool :=
  match i with
  | .grant .. | .release .. | .scrub .. | .drainEnd .. | .scrubComplete .. | .nextOwnerTakeover .. | .claimcfg .. | .messageRecord .. |
    .admissionComplete .. | .ownershipMismatch .. | .retentionInit .. | .replay .. | .factoryreset .. | .powerOnReset .. => true
  | _ => false

/-- The commands that may change an object word: commits of OBJDATA and OBJDATAINC, also written as a REGISTER_COMMIT; APPLY, FAULTPOLICY
and NOTCHSET; a scrub, FACTORYRESET and what follows them; POWER_ON_RESET. -/
def wordRow (i : Instr) : Bool :=
  match i with
  | .objdataWrite .. | .objdataincWrite .. | .registerCommit .. | .apply .. | .faultpolicy .. | .faultpolicyDefault .. |
    .notchset .. | .scrubComplete .. | .nextOwnerTakeover .. | .factoryreset .. | .powerOnReset .. => true
  | _ => false

/-- The fetched command of opcode op is e, and it is at its commit point or first step (R115). -/
def Executes (c : Chip) (op : Nat) (p : Entry → Bool) (e : Entry) : Prop := findExec c op p = some e

end Sys2Proof
end

