-- ==== Sys2Proof/Certificates/Slice0/Obligations.lean ====
section
/-! DEFINITION. The statements for the provers, family by family: what each command does, where it completes, what it leaves
unchanged, and what every step keeps. -/

open Sys2Proof Sys2Proof.Machine

/-! ### The queue -/

/-- A step takes the command at the front of the queue and runs exec on it with the queue's rest. -/
def Obligations.StepRunsFrontCommand : Prop :=
  ∀ (s : State) (i : Instr) (rest : List Instr), s.pending = i :: rest → step s = exec i { s with pending := rest }

/-- With no command waiting, a step is one tick of SYSCLK (the model's choice, log 12). -/
def Obligations.EmptyQueuePassesOneTick : Prop :=
  ∀ s : State, s.pending = [] → step s = .next (ended s 1 (found s 1))

/-! ### The Face (chapter 2) -/

/-- SHADOW_HALFWORD_WRITE, R41, of a register that exists, while the Face serves: the halfword and its written flag enter the shadow,
which is tagged with the register; a shadow tagged with another register is emptied first, and OBJSTAT.ABANDONED (bit 2) is set.
Nothing else changes, and the data balls are undriven. -/
def Obligations.ShadowTakesHalfword : Prop :=
  ∀ (s : State) (dt : Nat) (m : Mid) (r : Fin 64) (h : Fin 3) (d : Half),
    let c := found s dt
    let x := mst c m
    let z := if x.wrTag = none ∨ x.wrTag = some r then x
      else { x with flags := x.flags ||| 4#11, flagsNow := x.flagsNow ||| 4#11,
                    wr0 := 0, wr1 := 0, wr2 := 0, wf0 := false, wf1 := false, wf2 := false }
    faceAt c writeTicks = .serves → r.val < 48 →
    exec (.shadowHalfwordWrite dt m r h d) s = .next (ended s dt (driveD (updM c m (fun _ =>
      match h with
      | 0 => { z with wrTag := some r, wr0 := d, wf0 := true }
      | 1 => { z with wrTag := some r, wr1 := d, wf1 := true }
      | 2 => { z with wrTag := some r, wr2 := d, wf2 := true })) none false))

/-- REGISTER_READ, R39, while the Face serves: a permitted read of halfword 0 of a register whose read has no side effect latches all 64
bits, as the register stood at the start of the tick (R35), tags the shadow and serves halfword 0; a read of halfword 1, 2 or 3 is served
from a shadow with that tag, and returns 0 and sets OBJSTAT.RDORDER (bit 3) without it. Nothing else changes. The reads of halfword 0
with a side effect (CMDSTAT here 10, COMPLETION, OBJDATA, OBJDATAINC, ANGSNAP) stand in the next statements. -/
def Obligations.ReadsAreServedFromTheShadow : Prop :=
  ∀ (s : State) (dt : Nat) (m : Mid) (r : Fin 64) (h : Fin 4),
    let c := found s dt
    let v := looked s dt
    (ReadRuns c m r → ownRead r = false → r ≠ 10 →
      exec (.registerRead dt m r 0 none) s =
        .next (ended s dt (driveD (updM c m (fun x => { x with rdVal := (regRead v c m r .clean 0).2, rdTag := some r }))
          (some (halfOf (regRead v c m r .clean 0).2 0)) false))) ∧
    (faceCond c = .serves → r.val < 48 → h ≠ 0 → (mst c m).rdTag = some r →
      exec (.registerRead dt m r h none) s = .next (ended s dt (driveD c (some (halfOf (mst c m).rdVal h.val)) false))) ∧
    (faceCond c = .serves → r.val < 48 → h ≠ 0 → (mst c m).rdTag ≠ some r →
      exec (.registerRead dt m r h none) s = .next (ended s dt (driveD
        (updM c m (fun x => { x with flags := x.flags ||| 8#11, flagsNow := x.flagsNow ||| 8#11 })) (some 0) false)))

/-- REGISTER_READ of halfword 0 of HOSTVER, CMDA, OBJADDR (Table 2-10), EVTSTAT, EVTMASK, TICK, SPDSNAP, SCRATCH and LOCK (Table 2-12) by a
master that acts as client k while the Face serves: the word that is latched; and of CMDSTAT (Table 4-15), which zeroes its
REFCOUNT but for the refusals of this tick. -/
def Obligations.ReadLatchesTheRegister : Prop :=
  ∀ (s : State) (dt : Nat) (m : Mid) (k : Client),
    let c := found s dt
    let v := looked s dt
    let x := mst c m
    let latched (c : Chip) (r : Fin 64) (w : Word) : Chip :=
      driveD (updM c m (fun x => { x with rdVal := w, rdTag := some r })) (some (halfOf w 0)) false
    faceCond c = .serves → x.claim = some k →
    exec (.registerRead dt m 2 0 none) s = .next (ended s dt (latched c 2 (w64 v.pw.hostver))) ∧
    exec (.registerRead dt m 5 0 none) s = .next (ended s dt (latched c 5 x.cmda)) ∧
    exec (.registerRead dt m 12 0 none) s = .next (ended s dt (latched c 12 (pack [(32, 1, b2n x.view), (3, 29, x.addr)]))) ∧
    exec (.registerRead dt m 16 0 none) s = .next (ended s dt (latched c 16 v.flt.evtstat[k])) ∧
    exec (.registerRead dt m 17 0 none) s = .next (ended s dt (latched c 17 v.flt.evtmask[k])) ∧
    exec (.registerRead dt m 26 0 none) s = .next (ended s dt (latched c 26 (w64 c.tick))) ∧
    exec (.registerRead dt m 33 0 none) s = .next (ended s dt (latched c 33 x.spdHold)) ∧
    exec (.registerRead dt m 45 0 none) s = .next (ended s dt (latched c 45 x.scratch)) ∧
    exec (.registerRead dt m 46 0 none) s =
      .next (ended s dt (latched c 46 (pack [(1, 1, b2n c.face.trimlock), (0, 1, b2n c.face.testlock)]))) ∧
    exec (.registerRead dt m 10 0 none) s =
      .next (ended s dt (latched { c with wb := { c.wb with clients := upd c.wb.clients k (fun v => { v with refCount := v.refNow }) } } 10
        (cmdstatWord v k)))

/-- COMPLETION_READ, R125 and R126, by a master that acts as client k while the Face serves and no error is found: the lowest-numbered
record of the client, as it stood at the start of the tick, is latched; if it has retired, its entry is freed and the record is copied
into LASTREC; if not, the read names it with VALID 0; with no entry it latches zero. Nothing else changes. -/
def Obligations.CompletionDeliversInOrder : Prop :=
  ∀ (s : State) (dt : Nat) (m : Mid) (k : Client) (w : Fin 8),
    let c := found s dt
    let v := looked s dt
    let more (e : Entry) : Bool := v.wb.entries.any (fun x => x.client = k && x.state = .retired && keyOf x ≠ keyOf e)
    faceCond c = .serves → (mst c m).claim = some k →
    (clientHead v k = none → exec (.completionRead dt ⟨m, .clean, w⟩) s = .next (ended s dt (latch c m 11 0))) ∧
    (∀ e, clientHead v k = some e → e.state ≠ .retired →
      exec (.completionRead dt ⟨m, .clean, w⟩) s = .next (ended s dt (latch c m 11 (pack [(62, 1, b2n (more e)), (0, 32, e.seq)])))) ∧
    (∀ e, clientHead v k = some e → e.state = .retired → (findEntry c (keyOf e)).isSome = true →
      exec (.completionRead dt ⟨m, .clean, w⟩) s = .next (ended s dt (latch { c with wb := { c.wb with
          entries := c.wb.entries.filter (fun x => keyOf x ≠ keyOf e),
          clients := upd c.wb.clients k (fun v => { v with
            rec0 := recWord0 e (more e), rec1 := w64 e.retireTick, rec2 := e.result,
            rec3 := pack [(32, 16, c.wb.epoch), (0, 32, e.hosttag.toNat)] }) } } m 11 (recWord0 e (more e)))))

/-- ANGSNAP_CAPTURE, R261 to R263, by a master that acts as client k while the Face serves: the owner's read latches the angle of the
channel that SNAPSEL names, as it stood at the start of the tick, and fills the hold; for another client's channel the read latches
zero, OBJSTAT.FOREIGN (bit 6) is set and S040 is raised. Nothing else changes. -/
def Obligations.AngsnapCaptures : Prop :=
  ∀ (s : State) (dt : Nat) (m : Mid) (k : Client),
    let c := found s dt
    let v := looked s dt
    let x := mst c m
    let t := v.trk[x.snapCh]
    faceCond c = .serves → x.claim = some k →
    (ownerOf v (ixCh x.snapCh) = some k →
      exec (.angsnapCapture dt m) s = .next (ended s dt (latch (updM c m (fun x => { x with
          spdHold := w64i (if x.snapMech then t.mechspd else t.elecspd),
          snapHold := pack [(48, 8, qualOf t), (32, 16, min 0xFFFF (c.tick - 1 - t.outtick)), (0, 32, t.outtick)],
          holdCh := some x.snapCh })) m 32 (w64i (if x.snapMech then t.mechang else t.elecang))))) ∧
    (ownerOf v (ixCh x.snapCh) ≠ some k →
      exec (.angsnapCapture dt m) s = .next (ended s dt (latch (raiseR (updM c m (fun x => { x with
          spdHold := 0, snapHold := pack [(48, 8, 4)], holdCh := none,
          flags := x.flags ||| 64#11, flagsNow := x.flagsNow ||| 64#11 }))
          (evAt c 40 m.val accRead 1 0x100 (some k))) m 32 0)))

/-- OBJDATA_READ and OBJDATAINC_READ, R51 and R52, of a word that exists and that the master's client may read, while the Face serves: the
word at OBJADDR is latched, as it stood at the start of the tick; a retention read with a corrected bit latches it too and raises
S064, an uncorrectable one latches zero, sets OBJSTAT.RETERR (bit 10), halts the Weighbridge and raises S065 (R110, R113; of OBJDATA
stated outside the journal's words); OBJDATAINC then moves OBJADDR by one word. Nothing else changes. -/
def Obligations.ObjectWordsAreRead : Prop :=
  ∀ (s : State) (dt : Nat) (m : Mid) (cl : Client) (k : WClass) (o : OAccess),
    let c := found s dt
    let v := looked s dt
    let x := mst c m
    let a := objAddr x
    let up (c : Chip) : Chip := updM c m (fun x => { x with addr := (x.addr + 1) % 2 ^ 29 })
    faceCond c = .serves → x.claim = some cl → foreignRegion c a = false → objInfo a = some (k, o) → mayAccess v cl o false = true →
    exec (.objdataRead dt m .clean) s = .next (ended s dt (latch c m 13 (objValue v k x.view a))) ∧
    exec (.objdataincRead dt m .clean) s = .next (ended s dt (latch (up c) m 14 (objValue v k x.view a))) ∧
    (journalWord a = none → exec (.objdataRead dt m .single) s =
      .next (ended s dt (latch (raiseR c (evAt c 64 m.val accRead 2 a (some cl))) m 13 (objValue v k x.view a)))) ∧
    exec (.objdataRead dt m .double) s = .next (ended s dt (latch (raiseR
      { updM c m (fun x => { x with flags := x.flags ||| 1024#11, flagsNow := x.flagsNow ||| 1024#11 }) with
        wb := { c.wb with halted := true } }
      (evAt c 65 m.val accRead 2 a (some cl))) m 13 0))

/-- OBJDATA_WRITE and OBJDATAINC_WRITE, R51, R52 and R56, of a CONFIG word that the master's client may write, in view 0 and frozen by no
APPLY: the commit writes the fields of the staged copy, the reserved bits zero (R16), and nothing else of the object words; OBJDATAINC
moves OBJADDR by one word. Nothing else changes but the shadow, which empties. -/
def Obligations.ConfigWordsAreStaged : Prop :=
  ∀ (s : State) (dt : Nat) (m : Mid) (d : Half) (cl : Client) (o : OAccess),
    let c := found s dt
    let x := mst c m
    let a := objAddr x
    let up (c : Chip) : Chip := updM c m (fun x => { x with addr := (x.addr + 1) % 2 ^ 29 })
    let put (c : Chip) : Chip := { c with mem := c.mem.putStaged a (shadowWord x d &&& fields a) }
    x.claim = some cl → x.view = false → foreignRegion c a = false → objInfo a = some (.config, o) →
    mayAccess c cl o true = true → isFrozen c a .config o = false →
    (CommitRuns c m 13 → exec (.objdataWrite dt m d) s = .next (ended s dt (put (committed c m)))) ∧
    (CommitRuns c m 14 → exec (.objdataincWrite dt m d) s = .next (ended s dt (up (put (committed c m)))))

/-- REGISTER_COMMIT that the Face carries out, of the registers without a row of their own: CMDA, CMDB, CMDC (R104), OBJADDR (Table 2-10),
OBJSTAT (W1C, Table 2-11), SNAPSEL (R260), SCRATCH (R68); CMDSTAT (W1C of its three flags, Table 4-15), EVTMASK (Table 16-18), ALARMSTAT
(W1C of PEND, Table 16-16) and RESETCAUSE (W1C of LFSTOP and STICKY, Table 6-14). A W1C bit that was set in this tick stays (R44). Nothing
else changes but the shadow, which empties. -/
def Obligations.RegistersAreWritten : Prop :=
  (∀ (s : State) (dt : Nat) (m : Mid) (d : Half),
     let c := found s dt
     let w := shadowWord (mst c m) d
     let wr (f : Master → Master) : Chip := updM (committed c m) m f
     (CommitRuns c m 5 → exec (.registerCommit dt m 5 d) s = .next (ended s dt (wr (fun x => { x with cmda := w })))) ∧
     (CommitRuns c m 6 → exec (.registerCommit dt m 6 d) s = .next (ended s dt (wr (fun x => { x with cmdb := w })))) ∧
     (CommitRuns c m 7 → exec (.registerCommit dt m 7 d) s = .next (ended s dt (wr (fun x => { x with cmdc := w })))) ∧
     (CommitRuns c m 12 → exec (.registerCommit dt m 12 d) s =
       .next (ended s dt (wr (fun x => { x with addr := fld w 31 3, view := bit w 32 })))) ∧
     (CommitRuns c m 15 → exec (.registerCommit dt m 15 d) s =
       .next (ended s dt (wr (fun x => { x with flags := x.flags &&& (~~~(w.truncate 11) ||| x.flagsNow) })))) ∧
     (CommitRuns c m 34 → exec (.registerCommit dt m 34 d) s = .next (ended s dt (wr (fun x => { x with
       snapCh := ⟨fld w 63 60 % 16, Nat.mod_lt _ (by decide)⟩, snapMech := bit w 59 })))) ∧
     (CommitRuns c m 45 → exec (.registerCommit dt m 45 d) s = .next (ended s dt (wr (fun x => { x with scratch := w }))))) ∧
  (∀ (s : State) (dt : Nat) (m : Mid) (d : Half) (k : Client),
     let c := found s dt
     let w := shadowWord (mst c m) d
     let e := committed c m
     (mst c m).claim = some k →
     (CommitRuns c m 10 → exec (.registerCommit dt m 10 d) s = .next (ended s dt
       { e with wb := { e.wb with clients := upd e.wb.clients k (fun v =>
         { v with epochLost := v.epochLost && (!bit w 63 || v.now.getLsbD 2), refused := v.refused && (!bit w 62 || v.now.getLsbD 1),
                  recovered := v.recovered && (!bit w 61 || v.now.getLsbD 0) }) } })) ∧
     (CommitRuns c m 17 → exec (.registerCommit dt m 17 d) s =
       .next (ended s dt { e with flt := { e.flt with evtmask := upd e.flt.evtmask k (fun _ => w) } })) ∧
     (CommitRuns c m 19 → exec (.registerCommit dt m 19 d) s =
       .next (ended s dt { e with flt := { e.flt with alarmPend := e.flt.alarmPend && (!bit w 63 || e.flt.alarmNow) } })) ∧
     (CommitRuns c m 30 → exec (.registerCommit dt m 30 d) s = .next (ended s dt
       { e with pw := { e.pw with lfstop := e.pw.lfstop && !bit w 62,
                                  sticky := (BitVec.ofNat 6 e.pw.sticky &&& ~~~(BitVec.ofNat 6 (fld w 53 48))).toNat } })))

/-- Accesses without effect, while the Face serves. R42 and R48, for every command that writes halfword 3 of a register that can be
written: a commit that Table 2-4 does not permit empties the shadow, sets DENIED (bit 5) and raises S040; a permitted one without all three
halfwords of its register empties it, sets PARTIAL (bit 1) and raises S044; OBJDATAINC (register 14) moves OBJADDR all the same (R52).
BUS_TIMEOUT (R37, R40) of a write, or of a read of halfword 0 of a register without a check of its own or of another halfword with its tag:
0xDEAD for a read, whose shadow loses its tag; nothing is written; S008 counts. -/
def Obligations.RefusedAccessesHaveNoEffect : Prop :=
  (∀ (s : State) (i : Instr) (dt : Nat) (m : Mid) (r : Fin 64) (d : Half),
     let c := found s dt
     let refused (flag : BitVec 11) (n : Src) : Chip := raiseR (driveD (updM (emptyShadow c m) m (fun x =>
       { x with flags := x.flags ||| flag, flagsNow := x.flagsNow ||| flag,
                addr := if r = 14 then (x.addr + 1) % 2 ^ 29 else x.addr })) none false)
       (evAt c n m.val accCommit 1 (8 * r.val) (mst c m).claim)
     commitOf i = some (dt, m, r, d) → faceAt c writeTicks = .serves → r.val < 48 → writePerm r ≠ .none →
     (permits (writePerm r) (mst c m).claim = false → exec i s = .next (ended s dt (refused 32#11 40))) ∧
     (permits (writePerm r) (mst c m).claim = true → shadowReady (mst c m) r = false →
       exec i s = .next (ended s dt (refused 2#11 44)))) ∧
  (∀ (s : State) (dt : Nat) (m : Mid) (r : Fin 64) (h : Fin 4),
     let c := found s dt
     faceAt c timeoutTicks = .serves → r.val < 48 →
     exec (.busTimeout dt m r h false) s = .next (ended s dt (raiseR (driveD c none false)
       (evAt c 8 m.val (if h = 3 then accCommit else accWrite) 1 (8 * r.val) (mst c m).claim))) ∧
     ((h = 0 ∧ permits (readPerm r) (mst c m).claim = true ∧ r ≠ 13 ∧ r ≠ 14 ∧ r ≠ 32) ∨ (h ≠ 0 ∧ (mst c m).rdTag = some r) →
       exec (.busTimeout dt m r h true) s = .next (ended s dt (raiseR
         (driveD (updM c m (fun x => { x with rdTag := none })) (some 0xDEAD) false)
         (evAt c 8 m.val accRead 1 (8 * r.val) (mst c m).claim)))))


/-! ### Claims, the calendar and the requests of the warden (chapters 3, 5, 6, 16) -/

/-- CLAIM, R77 to R79, by a master that is not locked out, with every condition of R77 met: the master acts as the client, FAILS and BADLAST
are cleared, its per-client items are zeroed, a claim that it held before ends with ENDCAUSE 0, and the master that held the client before
loses it with ENDCAUSE 1; a master that already acts as the client keeps its items. No other master changes. -/
def Obligations.ClaimSucceeds : Prop :=
  ∀ (s : State) (dt : Nat) (m : Mid) (d : Half) (k : Client),
    let c := found s dt
    let x := mst c m
    let w := shadowWord x d
    let p := c.own.prov[k]
    CommitRuns c m 3 → fld w 37 36 = 1 → fld w 35 32 = k.val → lockedOut c x = false → p.enabled = true →
    (p.passcode ≠ 0 ∨ k = 0) → p.passcode = w.truncate 32 → (p.pinen = false ∨ p.pinmid = m) →
    (x.claim ≠ some k → ∃ t : Chip, exec (.claim dt m d) s = .next (ended s dt t) ∧
      t = { committed c m with face := t.face, cal := t.cal } ∧
      t.cal = { c.cal with stage := if k = 0 ∨ x.claim = some 0 then none else c.cal.stage } ∧
      t.face = { (committed c m).face with masters := t.face.masters } ∧
      mst t m = { clearMaster x with claim := some k, fails := 0, badlast := false, lockEnd := none,
                                     endcause := if x.claim.isSome then 0 else x.endcause } ∧
      ∀ n : Mid, n ≠ m → mst t n =
        if holder c k = some n then { clearMaster (mst c n) with claim := none, endcause := 1 } else mst c n) ∧
    (x.claim = some k → exec (.claim dt m d) s =
      .next (ended s dt (updM (committed c m) m (fun y => { y with fails := 0, badlast := false, lockEnd := none }))))

/-- CLAIM, R80 and R81, with a condition of R77 not met, by a master that is not locked out: BADLAST is set, FAILS counts (from 0 after a
lockout that is over), S032 is raised, and the eighth failure locks the master out for 160 000 000 ticks and raises S033; the claim it
holds is unchanged. While it is locked out a CLAIM has no effect. LOCKOUT_END clears LOCKED and FAILS once TICK has reached the end. -/
def Obligations.ClaimFailsAndLocksOut : Prop :=
  ∀ (s : State) (dt : Nat) (m : Mid) (d : Half) (k : Client) (e : Nat),
    let c := found s dt
    let x := mst c m
    let w := shadowWord x d
    let p := c.own.prov[k]
    let f := if x.lockEnd = none then x.fails else 0
    let ev (n : Src) : Raise := evAt c n m.val accCommit 1 0x018 x.claim
    (CommitRuns c m 3 → fld w 37 36 = 1 → fld w 35 32 = k.val →
      (lockedOut c x = false → ¬(p.enabled = true ∧ (p.passcode ≠ 0 ∨ k = 0) ∧ p.passcode = w.truncate 32 ∧
          (p.pinen = false ∨ p.pinmid = m)) →
        (f < 7 → exec (.claim dt m d) s = .next (ended s dt (raiseR
          (updM (committed c m) m (fun y => { y with badlast := true, fails := f + 1, lockEnd := none })) (ev 32)))) ∧
        (f = 7 → exec (.claim dt m d) s = .next (ended s dt (raiseR (raiseR
          (updM (committed c m) m (fun y => { y with badlast := true, fails := 8, lockEnd := some (c.tick + 160000000) }))
          (ev 32)) (ev 33))))) ∧
      (lockedOut c x = true → exec (.claim dt m d) s = .next (ended s dt (committed c m)))) ∧
    (serving c = true → x.lockEnd = some e → e ≤ c.tick →
      exec (.lockoutEnd dt m) s = .next (ended s dt (updM c m (fun x => { x with lockEnd := none, fails := 0 }))))

/-- CLAIM_RELEASE, R82: a commit of CLAIM with OP 2 ends the master's claim with ENDCAUSE 0, and zeroes what R79 and R45 name; with OP 0 or
3, or without a claim to end, it has no effect beyond the end of the access. -/
def Obligations.ClaimIsReleased : Prop :=
  ∀ (s : State) (dt : Nat) (m : Mid) (d : Half) (k : Client),
    let c := found s dt
    let op := fld (shadowWord (mst c m) d) 37 36
    CommitRuns c m 3 →
    (op = 2 → (mst c m).claim = some k →
      exec (.claimRelease dt m d) s = .next (ended s dt
        { updM (committed c m) m (fun x => { x with
            claim := none, endcause := 0, cmda := 0, cmdb := 0, cmdc := 0, submit := 0, snapCh := 0, snapMech := false,
            rdVal := 0, rdTag := none, wr0 := 0, wr1 := 0, wr2 := 0, wf0 := false, wf1 := false, wf2 := false, wrTag := none,
            addr := 0, view := false, spdHold := 0, snapHold := 0, holdCh := none }) with
          cal := { c.cal with stage := if k = 0 then none else c.cal.stage } })) ∧
    (op = 2 → (mst c m).claim = none → exec (.claimRelease dt m d) s = .next (ended s dt (committed c m))) ∧
    (op = 0 ∨ op = 3 →
      exec (.claim dt m d) s = .next (ended s dt (committed c m)) ∧ exec (.claimRelease dt m d) s = .next (ended s dt (committed c m)))

/-- IDLE_REQUEST, RUN_REQUEST and SLEEP_REQUEST, R175 to R177: accepted, they enter IDLE with the drivers off, or leave the request
PENDING until the front ends are ready or the part is quiescent. Refused, they report REFUSED with the reasons of Table 6-13 and change
no state: IDLE outside RUN (STATE), with a channel enabled or Benched, RUN outside IDLE, SLEEP in minimal CONFIG. -/
def Obligations.PowerRequestsAreAccepted : Prop :=
  ∀ (s : State) (dt : Nat) (m : Mid) (d : Half),
    let c := found s dt
    let w := shadowWord (mst c m) d
    let e := committed c m
    let p := powerctlFields c w
    CommitRuns c m 29 →
    (fld w 42 40 = 2 → c.pw.state = .run → benched c = false → anyChannelEnabled c = false →
      exec (.idleRequest dt m d) s = .next (ended s dt { e with
        pw := { p with state := .idle, reqstat := 2, refuse := 0 }, exc := c.exc.map (fun x => { x with drvoff := true }) })) ∧
    (fld w 42 40 = 2 → (c.pw.state ≠ .run ∨ benched c = true ∨ anyChannelEnabled c = true) →
      exec (.idleRequest dt m d) s = .next (ended s dt { e with pw := { p with reqstat := 3, refuse :=
        (if benched c then 128 else 0) + (if anyChannelEnabled c then 4 else 0) + (if c.pw.state ≠ .run then 1 else 0) } })) ∧
    (fld w 42 40 = 1 → c.pw.state = .idle →
      exec (.runRequest dt m d) s = .next (ended s dt { e with
        pw := { p with runPending := true, reqTick := c.tick, reqstat := 1, refuse := 0 } })) ∧
    (fld w 42 40 = 1 → c.pw.state ≠ .idle →
      exec (.runRequest dt m d) s = .next (ended s dt { e with pw := { p with reqstat := 3, refuse := 1 } })) ∧
    (fld w 42 40 = 3 → c.pw.state ≠ .minconfig → benched c = false → anyEnabled c = false →
      (∀ i : ObjIx, (ownE c i).st ≠ .draining ∧ (ownE c i).st ≠ .scrubbing) → p.wakeen ≠ 0 → c.flt.srcs[(2 : Src)].st = .ok →
      exec (.sleepRequest dt m d) s = .next (ended s dt { e with
        pw := { p with sleepPending := true, reqTick := c.tick, sleepFrom := c.pw.state, reqstat := 1, refuse := 0 } })) ∧
    (fld w 42 40 = 3 → c.pw.state = .minconfig →
      ∃ r : Nat, exec (.sleepRequest dt m d) s = .next (ended s dt { e with pw := { p with reqstat := 3, refuse := r } }) ∧ r % 2 = 1)

/-- The calendar registers CALDATE and CALTIME (R150 to R152): a date is staged unchecked; a write of CALTIME with a valid staged date and a
valid time sets CALOFFSET, CALWRTICK, WRCOUNT and the flags and clears the stage; one without a staged date is refused with CAUSE 8:
BADWRITE is set, BADCOUNT counts and S025 is raised. The registers WDOG (R173, R174): EN can only be set, TIMEOUT is written, the count
restarts from TIMEOUT × 65 536 ticks when EN is set, with the key 0x4B1C or with a new TIMEOUT, the key clears FIRED, another nonzero key
raises S003. HOSTVER (R189, R190): in CONFIG and minimal CONFIG the version is taken and checked against the running image, and S506 is
raised by a mismatch that did not stand before; in RUN and IDLE HVIGNORED is set. Nothing else changes. -/
def Obligations.WardenRegistersAreWritten : Prop :=
  (∀ (s : State) (dt : Nat) (m : Mid) (d : Half) (y mo da : Nat),
     let c := found s dt
     let w := shadowWord (mst c m) d
     let e := committed c m
     (CommitRuns c m 27 → exec (.caldate dt m d) s =
       .next (ended s dt { e with cal := { c.cal with stage := some (fld w 63 52, fld w 51 48, fld w 47 43) } })) ∧
     (CommitRuns c m 28 → c.cal.stage = some (y, mo, da) → 2000 ≤ y → y ≤ 2399 → 1 ≤ mo → mo ≤ 12 → 1 ≤ da → da ≤ monthDays y mo →
       fld w 60 56 ≤ 23 → fld w 53 48 ≤ 59 → fld w 45 40 ≤ 59 → fld w 27 0 < 160000000 →
       exec (.caltime dt m d) s = .next (ended s dt { e with cal :=
         { offset := w64i (((secOf y mo da (fld w 60 56) (fld w 53 48) (fld w 45 40) * 160000000 + fld w 27 0 : Nat) : Int) - (c.tick : Int)),
           wrTick := c.tick, stage := none, unset := false, endhold := false, badwrite := false, cause := 0,
           badcount := c.cal.badcount, wrcount := (c.cal.wrcount + 1) % 65536 } })) ∧
     (CommitRuns c m 28 → c.cal.stage = none →
       exec (.caltime dt m d) s = .next (ended s dt (raiseR { e with cal :=
         { c.cal with badwrite := true, cause := 8, badcount := min (c.cal.badcount + 1) 65535 } }
         (evAt c 25 m.val accCommit 1 0x0E0 (mst c m).claim))))) ∧
  (∀ (s : State) (dt : Nat) (m : Mid) (d : Half),
     let c := found s dt
     let w := shadowWord (mst c m) d
     let key := fld w 15 0
     let t := fld w 47 32
     let restart := c.pw.wdEn = false ∧ bit w 63 = true ∨ key = 0x4B1C ∨ c.pw.wdEn = true ∧ t ≠ c.pw.wdTimeout
     let e : Chip := { committed c m with pw := { c.pw with
       wdEn := c.pw.wdEn || bit w 63, wdTimeout := t, wdFired := c.pw.wdFired && decide (key ≠ 0x4B1C),
       wdCount := if restart then (if t = 0 then 1 else t) * 65536 else c.pw.wdCount } }
     CommitRuns c m 35 → exec (.wdogKick dt m d) s = .next (ended s dt (if key ≠ 0 ∧ key ≠ 0x4B1C then
       raiseR e (evAt c 3 m.val accCommit 1 0x118 (mst c m).claim) else e))) ∧
  (∀ (s : State) (dt : Nat) (m : Mid) (d : Half),
     let c := found s dt
     let e := committed c m
     let v := fld (shadowWord (mst c m) d) 7 0
     let rec0 := if v = c.pw.hostver then c.img.accept else none
     let tol := decide (c.img.minimal = false ∧ rec0 = some (c.img.actSlot, c.img.actVer, v))
     let mis := !c.img.minimal && decide (v ≠ 0) && !hostBit c 0 v && !tol
     let t : Chip := { e with pw := { c.pw with hostver := v },
                              img := { c.img with hvIgnored := false, accept := rec0, hostMismatch := mis, hostTol := tol } }
     CommitRuns c m 2 →
     (inRun c = true → exec (.hostver dt m d) s = .next (ended s dt { e with img := { c.img with hvIgnored := true } })) ∧
     (inConfig c = true → exec (.hostver dt m d) s = .next (ended s dt (if mis && !c.img.hostMismatch then
         raiseR t (evAt c 506 m.val accCommit 1 0x010 (mst c m).claim) else t))))

/-- LOCK (R69) sets bits and clears none; TESTKEY (R70): the first key starts the sequence, the second within 16 000 ticks sets
TESTEN and raises S007, a second key without it and any other value end the sequence, and TESTLOCK bars it. -/
def Obligations.LocksAndTestKey : Prop :=
  ∀ (s : State) (dt : Nat) (m : Mid) (d : Half) (t : Nat),
    let c := found s dt
    let w := shadowWord (mst c m) d
    let e := committed c m
    (CommitRuns c m 46 → exec (.lock dt m d) s = .next (ended s dt { e with face :=
      { e.face with trimlock := c.face.trimlock || bit w 1, testlock := c.face.testlock || bit w 0 } })) ∧
    (CommitRuns c m 47 → c.face.testlock = true → exec (.testkey dt m d) s = .next (ended s dt e)) ∧
    (CommitRuns c m 47 → c.face.testlock = false → fld w 15 0 = 0x7E57 →
      exec (.testkey dt m d) s = .next (ended s dt { e with face := { e.face with keyTick := some c.tick } })) ∧
    (CommitRuns c m 47 → c.face.testlock = false → fld w 15 0 = 0x0A11 → c.face.keyTick = some t → c.tick ≤ t + 16000 →
      exec (.testkey dt m d) s = .next (ended s dt (raiseR { e with face := { e.face with keyTick := none, testen := true } }
        (evAt c 7 m.val accCommit 1 0x178 (mst c m).claim)))) ∧
    (CommitRuns c m 47 → c.face.testlock = false → fld w 15 0 ≠ 0x7E57 →
      (fld w 15 0 ≠ 0x0A11 ∨ c.face.keyTick = none ∨ ∃ t, c.face.keyTick = some t ∧ t + 16000 < c.tick) →
      exec (.testkey dt m d) s = .next (ended s dt { e with face := { e.face with keyTick := none } }))

/-- FLTACK_REARM, FLTACK_ACKSRC, FLTACK_ACKALL and EVTACK, R463, R467 and R469: bit 63 arms the capture; bit 62 acknowledges one source and
bit 61 every one: UNACK and IRQPEND are cleared and the escalation timer stops; EVTACK clears the client's event bits but for those raised
in this tick (R44). FLTINJECT_PULSE, FLTINJECT_SET and FLTINJECT_CLEAR, R470 and R471: PULSE raises one forced event; SET sets FORCE, and
raises one where it was clear; CLEAR clears it and raises none. Nothing else changes. -/
def Obligations.FaultsAreAcknowledgedAndInjected : Prop :=
  (∀ (s : State) (dt : Nat) (m : Mid) (d : Half) (k : Client),
     let c := found s dt
     let w := shadowWord (mst c m) d
     let e := committed c m
     let ack (x : Source) : Source := { x with unack := false, irqpend := false, escrun := false }
     (CommitRuns c m 23 → ∀ i ∈ [Instr.fltackRearm dt m d, .fltackAcksrc dt m d, .fltackAckall dt m d],
       exec i s = .next (ended s dt { e with flt := { c.flt with
         cap := { c.flt.cap with armed := c.flt.cap.armed || bit w 63 },
         srcs := if bit w 61 then c.flt.srcs.map ack else if bit w 62 then upd c.flt.srcs (srcN (fld w 8 0)) ack else c.flt.srcs } })) ∧
     (CommitRuns c m 18 → (mst c m).claim = some k →
       exec (.evtack dt m d) s = .next (ended s dt { e with flt := { c.flt with
         evtstat := upd c.flt.evtstat k (fun v => v &&& (~~~w ||| c.flt.evtNow[k])) } }))) ∧
  (∀ (s : State) (dt : Nat) (m : Mid) (d : Half),
     let c := found s dt
     let op := fld (shadowWord (mst c m) d) 63 62
     let n := srcN (fld (shadowWord (mst c m) d) 8 0)
     let e := committed c m
     let ev : Raise := { evAt c n m.val accCommit 1 0x0C8 (mst c m).claim with forced := true }
     let set : Chip := updSrc e n (fun x => { x with force := true })
     CommitRuns c m 25 → ∀ i ∈ [Instr.fltinjectPulse dt m d, .fltinjectSet dt m d, .fltinjectClear dt m d],
     (op = 0 → exec i s = .next (ended s dt e)) ∧
     (op = 1 → exec i s = .next (ended s dt (raiseR e ev))) ∧
     (op = 2 → exec i s = .next (ended s dt (if c.flt.srcs[n].force then set else raiseR set ev))) ∧
     (op = 3 → exec i s = .next (ended s dt (updSrc e n (fun x =>
       { x with force := false, quiet := if x.force && isLevel n then max x.quiet c.tick else x.quiet })))))

/-- CMDSUBMIT, R102 and R104 to R107, by a master that acts as client k: the command registers are captured for a decision that comes at most
8 ticks after the commit (how late is a free value: the model's choice, log 19), CMDSUBMIT reads PENDING, and the decisions that are due
are made. A decision, of the only submission that waits: a refused command changes only the reports of the refusal, and JOURNALFULL (4)
raises S067; an accepted one takes the client's next sequence number and a QUEUED journal entry with the captured words; FACTORYRESET of a
client whose counters disagree is accepted without either (R114). CMDSUBMIT reports the outcome while the master's claim stands. -/
def Obligations.CommandsAreSubmitted : Prop :=
  (∀ (s : State) (dt : Nat) (m : Mid) (d : Half) (k : Client),
     let c := found s dt
     let x := mst c m
     let a : Ask := { master := m, client := k, cmda := x.cmda, cmdb := x.cmdb, cmdc := x.cmdc, w := shadowWord x d,
                      due := c.tick + Config.freeValue c.freeN % 8 }
     CommitRuns c m 8 → x.claim = some k →
     exec (.cmdsubmit dt m d) s = .next (ended s dt (driveD (decideDue
       { updM (emptyShadow c m) m (fun y => { y with submit := pack [(61, 1, 1)] }) with
         wb := { c.wb with asks := c.wb.asks ++ [a] }, freeN := c.freeN + 1 }) none false))) ∧
  (∀ (c : Chip) (a : Ask) (o : OpInfo),
     let r := submitReason { c with wb := { c.wb with asks := [] } } a (argsOk a.cmda a.cmdb a.cmdc)
     let k := a.client
     let n := if c.wb.clients[k].lastSeq = 4294967295 then 1 else c.wb.clients[k].lastSeq + 1
     let rep (c : Chip) (w : Word) : Chip :=
       if (mst c a.master).claim = some k ∧ (mst c a.master).submit = pack [(61, 1, 1)] then
         updM c a.master (fun y => { y with submit := w }) else c
     c.wb.asks = [a] →
     (c.tick < a.due → decideDue c = c) ∧
     (a.due ≤ c.tick → r ≠ 0 →
       let t : Chip := { rep c (pack [(62, 1, 1), (52, 4, r)]) with wb := { c.wb with
         asks := [], clients := upd c.wb.clients k (fun v => { v with
           lastReason := r, refused := true, refCount := min (v.refCount + 1) 65535, now := v.now ||| 2#3, refNow := v.refNow + 1 }) } }
       decideDue c = if r = 4 then raiseR t (evAt c 67 a.master.val accCommit 1 0x40 (some k)) else t) ∧
     (a.due ≤ c.tick → r = 0 → opInfo (fld a.cmda 63 56) = some o → c.wb.clients[k].mismatch = false →
       ∃ q : Entry, decideDue c = { rep c (pack [(63, 1, 1), (60, 1, b2n o.ctrl), (32, 16, c.wb.epoch), (0, 32, n)]) with
         wb := { c.wb with
           asks := [], entries := c.wb.entries ++ [q], placeN := c.wb.placeN + 1,
           clients := upd c.wb.clients k (fun v => { v with lastSeq := n, lastAccSeq := n, lastTag := a.w.truncate 32 }) } } ∧
         q.client = k ∧ q.seq = n ∧ q.state = .queued ∧ q.ctrl = o.ctrl ∧ q.kind = o.kind ∧ q.commit = false ∧ q.ckpt = 0 ∧
         q.cmda = a.cmda ∧ q.cmdb = a.cmdb ∧ q.cmdc = a.cmdc ∧ q.hosttag = a.w.truncate 32 ∧ q.acceptTick = c.tick ∧
         q.loc ∈ freeLocs c) ∧
     (a.due ≤ c.tick → r = 0 → opInfo (fld a.cmda 63 56) = some o → c.wb.clients[k].mismatch = true →
       decideDue c = { rep c (pack [(63, 1, 1), (60, 1, 1), (32, 16, c.wb.epoch)]) with
         wb := { c.wb with asks := [], factoryDirect := true } }))

/-! ### The execution of the journal's commands (chapters 3, 4, 6, 16) -/

/-- NOP, R115 and R139: it only commits, with status DONE (1) and detail 0; its entry keeps everything else, and nothing else changes. As the
clocks of the running states pass, with no drain in progress and no ring record waiting, an S command's entry is written RETIRED 2 ticks
after its commit point, with that point's tick, and no other entry changes. -/
def Obligations.NopOnlyCommitsAndRetires : Prop :=
  (∀ (s : State) (dt : Nat) (e : Entry),
     let c := found s dt
     Executes c 0x01 (fun _ => true) e →
     exec (.nop dt) s = .next (ended s dt { c with wb := { c.wb with entries := c.wb.entries.map (fun x =>
       if keyOf x = keyOf e then { x with commit := true, commitTick := c.tick, status := 1, detail := 0, result := 0 } else x) } })) ∧
  (∀ (c : Chip) (n : Nat), onSysclk c = true → serving c = true → (∀ i : ObjIx, (ownE c i).st ≠ .draining) →
     (∀ o : Fin 24, c.outs[o].ring = []) →
     (advance c n).wb.entries = c.wb.entries.map (fun e =>
       if e.kind = .s ∧ e.state = .active ∧ e.commit = true ∧ e.commitTick + 2 ≤ c.tick + n then
         { e with state := .retired, retireTick := e.commitTick } else e))

/-- RUN (R192, R194), ACCEPTHOST (R191) and BENCHRELEASE (R480): in CONFIG with a host version that the image tests the part enters RUN and
programs the anti-rollback steps that are due, in RUN and IDLE RUN only commits, without a version it is refused with 0x0801 and with a
mismatch 0x0802, in minimal CONFIG 0x0803; in CONFIG with a mismatch and a tolerated version ACCEPTHOST records the version and the
mismatch ends, outside CONFIG it is refused with 0x0903; with no FATAL source the Bench ends in this tick with EV03 to every enabled
client, and the L commands that it suspended resume; a FATAL source refuses it with 0x0701, and without a Bench it commits with 0x0702. -/
def Obligations.WardenCommandsRun : Prop :=
  ∀ (s : State) (dt : Nat) (e : Entry),
    let c := found s dt
    let roll := fld (slotWord (runSlot c) 6) 6 0
    let refused (d : Nat) : State := ended s dt (retire c (keyOf e) 3 d 0)
    (Executes c 0x08 (fun _ => true) e →
      (c.pw.state = .config → c.pw.hostver ≠ 0 → c.img.hostMismatch = false →
        exec (.run dt) s = .next (ended s dt (doneS { c with
          pw := { c.pw with state := .run },
          img := { c.img with rollGoal := if c.img.rollctr < roll then some roll else none } } e))) ∧
      (c.pw.state = .config → c.pw.hostver = 0 → exec (.run dt) s = .next (refused 0x0801)) ∧
      (c.pw.state = .config → c.pw.hostver ≠ 0 → c.img.hostMismatch = true → exec (.run dt) s = .next (refused 0x0802)) ∧
      (c.pw.state = .run ∨ c.pw.state = .idle → exec (.run dt) s = .next (ended s dt (doneS c e))) ∧
      (c.pw.state = .minconfig → exec (.run dt) s = .next (refused 0x0803))) ∧
    (Executes c 0x09 (fun _ => true) e →
      (c.pw.state = .config → c.img.hostMismatch = true → hostBit c 32 c.pw.hostver = true →
        exec (.accepthost dt) s = .next (ended s dt (doneS { c with img := { c.img with
          hostMismatch := false, hostTol := true, accept := some (c.img.actSlot, c.img.actVer, c.pw.hostver) } } e))) ∧
      (c.pw.state ≠ .config → exec (.accepthost dt) s = .next (refused 0x0903))) ∧
    (Executes c 0x07 (fun _ => true) e →
      (anyFatal c = false → benched c = true →
        ∃ t : Chip, exec (.benchrelease dt) s = .next (ended s dt t) ∧
          t.flt.benched = false ∧ t.flt.carried = false ∧ t.flt.releaseTick = c.tick ∧
          (∀ k : Client, t.flt.evtstat[k] = if c.own.prov[k].enabled then c.flt.evtstat[k] ||| 8#64 else c.flt.evtstat[k]) ∧
          t.wb = (resumeCause (doneS c e) .bench).wb ∧ t.pw = c.pw ∧ t.trk = c.trk ∧ t.lp = c.lp ∧ t.outs = c.outs) ∧
      (anyFatal c = true → exec (.benchrelease dt) s = .next (refused 0x0701)) ∧
      (anyFatal c = false → benched c = false → exec (.benchrelease dt) s = .next (ended s dt (commitS c e 1 0x0702 0))))

/-- GRANT, R87, R88 and Table 3-2, with no other command waiting for the object's owner: of a FREE object to an enabled client, the object is
OWNED by it in this tick with GEN moved on and the command is retired DONE; of an object OWNED by another client, it enters DRAINING for
that client and the command waits; of one the client owns, it is retired DONE; of a DRAINING or SCRUBBING one, the client becomes NEXT and
the command waits; of an ABSENT object, or to a client that is not enabled, it is retired REFUSED_LATE 0x0017. -/
def Obligations.GrantMovesTheObject : Prop :=
  ∀ (s : State) (dt : Nat) (e : Entry) (i : ObjIx) (k : Client),
    let c := found s dt
    let o := ownE c i
    Executes c 0x02 (fun _ => true) e → targetOf e = i.val → fld e.cmdb 3 0 = k.val → o.nextBy = none →
    (o.st = .free → c.own.prov[k].enabled = true →
      exec (.grant dt) s = .next (ended s dt (retire (commitD { c with own := { c.own with
        gen := (c.own.gen + 1) % 65536,
        entries := upd c.own.entries i (fun x =>
          { x with st := .owned, owner := k, next := none, nextBy := none, gen := (c.own.gen + 1) % 65536 }) } } e)
        (keyOf e) 1 0 0))) ∧
    (o.st = .owned → o.owner ≠ k → c.own.prov[k].enabled = true →
      ∃ t : Chip, exec (.grant dt) s = .next (ended s dt t) ∧ t.own.gen = (c.own.gen + 1) % 65536 ∧
        (∃ n : Nat, ownE t i = { o with st := .draining, next := some k, nextBy := some (keyOf e), drainTick := c.tick,
                                        drainN := n, gen := (c.own.gen + 1) % 65536 }) ∧
        ∀ j : ObjIx, j ≠ i → ownE t j = ownE c j) ∧
    (o.st = .owned → o.owner = k → c.own.prov[k].enabled = true →
      exec (.grant dt) s = .next (ended s dt (retire (commitD c e) (keyOf e) 1 0 0))) ∧
    (o.st = .draining ∨ o.st = .scrubbing → c.own.prov[k].enabled = true →
      exec (.grant dt) s = .next (ended s dt { commitD c e with own := { c.own with
        entries := upd c.own.entries i (fun x => { x with next := some k, nextBy := some (keyOf e) }) } })) ∧
    (o.st = .absent ∨ (c.own.prov[k].enabled = false) →
      exec (.grant dt) s = .next (ended s dt (retire c (keyOf e) 3 0x0017 0)))

/-- RELEASE and SCRUB by the warden, R87 to R90 and Table 3-2, with no other command waiting for the object's owner: RELEASE of an OWNED object
makes it DRAIN with no NEXT and waits for FREE, of a FREE or ABSENT one it retires DONE at once, of a DRAINING or SCRUBBING one it ends NEXT
and waits. SCRUB of an OWNED object makes it DRAIN with its owner as NEXT; of a FREE one, the scrubber idle, it makes it SCRUBBING in this
tick; of a DRAINING or SCRUBBING one it waits for FREE; of an ABSENT one it retires DONE. -/
def Obligations.ReleaseAndScrubMoveTheObject : Prop :=
  ∀ (s : State) (dt : Nat) (e : Entry) (i : ObjIx),
    let c := found s dt
    let o := ownE c i
    let g := (c.own.gen + 1) % 65536
    let own (d : Chip) (f : OwnEntry → OwnEntry) : Chip := { d with own := { d.own with entries := upd d.own.entries i f } }
    targetOf e = i.val → e.client = 0 → o.nextBy = none →
    (Executes c 0x03 (fun _ => true) e →
      (o.st = .owned → ∃ t : Chip, exec (.release dt) s = .next (ended s dt t) ∧ t.own.gen = g ∧
        (∃ n : Nat, ownE t i = { o with st := .draining, next := none, nextBy := none, atFree := o.atFree ++ [keyOf e],
                                        drainTick := c.tick, drainN := n, gen := g }) ∧
        ∀ j : ObjIx, j ≠ i → ownE t j = ownE c j) ∧
      (o.st = .free → exec (.release dt) s =
        .next (ended s dt (retire (own (commitD c e) (fun x => { x with next := none })) (keyOf e) 1 0 0))) ∧
      (o.st = .absent → exec (.release dt) s = .next (ended s dt (retire (commitD c e) (keyOf e) 1 0 0))) ∧
      (o.st = .draining ∨ o.st = .scrubbing → exec (.release dt) s =
        .next (ended s dt (own (commitD c e) (fun x => { x with next := none, atFree := x.atFree ++ [keyOf e] }))))) ∧
    (Executes c 0x53 (fun _ => true) e →
      (o.st = .owned → ∃ t : Chip, exec (.scrub dt) s = .next (ended s dt t) ∧ t.own.gen = g ∧
        (∃ n : Nat, ownE t i = { o with st := .draining, next := some o.owner, nextBy := some (keyOf e), drainTick := c.tick,
                                        drainN := n, gen := g }) ∧
        ∀ j : ObjIx, j ≠ i → ownE t j = ownE c j) ∧
      (o.st = .free → c.own.scrubActive = none → c.own.scrubQueue = [] →
        ∃ t : Chip, exec (.scrub dt) s = .next (ended s dt t) ∧ t.own.gen = g ∧ t.own.scrubActive = some i ∧
          t.own.scrubStart = c.tick ∧ t.own.scrubQueue = [] ∧
          ownE t i = { o with st := .scrubbing, next := none, nextBy := none, atFree := o.atFree ++ [keyOf e], gen := g } ∧
          ∀ j : ObjIx, j ≠ i → ownE t j = ownE c j) ∧
      (o.st = .draining → exec (.scrub dt) s =
        .next (ended s dt (own (setCkpt c (keyOf e) 1) (fun x => { x with atFree := x.atFree ++ [keyOf e] })))) ∧
      (o.st = .scrubbing → exec (.scrub dt) s =
        .next (ended s dt (own (setCkpt c (keyOf e) 2) (fun x => { x with atFree := x.atFree ++ [keyOf e] })))) ∧
      (o.st = .absent → exec (.scrub dt) s = .next (ended s dt (retire c (keyOf e) 1 0 0))))

/-- APPLY, R57: of an object that the client owns, where every check of it passes, every CONFIG word of the object that is in force becomes
the staged one in this tick, and no other object word changes; where a check fails, neither copy changes. CLRGAP of an ENCROUTE is not
kept (R280). The same of a generator's word (R202) and of the router's (R375), which nobody owns. The ownership map does not change. -/
def Obligations.ApplyCopiesTheStagingBlock : Prop :=
  ∀ (s : State) (dt : Nat) (e : Entry),
    let c := found s dt
    let copies (lo hi : Nat) (kept : Nat → Word → Word) (t : Chip) : Prop :=
      t.mem.live = c.mem.live ∧
      (∀ a : Nat, stg t a = if lo ≤ a ∧ a < hi then kept a (stg c a) else stg c a) ∧
      (∀ a : Nat, act t a = if lo ≤ a ∧ a < hi then kept a (stg c a) else act c a)
    Canonical s → Executes c 0x04 (fun _ => true) e →
    (∀ i : ObjIx, targetOf e = i.val → ownerOf c i = some e.client →
      ∃ t : Chip, exec (.apply dt) s = .next (ended s dt t) ∧ t.own = c.own ∧
        (applyCheck c (objOf i) = 0 → copies (objBase (objOf i)) (objBase (objOf i) + objSpan (objOf i)) clrgapOff t) ∧
        (applyCheck c (objOf i) ≠ 0 → t.mem = c.mem)) ∧
    (∀ g : Fin 4, targetOf e = 0x200 + g.val →
      ∃ t : Chip, exec (.apply dt) s = .next (ended s dt t) ∧ t.own = c.own ∧
        (excCheck c g = 0 → copies (0x400 + 0x40 * g.val) (0x400 + 0x40 * g.val + 8) (fun _ w => w) t) ∧
        (excCheck c g ≠ 0 → t.mem = c.mem)) ∧
    (targetOf e = 0x300 →
      ∃ t : Chip, exec (.apply dt) s = .next (ended s dt t) ∧ t.own = c.own ∧
        (routerCheck c = 0 → copies 0x0C000000 0x0C000010 (fun _ w => w) t) ∧ (routerCheck c ≠ 0 → t.mem = c.mem))

/-- FAULTPOLICY and FAULTPOLICY_DEFAULT, R474: a valid staged range comes into force, or the range is zeroed in both copies; the window
count of every source of the range whose N or W changes is zeroed, and the command commits with DONE; a fixed source with a staged policy
is refused with 0x0601, an invalid policy with 0x0602, and nothing but the command's entry changes. -/
def Obligations.FaultPoliciesTakeEffect : Prop :=
  ∀ (s : State) (dt : Nat) (e : Entry),
    let c := found s dt
    let l := policyRange e
    let lo := 0x06000000 + 0x40 * (targetOf e - 0x400)
    let hi := 0x06000000 + 0x40 * (targetOf e - 0x400 + fld e.cmdb 8 0 + 1)
    let fixed := l.any (fun n => isFixed n && (stg c (srcBase n) ≠ 0 || stg c (srcBase n + 8) ≠ 0))
    (Executes c 0x06 (fun e => !bit e.cmdb 63) e → fixed = false → l.any (fun n => !policyValid c n) = false →
      exec (.faultpolicy dt) s = .next (ended s dt (doneS (rewindow c { c with mem := c.mem.applyBlock lo hi } l) e))) ∧
    (Executes c 0x06 (fun e => !bit e.cmdb 63) e → fixed = true →
      exec (.faultpolicy dt) s = .next (ended s dt (retire c (keyOf e) 3 0x0601 0))) ∧
    (Executes c 0x06 (fun e => !bit e.cmdb 63) e → fixed = false → l.any (fun n => !policyValid c n) = true →
      exec (.faultpolicy dt) s = .next (ended s dt (retire c (keyOf e) 3 0x0602 0))) ∧
    (Executes c 0x06 (fun e => bit e.cmdb 63) e →
      exec (.faultpolicyDefault dt) s = .next (ended s dt (doneS (rewindow c { c with mem := c.mem.zeroBlock lo hi } l) e)))

/-- CLAIMCFG, R72 to R75: the provisioning of the client becomes the command's, KEEP leaves the passcode, and a master whose claim the
new provisioning forbids loses it with ENDCAUSE 3, while any other keeps it; for CL0 a zero passcode or ENABLE 0 is refused with 0x0018.
Nothing else changes but the calendar's stage, which goes with a claim of CL0 (R150). -/
def Obligations.ProvisioningIsConfigured : Prop :=
  ∀ (s : State) (dt : Nat) (e : Entry) (k : Client),
    let c := found s dt
    let b := e.cmdb
    let pass : BitVec 32 := if bit b 44 then c.own.prov[k].passcode else b.truncate 32
    let p : Prov := { enabled := bit b 43, passcode := pass, pinen := bit b 42, pinmid := ⟨fld b 41 40 % 4, by omega⟩ }
    let d : Chip := { c with own := { c.own with prov := upd c.own.prov k (fun _ => p) } }
    let bad := k = 0 ∧ (bit b 43 = false ∨ (pass = 0 ∧ bit b 44 = false))
    Executes c 0x05 (fun _ => true) e → targetOf e = 0x100 + k.val →
    (¬bad → holder c k = none → exec (.claimcfg dt) s = .next (ended s dt (doneS d e))) ∧
    (∀ m : Mid, ¬bad → holder c k = some m → (bit b 43 = false ∨ (bit b 42 = true ∧ p.pinmid ≠ m)) →
      exec (.claimcfg dt) s = .next (ended s dt
        (doneS (updM { d with cal := { c.cal with stage := if k = 0 then none else c.cal.stage } } m
          (fun x => { clearMaster x with claim := none, endcause := 3 })) e))) ∧
    (∀ m : Mid, ¬bad → holder c k = some m → bit b 43 = true → (bit b 42 = false ∨ p.pinmid = m) →
      exec (.claimcfg dt) s = .next (ended s dt (doneS d e))) ∧
    (bad → exec (.claimcfg dt) s = .next (ended s dt (retire c (keyOf e) 3 0x0018 0)))

/-- SOFTRESET (R140, R170): its entry is committed, and a warm reset of cause SOFT takes effect in the next tick: every claim ends, OBJSTAT
and the shadows are cleared, SCRATCH, FAILS and LOCK, the ownership map, the object words and TICK are kept, and TESTEN is cleared.
FACTORYRESET (R140, R114): accepted without an entry, or executed, with the scrubber idle and every object FREE or ABSENT, it starts with
the lowest-numbered object, a channel, which enters SCRUBBING in this tick; the others follow later. -/
def Obligations.ResetCommandsTakeEffect : Prop :=
  (∀ (s : State) (dt : Nat) (e : Entry),
     let c := found s dt
     Executes c 0x0B (fun _ => true) e →
     ∃ t : Chip, exec (.softreset dt) s = .next (ended s dt t) ∧
       t.mem = c.mem ∧ t.own = c.own ∧ t.tick = c.tick ∧ t.isN = c.isN ∧
       t.face.trimlock = c.face.trimlock ∧ t.face.testlock = c.face.testlock ∧ t.face.testen = false ∧
       t.pw.state = .boot ∧ t.pw.cause = 4 ∧ t.pw.causeTick = c.tick + 1 ∧
       (∀ m : Mid, (mst t m).claim = none ∧ (mst t m).flags = 0 ∧ (mst t m).rdTag = none ∧
         (mst t m).wrTag = none ∧ (mst t m).scratch = (mst c m).scratch ∧ (mst t m).fails = (mst c m).fails)) ∧
  (∀ (s : State) (dt : Nat) (e : Entry),
     let c := found s dt
     serving c = true → c.wb.factoryDirect = true ∨ Executes c 0x0A (fun _ => true) e → c.wb.factory = none →
     c.own.scrubActive = none → c.own.scrubQueue = [] →
     (∀ j : ObjIx, (ownE c j).st = .free ∧ (ownE c j).next = none ∨ (ownE c j).st = .absent) → (ownE c 0).st = .free →
     exec (.factoryreset dt) s = .next (ended s dt { c with
       wb := { c.wb with factory := some { rest := (allFin 88).tail }, factoryDirect := false },
       own := { c.own with
         gen := (c.own.gen + 1) % 65536, scrubActive := some 0, scrubStart := c.tick,
         entries := upd c.own.entries 0 (fun x =>
           { x with st := .scrubbing, next := none, nextBy := none, gen := (c.own.gen + 1) % 65536 }) } }))

/-! ### Commands on an object (chapters 3, 8, 12, 13, 14) -/

/-- ENABLE by the owner of an object, outside CONFIG (in CONFIG it is refused with 0x0012, Table 4-3), with a configuration in force that is
not all zero (R97: else 0x0010): a channel enters HOLD (Table 8-2); a wheel without a Sett to start from enters SEEK, its phase tracks
cleared (R319); an OUT or a bank is enabled with its trip off (R358, R367); an analog output holds its safe value (Table 15-3); an emulator
enters INIT (Table 9-3); a loop enters MANUAL or AUTO with a start pending (R407). DISABLE by the owner commits with DONE in every state, and
the object is then disabled; a disabled channel, an analog output and a loop without an output of its own change as the last clauses say. -/
def Obligations.ObjectsAreEnabledAndDisabled : Prop :=
  ∀ (s : State) (dt : Nat) (e : Entry),
    let c := found s dt
    let enables (i : ObjIx) (t : Chip) : Prop :=
      Executes c 0x20 (fun _ => true) e → targetOf e = i.val → ownerOf c i = some e.client → inConfig c = false →
      allZero c (objOf i) = false → exec (.enable dt) s = .next (ended s dt (doneS t e))
    let disables (i : ObjIx) (t : Chip) : Prop :=
      Executes c 0x21 (fun _ => true) e → targetOf e = i.val → ownerOf c i = some e.client →
      exec (.disable dt) s = .next (ended s dt (doneS t e))
    let isOff (t : Chip) (i : ObjIx) : Prop :=
      match objOf i with
      | .ch n => t.trk[n].st = .disabled
      | .wh w => t.wh[w].st = .disabled
      | .out o => t.outs[o].enabled = false
      | .hsb b => t.banks[b].enabled = false
      | .lp n => t.lp[n].mode = .disabled
      | .ao a => t.ao[a].enabled = false
      | .enc x => t.enc[x].st = .disabled
      | .sat _ => True
    (∀ n : Fin 16, c.trk[n].st = .disabled → feEnableCheck c n = 0 → fld (trkcfg c n) 63 62 < 2 →
      ∃ x : Trk, enables (ixCh n) { c with trk := upd c.trk n (fun _ => x) } ∧
        x.st = .hold ∧ x.mode = fld (trkcfg c n) 63 62 ∧ x.valid = false ∧ x.cmdTick = some c.tick ∧ x.elecang = c.trk[n].elecang) ∧
    (∀ w : Fin 4, c.wh[w].st = .disabled → settStart c w = false → whValid c w = false →
      ∃ x : Wheel, enables (ixWh w) { c with wh := upd c.wh w (fun _ => x) } ∧
        x.st = .seek ∧ x.hist = [] ∧ x.confN = 0 ∧ x.dirKnown = false ∧ x.sett = c.wh[w].sett) ∧
    (∀ o : Fin 24, c.outs[o].trip = false → c.flt.srcs[srcN (322 + 3 * o.val)].level = false →
      enables (ixOut o) { c with outs := upd c.outs o (fun x =>
        { x with enabled := true, rbBad := false, mismatch := false, chg := c.tick }) }) ∧
    (∀ b : Fin 8, c.banks[b].trip = false → c.flt.srcs[srcN (394 + 3 * b.val)].level = false →
      enables (ixHsb b) { c with banks := upd c.banks b (fun x =>
        { x with enabled := true, rbBad := false, mismatch := false, chg := c.tick }) }) ∧
    (∀ a : Fin 8, c.ao[a].enabled = false → bit (aocfg c a) 63 = true → c.ao[a].checkfail = false →
      enables (ixAo a) { c with ao := upd c.ao a (fun x => { x with enabled := true, safehold := true }) }) ∧
    (∀ x : Fin 8, c.enc[x].st = .disabled →
      enables (ixEnc x) { c with enc := upd c.enc x (fun y =>
        { y with st := .init, lagmax := 0, tgt := y.cnt, benchhold := outputsHeld c, resume := false }) }) ∧
    (∀ n : Fin 16, c.lp[n].mode = .disabled →
      ∃ x : Lp, enables (ixLp n) { c with lp := upd c.lp n (fun _ => x) } ∧
        x.mode = (if bit (lpsup c n) 63 then .manual else .auto) ∧ x.pend = .start ∧ x.applied = false ∧ x.run = c.lp[n].run) ∧
    (∀ i : ObjIx, Executes c 0x20 (fun _ => true) e → targetOf e = i.val → ownerOf c i = some e.client →
      (inConfig c = true → exec (.enable dt) s = .next (ended s dt (retire c (keyOf e) 3 0x0012 0))) ∧
      (inConfig c = false → allZero c (objOf i) = true → exec (.enable dt) s = .next (ended s dt (retire c (keyOf e) 3 0x0010 0)))) ∧
    (∀ i : ObjIx, ∃ t : Chip, disables i t ∧ isOff t i) ∧
    (∀ n : Fin 16, c.trk[n].st ≠ .disabled →
      ∃ x : Trk, disables (ixCh n) { c with trk := upd c.trk n (fun _ => x) } ∧
        x.st = .disabled ∧ x.valid = false ∧ x.mode = c.trk[n].mode ∧ x.elecang = c.trk[n].elecang) ∧
    (∀ a : Fin 8, disables (ixAo a) { c with ao := upd c.ao a (fun x => { x with enabled := false }) }) ∧
    (∀ n : Fin 16, c.lp[n].mode ≠ .disabled → c.flt.srcs[srcN (418 + 4 * n.val)].level = false → lpDesten (lpcfg c n) = false →
      ∃ x : Lp, disables (ixLp n) { c with lp := upd c.lp n (fun _ => x) } ∧
        x.mode = .disabled ∧ x.pend = .none ∧ x.flight = [] ∧ x.trigcount = 0 ∧ x.run = c.lp[n].run)

/-- SETMODE_CHANNEL_MODE (R240, R243, Table 8-2), SETMODE_ANCHOR (R258), SETMODE_LOOP_MODE and SETMODE_MANVAL (R416, Table 14-3),
SETPOINT (R411) and NOTCHSET (R393 to R395), for the owner of the object: an enabled channel goes from AUTO to FIXED or into RAW; an ANCHOR
of a locked channel that nothing takes, within a quarter turn, moves its turn count; a loop in AUTO goes to MANUAL with the command's value,
MANVAL of a loop in MANUAL takes it; a SETPOINT of a loop whose source it is takes the target, else it is refused with 0x2301; a NOTCHSET of
one region passes its check and changes only words in force. A disabled object is refused with 0x2201 or 0x2211, a MANVAL in AUTO or TUNING with
0x2212. -/
def Obligations.ModesAndSetpointsAreSet : Prop :=
  ∀ (s : State) (dt : Nat) (e : Entry) (n : Fin 16),
    let c := found s dt
    let m := fld e.cmdb 1 0
    let k := anchorTurns c n e.cmdc.toInt
    let chMode (e : Entry) : Bool := decide (targetOf e < 16 ∧ fld e.cmdb 63 60 = 0)
    let chAnchor (e : Entry) : Bool := decide (targetOf e < 16 ∧ fld e.cmdb 63 60 = 1)
    let lpMod (e : Entry) : Bool := decide (52 ≤ targetOf e ∧ fld e.cmdb 63 60 = 0)
    let lpMan (e : Entry) : Bool := decide (52 ≤ targetOf e ∧ fld e.cmdb 63 60 = 1)
    let refused (d : Nat) : State := ended s dt (retire c (keyOf e) 3 d 0)
    let trk (f : Trk → Trk) : State := ended s dt (doneS { c with trk := upd c.trk n f } e)
    let lp (f : Lp → Lp) : State := ended s dt (doneS { c with lp := upd c.lp n f } e)
    (targetOf e = n.val → ownerOf c (ixCh n) = some e.client →
      (Executes c 0x22 chMode e → c.trk[n].st ≠ .disabled → c.trk[n].mode = 0 → m = 1 →
        exec (.setmodeChannelMode dt) s = .next (trk (fun t =>
          { t with mode := 1, cmdTick := some c.tick, old := some (t.st, 0, t.valid) }))) ∧
      (Executes c 0x22 chMode e → c.trk[n].st ≠ .disabled → c.trk[n].mode ≠ 2 → m = 2 →
        ∃ x : Trk, exec (.setmodeChannelMode dt) s = .next (trk (fun _ => x)) ∧
          x.st = .raw ∧ x.mode = 2 ∧ x.valid = false ∧ x.rawCount = 0 ∧ x.oneshot = bit e.cmdb 8 ∧ x.ds = c.trk[n].ds) ∧
      (Executes c 0x22 chMode e → c.trk[n].st = .disabled → exec (.setmodeChannelMode dt) s = .next (refused 0x2201)) ∧
      (Executes c 0x22 chAnchor e → c.trk[n].st = .locked → channelTaken c n = false → k.2 = true →
        exec (.setmodeAnchor dt) s = .next (trk (fun t =>
          { t with theta := t.theta + k.1 * 2 ^ 48, phi := t.phi + k.1 * 2 ^ 48, unver := false }))) ∧
      (Executes c 0x22 chAnchor e → c.trk[n].st = .disabled → exec (.setmodeAnchor dt) s = .next (refused 0x2201))) ∧
    (targetOf e = 52 + n.val → ownerOf c (ixLp n) = some e.client →
      (Executes c 0x22 lpMod e → c.lp[n].mode = .auto → c.lp[n].pend ≠ .start → m = 1 → bit e.cmdb 8 = true →
        exec (.setmodeLoopMode dt) s = .next (lp (fun l => { l with
          mode := .manual, manval := e.cmdc.toInt, pend := .none, transfers := (l.transfers + 1) % 65536,
          ferun := 0, feclear := 0, feover := false }))) ∧
      (Executes c 0x22 lpMod e → c.lp[n].mode = .disabled → exec (.setmodeLoopMode dt) s = .next (refused 0x2211)) ∧
      (Executes c 0x22 lpMan e → c.lp[n].mode = .manual →
        exec (.setmodeManval dt) s = .next (lp (fun l => { l with manval := e.cmdc.toInt }))) ∧
      (Executes c 0x22 lpMan e → c.lp[n].mode = .disabled → exec (.setmodeManval dt) s = .next (refused 0x2211)) ∧
      (Executes c 0x22 lpMan e → c.lp[n].mode = .auto ∨ c.lp[n].mode = .tuning → exec (.setmodeManval dt) s = .next (refused 0x2212)) ∧
      (Executes c 0x23 (fun _ => true) e → fld (lpsig c n) 47 32 = 0 →
        exec (.setpoint dt) s = .next (lp (fun l => { l with sptarget := e.cmdb.toInt }))) ∧
      (Executes c 0x23 (fun _ => true) e → fld (lpsig c n) 47 32 ≠ 0 → exec (.setpoint dt) s = .next (refused 0x2301)) ∧
      (Executes c 0x24 (fun _ => true) e → notchRefusal c e n = 0 → bit e.cmdb 48 = false →
        ∃ t : Chip, exec (.notchset dt) s = .next (ended s dt (commitS t e 1 0 1)) ∧ t = { c with mem := t.mem } ∧
          t.mem.staged = c.mem.staged ∧ t.mem.live = c.mem.live) ∧
      (Executes c 0x24 (fun _ => true) e → notchRefusal c e n ≠ 0 → exec (.notchset dt) s = .next (refused (notchRefusal c e n))))

/-- EVENTPOST (R347, R348) and EVENTCANCEL (R366), outside CONFIG: an event of an enabled output with room, and with no base to compare it
with, waits in its queue in the order of START and sequence number; for a disabled output it is refused with 0x300B, for a full queue with
0x300A, in CONFIG with 0x0012 (Table 4-3); a cancel that no pending event meets, with none running, commits with a count of 0, and the
outputs' balls follow their state. -/
def Obligations.EventsArePostedAndCancelled : Prop :=
  ∀ (s : State) (dt : Nat) (e : Entry) (o : Fin 24),
    let c := found s dt
    let x := c.outs[o]
    targetOf e = 20 + o.val → ownerOf c (ixOut o) = some e.client →
    (Executes c 0x30 (fun _ => true) e → inConfig c = false → x.enabled = true → x.q.length < 32 → basePub c o = none →
      ∃ q : List HEv, exec (.eventpost dt) s = .next (ended s dt
          { commitD c e with outs := upd c.outs o (fun x => { x with q := q }) }) ∧
        (∃ l r : List HEv, x.q = l ++ r ∧
          q = l ++ [{ key := keyOf e, start := e.cmdb.toInt, cmdc := e.cmdc, deadline := none, gated := false, notBefore := 0,
                      held := false, ahead := true, jumped := false }] ++ r ∧
          (∀ y ∈ l, y.start < e.cmdb.toInt ∨ y.start = e.cmdb.toInt ∧ y.key.seq ≤ e.seq) ∧
          (∀ y, r.head? = some y → e.cmdb.toInt < y.start ∨ e.cmdb.toInt = y.start ∧ e.seq < y.key.seq))) ∧
    (Executes c 0x30 (fun _ => true) e → inConfig c = false → x.enabled = false →
      exec (.eventpost dt) s = .next (ended s dt (retire c (keyOf e) 3 0x300B 0))) ∧
    (Executes c 0x30 (fun _ => true) e → inConfig c = false → x.enabled = true → 32 ≤ x.q.length →
      exec (.eventpost dt) s = .next (ended s dt (retire c (keyOf e) 3 0x300A 0))) ∧
    (Executes c 0x30 (fun _ => true) e → inConfig c = true →
      exec (.eventpost dt) s = .next (ended s dt (retire c (keyOf e) 3 0x0012 0))) ∧
    (Executes c 0x31 (fun _ => true) e → x.run = none → (∀ y ∈ x.q, y.start < e.cmdc.toInt) →
      exec (.eventcancel dt) s = .next (ended s dt (driveAll (commitS c e 1 0 0))))

/-- SUSPEND, RESUME and CANCEL, R132 to R134 and Table 4-6: of a QUEUED long operation of the normal lane without a mark, SUSPEND makes it
SUSPENDED; of one suspended by SUSPEND, RESUME lets it go on; of an ACTIVE one, SUSPEND and CANCEL leave a mark and wait; of a QUEUED command
of the normal lane, CANCEL retires it CANCELLED; with no such target each is refused with 0x0014, and of a command of the control lane
that is outstanding with 0x0015. -/
def Obligations.ControlCommandsAct : Prop :=
  ∀ (s : State) (dt : Nat) (e t : Entry),
    let c := found s dt
    let r : Word := pack [(0, 32, t.seq), (32, 8, t.ckpt)]
    let done (d : Chip) : State := ended s dt (retire (commitD d e) (keyOf e) 1 0 r)
    let set (f : Entry → Entry) : Chip := updEntry c (keyOf t) f
    let marked (m : Mark) : State :=
      ended s dt (updEntry (commitD c e) (keyOf t) (fun x => { x with mark := m, marker := some (keyOf e) }))
    let all (z : State) : Prop :=
      (Executes c 0x40 (fun _ => true) e → exec (.suspend dt) s = .next z) ∧
      (Executes c 0x41 (fun _ => true) e → exec (.resume dt) s = .next z) ∧
      (Executes c 0x42 (fun _ => true) e → exec (.cancel dt) s = .next z)
    (ctrlTarget c e = some t → t.ctrl = false → t.mark = .none →
      (Executes c 0x40 (fun _ => true) e → e.kind = .d → t.kind = .l → t.state = .queued →
        exec (.suspend dt) s = .next (done (set (fun x => { x with state := .suspended, cause := .suspend })))) ∧
      (Executes c 0x40 (fun _ => true) e → t.kind = .l → t.state = .active → opcodeOf t ≠ 0x53 →
        exec (.suspend dt) s = .next (marked .suspend)) ∧
      (Executes c 0x41 (fun _ => true) e → e.kind = .s → t.kind = .l → t.state = .suspended → t.cause = .suspend → benched c = false →
        exec (.resume dt) s = .next (ended s dt (commitS (set (fun x => { x with resumed := true, mark := .resume })) e 1 0 r))) ∧
      (Executes c 0x42 (fun _ => true) e → t.kind = .l → t.state = .active → opcodeOf t ≠ 0x53 →
        exec (.cancel dt) s = .next (marked .cancel)) ∧
      (Executes c 0x42 (fun _ => true) e → e.kind = .d → t.state = .queued →
        exec (.cancel dt) s = .next (done (retire c (keyOf t) 2 (if e.client = t.client then 1 else 2) 0)))) ∧
    (ctrlTarget c e = none → all (ended s dt (retire c (keyOf e) 3 0x0014 0))) ∧
    (ctrlTarget c e = some t → t.ctrl = true → t.state ≠ .retired → all (ended s dt (retire c (keyOf e) 3 0x0015 r)))

/-! ### Long operations, images and satellite bindings (chapters 4, 6, 7, 10, 11, 14, 15, 16) -/

/-- DISCOVER (R226), CALIBRATE_FAST and CALIBRATE_ROTATING (R224), AUTOTUNE (R423, R424), LEARNTEETH (R338), SPANCHANGE (R442) and
SELFTEST (R483), outside CONFIG, with no Bench, no SLEEP request and no mark, and with the preconditions of its table met: a long operation of the
owner passes checkpoint 1 in this tick with that step's effect on its object, and nothing else changes. -/
def Obligations.LongOperationsStart : Prop :=
  ∀ (s : State) (dt : Nat) (e : Entry),
    let c := found s dt
    let long (p : Entry → Bool) (e : Entry) : Bool := p e && (ckptDue c e || longBarred c e)
    let one (t : Chip) : Chip := updEntry t (keyOf e) (fun x => { x with ckpt := 1, ckTick := c.tick, redo := false })
    e.mark = .none → findEntry c (keyOf e) = some e → benched c = false → c.pw.sleepPending = false → inConfig c = false →
    (∀ n : Fin 16, targetOf e = n.val → ownerOf c (ixCh n) = some e.client →
      (Executes c 0x10 (long (fun _ => true)) e → discoverPre c n = 0 →
        exec (.discover dt) s = .next (ended s dt (one { c with fe := upd c.fe n (fun f =>
          { f with discrun := true, presrun := false, presN := 0, restarted := false }) }))) ∧
      (Executes c 0x11 (long (fun e => decide (fld e.cmdb 1 0 = 0))) e → calibratePre c n false = 0 →
        exec (.calibrateFast dt) s = .next (ended s dt (one (feStepBegin { c with fe := upd c.fe n (fun f => { f with calMax := 0 }) } n)))) ∧
      (Executes c 0x11 (long (fun e => decide (fld e.cmdb 1 0 = 1))) e → calibratePre c n true = 0 →
        exec (.calibrateRotating dt) s =
          .next (ended s dt (one (feStepBegin { c with fe := upd c.fe n (fun f => { f with calMax := 0 }) } n))))) ∧
    (∀ n : Fin 16, targetOf e = 52 + n.val → ownerOf c (ixLp n) = some e.client → Executes c 0x12 (long (fun _ => true)) e →
      c.lp[n].mode = .auto → lpRunmode (lpcfg c n) = 0 → lpGrpen (lpsup c n) = false →
      ∃ x : Lp, exec (.autotune dt) s = .next (ended s dt (one { c with lp := upd c.lp n (fun _ => x) })) ∧
        x.mode = .tuning ∧ x.relay.u0 = c.lp[n].run.ua ∧ x.relay.d = e.cmdb.toInt ∧ x.relay.cycles = [] ∧ x.run = c.lp[n].run ∧
        x.transfers = (c.lp[n].transfers + 1) % 65536) ∧
    (∀ w : Fin 4, targetOf e = 16 + w.val → ownerOf c (ixWh w) = some e.client → Executes c 0x13 (long (fun _ => true)) e →
      c.wh[w].st ≠ .disabled → learnRefOwned c e = true → learnRefOk c e = true →
      exec (.learnteeth dt) s = .next (ended s dt (one c))) ∧
    (∀ a : Fin 8, targetOf e = 68 + a.val → ownerOf c (ixAo a) = some e.client → Executes c 0x52 (long (fun _ => true)) e →
      aoSource c a = none → c.ao[a].checkfail = false → fld e.cmdb 2 0 ≠ c.ao[a].span →
      ∃ x : Ao, exec (.spanchange dt) s = .next (ended s dt (one { c with ao := upd c.ao a (fun _ => x) })) ∧
        x.spanbusy = true ∧ x.span = c.ao[a].span ∧ x.oldSpan = c.ao[a].span ∧ x.seqCode = (aoSafe c a c.ao[a].span).1 ∧
        x.emitTick = c.tick ∧ x.verN = 0) ∧
    (Executes c 0x54 (fun e => ckptDue c e) e → bit e.cmdb 3 = false →
      exec (.selftest dt) s = .next (ended s dt (one (updEntry c (keyOf e) (fun x => { x with result := 0 })))))

/-- STAGEIMAGE_ERASE, STAGEIMAGE_PAGE and STAGEIMAGE_FINISH (R196, Table 6-10), with no Bench, no SLEEP request and no mark, pass checkpoint 1
where their checks hold: ERASE makes the slot WRITING with no page, PAGE of a slot being written changes nothing yet, and FINISH of a
complete, sound image notes the read; the slot that runs is refused with 0x5001, FINISH of a slot that is not WRITING with 0x5009.
ACTIVATEIMAGE_PROMOTE and ACTIVATEIMAGE_DEMOTE (R198) change the slot's state; PROMOTE of an EMPTY or WRITING slot is refused with 0x5101, DEMOTE
of one that is not ELIGIBLE with 0x5103. A change of a slot's record keeps, for a millisecond, what its copies held before (R199). -/
def Obligations.ImagesAreStagedAndActivated : Prop :=
  ∀ (s : State) (dt : Nat) (e : Entry) (b : Bool) (err : Bool),
    let c := found s dt
    let due (op : Nat) (e : Entry) : Bool := decide (fld e.cmdb 63 62 = op) && ckptDue c e
    let one (t : Chip) : State := ended s dt (updEntry t (keyOf e) (fun x => { x with ckpt := 1, ckTick := c.tick, redo := false }))
    let slot (x : Bool) (f : Slot → Slot) (c : Chip) : Chip :=
      { c with img := if x then { c.img with slotB := f c.img.slotB } else { c.img with slotA := f c.img.slotA } }
    let record (st : SlotSt) (f : Slot → Slot) (c : Chip) : Chip := slot b (fun x =>
      { f x with st := st,
                 hist := { tick := c.tick, st := x.st, pages := x.pages } :: x.hist.filter (fun r => decide (c.tick < r.tick + 160000)) }) c
    let final (d : Nat) (t : Chip) : State := ended s dt (retire (setCkpt t (keyOf e) 1) (keyOf e) 3 d 0)
    let read (x : Bool) : Chip := slot x (fun y => { y with readErr := err }) c
    (e.mark = .none → findEntry c (keyOf e) = some e → benched c = false → c.pw.sleepPending = false → bit e.cmdb 56 = b →
      (slotRefused c e = false →
        (Executes c 0x50 (due 2) e →
          exec (.stageimageErase dt) s = .next (one (record .writing (fun x => { x with pages := 0 }) c))) ∧
        (Executes c 0x50 (due 0) e → crc32c (imgbuf c) = fld e.cmdc 31 0 → (slotOf c b).st = .writing →
          exec (.stageimagePage dt) s = .next (one c)) ∧
        (Executes c 0x50 (due 1) e → (slotOf c b).st = .writing → pagesComplete (slotOf c b) = true →
          imageFail (slotOf (read b) b) c.img.rollctr = 0 → exec (.stageimageFinish ⟨dt, err⟩) s = .next (one (read b))) ∧
        (Executes c 0x50 (due 1) e → (slotOf c b).st ≠ .writing →
          exec (.stageimageFinish ⟨dt, err⟩) s = .next (final 0x5009 (read b)))) ∧
      (slotRefused c e = true →
        (Executes c 0x50 (due 2) e → exec (.stageimageErase dt) s = .next (final 0x5001 c)) ∧
        (Executes c 0x50 (due 0) e → exec (.stageimagePage dt) s = .next (final 0x5001 c)) ∧
        (Executes c 0x50 (due 1) e → exec (.stageimageFinish ⟨dt, err⟩) s = .next (final 0x5001 (read b))))) ∧
    (bit e.cmdb 0 = b →
      (Executes c 0x51 (fun e => !bit e.cmdb 8) e →
        ((slotOf c b).st = .staged ∨ (slotOf c b).st = .eligible → imageFail (slotOf (read b) b) c.img.rollctr = 0 →
          exec (.activateimagePromote ⟨dt, err⟩) s = .next (ended s dt (doneS (record .eligible id (read b)) e))) ∧
        ((slotOf c b).st = .empty ∨ (slotOf c b).st = .writing →
          exec (.activateimagePromote ⟨dt, err⟩) s = .next (ended s dt (retire (read b) (keyOf e) 3 0x5101 0)))) ∧
      (Executes c 0x51 (fun e => bit e.cmdb 8) e →
        ((slotOf c b).st = .eligible → (slotOf c (!b)).st = .eligible → imageFail (slotOf (read (!b)) (!b)) c.img.rollctr = 0 →
          exec (.activateimageDemote ⟨dt, err⟩) s = .next (ended s dt (doneS (record .staged id (read (!b))) e))) ∧
        ((slotOf c b).st ≠ .eligible →
          exec (.activateimageDemote ⟨dt, err⟩) s = .next (ended s dt (retire (read (!b)) (keyOf e) 3 0x5103 0)))))

/-- SATACCEPT, SATACCEPT_REPLACE and SATRELEASE, R299: an offered device whose serial the command names is bound to the position, with
REPLACE in the place of an absent device's binding, and its admission begins; a binding that no configuration in force uses and whose
device is absent is cleared. SATACCEPT of a bound position is refused with 0x6001, REPLACE of an unbound one with 0x6003, where no such
quarantined device is named; a release of an unbound position is refused with 0x6101, one in use with 0x6102. -/
def Obligations.SatellitesAreBound : Prop :=
  ∀ (s : State) (dt : Nat) (e : Entry) (k h : Fin 4),
    let c := found s dt
    let x := c.link.hops[h]
    let sats (f : Sat → Sat) : Chip := { c with link := { c.link with sats := upd c.link.sats k f } }
    let accepted : State :=
      ended s dt (doneS (beginAdmission (sats (fun y => { y with bound := true, serial := e.cmdc })) h k) e)
    let refused (d : Nat) : State := ended s dt (retire c (keyOf e) 3 d 0)
    let quarantined := x.st = .up ∧ x.dstate = .quarantined ∧ x.serial = e.cmdc
    targetOf e = 84 + k.val →
    (fld e.cmdb 2 0 = h.val + 1 → Executes c 0x60 (fun e => !bit e.cmdb 8) e →
      (x.st = .up → x.dstate = .offered → x.serial = e.cmdc → c.link.sats[k].bound = false → exec (.sataccept dt) s = .next accepted) ∧
      (¬quarantined → c.link.sats[k].bound = true → exec (.sataccept dt) s = .next (refused 0x6001)) ∧
      (quarantined → exec (.sataccept dt) s = .next (refused 0x0019))) ∧
    (fld e.cmdb 2 0 = h.val + 1 → Executes c 0x60 (fun e => bit e.cmdb 8) e →
      (x.st = .up → x.dstate = .offered → x.serial = e.cmdc → c.link.sats[k].bound = true → hopOfSat c k = none →
        exec (.satacceptReplace dt) s = .next accepted) ∧
      (¬quarantined → c.link.sats[k].bound = false → exec (.satacceptReplace dt) s = .next (refused 0x6003)) ∧
      (quarantined → exec (.satacceptReplace dt) s = .next (refused 0x0019))) ∧
    (Executes c 0x61 (fun _ => true) e →
      (releaseRefusal c k = 0 → hopOfSat c k = none →
        exec (.satrelease dt) s = .next (ended s dt (doneS (sats (fun y => { y with
          bound := false, serial := 0, hop := none, admitted := false, bufready := false, bufsoft := false, everReady := false })) e))) ∧
      (c.link.sats[k].bound = false → exec (.satrelease dt) s = .next (refused 0x6101)) ∧
      (releaseRefusal c k = 0x6102 → exec (.satrelease dt) s = .next (refused 0x6102)))

/-! ### The Weighbridge's and the ownership path's own events (chapters 3, 4) -/

/-- COMMAND_FETCH (R117), where the read of the entry finds no error: the executor takes the command it picks. LONG_OP_CHECKPOINT (R92,
R123): a SELFTEST part without a failure passes its checkpoint; a CALIBRATE whose object is DRAINING is retired CANCELLED (detail 3) at its
own. RETIRE_RING_MERGE (R130), without an error: the oldest record of a ring, 2 ticks old, leaves it and retires its entry. RETENTION_PATROL
(R110) of a word outside the journal that it has not read in its period: the word is noted, a corrected bit raises S064, an uncorrectable
error halts the Weighbridge and raises S065. SEQ_COUNTER_MISMATCH (R114): the client is marked, and S068 asserts. -/
def Obligations.WeighbridgeEventsAct : Prop :=
  ∀ (s : State) (dt : Nat),
    let c := found s dt
    (∀ (e : Entry) (w : Fin 8), mayFetch (retireDue c) = true → pick (retireDue c) = some e →
        (e.kind = .l → needsAbsentSat (retireDue c) e = false) →
      ∃ t : Chip, exec (.commandFetch dt ⟨.clean, w⟩) s = .next (ended s dt t) ∧ t = { c with wb := t.wb } ∧
        t.wb.lastFetch = some c.tick ∧ (t.wb.ctlptr = if e.ctrl then e.client else c.wb.ctlptr) ∧
        (t.wb.normptr = if e.ctrl then c.wb.normptr else e.client) ∧
        t.wb.entries = (retireDue c).wb.entries.map (fun x =>
          if keyOf x = keyOf e then { x with state := .active, fetchTick := c.tick, ckTick := c.tick } else x)) ∧
    (∀ (k : Client) (n : Nat) (data : List Int) (e : Entry),
      findEntry c ⟨k, n⟩ = some e → e.kind = .l → e.state = .active → serving c = true → ckptDue c e = true →
      (opcodeOf e = 0x54 → targetObj e = none → 1 ≤ e.ckpt → e.ckpt ≤ 4 → e.mark = .none → benched c = false → c.pw.sleepPending = false →
        exec (.longOpCheckpoint dt k n []) s = .next (ended s dt (updEntry c ⟨k, n⟩ (fun x =>
          { x with result := e.result, ckpt := e.ckpt + 1, ckTick := c.tick, redo := false })))) ∧
      (∀ i : ObjIx, opcodeOf e = 0x11 → targetObj e = some i → 0 < e.ckpt → (ownE c i).st = .draining → isDrainItem c i e = true →
        exec (.longOpCheckpoint dt k n data) s = .next (ended s dt (retire c ⟨k, n⟩ 2 3 0)))) ∧
    (∀ (o : Fin 24) (w : Nat) (r : RingRec) (l : List RingRec) (e : Entry), c.outs[o].ring = r :: l → r.tick + 2 ≤ c.tick →
        serving c = true → findEntry c r.key = some e → e.marker = none →
      ∃ t : Chip, exec (.retireRingMerge dt ⟨o, .clean, w⟩) s = .next (ended s dt t) ∧
        t.outs = upd c.outs o (fun x => { x with ring := l }) ∧
        t = { c with outs := t.outs, wb := { c.wb with entries := t.wb.entries } } ∧
        t.wb.entries = c.wb.entries.map (fun x => if keyOf x = r.key then
          { x with state := .retired, status := r.status, detail := r.detail, result := resultOf x e.result, retireTick := r.tick,
                   mark := .none, marker := none, resumed := false, recovered := x.recovered || r.recovered } else x)) ∧
    (∀ (a : Nat), serving c = true → journalWord a = none → patrolDone c false a = false →
      let d := patrolMark c false a
      exec (.retentionPatrol dt false a .clean) s = .next (ended s dt d) ∧
      exec (.retentionPatrol dt false a .single) s = .next (ended s dt (raiseR d (evAt c 64 10 accRead 2 a none))) ∧
      exec (.retentionPatrol dt false a .double) s =
        .next (ended s dt (raiseR { d with wb := { d.wb with halted := true } } (evAt c 65 10 accRead 2 a none)))) ∧
    (∀ k : Client, serving c = true →
      let d : Chip := { c with wb := { c.wb with clients := upd c.wb.clients k (fun v => { v with mismatch := true }) } }
      exec (.seqCounterMismatch dt k) s =
        .next (ended s dt (setLevelR d 68 true (evAt d 68 15 0 2 (0x08000000 + 0x40 * k.val) none))))

/-- DRAIN_END (R92, R93), SCRUB_COMPLETE (R93, R95), NEXT_OWNER_TAKEOVER (R87) and OWNERSHIP_MISMATCH (R86), while the scrubber has no other
object and no FACTORYRESET runs: a drained object joins the scrubber; the object that the scrubber has zeroed is FREE, its words zero, or
with a failed word keeps its state with S034; an object FREE for one tick passes to NEXT; copies of the map that disagree assert S035. -/
def Obligations.OwnershipEventsAct : Prop :=
  ∀ (s : State) (dt : Nat) (i : ObjIx),
    let c := found s dt
    let o := ownE c i
    let g := (c.own.gen + 1) % 65536
    (o.st = .draining → drainDue c i = true → c.own.scrubActive = none → c.own.scrubQueue = [] →
      ∃ t : Chip, exec (.drainEnd dt i) s = .next (ended s dt t) ∧ t.mem = c.mem ∧ t.face = c.face ∧
        ownE t i = { o with st := .scrubbing, gen := g } ∧ t.own.gen = g ∧ t.own.scrubActive = some i ∧ t.own.scrubStart = c.tick ∧
        ∀ j : ObjIx, j ≠ i → ownE t j = ownE c j) ∧
    (c.own.scrubActive = some i → c.own.scrubStart + scrubLen c i ≤ c.tick → serving c = true → c.wb.factory = none →
        c.own.scrubQueue = [] →
      (∃ t : Chip, exec (.scrubComplete dt none) s = .next (ended s dt t) ∧ (ownE t i).st = .free ∧ (ownE t i).gen = g ∧
        (ownE t i).atFree = [] ∧ (ownE t i).next = o.next ∧ t.own.scrubActive = none ∧
        t.own.scrubCount = (c.own.scrubCount + 1) % 65536 ∧
        t.mem = c.mem.zeroBlock (objBase (objOf i)) (objBase (objOf i) + objSpan (objOf i)) ∧
        ∀ j : ObjIx, j ≠ i → ownE t j = ownE c j) ∧
      (∀ a : Nat, ∃ t : Chip, exec (.scrubComplete dt (some a)) s = .next (ended s dt t) ∧ (ownE t i).st = o.st ∧
        (ownE t i).scrubFailed = true ∧ (evAt c 34 9 accRead 2 a none) ∈ t.raised ∧
        t.mem = c.mem.zeroBlock (objBase (objOf i)) (objBase (objOf i) + objSpan (objOf i)))) ∧
    (∀ k : Client, o.st = .free → o.next = some k → o.freeTick < c.tick → serving c = true → c.wb.factory = none → o.nextBy = none →
      exec (.nextOwnerTakeover dt i) s = .next (ended s dt { c with own := { c.own with gen := g, entries := upd c.own.entries i (fun x =>
        { x with st := .owned, owner := k, next := none, nextBy := none, gen := g }) } })) ∧
    (∀ a : Nat, serving c = true →
      let d : Chip := { c with own := { c.own with mismatch := true } }
      exec (.ownershipMismatch dt a) s = .next (ended s dt (setLevelR d 35 true (evAt d 35 15 0 2 a none))))

/-! ### Power, clocks, resets and BOOT (chapters 5, 6) -/

/-- The steps of BOOT, R158, R167 to R169, R187: BOOT_TRIM_LOAD leads from step A1 to A2 and from B to C; PLL_LOCK from A2 to C with
the net on SYSCLK; PLL_LOCK_RETRY restarts A2 and counts S001; IMAGE_CHECK, with no event held and no mismatch standing, places step D, and
selects slot A where it alone is eligible and sound, or no image where neither is eligible; NRESET_RELEASE lets a held BOOT begin;
BACKUP_EXIT begins one after 32 periods. -/
def Obligations.BootAdvances : Prop :=
  ∀ (s : State) (dt : Nat),
    let c := found s dt
    let p := c.pw
    let pw (q : Power) : Chip := { c with pw := q }
    let settled (q : Power) : Chip := { c with
      pw := q, img := { c.img with slotA := { c.img.slotA with hist := [] }, slotB := { c.img.slotB with hist := [] } } }
    (p.state = .boot → p.step = .a1 → 8 ≤ p.lfCount →
      exec (.bootTrimLoad dt) s = .next (ended s dt (settled { p with step := .a2, lfCount := 0 }))) ∧
    (p.state = .boot → p.step = .b → p.stepTick + 8192 ≤ c.tick →
      exec (.bootTrimLoad dt) s = .next (ended s dt (settled { p with step := .c, stepTick := c.tick }))) ∧
    (p.state = .boot → p.step = .a2 → 1 ≤ p.lfCount → p.lfCount ≤ 7 →
      exec (.pllLock dt) s = .next (ended s dt (pw { p with
        step := .c, stepTick := c.tick + 1, lfclk := false, frac := 0, lfCount := 0, motionArmed := false }))) ∧
    (p.state = .boot → p.step = .a2 → 7 ≤ p.lfCount →
      exec (.pllLockRetry dt) s = .next (ended s dt (raiseR (pw { p with lfCount := 0 }) (evN c 1)))) ∧
    (p.state = .boot → p.step = .c → c.flt.held = [] → p.lfLost = false → c.own.mismatch = false →
        (∀ k : Client, c.wb.clients[k].mismatch = false) → c.img.slotB.st ≠ .eligible →
      ∃ t : Chip, exec (.imageCheck dt false false) s = .next (ended s dt t) ∧
        t.pw = { p with step := if p.cold then .dCold else .dWarm, stepTick := p.stepTick + 66560 } ∧
        (c.img.slotA.st ≠ .eligible → t.img.minimal = true) ∧
        (c.img.slotA.st = .eligible → imageFail { c.img.slotA with readErr := false } c.img.rollctr = 0 →
          t.img.minimal = false ∧ t.img.actSlot = false ∧ t.img.actVer = imgVer c.img.slotA) ∧
        t.flt = c.flt ∧ t.wb = c.wb ∧ t.own = c.own) ∧
    (p.state = .boot → p.step = .held →
      exec (.nresetRelease dt) s = .next (ended s dt (pw { p with
        nresetLow := false, step := if p.lfclk then .a1 else .b, stepTick := c.tick, lfCount := 0 }))) ∧
    (p.state = .backup → 32 ≤ p.lfCount → p.lfLost = false → p.lfStopped = false →
      exec (.backupExit dt) s = .next (ended s dt (pw { p with
        state := .boot, vdd := true, stepTick := c.tick, step := .a1, lfCount := 0 })))

/-- RETENTION_INIT (R112, R158, R167) and REPLAY (R115, R135, Table 4-7): a cold BOOT ends in CONFIG, or in minimal CONFIG with no image, in a
new epoch with an empty journal; with no long operation outstanding, no ring to merge and no error, a warm BOOT ends with every entry
classified: an S command past its commit point is retired with RECOVERED, one before it is QUEUED again, a started event is retired. -/
def Obligations.BootEnds : Prop :=
  ∀ (s : State) (dt : Nat),
    let c := found s dt
    c.pw.state = .boot →
    (c.pw.step = .dCold → c.pw.stepTick + 8192 ≤ c.tick → c.pw.cold = true →
      ∃ t : Chip, exec (.retentionInit dt) s = .next (ended s dt t) ∧
        t.wb.entries = [] ∧ t.wb.epoch = (c.wb.epoch + 1) % 65536 ∧ t.wb.halted = false ∧
        (∀ k : Client, t.wb.clients[k].lastSeq = 0 ∧ t.wb.clients[k].epochLost = true) ∧
        t.pw.state = (if c.img.minimal then .minconfig else .config) ∧ t.pw.cold = false ∧ t.pw.rcCold = true ∧
        t.pw.sticky = 0 ∧ t.pw.warmcount = 0 ∧ t.mem = c.mem) ∧
    (c.pw.step = .dWarm → c.pw.stepTick + 8192 + 256 * c.wb.entries.length ≤ c.tick → c.pw.cold = false → c.wb.halted = false →
        (∀ e ∈ c.wb.entries, e.kind ≠ .l) → (∀ o : Fin 24, c.outs[o].ring = []) →
      ∃ t : Chip, exec (.replay dt [] none) s = .next (ended s dt t) ∧
        t.wb.entries = c.wb.entries.map (fun e =>
          match e.state with
          | .active =>
            if e.kind = .s ∧ e.commit = true then { e with state := .retired, recovered := true, retireTick := e.commitTick }
            else { e with state := .queued }
          | .waiting =>
            if opcodeOf e = 0x30 ∧ e.started = true then
              { e with state := .retired, recovered := true, status := 1, detail := 0, retireTick := c.pw.causeTick }
            else e
          | .suspended => if e.cause = .sleep then { e with cause := .suspend } else e
          | _ => e) ∧
        t.pw.last = c.pw.cause ∧ t.pw.resettick = c.pw.causeTick ∧ t.pw.warmcount = (c.pw.warmcount + 1) % 65536 ∧
        t.pw.sticky = c.pw.sticky ||| c.pw.causeMask ∧ t.pw.rcCold = false ∧
        (c.img.minimal = true → t.pw.state = .minconfig) ∧
        (c.img.minimal = false → c.pw.autoresume = false → t.pw.state = .config))

/-- The resets, R158, R165, R166, R170, R174, R184: in a state with VDD outside BOOT, NRESET_PIN of 162 ticks or more, WATCHDOG_EXPIRY and
XTAL_LOSS restart BOOT with their cause, BROWNOUT leads to BACKUP, each keeping TICK, the map and the object words and ending every claim;
VDD_LOSS_WITHOUT_VBAK, and VBAK_LOSS in BACKUP without VDD33, lead to OFF and keep them too; a VBAK_LOSS elsewhere only notes it. A low of nRESET
shorter than 158 ticks resets nothing. POWER_ON_RESET in OFF brings the supplies, and after 64 oscillator periods starts afresh at TICK 0,
in BOOT with VDD, else in BACKUP. -/
def Obligations.ResetsTakeEffect : Prop :=
  ∀ (s : State) (dt : Nat),
    let c := found s dt
    let p := c.pw
    let kept (t : Chip) : Prop := t.tick = c.tick ∧ t.own = c.own ∧ t.mem = c.mem ∧ t.isN = c.isN
    let reset (t : Chip) (cause : Nat) : Prop :=
      kept t ∧ t.pw.cause = cause ∧ t.pw.causeTick = c.tick + 1 ∧
      (∀ m : Mid, (mst t m).claim = none ∧ (mst t m).wrTag = none ∧ (mst t m).scratch = (mst c m).scratch) ∧
      (∀ n : Src, t.flt.srcs[n].st = .ok ∧ t.flt.srcs[n].unack = false)
    (vddUp c = true → p.state ≠ .boot →
      (∀ len : Nat, 162 ≤ len → ∃ t : Chip, exec (.nresetPin dt len) s = .next (ended s dt t) ∧ reset t 1 ∧
        t.pw.state = .boot ∧ t.pw.step = .held ∧ t.pw.nresetLow = true) ∧
      (∀ len : Nat, len < 158 → exec (.nresetPin dt len) s = .next (ended s dt { c with freeN := c.freeN + 1 })) ∧
      (p.wdEn = true → p.wdCount = 0 → serving c = true →
        ∃ t : Chip, exec (.watchdogExpiry dt) s = .next (ended s dt t) ∧ reset t 2 ∧ t.pw.state = .boot ∧ t.pw.wdFired = true) ∧
      (∀ b : Bool, p.lfclk = false → p.nresetLow = false →
        ∃ t : Chip, exec (.xtalLoss dt b) s = .next (ended s dt t) ∧ reset t 6 ∧ t.pw.state = .boot ∧ t.pw.lfclk = true ∧
          t.pw.step = .a1) ∧
      (∃ t : Chip, exec (.brownout dt) s = .next (ended s dt t) ∧ reset t 5 ∧ t.pw.state = .backup ∧ t.pw.vdd = false ∧
        t.pw.vbak = true ∧ t.pw.lfclk = (p.lfclk || p.lfLost)) ∧
      (∃ t : Chip, exec (.vddLossWithoutVbak dt) s = .next (ended s dt t) ∧ kept t ∧ t.pw.state = .off)) ∧
    (p.state = .backup → ∃ t : Chip, exec (.vbakLoss ⟨dt, false⟩) s = .next (ended s dt t) ∧ kept t ∧ t.pw.state = .off) ∧
    (∀ b : Bool, p.state ≠ .backup ∨ b = true → exec (.vbakLoss ⟨dt, b⟩) s = .next (ended s dt { c with pw := { p with vbak := false } })) ∧
    (∀ vdd vbak : Bool, p.state = .off → (vdd || vbak) = true →
      (p.vdd = false → p.vbak = false → exec (.powerOnReset dt vdd vbak) s =
        .next (ended s dt { c with pw := { p with vdd := vdd, vbak := vbak, lfCount := 0, lfLost := false } })) ∧
      ((p.vdd || p.vbak) = true → 64 ≤ p.lfCount → ∃ t : Chip, exec (.powerOnReset dt vdd vbak) s = .next (ended s dt t) ∧
        t.tick = 0 ∧ t.isN = c.isN ∧ t.pw.state = (if vdd then .boot else .backup) ∧ t.pw.step = .a1 ∧ t.pw.cold = true ∧
        t.mem.staged = [] ∧ t.mem.active = [] ∧ t.mem.live = [] ∧
        t.face.trimlock = false ∧ t.face.testlock = false ∧ t.wb.entries = [] ∧ t.img.rollctr = c.img.rollctr ∧
        (∀ m : Mid, (mst t m).claim = none ∧ (mst t m).scratch = 0) ∧
        (∀ i : ObjIx, (ownE t i).st = (if c.isN && lacksOnN (objOf i) then .absent else .free))))

/-- The 32.768 kHz oscillator and the monitors, R143, R144, R148, R181, R182, R184, R194, R508: LF_TICK on the oscillator moves TICK by 4882 or
4883 as FRAC carries, and the part does its work of that tick; in SLEEP before the switch it switches the net; LF_OSC_LOSS in a
running state and LF_OSC_RESTORED move S002; MOTION_EDGE counts; VBAK_CHECK, 160 000 000 ticks after the last one, counts S006 below its
limit; CALENDAR_END_HOLD holds the calendar and counts S026; ROLLBACK_PROGRAM_DONE leaves the counter at the last verified step, with S508 on
a failure; SEQUENCER_CHECK_FAIL raises S509. -/
def Obligations.ClocksAndMonitorsAct : Prop :=
  (∀ (s : State) (dt : Nat),
     let c := found s dt
     let p := c.pw
     (p.lfclk = true → p.state ≠ .off → p.lfLost = false → p.lfCount < 6 →
       exec (.lfTick dt) s = .next (ended s dt (settle (clearNow { c with
         tick := c.tick + (if 16 ≤ p.frac + 13 then 4883 else 4882),
         pw := { p with frac := if 16 ≤ p.frac + 13 then p.frac + 13 - 16 else p.frac + 13, lfCount := p.lfCount + 1 } })))) ∧
     (p.lfclk = false → p.state = .sleep → p.wakeAt = none → p.lfLost = false →
       exec (.lfTick dt) s = .next (ended s dt { c with pw := { p with lfclk := true, frac := 0, lfCount := 0 } })) ∧
     (∀ b : Bool, p.lfLost = false → serving c = true →
       exec (.lfOscLoss ⟨dt, b⟩) s = .next (ended s dt (levelN { c with pw := { p with lfLost := true } } 2 true))) ∧
     exec (.lfOscRestored dt) s = .next (ended s dt (levelN { c with pw := { p with lfLost := false } } 2 false)) ∧
     (p.motionArmed = true →
       ∃ t : Chip, exec (.motionEdge dt) s = .next (ended s dt t) ∧
         t.pw = { p with motionCount := min (p.motionCount + 1) 65535, motionMoved := true } ∧ t.trk = c.trk ∧ t.flt = c.flt) ∧
     (∀ b : Bool, vddUp c = true → (∀ t, p.vbakTick = some t → t + 160000000 ≤ c.tick) →
       let d : Chip := { c with pw := { p with vbakTick := some c.tick } }
       exec (.vbakCheck dt b) s = .next (ended s dt (if b then raiseR d (evN c 6) else d))) ∧
     (c.cal.endhold = false → calMax < calV c c.tick / 160000000 → p.state ≠ .off →
       exec (.calendarEndHold dt) s = .next (ended s dt (raiseR { c with cal := { c.cal with endhold := true } } (evN c 26))))) ∧
  (∀ (s : State) (dt n g : Nat),
     let c := found s dt
     (c.img.rollGoal = some g → g ≤ 64 →
       ∃ t : Chip, exec (.rollbackProgramDone dt n false) s = .next (ended s dt t) ∧
         t.img.rollctr = max c.img.rollctr g ∧ t.img.rollGoal = none ∧ t.img.slotA.st = c.img.slotA.st ∧ t = { c with img := t.img }) ∧
     (c.img.rollGoal = some g → g ≤ 64 → n ≤ g → c.img.rollctr ≤ n →
       ∃ t : Chip, exec (.rollbackProgramDone dt n true) s = .next (ended s dt t) ∧ t.img.rollctr = n ∧ t.img.rollGoal = none ∧
         evN c 508 ∈ t.raised) ∧
     (serving c = true → exec (.sequencerCheckFail dt n) s = .next (ended s dt (raiseR c (evAt c 509 7 5 0 n none)))))

/-- SLEEP and its wakes, R176 to R181 and Table 6-7: SLEEP_ENTRY at quiescence enters SLEEP with the link down; SLEEP_TIMEOUT with a long operation
ACTIVE abandons the request with REFUSE bit 1 and resumes what it had suspended; on the oscillator, at an edge after the switch, the first
enabled source is recorded by its bit; WAKE_SWITCH returns the net to SYSCLK, and 16 ticks later the part is in the state before with
WAKECAUSE; FRONT_ENDS_READY ends a RUN request. -/
def Obligations.SleepAndWake : Prop :=
  (∀ (s : State) (dt : Nat),
    let c := found s dt
    let p := c.pw
    let wake (b : Nat) : State := ended s dt { c with pw := { p with wake := some (2 ^ b), stepTick := c.tick, lfCount := 0 } }
    (p.sleepPending = true → serving c = true → (∀ e ∈ c.wb.entries, e.state ≠ .active) → c.wb.asks = [] →
      ∃ t : Chip, exec (.sleepEntry dt) s = .next (ended s dt t) ∧ t.pw.state = .sleep ∧ t.pw.sleepFrom = p.state ∧
        t.pw.sleepPending = false ∧ t.pw.reqstat = 2 ∧ t.pw.motionArmed = (p.motionArmed || (p.motionen && !c.isN)) ∧
        (∀ h : Fin 4, t.link.hops[h].st = .down) ∧ t.wb.entries.length = c.wb.entries.length) ∧
    (∀ e ∈ c.wb.entries, p.sleepPending = true → p.reqTick + 16000000 ≤ c.tick → e.state = .active → e.kind = .l →
      ∃ t : Chip, exec (.sleepTimeout dt) s = .next (ended s dt t) ∧
        t.pw = { p with sleepPending := false, reqstat := 3, refuse := 2 } ∧ t = { c with pw := t.pw, wb := t.wb } ∧
        ∀ x ∈ c.wb.entries, x.kind = .l → x.state = .suspended → x.cause = .sleep → { x with resumed := true } ∈ t.wb.entries) ∧
    (p.state = .sleep → p.lfclk = true → 1 ≤ p.lfCount → p.wake = none →
      (p.wakeen.testBit 0 = true → exec (.wakePin dt) s = .next (wake 0)) ∧
      (p.wakeen.testBit 1 = true → (liveW c 0x100).toNat ≤ c.tick → exec (.wakeTimer dt) s = .next (wake 1)) ∧
      (∀ (h : Fin 4) (levels : BitVec 4), p.wakeen.testBit 2 = true → linkAttention c h levels = true →
        exec (.wakeLink ⟨dt, h, levels⟩) s = .next (wake 2)) ∧
      (p.wakeen.testBit 3 = true → p.motionArmed = true → p.motionMoved = true → exec (.wakeMotion dt) s = .next (wake 3))) ∧
    (∀ w : Nat, p.state = .sleep → p.wake = some w → p.wakeAt = none → 1 ≤ p.lfCount →
      exec (.wakeSwitch dt) s = .next (ended s dt { c with pw := { p with
        lfclk := false, frac := 0, lfCount := 0, motionArmed := false, wakeAt := some (c.tick + 16) } })) ∧
    (p.runPending = true → p.state = .idle →
      exec (.frontEndsReady dt) s = .next (ended s dt { c with
        pw := { p with state := .run, runPending := false, reqstat := 2, refuse := 0 },
        exc := c.exc.map (fun x => { x with drvoff := false }) }))) ∧
  (∀ (c : Chip) (w t : Nat), c.pw.state = .sleep → c.pw.wakeAt = some t → t ≤ c.tick → c.pw.wake = some w → c.flt.held = [] →
     wakeDue c = true ∧ (wakeDone c).pw = { c.pw with
       state := c.pw.sleepFrom, wake := none, wakecause := w, wakeAt := none, serveTick := c.tick, serveHeld := false,
       wdCount := wdPeriod c.pw } ∧ (wakeDone c).mem = c.mem ∧ (wakeDone c).own = c.own)

/-! ### Generators, channels and encoder emulators (chapters 7 to 9) -/

/-- GENERATOR_READY (R203), GENERATOR_THERMAL and GENERATOR_LIMIT (R204, R205, Table 7-1), VEXC_MONITOR, in a running state: a soft start
ends READY with its amplitude 16 periods after its crossing; a driver that was not off below 140 °C only reports its temperature, from
150 to 169 °C folds back and counts S016 + g, from 170 °C stops at the next zero crossing; an eighth clipped period in a row counts
S016 + g, a sixteenth amplitude outside 5 % S020 + g; a period in tolerance clears both runs; VEXC low asserts S024. -/
def Obligations.GeneratorEventsAct : Prop :=
  ∀ (s : State) (dt : Nat) (g : Fin 4) (amp : Nat) (tc sens : Int),
    let c := found s dt
    let x := c.exc[g]
    let exc (f : Exc → Exc) : Chip := { c with exc := upd c.exc g f }
    let temp := (clampI 0 255 (tc + 50)).toNat
    let a := amp % 65536
    let tgt := excTarget c g
    serving c = true →
    (excEn (excCfg c g) = true → x.softstart = true → x.thermoff = false → x.zero + 16 * excPeriod (excCfg c g) ≤ c.tick →
      exec (.generatorReady dt g amp) s = .next (ended s dt { exc (fun x =>
        { x with ready := true, softstart := false, everReady := true, ampmeas := a, readyTick := c.tick }) with
        flt := { c.flt with resets := c.flt.resets.filter (fun r => r.1 ≠ .exc g) } })) ∧
    (x.thermoff = false →
      (tc < 140 → exec (.generatorThermal dt g tc) s = .next (ended s dt (exc (fun x => { x with temp := temp, foldback := false })))) ∧
      (150 ≤ tc → tc < 170 → x.foldback = false →
        exec (.generatorThermal dt g tc) s =
          .next (ended s dt (countB (exc (fun x => { x with temp := temp, foldback := true })) (16 + g.val)))) ∧
      (170 ≤ tc → x.foldback = true →
        exec (.generatorThermal dt g tc) s = .next (ended s dt (countB (exc (fun x =>
          { x with temp := temp, foldback := true, thermoff := true, ready := false, softstart := false,
                   stopAt := if excRunning x c.tick then some (nextZero x (excPeriod (excCfg c g)) c.tick) else none })) (16 + g.val))))) ∧
    (∀ clip : Bool, x.drvoff = true → exec (.generatorLimit dt g clip ⟨amp, sens⟩) s =
      .next (ended s dt (exc (fun x => { x with sens := clampS 16 sens, ampmeas := a })))) ∧
    (x.drvoff = false →
      (x.clipRun = 7 → x.ready = false →
        exec (.generatorLimit dt g true ⟨amp, sens⟩) s = .next (ended s dt (countB (exc (fun x =>
          { x with sens := clampS 16 sens, limit := true, ampmeas := a, clipRun := 0, badRun := 0 })) (16 + g.val)))) ∧
      (x.ready = true → x.badRun = 15 → 10000 * a < 95 * tgt ∨ 105 * tgt < 10000 * a →
        exec (.generatorLimit dt g false ⟨amp, sens⟩) s = .next (ended s dt (countB (exc (fun x =>
          { x with sens := clampS 16 sens, limit := false, ampmeas := a, clipRun := 0, badRun := 0 })) (20 + g.val)))) ∧
      (95 * tgt ≤ 10000 * a → 10000 * a ≤ 105 * tgt →
        exec (.generatorLimit dt g false ⟨amp, sens⟩) s = .next (ended s dt (exc (fun x =>
          { x with sens := clampS 16 sens, limit := false, ampmeas := a, clipRun := 0, badRun := 0 }))))) ∧
    (∀ low : Bool, exec (.vexcMonitor dt low) s = .next (ended s dt (levelN { c with pw := { c.pw with vexcLow := low } } 24 low)))

/-- PAIR_WINDOW (R212 to R214, R225), CARRIER_PERIOD_FIT (R215), SELFCAL_MEASUREMENT (R221, R222), PRESENCE_CHECK_START and
PRESENCE_CHECK_END (R232, R233), for a front end that runs, when each is due: the window's trimmed samples give the pair and the offsets of
the weighted fit, and the pair goes to the estimators; φc moves by one step of the filter within ±0.2 turn; every trim moves by at most
one LSB toward its measurement, a failed tone asserts S100 + 8n; a check runs at its instant for 192 000 ticks. -/
def Obligations.FrontEndEventsAct : Prop :=
  ∀ (s : State) (dt : Nat) (n : Fin 16),
    let c := found s dt
    let f := c.fe[n]
    let at_ := c.tick - 64
    let fe (g : Fe → Fe) : Chip := { c with fe := upd c.fe n g }
    let others (t : Chip) : Prop := t.trk = c.trk ∧ t.wb = c.wb ∧ ∀ m : Fin 16, m ≠ n → t.fe[m] = c.fe[m]
    feRunning c n = true →
    (∀ (q0 q1 q2 q3 : Quarter) (overS overC : Bool), onSat c n = false → 128 ≤ c.tick → windowDue f at_ = true →
      let rows := windowRows c n at_ (windowSamples q0 q1 q2 q3)
      ∃ (t : Chip) (p : Pair), exec (.pairWindow dt n q0 q1 q2 q3 overS overC) s = .next (ended s dt t) ∧ others t ∧
        t.fe[n].flight = (if c.trk[n].st = .disabled then
          f.flight.filter (fun q => decide (c.tick ≤ q.stamp + 320 + 400 * chHop c n)) else f.flight) ++ [p] ∧
        p.stamp = at_ ∧ p.s = t.fe[n].pairS ∧ p.c = t.fe[n].pairC ∧ p.w = windowWeight c n at_ (f.phi.getD 0 * 2 ^ 16) ∧
        t.fe[n].lastStamp = some at_ ∧
        (∀ a b : Int × Int, fitRef (fitRows c n rows false) = some a → fitRef (fitRows c n rows true) = some b →
          t.fe[n].offS = a.2 ∧ t.fe[n].offC = b.2 ∧
          (sensorAt f at_ = none → t.fe[n].pairS = a.1 ∧ t.fe[n].pairC = b.1) ∧
          (∀ q : Int × Int, sensorAt f at_ = some q → (t.fe[n].pairS, t.fe[n].pairC) = sensorFix q.1 q.2 a.1 b.1))) ∧
    (∀ err : Int, refReady c n = true → onSat c n = true ∨ 0 < f.quad.n →
      let rise := lastRise c.exc[feExc (fecfg c n)] (chPeriod c n) c.tick
      let old := f.phi.getD 0
      let e := if onSat c n then err * 2 ^ 16 else quadError f.quad
      f.fitRise < rise →
      (bit (fecfg c n) 60 = true ∨ lowSignal c n f.magnitude = true → exec (.carrierPeriodFit dt n err) s =
        .next (ended s dt (fe (fun f => { f with fitRise := rise, quad := quadZero, phErr := old + e })))) ∧
      (bit (fecfg c n) 60 = false → lowSignal c n f.magnitude = false →
        ∃ (t : Chip) (v : Int), exec (.carrierPeriodFit dt n err) s = .next (ended s dt t) ∧ others t ∧ t.fe[n].phi = some v ∧
          v = clampI (-phaseLimit) phaseLimit (old + rdiv (e * phaseStep) (2 ^ 32)) ∧ -phaseLimit ≤ v ∧ v ≤ phaseLimit ∧
          (t.fe[n].phaselim = true ↔ v = phaseLimit ∨ v = -phaseLimit) ∧ t.fe[n].phErr = old + e ∧ t.fe[n].fitRise = rise)) ∧
    (∀ (m : Trims) (toneS toneC : Int) (t0 : Nat) (q : Trims × Int × Int), selfCalOn c n = true → f.calFrom = some t0 →
        t0 + 1024 * chPeriod c n ≤ c.tick → (if onSat c n then some (m, toneS, toneC) else toneResult f.tone) = some q →
      (toneBad q.2.1 = true ∨ toneBad q.2.2 = true →
        exec (.selfcalMeasurement dt n m (toneS, toneC)) s = .next (ended s dt (levelB (fe (fun f =>
          { f with calFrom := some c.tick, tone := toneZero, calrefbad := true, calBad := true, fevalid := false, quiet := 0 }))
          (100 + 8 * n.val) true))) ∧
      (toneBad q.2.1 = false → toneBad q.2.2 = false →
        ∃ t : Chip, exec (.selfcalMeasurement dt n m (toneS, toneC)) s = .next (ended s dt t) ∧ others t ∧ t.fe[n].calrefbad = false ∧
          t.fe[n].trims = stepTrims f.trims (limitTrims q.1) ∧ (t.fe[n].callimit = true ↔ atLimit t.fe[n].trims = true) ∧
          trimChange t.fe[n].trims f.trims ≤ 1)) ∧
    (c.tick % 16000000 = 1000000 * n.val → bit (fecfg c n) 62 = false → f.discrun = false → f.presrun = false → serving c = true →
        onSat c n = false ∨ c.link.sats[feSatk (fecfg c n)].admitted = true →
      exec (.presenceCheckStart dt n) s = .next (ended s dt (fe (fun f => { f with presrun := true, presStart := c.tick })))) ∧
    (∀ dvs dvc : Int, serving c = true → f.presrun = true → f.presStart + 192000 ≤ c.tick →
      ∃ t : Chip, exec (.presenceCheckEnd dt n dvs dvc) s = .next (ended s dt t) ∧ others t ∧ t.fe[n].presrun = false ∧
        t.fe[n].prescount = (f.prescount + 1) % 65536 ∧
        t.fe[n].presclass = (classify c n (resOf dvs 10) (resOf dvc 10) none (f.magnitude * 3600) (refAmp c n * 2 ^ 31) none).1 ∧
        t.fe[n].discres = f.discres)

/-- TRACKING_UPDATE (R243, R245, R247, R252), when the oldest pair's update is due and no earlier command's state governs it: in RAW the
pair enters the ring at COUNT modulo 128; in HOLD without SIGOK only the arctangent word follows; in LOCKED without a loss of lock it moves
angle, speed and acceleration by the loop of R245 and the output is VALID at the pair's instant. BANDWIDTH_EVALUATION (R250) clears the
window after 4096 updates, and with 1024 qualifying pairs moves the step down by one or up to the best one. -/
def Obligations.TrackingEventsAct : Prop :=
  ∀ (s : State) (dt : Nat) (n : Fin 16),
    let c := found s dt
    let x := c.trk[n]
    let others (t : Chip) : Prop := t.wb = c.wb ∧ ∀ m : Fin 16, m ≠ n → t.trk[m] = c.trk[m] ∧ t.fe[m] = c.fe[m]
    (∀ (p : Pair) (rest : List Pair) (d : Nat), feRunning c n = true → c.fe[n].flight = p :: rest →
      updateDue c n p = (d, none) → d ≤ c.tick → updateSpaced x c.tick = true →
      (x.st = .raw → x.oneshot = false →
        ∃ t : Chip, exec (.trackingUpdate dt n) s = .next (ended s dt t) ∧ others t ∧ t.fe[n] = { c.fe[n] with flight := rest } ∧
          t.trk[n] = { x with
            updTick := some c.tick, rawCount := (x.rawCount + 1) % 2 ^ 32, rawTick := p.stamp, ring := t.trk[n].ring } ∧
          (storeWf x.ring = true →
            storeGet t.trk[n].ring (0x1000 + 16 * (x.rawCount % 128)) = pack [(32, 32, intBits 32 p.s), (0, 32, intBits 32 p.c)])) ∧
      (x.st = .hold → c.fe[n].sigok = false →
        exec (.trackingUpdate dt n) s = .next (ended s dt { c with
          fe := upd c.fe n (fun f => { f with flight := rest }),
          trk := upd c.trk n (fun x =>
            { x with updTick := some c.tick, atanF := (rdiv (atanEst p.s p.c) (2 ^ 16)).toNat % 2 ^ 32 }) })) ∧
      (x.st = .locked → x.valid = true → c.fe[n].sigok = true →
        let b := (trkBand c n).1
        let e := errorOf p x.phi
        let v := x.v + rdiv (kiK * b * b * e) (2 ^ 88 * 1250000)
        let th := x.phi + rdiv (kpK * b * e) (2 ^ 80 * 1250000)
        8 * e.natAbs ≤ 2 ^ 64 →
        ∃ t : Chip, exec (.trackingUpdate dt n) s = .next (ended s dt t) ∧ others t ∧ t.fe[n] = { c.fe[n] with flight := rest } ∧
          t.trk[n].st = .locked ∧ t.trk[n].valid = true ∧ t.trk[n].theta = th ∧ t.trk[n].v = v ∧
          t.trk[n].phi = th + rdiv (v * 2 ^ 8) 1250000 ∧ t.trk[n].outtick = p.stamp ∧ t.trk[n].bw = b ∧
          t.trk[n].updcount = (x.updcount + 1) % 65536 ∧ t.trk[n].elecang = signed 64 (intBits 64 (rdiv th (2 ^ 16))))) ∧
    (x.mode = 0 → x.st = .locked → 4096 ≤ x.winN → x.winQ < 1024 →
      exec (.bandwidthEvaluation dt n) s = .next (ended s dt { c with trk := upd c.trk n (fun x =>
        { x with winN := 0, winQ := 0, winSum := 0, winSq := 0, winPk := 0 }) })) ∧
    (x.mode = 0 → x.st = .locked → 4096 ≤ x.winN → 1024 ≤ x.winQ →
      let now := (trkBand c n).2
      let best := bestStep (jminOf (trkauto c n)) (jmaxOf (trkauto c n))
        ((x.winQ * x.winSq - x.winSum * x.winSum) / ((x.winQ * x.winQ : Nat) : Int)).toNat x.winPk
      ∃ t : Chip, exec (.bandwidthEvaluation dt n) s = .next (ended s dt t) ∧ others t ∧
        t.trk[n] = { x with winN := 0, winQ := 0, winSum := 0, winSq := 0, winPk := 0, j := t.trk[n].j, policy := t.trk[n].policy } ∧
        (best < now → t.trk[n].j = now - 1) ∧ (now ≤ best → t.trk[n].j = best))

/-- ENCODER_STEP, R267, R270, R271 and R276: an emulator in INIT with a VALID source starts RUNNING at the source's position; one that is
RUNNING takes its new target and moves its count by one toward it, or not at all while the spacing of edges forbids it; one that is
RUNNING under BENCHHOLD takes its new target and keeps its count and its levels. -/
def Obligations.EncoderStepsTowardItsTarget : Prop :=
  ∀ (s : State) (dt : Nat) (e : Fin 8) (o : Int × Int × Nat),
    let c := found s dt
    let x := c.enc[e]
    let tgt := encTarget c e o
    let others (t : Chip) : Prop := t.trk = c.trk ∧ t.wb = c.wb ∧ ∀ d : Fin 8, d ≠ e → t.enc[d] = c.enc[d]
    serving c = true → inReset c (.obj (ixEnc e)) = false → encOutput c e = some o →
    (x.st = .init → x.benchhold = false →
      let n := encPos c e o 0
      exec (.encoderStep dt e) s = .next (ended s dt { c with enc := upd c.enc e (fun x =>
        { x with st := .running, tgt := n, cnt := n, lastedge := c.tick, resume := false, leva := levelA n, levb := levelBq n,
                 levz := levelZ (enccfg c e) n }) })) ∧
    (x.st = .running → x.resume = false → x.benchhold = false →
      ∃ t : Chip, exec (.encoderStep dt e) s = .next (ended s dt t) ∧ others t ∧ t.enc[e].tgt = tgt ∧
        (tgt = x.cnt ∨ c.tick < x.lastedge + encMinspace (enccfg c e) → t.enc[e].cnt = x.cnt ∧ t.enc[e].lastedge = x.lastedge) ∧
        (x.lastedge + encMinspace (enccfg c e) ≤ c.tick →
          (x.cnt < tgt → t.enc[e].cnt = x.cnt + 1 ∧ t.enc[e].dir = false ∧ t.enc[e].lastedge = c.tick) ∧
          (tgt < x.cnt → t.enc[e].cnt = x.cnt - 1 ∧ t.enc[e].dir = true ∧ t.enc[e].lastedge = c.tick))) ∧
    (x.st = .running → x.benchhold = true →
      ∃ t : Chip, exec (.encoderStep dt e) s = .next (ended s dt t) ∧ others t ∧
        t.enc[e] = { x with tgt := tgt, lagmax := t.enc[e].lagmax })

/-! ### The link and the satellites (chapter 10) -/

/-- A hop's way to UP, R286, R294 to R296: HOP_TRAIN_START in the tick that Table 10-4 gives, HOP_CLOCK_LOCK within 50 µs, TRAINING_COMPLETE
16 000 ticks later with a delay of at most 64 ticks, HOP_TRAIN_FAIL without a lock and IDENT_TIMEOUT (both S261), and IDENT_RECORD at the
end of the 128 frames of a revision that the running image does not name (QUARANTINED, S259) or of an unbound device (OFFERED, EV21 to CL0)
or of a bound one; each step changes its own hop, and IDENT_RECORD lets the next one start in the next tick. -/
def Obligations.HopsComeUp : Prop :=
  ∀ (s : State) (dt : Nat) (h : Fin 4),
    let c := found s dt
    let x := c.link.hops[h]
    let hop (f : Hop → Hop) : Chip := { c with link := { c.link with hops := upd c.link.hops h f } }
    (serving c = true → x.st = .down → (h = 0 ∨ c.link.hops[h - 1].st = .up) → x.kick = some c.tick ∨ c.tick % 32000 = 0 →
      exec (.hopTrainStart dt h) s = .next (ended s dt (hop (fun x =>
        { x with st := .train, kick := none, stamp := c.tick, locked := false })))) ∧
    (x.st = .train → x.locked = false → x.satLow = false → c.tick ≤ x.stamp + 8000 →
      exec (.hopClockLock dt h) s = .next (ended s dt (hop (fun x => { x with locked := true, lockTick := c.tick })))) ∧
    (∀ d : Nat, x.st = .train → x.locked = true → x.lockTick + 16000 = c.tick → d ≤ 64 →
      exec (.trainingComplete dt h d) s = .next (ended s dt (hop (fun x =>
        { x with st := .ident, stamp := c.tick, delay := d, dAcc := delayBelow c h + d, long := false, satSafe := x.satLow,
                 satBad := 0, satHopok := !x.satLow })))) ∧
    (∀ d : Nat, x.st = .train → x.locked = true → x.lockTick + 16000 = c.tick → 64 < d →
      exec (.hopTrainFail dt h (.delay d)) s =
        .next (ended s dt (raiseR (hop (fun x => hopDown true x.satLow none)) (evN c 261)))) ∧
    (x.st = .train → x.locked = false → c.tick = x.stamp + 8000 →
      exec (.hopTrainFail dt h .noLock) s = .next (ended s dt (raiseR (hop (fun x => hopDown x.long x.satLow none)) (evN c 261)))) ∧
    (x.st = .train → x.locked = true → c.tick = x.lockTick + 12800 →
      exec (.hopTrainFail dt h .align) s = .next (ended s dt (raiseR (hop (fun x => hopDown x.long x.satLow none)) (evN c 261)))) ∧
    (x.st = .ident → x.stamp + 25600 ≤ c.tick →
      exec (.identTimeout dt h) s = .next (ended s dt (raiseR (hop (fun x => hopDown x.long x.satLow none)) (evN c 261)))) ∧
    (∀ (serial : Word) (part rev : Nat), x.st = .ident → x.stamp + 25600 = c.tick →
      ∃ t : Chip, exec (.identRecord dt h serial part rev) s = .next (ended s dt t) ∧
        t.link.hops[h].st = .up ∧ t.link.hops[h].serial = serial ∧ t.link.hops[h].part = part % 65536 ∧
        t.link.hops[h].rev = rev % 256 ∧ t.link.sats = c.link.sats ∧
        (∀ g : Fin 4, g.val = h.val + 1 → t.link.hops[g] = { c.link.hops[g] with kick := some (c.tick + 1) }) ∧
        (∀ g : Fin 4, g ≠ h → g.val ≠ h.val + 1 → t.link.hops[g] = c.link.hops[g]) ∧
        (inSatset c (rev % 256) = false → t.link.hops[h].dstate = .quarantined ∧ evN c 259 ∈ t.raised) ∧
        (inSatset c (rev % 256) = true → boundTo c serial = none → t.link.hops[h].dstate = .offered ∧
          t.flt.evtstat[(0 : Client)] = c.flt.evtstat[(0 : Client)] ||| (1#64 <<< 21)) ∧
        (∀ k : Fin 4, inSatset c (rev % 256) = true → boundTo c serial = some k →
          t.link.hops[h].dstate = .admitting ∧ t.link.hops[h].pos = k))

/-- Frames, R287, R289 to R291, R297, R298, R311: at a frame boundary, once for each frame, UPSTREAM_FRAME of the frame that the satellites
formed, as the cable left it, counts a bad one in CRCERR with S257, and a good one ends the run of bad frames and keeps a hop with its HOPOK
bit up; DOWNSTREAM_FRAME at a satellite ends its run of bad frames or counts, and the fourth puts it in its safe state, as do
SATELLITE_SAFE_STATE and nRESET (SATELLITE_NRESET); EXTRA_DEVICE counts S258. In any other tick no frame has come. -/
def Obligations.FramesAreReceived : Prop :=
  ∀ (s : State) (dt : Nat) (h : Fin 4) (f err : BitVec 200) (up : BitVec 4),
    let c := found s dt
    let x := c.link.hops[h]
    let hop (f : Hop → Hop) : Chip := { c with link := { c.link with hops := upd c.link.hops h f } }
    let safe (x : Hop) : Hop := { x with
      satSafe := true, satSet := false, satDrv := false, satBuf := false, satHopok := false, slots := Vector.replicate 2 slotOff, due := [],
      msgType := 0, msgLen := 0, msgGot := [], cfg := 0, trims := Vector.replicate 4 0, meas := 0, phase := 0, ackOut := [] }
    (c.tick % 200 ≠ 0 → exec (.upstreamFrame dt ⟨f, up, err⟩) s = .next (ended s dt c) ∧
      exec (.downstreamFrame dt h err) s = .next (ended s dt c)) ∧
    (serving c = true → c.link.hops[(0 : Fin 4)].st = .up → c.tick % 200 = 0 → c.link.lastUp ≠ some (frameNo c) →
      let g := buildUp c f up ^^^ err
      (c.link.hops[(0 : Fin 4)].satSafe = true ∨ frameGood g 0xE2 = false → c.link.badRun < 3 →
        ∃ t : Chip, exec (.upstreamFrame dt ⟨f, up, err⟩) s = .next (ended s dt t) ∧ t.link.crcerr = (c.link.crcerr + 1) % 65536 ∧
          t.link.badRun = c.link.badRun + 1 ∧ t.link.sats = c.link.sats ∧ evN c 257 ∈ t.raised ∧ t.link.lastUp = some (frameNo c) ∧
          ∀ j : Fin 4, t.link.hops[j] = if j = nibHop (frameNo c) then { c.link.hops[j] with ackOut := [], nibs := [] }
            else c.link.hops[j]) ∧
      (c.link.hops[(0 : Fin 4)].satSafe = false → frameGood g 0xE2 = true → g.toNat.testBit 8 = true →
        ∃ t : Chip, exec (.upstreamFrame dt ⟨f, up, err⟩) s = .next (ended s dt t) ∧ t.link.crcerr = c.link.crcerr ∧ t.link.badRun = 0 ∧
          t.link.hops[(0 : Fin 4)].st = .up ∧ t.link.hops[(0 : Fin 4)].okClear = 0 ∧ t.link.lastUp = some (frameNo c))) ∧
    (x.st = .up → c.tick % 200 = 0 → x.lastDown ≠ some (downNo c h) → (∀ g : Fin 4, g ≤ h → c.link.hops[g].satSafe = false) →
      let m := downNo c h
      let g := buildDown c m ^^^ err
      let taken (x : Hop) : Hop := { x with
        lastDown := some m, slots := Vector.ofFn (fun k => slotNow x k c.tick), due := x.due.filter (fun q => decide (c.tick < q.1)) }
      (frameGood g 0xB8 = true →
        (∃ t : Chip, exec (.downstreamFrame dt h err) s = .next (ended s dt t) ∧ t.wb = c.wb ∧ t.trk = c.trk ∧ t.enc = c.enc ∧
          t.link.hops[h].satBad = 0 ∧ t.link.hops[h].satHopok = true ∧ t.link.hops[h].lastDown = some m ∧
          ∀ j : Fin 4, j ≠ h → t.link.hops[j] = c.link.hops[j]) ∧
        (x.dstate ≠ .admitted → frameBits g 8 16 / 2 ^ 14 % 4 ≠ h.val →
          exec (.downstreamFrame dt h err) s = .next (ended s dt (hop (fun x => { taken x with satBad := 0, satHopok := true }))))) ∧
      (frameGood g 0xB8 = false →
        (∃ t : Chip, exec (.downstreamFrame dt h err) s = .next (ended s dt t) ∧ t.wb = c.wb ∧ t.trk = c.trk ∧
          t.link.hops[h].satBad = x.satBad + 1 ∧ t.link.hops[h].satHopok = false ∧
          t.link.hops[h].satSafe = decide (3 ≤ x.satBad) ∧ ∀ j : Fin 4, j ≠ h → t.link.hops[j] = c.link.hops[j]) ∧
        (x.dstate ≠ .admitted → x.satBad < 3 → exec (.downstreamFrame dt h err) s =
          .next (ended s dt (hop (fun x => { taken x with satBad := x.satBad + 1, satHopok := false })))) ∧
        (x.dstate ≠ .admitted → 3 ≤ x.satBad → exec (.downstreamFrame dt h err) s =
          .next (ended s dt (hop (fun x => safe { taken x with satBad := x.satBad + 1 })))))) ∧
    (∀ b : Bool, b = true ∨ 4 ≤ x.satBad → exec (.satelliteSafeState dt h b) s = .next (ended s dt (hop safe))) ∧
    exec (.satelliteNreset dt ⟨h, true⟩) s = .next (ended s dt (hop (fun x => safe { x with satLow := true }))) ∧
    exec (.satelliteNreset dt ⟨h, false⟩) s = .next (ended s dt (hop (fun x => { x with satLow := false }))) ∧
    (serving c = true → c.link.hops[(3 : Fin 4)].st = .up → c.link.hops[(3 : Fin 4)].satSafe = false →
      exec (.extraDevice dt) s = .next (ended s dt (raiseR { c with link := { c.link with extra := true } } (evN c 258))))

/-- Messages and admission, R93, R293, R300, R303, R306, R313: a complete acknowledgement in a hop's nibbles ends the waiting record of the
type that it names, and one of ZERO ends UNSCRUBBED; MESSAGE_REPEAT sends again every record that has waited for 16 frames;
ADMISSION_COMPLETE, 16 superframes after the admission began, makes the device present at its position; BUFFER_READY makes the buffer ready
after 16 carrier periods; a held CALIBRATE is retired MISSED 0x0020 at the end of its hold. -/
def Obligations.SatellitesAreAdmitted : Prop :=
  ∀ (s : State) (dt : Nat) (h k : Fin 4),
    let c := found s dt
    let x := c.link.hops[h]
    let hop (f : Hop → Hop) : Chip := { c with link := { c.link with hops := upd c.link.hops h f } }
    (∀ ty : Fin 16, x.st = .up → serving c = true → recordAt x 7 = true →
      let n := (x.nibs.drop 2).headD 0
      let d := hop (fun x => { x with nibs := [], wait := x.wait.eraseP (fun w => w.1 = n) })
      (n ≠ 1 → exec (.messageRecord dt h (.ack ty)) s = .next (ended s dt d)) ∧
      (n = 1 → x.dstate = .admitting ∨ x.dstate = .admitted → (ownE c (ixSat x.pos)).unscrubbed = true →
        exec (.messageRecord dt h (.ack ty)) s = .next (ended s dt
          { d with own := { c.own with entries := upd c.own.entries (ixSat x.pos) (fun o => { o with unscrubbed := false }) } }))) ∧
    (exec (.messageRepeat dt h) s = .next (ended s dt
      ((x.wait.filter (fun w => decide (w.2.1 + 3200 ≤ c.tick))).foldl (fun c w => sendRecord c h w.1 w.2.2 c.tick)
        (hop (fun x => { x with wait := x.wait.filter (fun w => decide (c.tick < w.2.1 + 3200)) }))))) ∧
    (x.st = .up → x.dstate = .admitting → x.satSafe = false → x.pos = k → x.admTick + 12800 ≤ c.tick →
      ∃ t : Chip, exec (.admissionComplete dt h) s = .next (ended s dt t) ∧ t.link.hops[h].dstate = .admitted ∧
        t.link.hops[h].satDrv = true ∧ t.link.sats[k].hop = some h ∧ t.link.sats[k].admitted = true ∧
        t.link.sats[k].admitcount = (c.link.sats[k].admitcount + 1) % 65536 ∧ t.link.sats[k].admittick = c.tick ∧
        t.link.sats[k].drvfault = 0 ∧ t.link.sats[k].drvoff = 0 ∧ t.link.sats[k].bound = c.link.sats[k].bound ∧
        (∀ j : Fin 4, j ≠ k → t.link.sats[j] = c.link.sats[j]) ∧ ownE t (ixSat k) = { ownE c (ixSat k) with unscrubbed := false } ∧
        (∀ o : Client, ownerOf c (ixSat k) = some o → t.flt.evtstat[o] = c.flt.evtstat[o] ||| (1#64 <<< 22))) ∧
    (∀ amp : Nat, c.link.sats[k].bufsoft = true → c.link.sats[k].bufTick + 16 * excPeriod (excCfg c (satBufExc (satcfg c k))) ≤ c.tick →
      serving c = true →
      ∃ t : Chip, exec (.bufferReady dt k amp) s = .next (ended s dt t) ∧
        t.link = { c.link with sats := upd c.link.sats k (fun y =>
          { y with bufready := true, bufsoft := false, everReady := true, ampmeas := amp % 65536, readyTick := c.tick }) } ∧
        t = { c with link := t.link, wb := t.wb } ∧ t.wb.entries.length = c.wb.entries.length) ∧
    (∀ (cl : Client) (n : Nat) (e : Entry), findEntry c ⟨cl, n⟩ = some e → e.state = .suspended → e.cause = .linkhold → e.resumed = false →
      e.holdTick + e.holdLen ≤ c.tick → opcodeOf e = 0x11 →
      exec (.holdExpiry dt cl n) s = .next (ended s dt (retire c ⟨cl, n⟩ 4 0x0020 0)))

/-! ### The wheels (chapter 11) -/

/-- WHEEL_EDGE of a Hall input, or of a VR input whose comparator is armed (R316), in SEEK without an edge before (R317, R321), and one that is
noise (R321); WATCHED_EDGE of a wheel that does not run (R332), WHEEL_STALL (R318), WHEEL_INPUT_FAULT (R316) and WHEEL_STATE_MISMATCH
(R342): an edge counts with its stamp, noise only counts in REJECTS and S291 + 8w, the Sett entry of a watched wheel becomes moved, a stalled
wheel goes from SYNCED to STOPPED with EV25 to its owner and otherwise seeks, the monitor's decision and the mismatch are held. On the
FY6416-N none of them does anything (R2). -/
def Obligations.WheelEventsAct : Prop :=
  ∀ (s : State) (dt : Nat) (w : Fin 4) (lag : Fin 3) (opp pk : Nat),
    let c := found s dt
    let x := c.wh[w]
    let stamp := c.tick - (5 + whFilt (whcfg c w) + lag.val)
    let vr : Bool := whInput (whcfg c w) = 2
    let others (t : Chip) : Prop := ∀ v : Fin 4, v ≠ w → t.wh[v] = c.wh[v]
    serving c = true →
    (c.isN = true → x.jumpNow = none → exec (.wheelEdge dt w lag opp pk) s = .next (ended s dt c) ∧
      ∀ b : Bool, exec (.wheelInputFault dt w b) s = .next (ended s dt c) ∧ exec (.wheelStateMismatch dt w) s = .next (ended s dt c)) ∧
    (c.isN = false → c.pw.lfclk = false → inTransit c (ixWh w) = false → whInput (whcfg c w) = 1 ∨ (vr = true ∧ vrArmed c w opp = true) →
      (inReset c (.obj (ixWh w)) = false → x.st = .seek → x.last = none → whDirmode (whcfg c w) = 0 →
        ∃ t : Chip, exec (.wheelEdge dt w lag opp pk) s = .next (ended s dt t) ∧ others t ∧ t.wh[w].last = some stamp ∧
          t.wh[w].edges = (x.edges + 1) % 4294967296 ∧ t.wh[w].edgeTick = stamp ∧ t.wh[w].dir = false ∧ t.wh[w].stall = false ∧
          t.wh[w].slips = x.slips ∧ t.wh[w].rejects = x.rejects) ∧
      (∀ l : Nat, inReset c (.obj (ixWh w)) = false → x.st ≠ .disabled → x.last = some l → whDirmode (whcfg c w) = 0 → x.dir = false →
          isNoise c w false (max 1 (stamp - l)) = true → x.jumpNow = none →
        exec (.wheelEdge dt w lag opp pk) s = .next (ended s dt (countB { c with wh := upd c.wh w (fun x =>
          { x with peak := if vr then some pk else x.peak, rejects := (x.rejects + 1) % 4294967296 }) } (291 + 8 * w.val)))) ∧
      (x.st = .disabled → x.sett.stopped = true →
        ∃ t : Chip, exec (.watchedEdge dt w lag opp pk) s = .next (ended s dt t) ∧
          t.wh[w] = { x with
            peak := if vr then some pk else x.peak, jumpNow := none,
            sett := { x.sett with moved := true, movecount := min (x.sett.movecount + 1) 65535 } } ∧
          (∀ v : Fin 4, v ≠ w → t.wh[v] = c.wh[v] ∨ t.wh[v] = { c.wh[v] with sett := { c.wh[v].sett with moved := true } }) ∧
          t.wb = c.wb ∧ t.flt = c.flt)) ∧
    (vr = true → vrArmed c w opp = false → x.jumpNow = none → exec (.wheelEdge dt w lag opp pk) s = .next (ended s dt c)) ∧
    (inReset c (.obj (ixWh w)) = false → stallDue c w = true →
      (x.st = .synced →
        ∃ t : Chip, exec (.wheelStall dt w) s = .next (ended s dt t) ∧ others t ∧ t.wh[w].st = .stopped ∧ t.wh[w].stall = true ∧
          t.wh[w].sett = { x.settNext.getD x.sett with stopped := true } ∧ t.wh[w].last = none ∧
          t.flt.evtstat[eventClient c (ixWh w)] = c.flt.evtstat[eventClient c (ixWh w)] ||| (1#64 <<< 25)) ∧
      (x.st = .seek ∨ x.st = .confirm →
        ∃ t : Chip, exec (.wheelStall dt w) s = .next (ended s dt t) ∧ others t ∧ t.wh[w].st = .seek ∧ t.wh[w].stall = true ∧
          t.wh[w].last = none ∧ t.flt = c.flt)) ∧
    (c.isN = false →
      (∀ b : Bool, exec (.wheelInputFault dt w b) s = .next (ended s dt { c with wh := upd c.wh w (fun x => { x with inBad := b }) })) ∧
      exec (.wheelStateMismatch dt w) s = .next (ended s dt { c with wh := upd c.wh w (fun x => { x with mismatch := true }) }))

/-! ### The Hopper (chapter 12) -/

/-- EVENT_START (R351, R124), EVENT_END (R352), BANK_LEAD_START (R354) and SERIALIZE_TIMEOUT (R355): the due head of an output outside any
bank starts, its ball goes high, with STARTED and its result word; a TIME event ends DONE after its length, or after MAXON with 0x3003, with a
record in the retire ring, and its ball is low; a bank follows its members; a held start that has waited for SERMAX is retired OVERLAP
0x300E. -/
def Obligations.HopperEventsRun : Prop :=
  ∀ (s : State) (dt : Nat) (o : Fin 24) (b : Fin 8),
    let c := found s dt
    let x := c.outs[o]
    let rest (t : Chip) : Prop := ∀ p : Fin 24, p ≠ o →
      t.outs[p].run = c.outs[p].run ∧ t.outs[p].q = c.outs[p].q ∧ t.outs[p].ring = c.outs[p].ring
    (∀ (e : HEv) (l : List HEv) (d : Nat), inReset c (.obj (ixOut o)) = false → hopLive c = true → x.q = e :: l → e.deadline = some d →
        d ≤ c.tick → e.notBefore ≤ c.tick → e.gated = false → e.held = false → e.jumped = false → outBanken (outcfg c o) = false →
        x.run = none → x.trip = false → baseProv c o = false →
      ∃ (t : Chip) (r : HRun), exec (.eventStart dt o) s = .next (ended s dt t) ∧ rest t ∧
        t.outs[o].run = some r ∧ r.key = e.key ∧ r.start = e.start ∧ r.cmdc = e.cmdc ∧ r.tick = c.tick ∧ r.det = 0 ∧
        t.outs[o].q.map (·.key) = (x.q.filter (fun y => y.key ≠ e.key)).map (·.key) ∧ t.outs[o].level = true ∧
        (x.level = false → t.outs[o].chg = c.tick) ∧ t.outs[o].fired = (x.fired + 1) % 65536 ∧
        t.outs[o].trig = (if bit e.cmdc 59 then x.trig + 1 else x.trig) ∧
        t.wb = (updEntry c e.key (fun y =>
          { y with started := true, result := pack [(32, 32, c.tick), (16, 16, min (c.tick - d) 65535)] })).wb) ∧
    (∀ r : HRun, x.run = some r → evAngle r.cmdc = false →
      let ends (d : Nat) : Prop := ∃ t : Chip, exec (.eventEnd dt o) s = .next (ended s dt t) ∧ rest t ∧ t.wb = c.wb ∧
        t.outs[o].run = none ∧ t.outs[o].level = false ∧ t.outs[o].q = x.q ∧
        t.outs[o].trig = (if bit r.cmdc 58 then x.trig + 1 else x.trig) ∧
        t.outs[o].ring = x.ring ++ [{ key := r.key, status := 1, detail := if r.lost then 0x3002 else d, tick := c.tick, recovered := false }]
      (r.tick + fld r.cmdc 31 0 ≤ c.tick → ends r.det) ∧
      (c.tick < r.tick + fld r.cmdc 31 0 → r.tick + outMaxon (outcfg c o) ≤ c.tick → ends 0x3003)) ∧
    (c.banks[b].level ≠ bankHigh c b →
      exec (.bankLeadStart dt b) s = .next (ended s dt { c with banks := upd c.banks b (fun y =>
        { y with level := bankHigh c b, chg := c.tick }) })) ∧
    (c.banks[b].level = bankHigh c b → exec (.bankLeadStart dt b) s = .next (ended s dt c)) ∧
    (∀ (e : HEv) (l : List HEv), x.q = e :: l → e.held = true →
        e.deadline.getD 0 + hsbSermax (hsbcfg c (outBank (outcfg c o))) ≤ c.tick →
      ∃ t : Chip, exec (.serializeTimeout dt o) s = .next (ended s dt t) ∧ rest t ∧ t.wb = c.wb ∧ t.outs[o].run = x.run ∧
        t.outs[o].q = x.q.filter (fun y => y.key ≠ e.key) ∧ t.outs[o].overlap = (x.overlap + 1) % 65536 ∧
        t.outs[o].ring = x.ring ++ [{ key := e.key, status := 6, detail := 0x300E, tick := c.tick, recovered := false }])

/-- READBACK_TRIP and READBACK_AGREE (R356 to R358) and SCHEDULER_MISMATCH (R369): a supervised ball that disagrees trips its output or bank,
raises its source and ends the running events FAULTED; the pin of a tripped one moves its condition; a mismatch disables the output or bank,
ends its running events, and an output's queue is empty. On the FY6416-N a mismatch does nothing (R497). -/
def Obligations.HopperChecksAct : Prop :=
  ∀ (s : State) (dt : Nat) (o : Fin 24) (b : Fin 8),
    let c := found s dt
    let x := c.outs[o]
    let y := c.banks[b]
    let same (t : Chip) (p : Fin 24) : Prop :=
      t.outs[p].run = c.outs[p].run ∧ t.outs[p].q = c.outs[p].q ∧ t.outs[p].ring = c.outs[p].ring ∧ t.outs[p].trip = c.outs[p].trip
    let outRb (bad : Bool) : Chip := levelB { c with outs := upd c.outs o (fun x => { x with rbBad := bad }) } (320 + 3 * o.val) bad
    let bankRb (bad : Bool) : Chip := levelB { c with banks := upd c.banks b (fun x => { x with rbBad := bad }) } (392 + 3 * b.val) bad
    (supervised c (ixOut o) x.trip x.chg (objBase (.out o)) = true →
      ∃ t : Chip, exec (.readbackTrip dt (.out o)) s = .next (ended s dt t) ∧ t.outs[o].trip = true ∧ t.outs[o].level = false ∧
        t.outs[o].trips = (x.trips + 1) % 65536 ∧ t.outs[o].run = none ∧ t.outs[o].q = x.q ∧ t.flt.srcs[srcN (320 + 3 * o.val)].level = true ∧
        (∀ r : HRun, x.run = some r → t.outs[o].ring =
          x.ring ++ [{ key := r.key, status := 5, detail := 0x3010, tick := c.tick, recovered := false }]) ∧
        (∀ p : Fin 24, p ≠ o → same t p) ∧ t.wb = c.wb) ∧
    (supervised c (ixHsb b) y.trip y.chg (objBase (.hsb b)) = true →
      ∃ t : Chip, exec (.readbackTrip dt (.hsb b)) s = .next (ended s dt t) ∧ t.banks[b].trip = true ∧
        t.banks[b].trips = (y.trips + 1) % 65536 ∧ t.flt.srcs[srcN (392 + 3 * b.val)].level = true ∧
        (∀ p : Fin 24, p ∈ members c b → t.outs[p].run = none ∧ t.outs[p].q = c.outs[p].q) ∧
        (∀ p : Fin 24, p ∉ members c b → same t p) ∧ t.wb = c.wb) ∧
    (x.trip = true → exec (.readbackAgree dt (.out o)) s = .next (ended s dt (outRb false)) ∧
      (serving c = true → (ownE c (ixOut o)).st = .owned → exec (.readbackTrip dt (.out o)) s = .next (ended s dt (outRb true)))) ∧
    (y.trip = true → exec (.readbackAgree dt (.hsb b)) s = .next (ended s dt (bankRb false)) ∧
      (serving c = true → (ownE c (ixHsb b)).st = .owned → exec (.readbackTrip dt (.hsb b)) s = .next (ended s dt (bankRb true)))) ∧
    (c.isN = false →
      (∃ t : Chip, exec (.schedulerMismatch dt (.out o)) s = .next (ended s dt t) ∧ t.outs[o].enabled = false ∧ t.outs[o].mismatch = true ∧
        t.outs[o].run = none ∧ t.outs[o].q = [] ∧ (∀ p : Fin 24, p ≠ o → same t p) ∧ t.wb = c.wb) ∧
      (∃ t : Chip, exec (.schedulerMismatch dt (.hsb b)) s = .next (ended s dt t) ∧ t.banks[b].enabled = false ∧ t.banks[b].mismatch = true ∧
        (∀ p : Fin 24, p ∉ members c b → same t p) ∧ (∀ p : Fin 24, p ∈ members c b → t.outs[p].run = none) ∧ t.wb = c.wb)) ∧
    (c.isN = true → ∀ i : HopBall, exec (.schedulerMismatch dt i) s = .next (ended s dt c))

/-! ### The control engine and the analog outputs (chapters 13 to 15) -/

/-- FRAME_BOUNDARY (R376 to R378, R389), while no AUTOTUNE relay runs, OUTPUT_APPLICATION (R378) and LOOP_CHECK_MISMATCH (R401): at a boundary,
taken once, of the part as it stood at the tick's start, a loop that is not due keeps its state, a frozen one is marked, one in MANUAL
adds a run with its limited manual value, which a frame later is its output; a mismatch sets CHECKFAIL, drops the runs in flight and
asserts S418 + 4n. In a tick that is no boundary nothing changes. -/
def Obligations.LoopsRunAtBoundaries : Prop :=
  ∀ (s : State) (dt : Nat) (n : Fin 16),
    let c := found s dt
    let v := loopTriggers (looked s dt)
    let l := c.lp[n]
    let was := v.lp[n]
    let due : Bool := was.mode ≠ .disabled && lpDue v n (c.tick / ceFrame v)
    serving c = true →
    ((∀ m : Fin 16, c.lp[m].mode ≠ .tuning) →
      (c.tick % ceFrame v ≠ 0 → exec (.frameBoundary dt) s = .next (ended s dt c)) ∧
      (c.tick % ceFrame v = 0 → c.eng.boundary ≠ some c.tick →
        ∃ t : Chip, exec (.frameBoundary dt) s = .next (ended s dt t) ∧ t.eng.boundary = some c.tick ∧ t.ao = c.ao ∧ t.trk = c.trk ∧
          t.wb = c.wb ∧
          (due = false → t.lp[n] = l) ∧
          (due = true → lpFrozen v n = true → l.mode ≠ .disabled → t.lp[n] = { l with frozen := true, inlost := inputLost v n }) ∧
          (due = true → lpFrozen v n = false → was.mode = .manual → l.mode = .manual → was.pend = .none → was.warm = false →
              lpGrpen (lpsup v n) = false →
            ∃ r : LpRun, t.lp[n].flight = l.flight ++ [r] ∧ r.tick = c.tick ∧ r.ua = limitOut v n was.manval ∧
              r.y = sampleSig v (fld (lpsig v n) 63 48) ∧ t.lp[n].frozen = false ∧ t.lp[n].lastRun = some c.tick ∧
              t.lp[n].run = l.run))) ∧
    (∀ r : LpRun, l.flight = [r] → r.tick + ceFrame c ≤ c.tick →
      ∃ t : Chip, exec (.outputApplication dt) s = .next (ended s dt t) ∧ t.lp[n].run = r ∧ t.lp[n].flight = [] ∧ t.lp[n].applied = true ∧
        t.lp[n].runcount = (l.runcount + 1) % 4294967296 ∧ t.lp[n].mode = l.mode ∧ t.wb = c.wb ∧ t.trk = c.trk) ∧
    exec (.loopCheckMismatch dt n) s = .next (ended s dt (levelB
      { c with lp := upd c.lp n (fun l => { dropFlight l with checkfail := true }) } (418 + 4 * n.val) true))

/-- MONITOR_READING (R445, R446) and AO_CHECK_MISMATCH (R449): the reading of an owned output in its slot becomes MONCODE, and one that
counts and agrees becomes its monitored value; a mismatch sets CHECKFAIL, disables the output, whose code is then mid-scale, and
asserts S482 + 3a, and a SPANCHANGE that holds the output ends FAULTED 0x5206. -/
def Obligations.AnalogMonitorsAct : Prop :=
  ∀ (s : State) (dt : Nat) (a : Fin 8) (m : Fin 4096) (lim : Bool) (w : Nat),
    let c := found s dt
    let x := c.ao[a]
    let at_ := c.tick - 400
    let others (t : Chip) : Prop := ∀ b : Fin 8, b ≠ a → t.ao[b] = c.ao[b]
    let span := c.wb.entries.find? (fun e => opcodeOf e = 0x52 && targetOf e = 68 + a.val &&
      (e.state = .active || e.state = .suspended) && decide (0 < e.ckpt))
    serving c = true →
    ((ownE c (ixAo a)).st = .owned → 400 ≤ c.tick → at_ % 3200 = 400 * a.val →
      ∃ t : Chip, exec (.monitorReading dt a m lim) s = .next (ended s dt t) ∧ others t ∧ t.ao[a].moncode = 16 * m.val ∧
        t.ao[a].code = x.code ∧ t.ao[a].span = x.span ∧
        (x.own = some w → w ≤ at_ → x.emitTick ≤ at_ → x.chgtick + aoBlank (aocfg c a) ≤ at_ →
          t.ao[a].monvalid = true ∧ t.ao[a].monval = aoPhys x.span (16 * m.val) ∧
          ((16 * (m.val : Int) - x.code).natAbs ≤ aoTol (aocfg c a) → x.mismatch = false → t.ao[a].mismatch = false))) ∧
    (∃ t : Chip, exec (.aoCheckMismatch dt a) s = .next (ended s dt t) ∧ others t ∧ t.ao[a].checkfail = true ∧ t.ao[a].enabled = false ∧
      t.ao[a].code = 0x8000 ∧ t.ao[a].span = x.span ∧ t.flt.srcs[srcN (482 + 3 * a.val)].level = true ∧
      (span = none → t.wb = c.wb ∧ t.ao[a].spanbusy = x.spanbusy) ∧
      (∀ e : Entry, span = some e → t.ao[a].spanbusy = false ∧ t.ao[a].safehold = true ∧
        t.wb = (retire c (keyOf e) 5 0x5206 (spanResult c e a)).wb))

/-! ### The fault collector (chapter 16) -/

/-- ESCALATION_DEADLINE (R461, R463), QUIET_PERIOD_END (R464), WINDOW_END (R458), COLLECTOR_SELF_CHECK (R482) and BLOCK_RESET_COMPLETE (R475):
the deadline of a CONTAINED source that no tick before has acknowledged escalates it, to FATAL and the Bench with ESCFATAL; a source that has
been quiet returns to OK, with EV01 to its owner where it was CONTAINED; a window that has passed is emptied; a failed self check makes S511
FATAL and Benches the part; a block reset whose length has passed ends. -/
def Obligations.CollectorTimersAct : Prop :=
  ∀ (s : State) (dt : Nat) (n : Src),
    let c := found s dt
    let x := c.flt.srcs[n]
    let src (f : Source → Source) : Chip := { c with flt := { c.flt with srcs := upd c.flt.srcs n f } }
    let quiet : Chip := src (fun x => { x with
      st := .ok, unack := false, pinhold := false, escalated := false, escrun := false, recov := min (x.recov + 1) 65535 })
    (collectorRuns c = true →
      (x.st = .contained → (looked s dt).flt.srcs[n].escrun = true → x.deadline ≤ c.tick → polEscReact (polW c n) = 0 →
        ∃ t : Chip, exec (.escalationDeadline dt n) s = .next (ended s dt t) ∧ t.flt.srcs[n].escrun = false ∧
          t.flt.srcs[n].escalated = true ∧ t.flt.srcs[n].unack = x.escrun ∧
          (bit (polW c n) 60 = false → t.flt.srcs[n].st = .contained ∧ t.flt.benched = c.flt.benched) ∧
          (bit (polW c n) 60 = true → t.flt.srcs[n].st = .fatal ∧ t.flt.benched = true ∧ t.flt.alarmPend = true) ∧
          ∀ m : Src, m ≠ n → t.flt.srcs[m] = c.flt.srcs[m]) ∧
      ((looked s dt).flt.srcs[n].escrun = false → exec (.escalationDeadline dt n) s = .next (ended s dt c)) ∧
      (asserted x n = false → x.quiet + polQuiet (timeW c n) ≤ c.tick → c.raised.any (fun r => r.src = n) = false →
        (x.st = .corrected → exec (.quietPeriodEnd dt n) s = .next (ended s dt quiet)) ∧
        (x.st = .contained → exec (.quietPeriodEnd dt n) s = .next (ended s dt (notify quiet (srcOwner c n) 1)))) ∧
      (x.wcount ≠ 0 → x.winTick + polWin (polW c n) ≤ c.tick →
        exec (.windowEnd dt n) s = .next (ended s dt (src (fun x => { x with wcount := 0 }))))) ∧
    (∃ t : Chip, exec (.collectorSelfCheck dt) s = .next (ended s dt t) ∧ t.flt.srcs[(511 : Src)].st = .fatal ∧ t.flt.mismatch = true ∧
      (c.flt.srcs[(511 : Src)].st ≠ .fatal → t.flt.benched = true ∧ t.flt.causeSrc = 511 ∧ t.flt.cause = 2) ∧
      ∀ m : Src, m ≠ 511 → t.flt.srcs[m] = c.flt.srcs[m]) ∧
    (∀ r : Block × Nat, serving c = true → c.flt.resets.find? (fun r => blockResetDue c r.1 r.2) = some r →
      ∃ t : Chip, exec (.blockResetComplete dt) s = .next (ended s dt t) ∧ t.flt.resets = c.flt.resets.filter (fun y => y.1 ≠ r.1) ∧
        t.pw = c.pw ∧ t.wb.entries.length = c.wb.entries.length)

/-! ### What reset leaves, and what every step keeps -/

/-- After reset, R45, R59, R69, R72, R78, R100, R112, R456 and Table 6-11: the part is in CONFIG with no command waiting, no claim, no entry in
the journal and every client's EPOCHLOST set, every object FREE, CL0 alone enabled with passcode 0, every source OK, both lock bits clear,
the object words canonical and all zero, no two masters acting as one client. -/
def Obligations.ResetLeavesThePart : Prop :=
  let s := State.reset
  s.pending = [] ∧ s.chip.pw.state = .config ∧ s.chip.wb.entries = [] ∧ s.chip.face.trimlock = false ∧ s.chip.face.testlock = false ∧
  (∀ m : Mid, (mst s.chip m).claim = none ∧ (mst s.chip m).flags = 0 ∧ (mst s.chip m).scratch = 0 ∧ (mst s.chip m).wrTag = none) ∧
  (∀ k : Client, s.chip.wb.clients[k].epochLost = true ∧ s.chip.wb.clients[k].lastSeq = 0 ∧
    (s.chip.own.prov[k].enabled = true ↔ k = 0) ∧ s.chip.own.prov[k].passcode = 0) ∧
  (∀ i : ObjIx, (ownE s.chip i).st = .free) ∧ (∀ n : Src, s.chip.flt.srcs[n].st = .ok) ∧
  (∀ a : Nat, act s.chip a = 0 ∧ stg s.chip a = 0 ∧ liveW s.chip a = 0) ∧ Canonical s ∧ ClaimsApart s

/-- R59 as an invariant: every step keeps the object words in canonical form, whatever the command. -/
def Obligations.StepsKeepWordsCanonical : Prop :=
  ∀ s t : State, Canonical s → step s = .next t → Canonical t

/-- R78 as an invariant: no step makes two masters act as the same client. -/
def Obligations.StepsKeepClaimsApart : Prop :=
  ∀ s t : State, ClaimsApart s → step s = .next t → ClaimsApart t

/-- Whole-machine frames. The ownership map changes only by its own commands, the object words only by theirs (mapRow and wordRow
list both); and a commit of OBJDATA or OBJDATAINC changes no word in force and none outside the address in OBJADDR (R52, R56). -/
def Obligations.MapAndWordsMoveOnlyByTheirCommands : Prop :=
  (∀ (i : Instr) (s t : State), exec i s = .next t →
    (mapRow i = false → t.chip.own = s.chip.own) ∧ (wordRow i = false → t.chip.mem = s.chip.mem)) ∧
  (∀ (i : Instr) (s t : State) (dt : Nat) (m : Mid) (d : Half) (b : Nat), Canonical s →
    (i = .objdataWrite dt m d ∨ i = .objdataincWrite dt m d ∨ ∃ r, i = .registerCommit dt m r d) → exec i s = .next t →
    act t.chip b = act s.chip b ∧
    (b ≠ objAddr (mst (found s dt) m) → stg t.chip b = stg s.chip b ∧ liveW t.chip b = liveW s.chip b))

/-- R2, R69, R142 and R143 over every step: the variant never changes, and until a POWER_ON_RESET TICK never decreases and a set bit of
LOCK stays set. -/
def Obligations.StepsKeepVariantTickAndLocks : Prop :=
  ∀ s t : State, step s = .next t → t.chip.isN = s.chip.isN ∧
    ((∀ (dt : Nat) (a b : Bool) (rest : List Instr), s.pending ≠ .powerOnReset dt a b :: rest) →
      s.chip.tick ≤ t.chip.tick ∧ (s.chip.face.trimlock = true → t.chip.face.trimlock = true) ∧
      (s.chip.face.testlock = true → t.chip.face.testlock = true))

/-- No command ends a run, and none touches the queue: whatever the state and the operands, exec answers a next state, which holds what the
other statements say of the command, with the queue as it was. -/
def Obligations.NoCommandEndsARun : Prop :=
  ∀ (i : Instr) (s : State), ∃ t : State, exec i s = .next t ∧ t.pending = s.pending
end

