-- ==== Sys2Proof/Laws/State.lean ====
section
/-! SUPPORT. Laws of the state: what each form of command, the passing of time and the end of a step leave alone. Later proofs
cite these and unfold no record update. -/

namespace Sys2Proof.Machine

/-! ### The records of the forms -/

@[simp] theorem leaveFace_isN (a b : Chip) : (leaveFace a b).isN = a.isN := rfl
@[simp] theorem leaveFace_tick (a b : Chip) : (leaveFace a b).tick = a.tick := rfl
@[simp] theorem leaveFace_own (a b : Chip) : (leaveFace a b).own = a.own := rfl
@[simp] theorem leaveFace_mem (a b : Chip) : (leaveFace a b).mem = a.mem := rfl
@[simp] theorem leaveFace_face (a b : Chip) : (leaveFace a b).face = a.face := rfl
@[simp] theorem leaveAll_isN (a b : Chip) : (leaveAll a b).isN = a.isN := rfl
@[simp] theorem leaveAll_tick (a b : Chip) : (leaveAll a b).tick = a.tick := rfl
@[simp] theorem leaveAll_own (a b : Chip) : (leaveAll a b).own = a.own := rfl
@[simp] theorem leaveAll_mem (a b : Chip) : (leaveAll a b).mem = a.mem := rfl
@[simp] theorem leaveAll_face (a b : Chip) : (leaveAll a b).face = b.face := rfl
@[simp] theorem leaveMem_isN (a b : Chip) : (leaveMem a b).isN = a.isN := rfl
@[simp] theorem leaveMem_tick (a b : Chip) : (leaveMem a b).tick = a.tick := rfl
@[simp] theorem leaveMem_own (a b : Chip) : (leaveMem a b).own = b.own := rfl
@[simp] theorem leaveMem_mem (a b : Chip) : (leaveMem a b).mem = a.mem := rfl
@[simp] theorem leaveMem_face (a b : Chip) : (leaveMem a b).face = a.face := rfl
@[simp] theorem leaveWords_isN (a b : Chip) : (leaveWords a b).isN = a.isN := rfl
@[simp] theorem leaveWords_tick (a b : Chip) : (leaveWords a b).tick = a.tick := rfl
@[simp] theorem leaveWords_own (a b : Chip) : (leaveWords a b).own = b.own := rfl
@[simp] theorem leaveWords_mem (a b : Chip) : (leaveWords a b).mem = a.mem := rfl
@[simp] theorem leaveWords_face (a b : Chip) : (leaveWords a b).face = b.face := rfl
@[simp] theorem leaveOwn_isN (a b : Chip) : (leaveOwn a b).isN = a.isN := rfl
@[simp] theorem leaveOwn_tick (a b : Chip) : (leaveOwn a b).tick = a.tick := rfl
@[simp] theorem leaveOwn_own (a b : Chip) : (leaveOwn a b).own = a.own := rfl
@[simp] theorem leaveOwn_mem (a b : Chip) : (leaveOwn a b).mem = b.mem := rfl
@[simp] theorem leaveOwn_face (a b : Chip) : (leaveOwn a b).face = a.face := rfl
@[simp] theorem leaveMap_isN (a b : Chip) : (leaveMap a b).isN = a.isN := rfl
@[simp] theorem leaveMap_tick (a b : Chip) : (leaveMap a b).tick = a.tick := rfl
@[simp] theorem leaveMap_own (a b : Chip) : (leaveMap a b).own = a.own := rfl
@[simp] theorem leaveMap_mem (a b : Chip) : (leaveMap a b).mem = b.mem := rfl
@[simp] theorem leaveMap_face (a b : Chip) : (leaveMap a b).face = b.face := rfl
@[simp] theorem leaveTick_isN (a b : Chip) : (leaveTick a b).isN = a.isN := rfl
@[simp] theorem leaveTick_tick (a b : Chip) : (leaveTick a b).tick = a.tick := rfl
@[simp] theorem leaveTick_own (a b : Chip) : (leaveTick a b).own = b.own := rfl
@[simp] theorem leaveTick_mem (a b : Chip) : (leaveTick a b).mem = b.mem := rfl
@[simp] theorem leaveTick_face (a b : Chip) : (leaveTick a b).face = b.face := rfl
@[simp] theorem leaveClock_isN (a b : Chip) : (leaveClock a b).isN = a.isN := rfl
@[simp] theorem leaveClock_tick (a b : Chip) : (leaveClock a b).tick = b.tick := rfl
@[simp] theorem leaveClock_own (a b : Chip) : (leaveClock a b).own = a.own := rfl
@[simp] theorem leaveClock_mem (a b : Chip) : (leaveClock a b).mem = a.mem := rfl
@[simp] theorem leaveClock_face (a b : Chip) : (leaveClock a b).face = b.face := rfl
@[simp] theorem leaveVariant_isN (a b : Chip) : (leaveVariant a b).isN = a.isN := rfl
@[simp] theorem leaveVariant_mem (a b : Chip) : (leaveVariant a b).mem = b.mem := rfl
@[simp] theorem leaveVariant_own (a b : Chip) : (leaveVariant a b).own = b.own := rfl
@[simp] theorem leaveVariant_face (a b : Chip) : (leaveVariant a b).face = b.face := rfl

@[simp] theorem keep_isN (a b : Chip) : (keep a b).isN = a.isN := rfl
@[simp] theorem keep_tick (a b : Chip) : (keep a b).tick = a.tick := rfl
@[simp] theorem keep_own (a b : Chip) : (keep a b).own = a.own := rfl
@[simp] theorem keep_mem (a b : Chip) : (keep a b).mem = a.mem := rfl
@[simp] theorem keep_face (a b : Chip) : (keep a b).face = a.face := rfl
@[simp] theorem keep_cal (a b : Chip) : (keep a b).cal = a.cal := rfl
@[simp] theorem keep_img (a b : Chip) : (keep a b).img = a.img := rfl

/-! ### The shared operations -/

@[simp] theorem raiseR_isN (c : Chip) (r : Raise) : (raiseR c r).isN = c.isN := rfl
@[simp] theorem raiseR_tick (c : Chip) (r : Raise) : (raiseR c r).tick = c.tick := rfl
@[simp] theorem raiseR_own (c : Chip) (r : Raise) : (raiseR c r).own = c.own := rfl
@[simp] theorem raiseR_mem (c : Chip) (r : Raise) : (raiseR c r).mem = c.mem := rfl
@[simp] theorem raiseR_face (c : Chip) (r : Raise) : (raiseR c r).face = c.face := rfl
@[simp] theorem raiseR_wb (c : Chip) (r : Raise) : (raiseR c r).wb = c.wb := rfl
@[simp] theorem raiseR_pw (c : Chip) (r : Raise) : (raiseR c r).pw = c.pw := rfl
@[simp] theorem raiseR_flt (c : Chip) (r : Raise) : (raiseR c r).flt = c.flt := rfl
@[simp] theorem raiseR_cal (c : Chip) (r : Raise) : (raiseR c r).cal = c.cal := rfl
@[simp] theorem raiseR_img (c : Chip) (r : Raise) : (raiseR c r).img = c.img := rfl

@[simp] theorem updEntry_isN (c : Chip) (k : Key) (f : Entry → Entry) : (updEntry c k f).isN = c.isN := rfl
@[simp] theorem updEntry_tick (c : Chip) (k : Key) (f : Entry → Entry) : (updEntry c k f).tick = c.tick := rfl
@[simp] theorem updEntry_own (c : Chip) (k : Key) (f : Entry → Entry) : (updEntry c k f).own = c.own := rfl
@[simp] theorem updEntry_mem (c : Chip) (k : Key) (f : Entry → Entry) : (updEntry c k f).mem = c.mem := rfl
@[simp] theorem updEntry_face (c : Chip) (k : Key) (f : Entry → Entry) : (updEntry c k f).face = c.face := rfl
@[simp] theorem updEntry_flt (c : Chip) (k : Key) (f : Entry → Entry) : (updEntry c k f).flt = c.flt := rfl
@[simp] theorem updEntry_pw (c : Chip) (k : Key) (f : Entry → Entry) : (updEntry c k f).pw = c.pw := rfl

@[simp] theorem updM_isN (c : Chip) (m : Mid) (f : Master → Master) : (updM c m f).isN = c.isN := rfl
@[simp] theorem updM_tick (c : Chip) (m : Mid) (f : Master → Master) : (updM c m f).tick = c.tick := rfl
@[simp] theorem updM_own (c : Chip) (m : Mid) (f : Master → Master) : (updM c m f).own = c.own := rfl
@[simp] theorem updM_mem (c : Chip) (m : Mid) (f : Master → Master) : (updM c m f).mem = c.mem := rfl
@[simp] theorem updM_pw (c : Chip) (m : Mid) (f : Master → Master) : (updM c m f).pw = c.pw := rfl
@[simp] theorem updM_wb (c : Chip) (m : Mid) (f : Master → Master) : (updM c m f).wb = c.wb := rfl
@[simp] theorem updM_flt (c : Chip) (m : Mid) (f : Master → Master) : (updM c m f).flt = c.flt := rfl
@[simp] theorem updM_cal (c : Chip) (m : Mid) (f : Master → Master) : (updM c m f).cal = c.cal := rfl
@[simp] theorem driveD_isN (c : Chip) (d : Option Half) (w : Bool) : (driveD c d w).isN = c.isN := rfl
@[simp] theorem driveD_tick (c : Chip) (d : Option Half) (w : Bool) : (driveD c d w).tick = c.tick := rfl
@[simp] theorem driveD_own (c : Chip) (d : Option Half) (w : Bool) : (driveD c d w).own = c.own := rfl
@[simp] theorem driveD_mem (c : Chip) (d : Option Half) (w : Bool) : (driveD c d w).mem = c.mem := rfl
@[simp] theorem driveD_pw (c : Chip) (d : Option Half) (w : Bool) : (driveD c d w).pw = c.pw := rfl
@[simp] theorem driveD_wb (c : Chip) (d : Option Half) (w : Bool) : (driveD c d w).wb = c.wb := rfl
@[simp] theorem driveD_flt (c : Chip) (d : Option Half) (w : Bool) : (driveD c d w).flt = c.flt := rfl
@[simp] theorem driveD_masters (c : Chip) (d : Option Half) (w : Bool) : (driveD c d w).face.masters = c.face.masters := rfl

/-- One place of an updated vector. -/
theorem upd_get {α : Type} {n : Nat} (v : Vector α n) (i j : Fin n) (f : α → α) :
    (upd v i f)[j] = if i = j then f v[i] else v[j] := by
  simp only [upd, Fin.getElem_fin, Vector.getElem_set, Fin.ext_iff]

/-- A master after a change of one master. -/
theorem mst_updM (c : Chip) (m n : Mid) (f : Master → Master) :
    mst (updM c m f) n = if m = n then f (mst c m) else mst c n := upd_get _ _ _ _

/-- The master that a change names. -/
@[simp] theorem mst_updM_self (c : Chip) (m : Mid) (f : Master → Master) : mst (updM c m f) m = f (mst c m) := by
  simp [mst_updM]

/-- A driven bus changes no master. -/
@[simp] theorem mst_driveD (c : Chip) (d : Option Half) (w : Bool) (m : Mid) : mst (driveD c d w) m = mst c m := rfl

/-- An event changes no master. -/
@[simp] theorem mst_raiseR (c : Chip) (r : Raise) (m : Mid) : mst (raiseR c r) m = mst c m := rfl

/-! ### The end of a step -/

theorem holdRaised_face (c : Chip) : (holdRaised c).face = c.face := by
  unfold holdRaised
  suffices h : ∀ (l : List Raise) (d : Chip), (l.foldl holdEvent d).face = d.face from h _ _
  intro l
  induction l with
  | nil => intro d; rfl
  | cons r t ih =>
    intro d
    rw [List.foldl_cons, ih]
    unfold holdEvent
    split <;> rfl

theorem holdRaised_fixed (c : Chip) :
    (holdRaised c).isN = c.isN ∧ (holdRaised c).tick = c.tick ∧ (holdRaised c).own = c.own ∧ (holdRaised c).mem = c.mem := by
  unfold holdRaised
  suffices h : ∀ (l : List Raise) (d : Chip), (l.foldl holdEvent d).isN = d.isN ∧ (l.foldl holdEvent d).tick = d.tick ∧
      (l.foldl holdEvent d).own = d.own ∧ (l.foldl holdEvent d).mem = d.mem from h _ _
  intro l
  induction l with
  | nil => intro d; exact ⟨rfl, rfl, rfl, rfl⟩
  | cons r t ih =>
    intro d
    rw [List.foldl_cons]
    obtain ⟨h1, h2, h3, h4⟩ := ih (holdEvent d r)
    have h : (holdEvent d r).isN = d.isN ∧ (holdEvent d r).tick = d.tick ∧ (holdEvent d r).own = d.own ∧
        (holdEvent d r).mem = d.mem := by
      unfold holdEvent
      split <;> exact ⟨rfl, rfl, rfl, rfl⟩
    exact ⟨h1.trans h.1, h2.trans h.2.1, h3.trans h.2.2.1, h4.trans h.2.2.2⟩

/-- The Face after a warm reset (R15, R45, R83): every master is reset, the test gate is closed. -/
def resetFace (f : Face) : Face :=
  { f with masters := f.masters.map resetMaster, testen := false, keyTick := none, d := none, nwaitLow := false }

theorem warmReset_face (c : Chip) (cause src t : Nat) : (warmReset c cause src t).face = resetFace c.face := by
  show resetFace (collectorReset (holdRaised c)).face = _
  rw [show (collectorReset (holdRaised c)).face = (holdRaised c).face from rfl, holdRaised_face]

theorem warmReset_fixed (c : Chip) (cause src t : Nat) :
    (warmReset c cause src t).isN = c.isN ∧ (warmReset c cause src t).tick = c.tick ∧
    (warmReset c cause src t).own = c.own ∧ (warmReset c cause src t).mem = c.mem := holdRaised_fixed c

theorem takeChipReset_fixed (c : Chip) (r : ResetAsk) :
    (takeChipReset c r).isN = c.isN ∧ (takeChipReset c r).tick = c.tick ∧ (takeChipReset c r).own = c.own ∧
    (takeChipReset c r).mem = c.mem ∧ (takeChipReset c r).face = resetFace c.face := by
  have h := warmReset_fixed c 3 r.src.val r.tick
  have hf := warmReset_face c 3 r.src.val r.tick
  unfold takeChipReset
  simp only [keep_isN, keep_tick, keep_own, keep_mem, keep_face]
  exact ⟨h.1, h.2.1, h.2.2.1, h.2.2.2, hf⟩

@[simp] theorem decideDue_isN (c : Chip) : (decideDue c).isN = c.isN := rfl
@[simp] theorem decideDue_tick (c : Chip) : (decideDue c).tick = c.tick := rfl
@[simp] theorem decideDue_own (c : Chip) : (decideDue c).own = c.own := rfl
@[simp] theorem decideDue_mem (c : Chip) : (decideDue c).mem = c.mem := rfl
@[simp] theorem wakeDone_isN (c : Chip) : (wakeDone c).isN = c.isN := rfl
@[simp] theorem wakeDone_tick (c : Chip) : (wakeDone c).tick = c.tick := rfl
@[simp] theorem wakeDone_own (c : Chip) : (wakeDone c).own = c.own := rfl
@[simp] theorem wakeDone_mem (c : Chip) : (wakeDone c).mem = c.mem := rfl
@[simp] theorem wakeDone_face (c : Chip) : (wakeDone c).face = c.face := rfl

/-- The part's own work of a tick moves no object, writes no word, and changes the Face only by deciding submissions. -/
theorem ownWork_fixed (c : Chip) :
    (ownWork c).isN = c.isN ∧ (ownWork c).tick = c.tick ∧ (ownWork c).own = c.own ∧ (ownWork c).mem = c.mem ∧
    (ownWork c).face = (decideDue (if wakeDue c then wakeDone c else c)).face := by
  unfold ownWork
  split <;> exact ⟨rfl, rfl, rfl, rfl, rfl⟩

/-- What the part does of its own in a tick keeps the variant, TICK, the ownership map and the object words. -/
theorem settle_fixed (c : Chip) :
    (settle c).isN = c.isN ∧ (settle c).tick = c.tick ∧ (settle c).own = c.own ∧ (settle c).mem = c.mem := by
  have w := ownWork_fixed c
  unfold settle
  split
  · split
    · rename_i r _ _
      have t := takeChipReset_fixed c r
      exact ⟨t.1, t.2.1, t.2.2.1, t.2.2.2.1⟩
    · exact ⟨w.1, w.2.1, w.2.2.1, w.2.2.2.1⟩
  · exact ⟨w.1, w.2.1, w.2.2.1, w.2.2.2.1⟩

@[simp] theorem settle_isN (c : Chip) : (settle c).isN = c.isN := (settle_fixed c).1
@[simp] theorem settle_tick (c : Chip) : (settle c).tick = c.tick := (settle_fixed c).2.1
@[simp] theorem settle_own (c : Chip) : (settle c).own = c.own := (settle_fixed c).2.2.1
@[simp] theorem settle_mem (c : Chip) : (settle c).mem = c.mem := (settle_fixed c).2.2.2

/-! ### Time -/

/-- The passing of n ticks on the clocks moves TICK and nothing of the variant, the map and the words. -/
theorem advance_fixed (c : Chip) (n : Nat) :
    (advance c n).isN = c.isN ∧ (advance c n).own = c.own ∧ (advance c n).mem = c.mem ∧
    (advance c n).tick = if onSysclk c then c.tick + n else c.tick := by
  unfold advance
  split
  · dsimp only
    split <;> split <;> exact ⟨rfl, rfl, rfl, rfl⟩
  · exact ⟨rfl, rfl, rfl, rfl⟩

@[simp] theorem advance_isN (c : Chip) (n : Nat) : (advance c n).isN = c.isN := (advance_fixed c n).1
@[simp] theorem advance_own (c : Chip) (n : Nat) : (advance c n).own = c.own := (advance_fixed c n).2.1
@[simp] theorem advance_mem (c : Chip) (n : Nat) : (advance c n).mem = c.mem := (advance_fixed c n).2.2.1
theorem advance_tick (c : Chip) (n : Nat) : (advance c n).tick = if onSysclk c then c.tick + n else c.tick := (advance_fixed c n).2.2.2

/-- The clocks change no master's claim. -/
@[simp] theorem advance_claim (c : Chip) (n : Nat) (m : Mid) : (mst (advance c n) m).claim = (mst c m).claim := by
  unfold advance
  split
  · have h : ∀ v : Vector Master 4, ((v.map (fun x : Master => { x with flagsNow := 0 }))[m]).claim = v[m].claim := by
      intro v
      simp only [Fin.getElem_fin, Vector.getElem_map]
    dsimp only
    split <;> split <;> exact h _
  · rfl

theorem tickOnce_fixed (c : Chip) :
    (tickOnce c).isN = c.isN ∧ (tickOnce c).own = c.own ∧ (tickOnce c).mem = c.mem ∧
    (tickOnce c).tick = if onSysclk c then c.tick + 1 else c.tick := by
  unfold tickOnce
  split
  · rename_i h
    simp only [settle_isN, settle_own, settle_mem, settle_tick, advance_isN, advance_own, advance_mem, advance_tick, h, if_true, and_self]
  · exact ⟨rfl, rfl, rfl, rfl⟩

theorem ticks_fixed (c : Chip) (n : Nat) :
    (ticks c n).isN = c.isN ∧ (ticks c n).own = c.own ∧ (ticks c n).mem = c.mem ∧ c.tick ≤ (ticks c n).tick := by
  induction n generalizing c with
  | zero => exact ⟨rfl, rfl, rfl, Nat.le_refl _⟩
  | succ k ih =>
    obtain ⟨h1, h2, h3, h4⟩ := tickOnce_fixed c
    obtain ⟨i1, i2, i3, i4⟩ := ih (tickOnce c)
    refine ⟨i1.trans h1, i2.trans h2, i3.trans h3, Nat.le_trans ?_ i4⟩
    rw [h4]
    split <;> omega

theorem passTicks_fixed (c : Chip) (n : Nat) :
    (passTicks c n).isN = c.isN ∧ (passTicks c n).own = c.own ∧ (passTicks c n).mem = c.mem ∧ c.tick ≤ (passTicks c n).tick := by
  unfold passTicks
  split
  · exact ticks_fixed c n
  · obtain ⟨h1, h2, h3, h4⟩ := ticks_fixed c settleTicks
    refine ⟨(advance_isN _ _).trans h1, (advance_own _ _).trans h2, (advance_mem _ _).trans h3, Nat.le_trans h4 ?_⟩
    rw [advance_tick]
    split <;> omega

/-- What a command finds: time has moved on, the variant, the map and the words are as they were. -/
theorem found_fixed (s : State) (dt : Nat) :
    (found s dt).isN = s.chip.isN ∧ (found s dt).own = s.chip.own ∧ (found s dt).mem = s.chip.mem ∧ s.chip.tick ≤ (found s dt).tick := by
  unfold found lapse
  split
  · exact ⟨rfl, rfl, rfl, Nat.le_refl _⟩
  · rename_i n _
    obtain ⟨h1, h2, h3, h4⟩ := passTicks_fixed s.chip n
    dsimp only
    split
    · obtain ⟨t1, t2, t3, t4⟩ := tickOnce_fixed (passTicks s.chip n)
      refine ⟨t1.trans h1, t2.trans h2, t3.trans h3, Nat.le_trans h4 ?_⟩
      rw [t4]
      split <;> omega
    · refine ⟨(advance_isN _ _).trans h1, (advance_own _ _).trans h2, (advance_mem _ _).trans h3, Nat.le_trans h4 ?_⟩
      rw [advance_tick]
      split <;> omega

@[simp] theorem found_isN (s : State) (dt : Nat) : (found s dt).isN = s.chip.isN := (found_fixed s dt).1
@[simp] theorem found_own (s : State) (dt : Nat) : (found s dt).own = s.chip.own := (found_fixed s dt).2.1
@[simp] theorem found_mem (s : State) (dt : Nat) : (found s dt).mem = s.chip.mem := (found_fixed s dt).2.2.1
theorem found_tick (s : State) (dt : Nat) : s.chip.tick ≤ (found s dt).tick := (found_fixed s dt).2.2.2

/-- A command in the same tick finds the part as the last one left it. -/
theorem found_zero (s : State) (h : ticksBefore s.chip 0 = 0) : found s 0 = s.chip := by
  unfold found lapse
  rw [h]

@[simp] theorem seen_face (w c : Chip) : (seen w c).face = c.face := rfl
@[simp] theorem seen_tick (w c : Chip) : (seen w c).tick = c.tick := rfl
@[simp] theorem looked_tick (s : State) (dt : Nat) : (looked s dt).tick = (found s dt).tick := rfl
@[simp] theorem looked_face (s : State) (dt : Nat) : (looked s dt).face = (found s dt).face := rfl

/-! ### The forms -/

theorem runWith_next (g : Chip → Chip → Chip) (s : State) (dt : Nat) (f : Chip → Chip) :
    runWith g s dt f = .next (ended s dt (g (found s dt) (f (found s dt)))) := rfl

@[simp] theorem ended_pending (s : State) (dt : Nat) (c : Chip) : (ended s dt c).pending = s.pending := rfl
@[simp] theorem ended_chip (s : State) (dt : Nat) (c : Chip) : (ended s dt c).chip = c := rfl
@[simp] theorem ended_was (s : State) (dt : Nat) (c : Chip) : (ended s dt c).was = (lapse s dt).1 := rfl

end Sys2Proof.Machine
end

