-- ==== Sys2Proof/Laws/Face.lean ====
section
/-! SUPPORT. Laws of the Face: what a served commit and a served read come to, so that no later proof unfolds an access. -/

namespace Sys2Proof.Machine

/-- A carried-out commit: the shadow empties, the register's write takes place, and nothing drives D (R43). -/
theorem busCommit_runs {c : Chip} {m : Mid} {r : Fin 64} (d : Half) (h : CommitRuns c m r) :
    busCommit c m r d = driveD (regWrite (emptyShadow c m) m r (shadowWord (mst c m) d)) none false := by
  obtain ⟨h1, h2, h3, h4, h5⟩ := h
  simp only [busCommit, h1, mapped, h2, commitAt, h3, h4, h5, decide_true, if_true, if_false, Bool.true_eq_false]

/-- A commit that Table 2-4 does not permit (R48). -/
theorem busCommit_denied {c : Chip} {m : Mid} {r : Fin 64} (d : Half) (h1 : faceAt c writeTicks = .serves) (h2 : r.val < 48)
    (h3 : writePerm r ≠ .none) (h4 : permits (writePerm r) (mst c m).claim = false) :
    busCommit c m r d = driveD (bump (deny (emptyShadow c m) m accCommit r) m r) none false := by
  simp only [busCommit, h1, mapped, h2, commitAt, h3, h4, decide_true, if_true, if_false]

/-- A commit with an incomplete or foreign shadow (R42). -/
theorem busCommit_partial {c : Chip} {m : Mid} {r : Fin 64} (d : Half) (h1 : faceAt c writeTicks = .serves) (h2 : r.val < 48)
    (h3 : writePerm r ≠ .none) (h4 : permits (writePerm r) (mst c m).claim = true) (h5 : shadowReady (mst c m) r = false) :
    busCommit c m r d =
      driveD (bump (raiseR (setFlag (emptyShadow c m) m 1) (faceEvent c 44 m accCommit r)) m r) none false := by
  simp only [busCommit, h1, mapped, h2, commitAt, h3, h4, h5, decide_true, if_true, if_false, Bool.true_eq_false, Bool.false_eq_true]

/-- A commit that the Face does not serve (Table 2-3). -/
theorem busCommit_unserved {c : Chip} {m : Mid} {r : Fin 64} (d : Half) (h1 : faceAt c writeTicks ≠ .serves) :
    busCommit c m r d = unserved c (faceAt c writeTicks) m accCommit r := by
  simp only [busCommit, h1, if_false]

/-- A permitted read of halfword 0, which looks on the part v (R22, R39). -/
theorem busRead_low {v c : Chip} {m : Mid} {r : Fin 64} (e : Ecc) (w : Fin 8) (h : ReadRuns c m r) :
    busRead v c m r 0 e w = latch (regRead v c m r e w).1 m r (regRead v c m r e w).2 := by
  obtain ⟨h1, h2, h3⟩ := h
  simp only [busRead, h1, mapped, h2, readLow, h3, decide_true, if_true]

/-- A read of halfword 1, 2 or 3 (R39). -/
theorem busRead_high {v c : Chip} {m : Mid} {r : Fin 64} {h : Fin 4} (e : Ecc) (w : Fin 8) (h1 : faceCond c = .serves)
    (h2 : r.val < 48) (h3 : h ≠ 0) : busRead v c m r h e w = readHigh c m r h := by
  simp only [busRead, h1, mapped, h2, h3, decide_true, if_true, if_false]

end Sys2Proof.Machine
end

