-- ==== Sys2Proof/Laws/Mem.lean ====
section
/-! SUPPORT. Laws of the object words: what a read gives after each operation, and that every operation keeps the canonical
form. -/

namespace Sys2Proof.Machine

/-! ### The canonical form of a store -/

/-- Every address of the store is above a. -/
def storeAbove (a : Nat) (s : Store) : Prop := ∀ p ∈ s, a < p.1

theorem storeWf_nil : storeWf [] = true := rfl

/-- A store is canonical exactly if its first word is not zero, lies below the rest, and the rest is canonical. -/
theorem storeWf_cons (a : Nat) (w : Word) (t : Store) :
    storeWf ((a, w) :: t) = true ↔ w ≠ 0 ∧ storeAbove a t ∧ storeWf t = true := by
  induction t generalizing a w with
  | nil => simp [storeWf, storeAbove]
  | cons p u ih =>
    obtain ⟨b, v⟩ := p
    have h : storeWf ((a, w) :: (b, v) :: u) = true ↔ w ≠ 0 ∧ a < b ∧ storeWf ((b, v) :: u) = true := by
      simp [storeWf, and_assoc]
    rw [h]
    constructor
    · rintro ⟨h1, h2, h3⟩
      refine ⟨h1, ?_, h3⟩
      intro p hp
      rcases List.mem_cons.mp hp with rfl | hp
      · exact h2
      · exact Nat.lt_trans h2 (((ih b v).mp h3).2.1 p hp)
    · rintro ⟨h1, h2, h3⟩
      exact ⟨h1, h2 (b, v) (List.mem_cons.mpr (Or.inl rfl)), h3⟩

/-- An address below every listed one reads zero. -/
theorem storeGet_above {a : Nat} {s : Store} (h : storeAbove a s) : storeGet s a = 0 := by
  cases s with
  | nil => rfl
  | cons p t =>
    have hp := h p (List.mem_cons.mpr (Or.inl rfl))
    have hne : a ≠ p.1 := Nat.ne_of_lt hp
    simp [storeGet, hne, hp]

theorem storeAbove_mono {a b : Nat} {s : Store} (hab : a ≤ b) (h : storeAbove b s) : storeAbove a s :=
  fun p hp => Nat.lt_of_le_of_lt hab (h p hp)

theorem storeAbove_filter {a : Nat} {s : Store} (q : Nat × Word → Bool) (h : storeAbove a s) : storeAbove a (s.filter q) :=
  fun p hp => h p (List.mem_of_mem_filter hp)

/-! ### Writing one word -/

theorem storeAbove_put {a b : Nat} {s : Store} (w : Word) (hab : a < b) (h : storeAbove a s) :
    storeAbove a (storePut s b w) := by
  induction s with
  | nil => by_cases hw : w = 0#64 <;> simp [storePut, hw, storeAbove, hab]
  | cons p t ih =>
    obtain ⟨c, v⟩ := p
    have hc : a < c := h (c, v) (List.mem_cons.mpr (Or.inl rfl))
    have ht : storeAbove a t := fun p hp => h p (List.mem_cons.mpr (Or.inr hp))
    unfold storePut
    split
    · split
      · exact h
      · intro p hp
        rcases List.mem_cons.mp hp with rfl | hp
        · exact hab
        · exact h p hp
    · split
      · split
        · exact ht
        · intro p hp
          rcases List.mem_cons.mp hp with rfl | hp
          · exact hab
          · exact ht p hp
      · intro p hp
        rcases List.mem_cons.mp hp with rfl | hp
        · exact hc
        · exact ih ht p hp

/-- A write keeps the canonical form. -/
theorem storeWf_put {s : Store} (a : Nat) (w : Word) (h : storeWf s = true) : storeWf (storePut s a w) = true := by
  induction s with
  | nil => by_cases hw : w = 0#64 <;> simp [storePut, hw, storeWf]
  | cons p t ih =>
    obtain ⟨b, v⟩ := p
    obtain ⟨hv, hb, ht⟩ := (storeWf_cons b v t).mp h
    unfold storePut
    split
    · rename_i hab
      split
      · exact h
      · rename_i hw
        refine (storeWf_cons _ _ _).mpr ⟨hw, ?_, h⟩
        intro p hp
        rcases List.mem_cons.mp hp with rfl | hp
        · exact hab
        · exact Nat.lt_trans hab (hb p hp)
    · split
      · rename_i hab
        split
        · exact ht
        · rename_i hw
          exact (storeWf_cons _ _ _).mpr ⟨hw, hab ▸ hb, ht⟩
      · rename_i h1 h2
        exact (storeWf_cons _ _ _).mpr ⟨hv, storeAbove_put w (by omega) hb, ih ht⟩

/-- A read after a write gives the word written at its address, and what it gave before at every other. -/
theorem storeGet_put {s : Store} (a b : Nat) (w : Word) (h : storeWf s = true) :
    storeGet (storePut s a w) b = if b = a then w else storeGet s b := by
  induction s with
  | nil => by_cases hw : w = 0#64 <;> by_cases hb : b = a <;> simp [storePut, storeGet, hw, hb]
  | cons p t ih =>
    obtain ⟨c, v⟩ := p
    obtain ⟨hv, hc, ht⟩ := (storeWf_cons c v t).mp h
    unfold storePut
    split
    · rename_i hac
      by_cases hw : w = 0#64
      · subst hw
        by_cases hb : b = a
        · subst hb
          have : b ≠ c := Nat.ne_of_lt hac
          simp [storeGet, this, hac]
        · simp [hb]
      · by_cases hb : b = a
        · subst hb; simp [hw, storeGet]
        · by_cases hlt : b < a
          · have h1 : b < c := Nat.lt_trans hlt hac
            have h2 : b ≠ c := Nat.ne_of_lt h1
            simp [hw, hb, storeGet, hlt, h1, h2]
          · simp [hw, hb, storeGet, hlt]
    · split
      · rename_i h1 h2
        subst h2
        by_cases hw : w = 0#64
        · subst hw
          by_cases hb : b = a
          · subst hb; simp [storeGet_above hc]
          · by_cases hlt : b < a
            · have h3 : storeGet t b = 0 := storeGet_above (storeAbove_mono (Nat.le_of_lt hlt) hc)
              simp [storeGet, hb, hlt, h3]
            · simp [storeGet, hb, hlt]
        · by_cases hb : b = a
          · subst hb; simp [hw, storeGet]
          · by_cases hlt : b < a <;> simp [hw, storeGet, hb, hlt]
      · rename_i h1 h2
        by_cases hb : b = c
        · subst hb
          have : b ≠ a := fun e => h2 e.symm
          simp [storeGet, this]
        · by_cases hlt : b < c
          · have : b ≠ a := by omega
            simp [storeGet, hb, hlt, this]
          · simp [storeGet, hb, hlt, ih ht]

/-! ### Blocks of words -/

theorem storeWf_filter {s : Store} (q : Nat × Word → Bool) (h : storeWf s = true) : storeWf (s.filter q) = true := by
  induction s with
  | nil => rfl
  | cons p t ih =>
    obtain ⟨b, v⟩ := p
    obtain ⟨hv, hb, ht⟩ := (storeWf_cons b v t).mp h
    by_cases hq : q (b, v) = true
    · rw [List.filter_cons_of_pos hq]
      exact (storeWf_cons _ _ _).mpr ⟨hv, storeAbove_filter q hb, ih ht⟩
    · rw [List.filter_cons_of_neg hq]
      exact ih ht

/-- What is kept by address reads as before where it is kept, and zero elsewhere. -/
theorem storeGet_filter {s : Store} (q : Nat → Bool) (b : Nat) (h : storeWf s = true) :
    storeGet (s.filter (fun p => q p.1)) b = if q b then storeGet s b else 0 := by
  induction s with
  | nil => simp [storeGet]
  | cons p t ih =>
    obtain ⟨c, v⟩ := p
    obtain ⟨hv, hc, ht⟩ := (storeWf_cons c v t).mp h
    have hab : storeAbove c (t.filter (fun p => q p.1)) := storeAbove_filter _ hc
    by_cases hq : q c = true
    · rw [List.filter_cons_of_pos (by simpa using hq)]
      by_cases hb : b = c
      · subst hb; simp [storeGet, hq]
      · by_cases hlt : b < c <;> simp [storeGet, hb, hlt, ih ht]
    · rw [List.filter_cons_of_neg (by simpa using hq)]
      by_cases hb : b = c
      · subst hb; simp [hq, storeGet_above hab]
      · by_cases hlt : b < c
        · have h0 : storeGet (t.filter (fun p => q p.1)) b = 0 := storeGet_above (storeAbove_mono (Nat.le_of_lt hlt) hab)
          simp [storeGet, hb, hlt, h0]
        · simp [storeGet, hb, hlt, ih ht]

/-- Zeroing a range: zero inside, unchanged outside. -/
theorem storeGet_zero {s : Store} (lo hi b : Nat) (h : storeWf s = true) :
    storeGet (storeZero s lo hi) b = if lo ≤ b ∧ b < hi then 0 else storeGet s b := by
  have := storeGet_filter (fun n => !(decide (lo ≤ n) && decide (n < hi))) b h
  unfold storeZero
  rw [this]
  by_cases h1 : lo ≤ b <;> by_cases h2 : b < hi <;> simp [h1, h2]

/-- The words of a range: as before inside, zero outside. -/
theorem storeGet_in {s : Store} (lo hi b : Nat) (h : storeWf s = true) :
    storeGet (storeIn s lo hi) b = if lo ≤ b ∧ b < hi then storeGet s b else 0 := by
  have := storeGet_filter (fun n => decide (lo ≤ n) && decide (n < hi)) b h
  unfold storeIn
  rw [this]
  by_cases h1 : lo ≤ b <;> by_cases h2 : b < hi <;> simp [h1, h2]

theorem storeWf_zero {s : Store} (lo hi : Nat) (h : storeWf s = true) : storeWf (storeZero s lo hi) = true :=
  storeWf_filter _ h

theorem storeWf_in {s : Store} (lo hi : Nat) (h : storeWf s = true) : storeWf (storeIn s lo hi) = true :=
  storeWf_filter _ h

/-- Copying words keeps the canonical form. -/
theorem storeWf_copy (l : Store) {s : Store} (h : storeWf s = true) : storeWf (copyWords l s) = true := by
  unfold copyWords
  induction l generalizing s with
  | nil => exact h
  | cons p t ih => exact ih (storeWf_put p.1 p.2 h)

/-- A canonical list of words copied into a store reads as itself where it lists a word, and as the store elsewhere. -/
theorem storeGet_copy {l s : Store} (b : Nat) (hl : storeWf l = true) (hs : storeWf s = true) :
    storeGet (copyWords l s) b = if storeGet l b = 0 then storeGet s b else storeGet l b := by
  unfold copyWords
  induction l generalizing s with
  | nil => simp [storeGet]
  | cons p t ih =>
    obtain ⟨c, v⟩ := p
    obtain ⟨hv, hc, ht⟩ := (storeWf_cons c v t).mp hl
    rw [List.foldl_cons, ih ht (storeWf_put c v hs), storeGet_put c b v hs]
    by_cases hb : b = c
    · subst hb
      have hv' : ¬ v = 0#64 := hv
      simp [storeGet_above hc, storeGet, hv']
    · by_cases hlt : b < c
      · simp [storeGet, hb, hlt, storeGet_above (storeAbove_mono (Nat.le_of_lt hlt) hc)]
      · simp [storeGet, hb, hlt]

/-! ### The three copies -/


/-- The canonical form of the three copies, one by one. -/
theorem ObjMem.wf_iff (m : ObjMem) :
    m.wf = true ↔ storeWf m.staged = true ∧ storeWf m.active = true ∧ storeWf m.live = true := by
  simp [ObjMem.wf, and_assoc]

theorem ObjMem.wf_putStaged {m : ObjMem} (a : Nat) (w : Word) (h : m.wf = true) : (m.putStaged a w).wf = true := by
  rw [ObjMem.wf_iff] at *; exact ⟨storeWf_put a w h.1, h.2⟩

theorem ObjMem.wf_putActive {m : ObjMem} (a : Nat) (w : Word) (h : m.wf = true) : (m.putActive a w).wf = true := by
  rw [ObjMem.wf_iff] at *; exact ⟨h.1, storeWf_put a w h.2.1, h.2.2⟩

theorem ObjMem.wf_putLive {m : ObjMem} (a : Nat) (w : Word) (h : m.wf = true) : (m.putLive a w).wf = true := by
  rw [ObjMem.wf_iff] at *; exact ⟨h.1, h.2.1, storeWf_put a w h.2.2⟩

theorem ObjMem.wf_applyBlock {m : ObjMem} (lo hi : Nat) (h : m.wf = true) : (m.applyBlock lo hi).wf = true := by
  rw [ObjMem.wf_iff] at *; exact ⟨h.1, storeWf_copy _ (storeWf_zero lo hi h.2.1), h.2.2⟩

theorem ObjMem.wf_zeroBlock {m : ObjMem} (lo hi : Nat) (h : m.wf = true) : (m.zeroBlock lo hi).wf = true := by
  rw [ObjMem.wf_iff] at *; exact ⟨storeWf_zero lo hi h.1, storeWf_zero lo hi h.2.1, storeWf_zero lo hi h.2.2⟩

/-- After a copy of a block into force, the words in force read as the staged ones inside it and as before outside. -/
theorem ObjMem.get_applyBlock {m : ObjMem} (lo hi b : Nat) (h : m.wf = true) :
    storeGet (m.applyBlock lo hi).active b = if lo ≤ b ∧ b < hi then storeGet m.staged b else storeGet m.active b := by
  rw [ObjMem.wf_iff] at h
  show storeGet (copyWords (storeIn m.staged lo hi) (storeZero m.active lo hi)) b = _
  rw [storeGet_copy b (storeWf_in lo hi h.1) (storeWf_zero lo hi h.2.1), storeGet_in lo hi b h.1, storeGet_zero lo hi b h.2.1]
  by_cases hb : lo ≤ b ∧ b < hi
  · simp only [hb, and_self, if_true]
    by_cases h0 : storeGet m.staged b = 0#64 <;> simp [h0]
  · simp [hb]


end Sys2Proof.Machine
end

