-- ==== Sys2Proof/Laws/PerInstr.lean ====
section
/-! SUPPORT. Per command: an access that commits a register is none of the commands that may move the ownership map. -/

/-- No commit of a register is a command of the ownership map (chapter 3): objects move by queued commands and the part's own events. -/
def Sys2Proof.Laws.CommitKeepsMap.Statement (i : Sys2Proof.Instr) : Prop :=
  (Sys2Proof.commitOf i).isSome = true → Sys2Proof.mapRow i = false

open Sys2Proof Sys2Proof.Machine

theorem Sys2Proof.Laws.CommitKeepsMap.shadowHalfwordWrite (dt : Nat) (m : Mid) (r : Fin 64) (h : Fin 3) (d : Half) : Sys2Proof.Laws.CommitKeepsMap.Statement (.shadowHalfwordWrite dt m r h d) := fun _ => rfl
theorem Sys2Proof.Laws.CommitKeepsMap.registerCommit (dt : Nat) (m : Mid) (r : Fin 64) (d : Half) : Sys2Proof.Laws.CommitKeepsMap.Statement (.registerCommit dt m r d) := fun _ => rfl
theorem Sys2Proof.Laws.CommitKeepsMap.busTimeout (dt : Nat) (m : Mid) (r : Fin 64) (h : Fin 4) (read : Bool) : Sys2Proof.Laws.CommitKeepsMap.Statement (.busTimeout dt m r h read) := fun _ => rfl
theorem Sys2Proof.Laws.CommitKeepsMap.objdataRead (dt : Nat) (m : Mid) (ecc : Ecc) : Sys2Proof.Laws.CommitKeepsMap.Statement (.objdataRead dt m ecc) := fun _ => rfl
theorem Sys2Proof.Laws.CommitKeepsMap.objdataWrite (dt : Nat) (m : Mid) (d : Half) : Sys2Proof.Laws.CommitKeepsMap.Statement (.objdataWrite dt m d) := fun _ => rfl
theorem Sys2Proof.Laws.CommitKeepsMap.objdataincRead (dt : Nat) (m : Mid) (ecc : Ecc) : Sys2Proof.Laws.CommitKeepsMap.Statement (.objdataincRead dt m ecc) := fun _ => rfl
theorem Sys2Proof.Laws.CommitKeepsMap.objdataincWrite (dt : Nat) (m : Mid) (d : Half) : Sys2Proof.Laws.CommitKeepsMap.Statement (.objdataincWrite dt m d) := fun _ => rfl
theorem Sys2Proof.Laws.CommitKeepsMap.completionRead (dt : Nat) (a : CompletionAccess) : Sys2Proof.Laws.CommitKeepsMap.Statement (.completionRead dt a) := fun _ => rfl
theorem Sys2Proof.Laws.CommitKeepsMap.angsnapCapture (dt : Nat) (m : Mid) : Sys2Proof.Laws.CommitKeepsMap.Statement (.angsnapCapture dt m) := fun _ => rfl
theorem Sys2Proof.Laws.CommitKeepsMap.cmdsubmit (dt : Nat) (m : Mid) (d : Half) : Sys2Proof.Laws.CommitKeepsMap.Statement (.cmdsubmit dt m d) := fun _ => rfl
theorem Sys2Proof.Laws.CommitKeepsMap.claim (dt : Nat) (m : Mid) (d : Half) : Sys2Proof.Laws.CommitKeepsMap.Statement (.claim dt m d) := fun _ => rfl
theorem Sys2Proof.Laws.CommitKeepsMap.lockoutEnd (dt : Nat) (m : Mid) : Sys2Proof.Laws.CommitKeepsMap.Statement (.lockoutEnd dt m) := fun _ => rfl
theorem Sys2Proof.Laws.CommitKeepsMap.claimRelease (dt : Nat) (m : Mid) (d : Half) : Sys2Proof.Laws.CommitKeepsMap.Statement (.claimRelease dt m d) := fun _ => rfl
theorem Sys2Proof.Laws.CommitKeepsMap.caldate (dt : Nat) (m : Mid) (d : Half) : Sys2Proof.Laws.CommitKeepsMap.Statement (.caldate dt m d) := fun _ => rfl
theorem Sys2Proof.Laws.CommitKeepsMap.caltime (dt : Nat) (m : Mid) (d : Half) : Sys2Proof.Laws.CommitKeepsMap.Statement (.caltime dt m d) := fun _ => rfl
theorem Sys2Proof.Laws.CommitKeepsMap.idleRequest (dt : Nat) (m : Mid) (d : Half) : Sys2Proof.Laws.CommitKeepsMap.Statement (.idleRequest dt m d) := fun _ => rfl
theorem Sys2Proof.Laws.CommitKeepsMap.runRequest (dt : Nat) (m : Mid) (d : Half) : Sys2Proof.Laws.CommitKeepsMap.Statement (.runRequest dt m d) := fun _ => rfl
theorem Sys2Proof.Laws.CommitKeepsMap.sleepRequest (dt : Nat) (m : Mid) (d : Half) : Sys2Proof.Laws.CommitKeepsMap.Statement (.sleepRequest dt m d) := fun _ => rfl
theorem Sys2Proof.Laws.CommitKeepsMap.wdogKick (dt : Nat) (m : Mid) (d : Half) : Sys2Proof.Laws.CommitKeepsMap.Statement (.wdogKick dt m d) := fun _ => rfl
theorem Sys2Proof.Laws.CommitKeepsMap.hostver (dt : Nat) (m : Mid) (d : Half) : Sys2Proof.Laws.CommitKeepsMap.Statement (.hostver dt m d) := fun _ => rfl
theorem Sys2Proof.Laws.CommitKeepsMap.fltackRearm (dt : Nat) (m : Mid) (d : Half) : Sys2Proof.Laws.CommitKeepsMap.Statement (.fltackRearm dt m d) := fun _ => rfl
theorem Sys2Proof.Laws.CommitKeepsMap.fltackAcksrc (dt : Nat) (m : Mid) (d : Half) : Sys2Proof.Laws.CommitKeepsMap.Statement (.fltackAcksrc dt m d) := fun _ => rfl
theorem Sys2Proof.Laws.CommitKeepsMap.fltackAckall (dt : Nat) (m : Mid) (d : Half) : Sys2Proof.Laws.CommitKeepsMap.Statement (.fltackAckall dt m d) := fun _ => rfl
theorem Sys2Proof.Laws.CommitKeepsMap.fltinjectPulse (dt : Nat) (m : Mid) (d : Half) : Sys2Proof.Laws.CommitKeepsMap.Statement (.fltinjectPulse dt m d) := fun _ => rfl
theorem Sys2Proof.Laws.CommitKeepsMap.fltinjectSet (dt : Nat) (m : Mid) (d : Half) : Sys2Proof.Laws.CommitKeepsMap.Statement (.fltinjectSet dt m d) := fun _ => rfl
theorem Sys2Proof.Laws.CommitKeepsMap.fltinjectClear (dt : Nat) (m : Mid) (d : Half) : Sys2Proof.Laws.CommitKeepsMap.Statement (.fltinjectClear dt m d) := fun _ => rfl
theorem Sys2Proof.Laws.CommitKeepsMap.evtack (dt : Nat) (m : Mid) (d : Half) : Sys2Proof.Laws.CommitKeepsMap.Statement (.evtack dt m d) := fun _ => rfl
theorem Sys2Proof.Laws.CommitKeepsMap.testkey (dt : Nat) (m : Mid) (d : Half) : Sys2Proof.Laws.CommitKeepsMap.Statement (.testkey dt m d) := fun _ => rfl
theorem Sys2Proof.Laws.CommitKeepsMap.lock (dt : Nat) (m : Mid) (d : Half) : Sys2Proof.Laws.CommitKeepsMap.Statement (.lock dt m d) := fun _ => rfl
theorem Sys2Proof.Laws.CommitKeepsMap.nop (dt : Nat) : Sys2Proof.Laws.CommitKeepsMap.Statement (.nop dt) := fun _ => rfl
theorem Sys2Proof.Laws.CommitKeepsMap.grant (dt : Nat) : Sys2Proof.Laws.CommitKeepsMap.Statement (.grant dt) := fun h => (Bool.false_ne_true h).elim
theorem Sys2Proof.Laws.CommitKeepsMap.release (dt : Nat) : Sys2Proof.Laws.CommitKeepsMap.Statement (.release dt) := fun h => (Bool.false_ne_true h).elim
theorem Sys2Proof.Laws.CommitKeepsMap.apply (dt : Nat) : Sys2Proof.Laws.CommitKeepsMap.Statement (.apply dt) := fun _ => rfl
theorem Sys2Proof.Laws.CommitKeepsMap.claimcfg (dt : Nat) : Sys2Proof.Laws.CommitKeepsMap.Statement (.claimcfg dt) := fun h => (Bool.false_ne_true h).elim
theorem Sys2Proof.Laws.CommitKeepsMap.faultpolicy (dt : Nat) : Sys2Proof.Laws.CommitKeepsMap.Statement (.faultpolicy dt) := fun _ => rfl
theorem Sys2Proof.Laws.CommitKeepsMap.faultpolicyDefault (dt : Nat) : Sys2Proof.Laws.CommitKeepsMap.Statement (.faultpolicyDefault dt) := fun _ => rfl
theorem Sys2Proof.Laws.CommitKeepsMap.benchrelease (dt : Nat) : Sys2Proof.Laws.CommitKeepsMap.Statement (.benchrelease dt) := fun _ => rfl
theorem Sys2Proof.Laws.CommitKeepsMap.run (dt : Nat) : Sys2Proof.Laws.CommitKeepsMap.Statement (.run dt) := fun _ => rfl
theorem Sys2Proof.Laws.CommitKeepsMap.accepthost (dt : Nat) : Sys2Proof.Laws.CommitKeepsMap.Statement (.accepthost dt) := fun _ => rfl
theorem Sys2Proof.Laws.CommitKeepsMap.factoryreset (dt : Nat) : Sys2Proof.Laws.CommitKeepsMap.Statement (.factoryreset dt) := fun h => (Bool.false_ne_true h).elim
theorem Sys2Proof.Laws.CommitKeepsMap.softreset (dt : Nat) : Sys2Proof.Laws.CommitKeepsMap.Statement (.softreset dt) := fun _ => rfl
theorem Sys2Proof.Laws.CommitKeepsMap.discover (dt : Nat) : Sys2Proof.Laws.CommitKeepsMap.Statement (.discover dt) := fun _ => rfl
theorem Sys2Proof.Laws.CommitKeepsMap.calibrateFast (dt : Nat) : Sys2Proof.Laws.CommitKeepsMap.Statement (.calibrateFast dt) := fun _ => rfl
theorem Sys2Proof.Laws.CommitKeepsMap.calibrateRotating (dt : Nat) : Sys2Proof.Laws.CommitKeepsMap.Statement (.calibrateRotating dt) := fun _ => rfl
theorem Sys2Proof.Laws.CommitKeepsMap.autotune (dt : Nat) : Sys2Proof.Laws.CommitKeepsMap.Statement (.autotune dt) := fun _ => rfl
theorem Sys2Proof.Laws.CommitKeepsMap.learnteeth (dt : Nat) : Sys2Proof.Laws.CommitKeepsMap.Statement (.learnteeth dt) := fun _ => rfl
theorem Sys2Proof.Laws.CommitKeepsMap.enable (dt : Nat) : Sys2Proof.Laws.CommitKeepsMap.Statement (.enable dt) := fun _ => rfl
theorem Sys2Proof.Laws.CommitKeepsMap.disable (dt : Nat) : Sys2Proof.Laws.CommitKeepsMap.Statement (.disable dt) := fun _ => rfl
theorem Sys2Proof.Laws.CommitKeepsMap.setmodeChannelMode (dt : Nat) : Sys2Proof.Laws.CommitKeepsMap.Statement (.setmodeChannelMode dt) := fun _ => rfl
theorem Sys2Proof.Laws.CommitKeepsMap.setmodeAnchor (dt : Nat) : Sys2Proof.Laws.CommitKeepsMap.Statement (.setmodeAnchor dt) := fun _ => rfl
theorem Sys2Proof.Laws.CommitKeepsMap.setmodeLoopMode (dt : Nat) : Sys2Proof.Laws.CommitKeepsMap.Statement (.setmodeLoopMode dt) := fun _ => rfl
theorem Sys2Proof.Laws.CommitKeepsMap.setmodeManval (dt : Nat) : Sys2Proof.Laws.CommitKeepsMap.Statement (.setmodeManval dt) := fun _ => rfl
theorem Sys2Proof.Laws.CommitKeepsMap.setpoint (dt : Nat) : Sys2Proof.Laws.CommitKeepsMap.Statement (.setpoint dt) := fun _ => rfl
theorem Sys2Proof.Laws.CommitKeepsMap.notchset (dt : Nat) : Sys2Proof.Laws.CommitKeepsMap.Statement (.notchset dt) := fun _ => rfl
theorem Sys2Proof.Laws.CommitKeepsMap.eventpost (dt : Nat) : Sys2Proof.Laws.CommitKeepsMap.Statement (.eventpost dt) := fun _ => rfl
theorem Sys2Proof.Laws.CommitKeepsMap.eventcancel (dt : Nat) : Sys2Proof.Laws.CommitKeepsMap.Statement (.eventcancel dt) := fun _ => rfl
theorem Sys2Proof.Laws.CommitKeepsMap.suspend (dt : Nat) : Sys2Proof.Laws.CommitKeepsMap.Statement (.suspend dt) := fun _ => rfl
theorem Sys2Proof.Laws.CommitKeepsMap.resume (dt : Nat) : Sys2Proof.Laws.CommitKeepsMap.Statement (.resume dt) := fun _ => rfl
theorem Sys2Proof.Laws.CommitKeepsMap.cancel (dt : Nat) : Sys2Proof.Laws.CommitKeepsMap.Statement (.cancel dt) := fun _ => rfl
theorem Sys2Proof.Laws.CommitKeepsMap.stageimagePage (dt : Nat) : Sys2Proof.Laws.CommitKeepsMap.Statement (.stageimagePage dt) := fun _ => rfl
theorem Sys2Proof.Laws.CommitKeepsMap.stageimageErase (dt : Nat) : Sys2Proof.Laws.CommitKeepsMap.Statement (.stageimageErase dt) := fun _ => rfl
theorem Sys2Proof.Laws.CommitKeepsMap.stageimageFinish (a : Timed Bool) : Sys2Proof.Laws.CommitKeepsMap.Statement (.stageimageFinish a) := fun _ => rfl
theorem Sys2Proof.Laws.CommitKeepsMap.activateimagePromote (a : Timed Bool) : Sys2Proof.Laws.CommitKeepsMap.Statement (.activateimagePromote a) := fun _ => rfl
theorem Sys2Proof.Laws.CommitKeepsMap.activateimageDemote (a : Timed Bool) : Sys2Proof.Laws.CommitKeepsMap.Statement (.activateimageDemote a) := fun _ => rfl
theorem Sys2Proof.Laws.CommitKeepsMap.spanchange (dt : Nat) : Sys2Proof.Laws.CommitKeepsMap.Statement (.spanchange dt) := fun _ => rfl
theorem Sys2Proof.Laws.CommitKeepsMap.scrub (dt : Nat) : Sys2Proof.Laws.CommitKeepsMap.Statement (.scrub dt) := fun h => (Bool.false_ne_true h).elim
theorem Sys2Proof.Laws.CommitKeepsMap.selftest (dt : Nat) : Sys2Proof.Laws.CommitKeepsMap.Statement (.selftest dt) := fun _ => rfl
theorem Sys2Proof.Laws.CommitKeepsMap.sataccept (dt : Nat) : Sys2Proof.Laws.CommitKeepsMap.Statement (.sataccept dt) := fun _ => rfl
theorem Sys2Proof.Laws.CommitKeepsMap.satacceptReplace (dt : Nat) : Sys2Proof.Laws.CommitKeepsMap.Statement (.satacceptReplace dt) := fun _ => rfl
theorem Sys2Proof.Laws.CommitKeepsMap.satrelease (dt : Nat) : Sys2Proof.Laws.CommitKeepsMap.Statement (.satrelease dt) := fun _ => rfl
theorem Sys2Proof.Laws.CommitKeepsMap.commandFetch (dt : Nat) (f : EntryRead) : Sys2Proof.Laws.CommitKeepsMap.Statement (.commandFetch dt f) := fun _ => rfl
theorem Sys2Proof.Laws.CommitKeepsMap.longOpCheckpoint (dt : Nat) (k : Client) (seq : Nat) (data : List Int) : Sys2Proof.Laws.CommitKeepsMap.Statement (.longOpCheckpoint dt k seq data) := fun _ => rfl
theorem Sys2Proof.Laws.CommitKeepsMap.retireRingMerge (dt : Nat) (a : RingAccess) : Sys2Proof.Laws.CommitKeepsMap.Statement (.retireRingMerge dt a) := fun _ => rfl
theorem Sys2Proof.Laws.CommitKeepsMap.retentionPatrol (dt : Nat) (indexed : Bool) (addr : Nat) (ecc : Ecc) : Sys2Proof.Laws.CommitKeepsMap.Statement (.retentionPatrol dt indexed addr ecc) := fun _ => rfl
theorem Sys2Proof.Laws.CommitKeepsMap.seqCounterMismatch (dt : Nat) (k : Client) : Sys2Proof.Laws.CommitKeepsMap.Statement (.seqCounterMismatch dt k) := fun _ => rfl
theorem Sys2Proof.Laws.CommitKeepsMap.drainEnd (dt : Nat) (x : ObjIx) : Sys2Proof.Laws.CommitKeepsMap.Statement (.drainEnd dt x) := fun h => (Bool.false_ne_true h).elim
theorem Sys2Proof.Laws.CommitKeepsMap.scrubComplete (dt : Nat) (fail : Option Nat) : Sys2Proof.Laws.CommitKeepsMap.Statement (.scrubComplete dt fail) := fun h => (Bool.false_ne_true h).elim
theorem Sys2Proof.Laws.CommitKeepsMap.nextOwnerTakeover (dt : Nat) (x : ObjIx) : Sys2Proof.Laws.CommitKeepsMap.Statement (.nextOwnerTakeover dt x) := fun h => (Bool.false_ne_true h).elim
theorem Sys2Proof.Laws.CommitKeepsMap.ownershipMismatch (dt : Nat) (a : Nat) : Sys2Proof.Laws.CommitKeepsMap.Statement (.ownershipMismatch dt a) := fun h => (Bool.false_ne_true h).elim
theorem Sys2Proof.Laws.CommitKeepsMap.powerOnReset (dt : Nat) (vdd : Bool) (vbak : Bool) : Sys2Proof.Laws.CommitKeepsMap.Statement (.powerOnReset dt vdd vbak) := fun h => (Bool.false_ne_true h).elim
theorem Sys2Proof.Laws.CommitKeepsMap.bootTrimLoad (dt : Nat) : Sys2Proof.Laws.CommitKeepsMap.Statement (.bootTrimLoad dt) := fun _ => rfl
theorem Sys2Proof.Laws.CommitKeepsMap.pllLock (dt : Nat) : Sys2Proof.Laws.CommitKeepsMap.Statement (.pllLock dt) := fun _ => rfl
theorem Sys2Proof.Laws.CommitKeepsMap.pllLockRetry (dt : Nat) : Sys2Proof.Laws.CommitKeepsMap.Statement (.pllLockRetry dt) := fun _ => rfl
theorem Sys2Proof.Laws.CommitKeepsMap.imageCheck (dt : Nat) (errA : Bool) (errB : Bool) : Sys2Proof.Laws.CommitKeepsMap.Statement (.imageCheck dt errA errB) := fun _ => rfl
theorem Sys2Proof.Laws.CommitKeepsMap.retentionInit (dt : Nat) : Sys2Proof.Laws.CommitKeepsMap.Statement (.retentionInit dt) := fun h => (Bool.false_ne_true h).elim
theorem Sys2Proof.Laws.CommitKeepsMap.replay (dt : Nat) (singles : List (Nat × Nat)) (uncorr : Option Nat) : Sys2Proof.Laws.CommitKeepsMap.Statement (.replay dt singles uncorr) := fun h => (Bool.false_ne_true h).elim
theorem Sys2Proof.Laws.CommitKeepsMap.nresetPin (dt : Nat) (len : Nat) : Sys2Proof.Laws.CommitKeepsMap.Statement (.nresetPin dt len) := fun _ => rfl
theorem Sys2Proof.Laws.CommitKeepsMap.brownout (dt : Nat) : Sys2Proof.Laws.CommitKeepsMap.Statement (.brownout dt) := fun _ => rfl
theorem Sys2Proof.Laws.CommitKeepsMap.backupExit (dt : Nat) : Sys2Proof.Laws.CommitKeepsMap.Statement (.backupExit dt) := fun _ => rfl
theorem Sys2Proof.Laws.CommitKeepsMap.vbakLoss (a : Timed Bool) : Sys2Proof.Laws.CommitKeepsMap.Statement (.vbakLoss a) := fun _ => rfl
theorem Sys2Proof.Laws.CommitKeepsMap.watchdogExpiry (dt : Nat) : Sys2Proof.Laws.CommitKeepsMap.Statement (.watchdogExpiry dt) := fun _ => rfl
theorem Sys2Proof.Laws.CommitKeepsMap.xtalLoss (dt : Nat) (pll : Bool) : Sys2Proof.Laws.CommitKeepsMap.Statement (.xtalLoss dt pll) := fun _ => rfl
theorem Sys2Proof.Laws.CommitKeepsMap.lfOscLoss (a : Timed Bool) : Sys2Proof.Laws.CommitKeepsMap.Statement (.lfOscLoss a) := fun _ => rfl
theorem Sys2Proof.Laws.CommitKeepsMap.lfTick (dt : Nat) : Sys2Proof.Laws.CommitKeepsMap.Statement (.lfTick dt) := fun _ => rfl
theorem Sys2Proof.Laws.CommitKeepsMap.sleepEntry (dt : Nat) : Sys2Proof.Laws.CommitKeepsMap.Statement (.sleepEntry dt) := fun _ => rfl
theorem Sys2Proof.Laws.CommitKeepsMap.sleepTimeout (dt : Nat) : Sys2Proof.Laws.CommitKeepsMap.Statement (.sleepTimeout dt) := fun _ => rfl
theorem Sys2Proof.Laws.CommitKeepsMap.wakePin (dt : Nat) : Sys2Proof.Laws.CommitKeepsMap.Statement (.wakePin dt) := fun _ => rfl
theorem Sys2Proof.Laws.CommitKeepsMap.wakeTimer (dt : Nat) : Sys2Proof.Laws.CommitKeepsMap.Statement (.wakeTimer dt) := fun _ => rfl
theorem Sys2Proof.Laws.CommitKeepsMap.wakeLink (a : Timed (Fin 4 × BitVec 4)) : Sys2Proof.Laws.CommitKeepsMap.Statement (.wakeLink a) := fun _ => rfl
theorem Sys2Proof.Laws.CommitKeepsMap.wakeMotion (dt : Nat) : Sys2Proof.Laws.CommitKeepsMap.Statement (.wakeMotion dt) := fun _ => rfl
theorem Sys2Proof.Laws.CommitKeepsMap.wakeSwitch (dt : Nat) : Sys2Proof.Laws.CommitKeepsMap.Statement (.wakeSwitch dt) := fun _ => rfl
theorem Sys2Proof.Laws.CommitKeepsMap.frontEndsReady (dt : Nat) : Sys2Proof.Laws.CommitKeepsMap.Statement (.frontEndsReady dt) := fun _ => rfl
theorem Sys2Proof.Laws.CommitKeepsMap.motionEdge (dt : Nat) : Sys2Proof.Laws.CommitKeepsMap.Statement (.motionEdge dt) := fun _ => rfl
theorem Sys2Proof.Laws.CommitKeepsMap.vbakCheck (dt : Nat) (low : Bool) : Sys2Proof.Laws.CommitKeepsMap.Statement (.vbakCheck dt low) := fun _ => rfl
theorem Sys2Proof.Laws.CommitKeepsMap.calendarEndHold (dt : Nat) : Sys2Proof.Laws.CommitKeepsMap.Statement (.calendarEndHold dt) := fun _ => rfl
theorem Sys2Proof.Laws.CommitKeepsMap.generatorReady (dt : Nat) (g : Fin 4) (amp : Nat) : Sys2Proof.Laws.CommitKeepsMap.Statement (.generatorReady dt g amp) := fun _ => rfl
theorem Sys2Proof.Laws.CommitKeepsMap.generatorThermal (dt : Nat) (g : Fin 4) (t : Int) : Sys2Proof.Laws.CommitKeepsMap.Statement (.generatorThermal dt g t) := fun _ => rfl
theorem Sys2Proof.Laws.CommitKeepsMap.generatorLimit (dt : Nat) (g : Fin 4) (clip : Bool) (x : Sensed) : Sys2Proof.Laws.CommitKeepsMap.Statement (.generatorLimit dt g clip x) := fun _ => rfl
theorem Sys2Proof.Laws.CommitKeepsMap.vexcMonitor (dt : Nat) (low : Bool) : Sys2Proof.Laws.CommitKeepsMap.Statement (.vexcMonitor dt low) := fun _ => rfl
theorem Sys2Proof.Laws.CommitKeepsMap.pairWindow (dt : Nat) (n : Fin 16) (q0 : Quarter) (q1 : Quarter) (q2 : Quarter) (q3 : Quarter) (overS : Bool) (overC : Bool) : Sys2Proof.Laws.CommitKeepsMap.Statement (.pairWindow dt n q0 q1 q2 q3 overS overC) := fun _ => rfl
theorem Sys2Proof.Laws.CommitKeepsMap.carrierPeriodFit (dt : Nat) (n : Fin 16) (err : Int) : Sys2Proof.Laws.CommitKeepsMap.Statement (.carrierPeriodFit dt n err) := fun _ => rfl
theorem Sys2Proof.Laws.CommitKeepsMap.selfcalMeasurement (dt : Nat) (n : Fin 16) (trims : Trims) (tone : Int × Int) : Sys2Proof.Laws.CommitKeepsMap.Statement (.selfcalMeasurement dt n trims tone) := fun _ => rfl
theorem Sys2Proof.Laws.CommitKeepsMap.presenceCheckStart (dt : Nat) (n : Fin 16) : Sys2Proof.Laws.CommitKeepsMap.Statement (.presenceCheckStart dt n) := fun _ => rfl
theorem Sys2Proof.Laws.CommitKeepsMap.presenceCheckEnd (dt : Nat) (n : Fin 16) (dvs : Int) (dvc : Int) : Sys2Proof.Laws.CommitKeepsMap.Statement (.presenceCheckEnd dt n dvs dvc) := fun _ => rfl
theorem Sys2Proof.Laws.CommitKeepsMap.trackingUpdate (dt : Nat) (n : Fin 16) : Sys2Proof.Laws.CommitKeepsMap.Statement (.trackingUpdate dt n) := fun _ => rfl
theorem Sys2Proof.Laws.CommitKeepsMap.bandwidthEvaluation (dt : Nat) (n : Fin 16) : Sys2Proof.Laws.CommitKeepsMap.Statement (.bandwidthEvaluation dt n) := fun _ => rfl
theorem Sys2Proof.Laws.CommitKeepsMap.encoderStep (dt : Nat) (e : Fin 8) : Sys2Proof.Laws.CommitKeepsMap.Statement (.encoderStep dt e) := fun _ => rfl
theorem Sys2Proof.Laws.CommitKeepsMap.hopTrainStart (dt : Nat) (h : Fin 4) : Sys2Proof.Laws.CommitKeepsMap.Statement (.hopTrainStart dt h) := fun _ => rfl
theorem Sys2Proof.Laws.CommitKeepsMap.hopClockLock (dt : Nat) (h : Fin 4) : Sys2Proof.Laws.CommitKeepsMap.Statement (.hopClockLock dt h) := fun _ => rfl
theorem Sys2Proof.Laws.CommitKeepsMap.hopTrainFail (dt : Nat) (h : Fin 4) (why : TrainFail) : Sys2Proof.Laws.CommitKeepsMap.Statement (.hopTrainFail dt h why) := fun _ => rfl
theorem Sys2Proof.Laws.CommitKeepsMap.identRecord (dt : Nat) (h : Fin 4) (serial : Word) (part : Nat) (rev : Nat) : Sys2Proof.Laws.CommitKeepsMap.Statement (.identRecord dt h serial part rev) := fun _ => rfl
theorem Sys2Proof.Laws.CommitKeepsMap.identTimeout (dt : Nat) (h : Fin 4) : Sys2Proof.Laws.CommitKeepsMap.Statement (.identTimeout dt h) := fun _ => rfl
theorem Sys2Proof.Laws.CommitKeepsMap.upstreamFrame (dt : Nat) (u : UpFrame) : Sys2Proof.Laws.CommitKeepsMap.Statement (.upstreamFrame dt u) := fun _ => rfl
theorem Sys2Proof.Laws.CommitKeepsMap.messageRecord (dt : Nat) (h : Fin 4) (rec : UpRecord) : Sys2Proof.Laws.CommitKeepsMap.Statement (.messageRecord dt h rec) := fun h => (Bool.false_ne_true h).elim
theorem Sys2Proof.Laws.CommitKeepsMap.messageRepeat (dt : Nat) (h : Fin 4) : Sys2Proof.Laws.CommitKeepsMap.Statement (.messageRepeat dt h) := fun _ => rfl
theorem Sys2Proof.Laws.CommitKeepsMap.satelliteSafeState (dt : Nat) (h : Fin 4) (clockLost : Bool) : Sys2Proof.Laws.CommitKeepsMap.Statement (.satelliteSafeState dt h clockLost) := fun _ => rfl
theorem Sys2Proof.Laws.CommitKeepsMap.extraDevice (dt : Nat) : Sys2Proof.Laws.CommitKeepsMap.Statement (.extraDevice dt) := fun _ => rfl
theorem Sys2Proof.Laws.CommitKeepsMap.admissionComplete (dt : Nat) (h : Fin 4) : Sys2Proof.Laws.CommitKeepsMap.Statement (.admissionComplete dt h) := fun h => (Bool.false_ne_true h).elim
theorem Sys2Proof.Laws.CommitKeepsMap.bufferReady (dt : Nat) (k : Fin 4) (amp : Nat) : Sys2Proof.Laws.CommitKeepsMap.Statement (.bufferReady dt k amp) := fun _ => rfl
theorem Sys2Proof.Laws.CommitKeepsMap.holdExpiry (dt : Nat) (k : Client) (seq : Nat) : Sys2Proof.Laws.CommitKeepsMap.Statement (.holdExpiry dt k seq) := fun _ => rfl
theorem Sys2Proof.Laws.CommitKeepsMap.wheelEdge (dt : Nat) (w : Fin 4) (lag : Fin 3) (opp : Nat) (pk : Nat) : Sys2Proof.Laws.CommitKeepsMap.Statement (.wheelEdge dt w lag opp pk) := fun _ => rfl
theorem Sys2Proof.Laws.CommitKeepsMap.wheelStall (dt : Nat) (w : Fin 4) : Sys2Proof.Laws.CommitKeepsMap.Statement (.wheelStall dt w) := fun _ => rfl
theorem Sys2Proof.Laws.CommitKeepsMap.wheelInputFault (dt : Nat) (w : Fin 4) (bad : Bool) : Sys2Proof.Laws.CommitKeepsMap.Statement (.wheelInputFault dt w bad) := fun _ => rfl
theorem Sys2Proof.Laws.CommitKeepsMap.watchedEdge (dt : Nat) (w : Fin 4) (lag : Fin 3) (opp : Nat) (pk : Nat) : Sys2Proof.Laws.CommitKeepsMap.Statement (.watchedEdge dt w lag opp pk) := fun _ => rfl
theorem Sys2Proof.Laws.CommitKeepsMap.wheelStateMismatch (dt : Nat) (w : Fin 4) : Sys2Proof.Laws.CommitKeepsMap.Statement (.wheelStateMismatch dt w) := fun _ => rfl
theorem Sys2Proof.Laws.CommitKeepsMap.eventStart (dt : Nat) (o : Fin 24) : Sys2Proof.Laws.CommitKeepsMap.Statement (.eventStart dt o) := fun _ => rfl
theorem Sys2Proof.Laws.CommitKeepsMap.eventEnd (dt : Nat) (o : Fin 24) : Sys2Proof.Laws.CommitKeepsMap.Statement (.eventEnd dt o) := fun _ => rfl
theorem Sys2Proof.Laws.CommitKeepsMap.bankLeadStart (dt : Nat) (a : Fin 8) : Sys2Proof.Laws.CommitKeepsMap.Statement (.bankLeadStart dt a) := fun _ => rfl
theorem Sys2Proof.Laws.CommitKeepsMap.serializeTimeout (dt : Nat) (o : Fin 24) : Sys2Proof.Laws.CommitKeepsMap.Statement (.serializeTimeout dt o) := fun _ => rfl
theorem Sys2Proof.Laws.CommitKeepsMap.readbackTrip (dt : Nat) (b : HopBall) : Sys2Proof.Laws.CommitKeepsMap.Statement (.readbackTrip dt b) := fun _ => rfl
theorem Sys2Proof.Laws.CommitKeepsMap.schedulerMismatch (dt : Nat) (b : HopBall) : Sys2Proof.Laws.CommitKeepsMap.Statement (.schedulerMismatch dt b) := fun _ => rfl
theorem Sys2Proof.Laws.CommitKeepsMap.frameBoundary (dt : Nat) : Sys2Proof.Laws.CommitKeepsMap.Statement (.frameBoundary dt) := fun _ => rfl
theorem Sys2Proof.Laws.CommitKeepsMap.outputApplication (dt : Nat) : Sys2Proof.Laws.CommitKeepsMap.Statement (.outputApplication dt) := fun _ => rfl
theorem Sys2Proof.Laws.CommitKeepsMap.loopCheckMismatch (dt : Nat) (n : Fin 16) : Sys2Proof.Laws.CommitKeepsMap.Statement (.loopCheckMismatch dt n) := fun _ => rfl
theorem Sys2Proof.Laws.CommitKeepsMap.monitorReading (dt : Nat) (a : Fin 8) (code : Fin 4096) (lim : Bool) : Sys2Proof.Laws.CommitKeepsMap.Statement (.monitorReading dt a code lim) := fun _ => rfl
theorem Sys2Proof.Laws.CommitKeepsMap.aoCheckMismatch (dt : Nat) (a : Fin 8) : Sys2Proof.Laws.CommitKeepsMap.Statement (.aoCheckMismatch dt a) := fun _ => rfl
theorem Sys2Proof.Laws.CommitKeepsMap.blockResetComplete (dt : Nat) : Sys2Proof.Laws.CommitKeepsMap.Statement (.blockResetComplete dt) := fun _ => rfl
theorem Sys2Proof.Laws.CommitKeepsMap.escalationDeadline (dt : Nat) (n : Src) : Sys2Proof.Laws.CommitKeepsMap.Statement (.escalationDeadline dt n) := fun _ => rfl
theorem Sys2Proof.Laws.CommitKeepsMap.quietPeriodEnd (dt : Nat) (n : Src) : Sys2Proof.Laws.CommitKeepsMap.Statement (.quietPeriodEnd dt n) := fun _ => rfl
theorem Sys2Proof.Laws.CommitKeepsMap.windowEnd (dt : Nat) (n : Src) : Sys2Proof.Laws.CommitKeepsMap.Statement (.windowEnd dt n) := fun _ => rfl
theorem Sys2Proof.Laws.CommitKeepsMap.collectorSelfCheck (dt : Nat) : Sys2Proof.Laws.CommitKeepsMap.Statement (.collectorSelfCheck dt) := fun _ => rfl
theorem Sys2Proof.Laws.CommitKeepsMap.registerRead (dt : Nat) (m : Mid) (r : Fin 64) (h : Fin 4) (proto : Option Bool) : Sys2Proof.Laws.CommitKeepsMap.Statement (.registerRead dt m r h proto) := fun _ => rfl
theorem Sys2Proof.Laws.CommitKeepsMap.nresetRelease (dt : Nat) : Sys2Proof.Laws.CommitKeepsMap.Statement (.nresetRelease dt) := fun _ => rfl
theorem Sys2Proof.Laws.CommitKeepsMap.vddLossWithoutVbak (dt : Nat) : Sys2Proof.Laws.CommitKeepsMap.Statement (.vddLossWithoutVbak dt) := fun _ => rfl
theorem Sys2Proof.Laws.CommitKeepsMap.lfOscRestored (dt : Nat) : Sys2Proof.Laws.CommitKeepsMap.Statement (.lfOscRestored dt) := fun _ => rfl
theorem Sys2Proof.Laws.CommitKeepsMap.trainingComplete (dt : Nat) (h : Fin 4) (d : Nat) : Sys2Proof.Laws.CommitKeepsMap.Statement (.trainingComplete dt h d) := fun _ => rfl
theorem Sys2Proof.Laws.CommitKeepsMap.rollbackProgramDone (dt : Nat) (confirmed : Nat) (failed : Bool) : Sys2Proof.Laws.CommitKeepsMap.Statement (.rollbackProgramDone dt confirmed failed) := fun _ => rfl
theorem Sys2Proof.Laws.CommitKeepsMap.sequencerCheckFail (dt : Nat) (offset : Nat) : Sys2Proof.Laws.CommitKeepsMap.Statement (.sequencerCheckFail dt offset) := fun _ => rfl
theorem Sys2Proof.Laws.CommitKeepsMap.readbackAgree (dt : Nat) (b : HopBall) : Sys2Proof.Laws.CommitKeepsMap.Statement (.readbackAgree dt b) := fun _ => rfl
theorem Sys2Proof.Laws.CommitKeepsMap.downstreamFrame (dt : Nat) (h : Fin 4) (err : BitVec 200) : Sys2Proof.Laws.CommitKeepsMap.Statement (.downstreamFrame dt h err) := fun _ => rfl
theorem Sys2Proof.Laws.CommitKeepsMap.satelliteNreset (dt : Nat) (p : SatPin) : Sys2Proof.Laws.CommitKeepsMap.Statement (.satelliteNreset dt p) := fun _ => rfl
end

