-- ==== Sys2Proof/Tests/Slice0.lean ====
section
/-! SUPPORT. Tests: for every statement with hypotheses a state that meets them, clause by clause; a smoke test of WellFormed;
small tests of single steps whose expected values come from the spec's tables and worked examples. -/

namespace Sys2Proof.Tests

set_option Elab.async false

open Sys2Proof Sys2Proof.Machine

/-! ### Small states -/

/-- A state with a part, as it also stood a tick before, and no command waiting. -/
def at_ (c : Chip) : State := { chip := c, was := c, pending := [] }

/-- The part after reset, some ticks later. -/
def start : Chip := { resetChip with tick := 144000 }

/-- The same in RUN. -/
def running : Chip := { start with pw := { start.pw with state := .run, hostver := 1 } }

/-- Master m acts as client k. -/
def claimed (c : Chip) (m : Mid) (k : Client) : Chip := updM c m (fun x => { x with claim := some k })

/-- Master m has the lower halfwords of w for register r in its shadow. -/
def shadow (c : Chip) (m : Mid) (r : Fin 64) (w : Word) : Chip := updM c m (fun x =>
  { x with wrTag := some r, wr0 := halfOf w 0, wr1 := halfOf w 1, wr2 := halfOf w 2, wf0 := true, wf1 := true, wf2 := true })

/-- Master 0, acting as CL0, has the lower halfwords of w for register r in its shadow. -/
def warden (c : Chip) (r : Fin 64) (w : Word) : Chip := shadow (claimed c 0 0) 0 r w

/-- An object is OWNED by a client. -/
def owns (c : Chip) (i : ObjIx) (k : Client) : Chip :=
  updOwn c i (fun o => { o with st := .owned, owner := k })

/-- A word of the configuration in force. -/
def config (c : Chip) (a : Nat) (w : Word) : Chip := { c with mem := { c.mem with active := storePut c.mem.active a w } }

/-- A fetched command of a client: opcode, target, CMDB and CMDC. -/
def cmd (k : Client) (seq op target : Nat) (b z : Word) (kind : Kind) (ctrl : Bool) : Entry :=
  { loc := 0, client := k, seq := seq, state := .active, ctrl := ctrl, kind := kind, commit := false, started := false,
    mark := .none, marker := none, resumed := false, redo := false, ckpt := 0, cause := .linkhold, status := 0, detail := 0,
    recovered := false, cmda := pack [(56, 8, op), (32, 16, target)], cmdb := b, cmdc := z, hosttag := 0, acceptTick := 0,
    fetchTick := 0, commitTick := 0, ckTick := 0, holdTick := 0, holdLen := 0, result := 0, retireTick := 0 }

/-- The journal holds these entries. -/
def journal (c : Chip) (l : List Entry) : Chip := { c with wb := { c.wb with entries := l } }

/-- A fetched command alone in the journal. -/
def one (c : Chip) (e : Entry) : Chip := journal c [e]

/-! ### Hypotheses that are met: the Face -/

theorem met_stepRunsFrontCommand : ({ State.reset with pending := [.nop 0] } : State).pending = .nop 0 :: [] := rfl

theorem met_emptyQueue : State.reset.pending = [] := rfl

theorem met_shadowTakesHalfword : faceAt (found (at_ start) 0) writeTicks = .serves ∧ (47 : Fin 64).val < 48 := by decide +kernel

theorem met_readsAreServed :
    (ReadRuns (found (at_ start) 0) 3 45 ∧ ownRead 45 = false ∧ (45 : Fin 64) ≠ 10) ∧
    (let c := found (at_ (updM start 0 (fun x => { x with rdTag := some 47 }))) 0
     faceCond c = .serves ∧ (47 : Fin 64).val < 48 ∧ (3 : Fin 4) ≠ 0 ∧ (mst c 0).rdTag = some 47) ∧
    (faceCond (found State.reset 0) = .serves ∧ (1 : Fin 4) ≠ 0 ∧ (mst (found State.reset 0) 0).rdTag ≠ some 0) := by
  unfold ReadRuns; decide +kernel

theorem met_readLatches :
    let c := found (at_ (claimed start 3 15)) 0
    faceCond c = .serves ∧ (mst c 3).claim = some 15 := by decide +kernel

theorem met_completionDelivers :
    (let c := found (at_ (claimed start 0 2)) 0
     faceCond c = .serves ∧ (mst c 0).claim = some 2 ∧ clientHead c 2 = none) ∧
    (let e := cmd 2 1 1 0 0 0 .s false
     let c := found (at_ (one (claimed start 0 2) e)) 0
     faceCond c = .serves ∧ (mst c 0).claim = some 2 ∧ clientHead c 2 = some e ∧ e.state ≠ .retired) ∧
    (let e := { cmd 2 1 1 0 0 0 .s false with state := .retired }
     let c := found (at_ (one (claimed start 0 2) e)) 0
     faceCond c = .serves ∧ (mst c 0).claim = some 2 ∧ clientHead c 2 = some e ∧ e.state = .retired) := by decide +kernel

theorem met_angsnap :
    (let c := found (at_ (owns (claimed start 0 2) 0 2)) 0
     faceCond c = .serves ∧ (mst c 0).claim = some 2 ∧ ownerOf c (ixCh (mst c 0).snapCh) = some 2) ∧
    (let c := found (at_ (claimed start 0 2)) 0
     faceCond c = .serves ∧ (mst c 0).claim = some 2 ∧ ownerOf c (ixCh (mst c 0).snapCh) ≠ some 2) := by decide +kernel

theorem met_objectWordsAreRead :
    let c := found (at_ (updM (claimed start 0 0) 0 (fun x => { x with addr := 0x100 / 8 }))) 0
    let a := objAddr (mst c 0)
    faceCond c = .serves ∧ (mst c 0).claim = some 0 ∧ foreignRegion c a = false ∧
    (objInfo a).any (fun p => mayAccess c 0 p.2 false) = true ∧ journalWord a = none := by decide +kernel

theorem met_configWordsAreStaged :
    let st (r : Fin 64) := found (at_ (shadow (updM (owns (claimed start 0 2) 0 2) 0 (fun x => { x with addr := 0x01000000 / 8 })) 0 r 5)) 0
    let ok (c : Chip) : Prop := (mst c 0).claim = some 2 ∧ (mst c 0).view = false ∧ foreignRegion c (objAddr (mst c 0)) = false ∧
      (objInfo (objAddr (mst c 0))).any (fun p => p.1 = .config && mayAccess c 2 p.2 true &&
        !isFrozen c (objAddr (mst c 0)) .config p.2) = true
    (ok (st 13) ∧ CommitRuns (st 13) 0 13) ∧ (ok (st 14) ∧ CommitRuns (st 14) 0 14) := by
  unfold CommitRuns; decide +kernel

theorem met_registersAreWritten :
    (∀ r ∈ ([5, 6, 7, 12, 15, 34, 45, 10, 17, 19, 30] : List (Fin 64)), CommitRuns (found (at_ (warden start r 0)) 0) 0 r) ∧
    (mst (found (at_ (warden start 10 0)) 0) 0).claim = some 0 := by
  unfold CommitRuns; decide +kernel

theorem met_refusedAccesses :
    (let c := found (at_ start) 0
     commitOf (.cmdsubmit 0 0 7) = some (0, 0, 8, 7) ∧ faceAt c writeTicks = .serves ∧ writePerm 8 ≠ .none ∧
     permits (writePerm 8) (mst c 0).claim = false) ∧
    (let c := found (at_ (claimed start 0 0)) 0
     commitOf (.testkey 0 0 7) = some (0, 0, 47, 7) ∧ faceAt c writeTicks = .serves ∧ writePerm 47 ≠ .none ∧
     permits (writePerm 47) (mst c 0).claim = true ∧ shadowReady (mst c 0) 47 = false) ∧
    (let c := found (at_ (updM { start with tick := 146000 } 0 (fun x => { x with rdTag := some 45 }))) 0
     faceAt c timeoutTicks = .serves ∧ permits (readPerm 45) (mst c 0).claim = true ∧ (mst c 0).rdTag = some 45) := by
  decide +kernel

/-! ### Claims, the warden's registers, submission -/

/-- A word of CLAIM: OP, client and passcode. -/
def claimWord (op k pass : Nat) : Word := pack [(36, 2, op), (32, 4, k), (0, 32, pass)]

/-- The part with client 15 enabled with passcode 9. -/
def provided : Chip :=
  { start with own := { start.own with prov := upd start.own.prov 15 (fun p => { p with enabled := true, passcode := 9 }) } }

theorem met_claimSucceeds :
    let w := claimWord 1 15 9
    let c := found (at_ (shadow provided 3 3 w)) 0
    let d := halfOf w 3
    CommitRuns c 3 3 ∧ fld (shadowWord (mst c 3) d) 37 36 = 1 ∧ fld (shadowWord (mst c 3) d) 35 32 = (15 : Client).val ∧
    lockedOut c (mst c 3) = false ∧ c.own.prov[15].enabled = true ∧ (c.own.prov[15].passcode ≠ 0 ∨ (15 : Client) = 0) ∧
    c.own.prov[15].passcode = (shadowWord (mst c 3) d).truncate 32 ∧ (c.own.prov[15].pinen = false ∨ c.own.prov[15].pinmid = 3) ∧
    (mst c 3).claim ≠ some 15 := by unfold CommitRuns; decide +kernel

theorem met_claimAgain :
    let w := claimWord 1 15 9
    let c := found (at_ (shadow (claimed provided 3 15) 3 3 w)) 0
    let v := shadowWord (mst c 3) (halfOf w 3)
    CommitRuns c 3 3 ∧ fld v 37 36 = 1 ∧ fld v 35 32 = (15 : Client).val ∧ lockedOut c (mst c 3) = false ∧
    c.own.prov[15].enabled = true ∧ c.own.prov[15].passcode = v.truncate 32 ∧ (mst c 3).claim = some 15 := by
  unfold CommitRuns; decide +kernel

theorem met_claimFails :
    (∀ n ∈ [6, 7], let w := claimWord 1 15 8
      let c := found (at_ (updM (shadow provided 3 3 w) 3 (fun x => { x with fails := n }))) 0
      let d := halfOf w 3
      CommitRuns c 3 3 ∧ fld (shadowWord (mst c 3) d) 37 36 = 1 ∧ fld (shadowWord (mst c 3) d) 35 32 = (15 : Client).val ∧
      lockedOut c (mst c 3) = false ∧ c.own.prov[15].passcode ≠ (shadowWord (mst c 3) d).truncate 32 ∧ (mst c 3).fails = n ∧
      (mst c 3).lockEnd = none) ∧
    (let w := claimWord 1 15 9
     let c := found (at_ (updM (shadow provided 3 3 w) 3 (fun x => { x with lockEnd := some 144001 }))) 0
     CommitRuns c 3 3 ∧ lockedOut c (mst c 3) = true) ∧
    (let c := found (at_ (updM start 3 (fun x => { x with lockEnd := some 144000 }))) 0
     serving c = true ∧ (mst c 3).lockEnd = some 144000 ∧ 144000 ≤ c.tick) := by unfold CommitRuns; decide +kernel

theorem met_claimIsReleased :
    (let w := claimWord 2 0 0
     let c := found (at_ (shadow (claimed start 3 15) 3 3 w)) 0
     CommitRuns c 3 3 ∧ fld (shadowWord (mst c 3) (halfOf w 3)) 37 36 = 2 ∧ (mst c 3).claim = some 15) ∧
    (let w := claimWord 2 0 0
     let c := found (at_ (shadow start 3 3 w)) 0
     CommitRuns c 3 3 ∧ fld (shadowWord (mst c 3) (halfOf w 3)) 37 36 = 2 ∧ (mst c 3).claim = none) ∧
    (∀ op ∈ [0, 3], let w := claimWord op 0 0
     let c := found (at_ (shadow start 3 3 w)) 0
     CommitRuns c 3 3 ∧ fld (shadowWord (mst c 3) (halfOf w 3)) 37 36 = op) := by unfold CommitRuns; decide +kernel

/-- A commit of master 0 for CL0 of word w to register r, found in part c. -/
def wardenAt (c : Chip) (r : Fin 64) (w : Word) : Chip := found (at_ (warden c r w)) 0

theorem met_powerRequests :
    (let w := pack [(40, 3, 2)]
     let c := wardenAt running 29 w
     CommitRuns c 0 29 ∧ fld (shadowWord (mst c 0) (halfOf w 3)) 42 40 = 2 ∧ c.pw.state = .run ∧ benched c = false ∧
     anyChannelEnabled c = false) ∧
    (let w := pack [(40, 3, 2)]
     let c := wardenAt start 29 w
     CommitRuns c 0 29 ∧ fld (shadowWord (mst c 0) (halfOf w 3)) 42 40 = 2 ∧ c.pw.state ≠ .run) ∧
    (let w := pack [(40, 3, 1)]
     let c := wardenAt running 29 w
     CommitRuns c 0 29 ∧ fld (shadowWord (mst c 0) (halfOf w 3)) 42 40 = 1 ∧ c.pw.state ≠ .idle) ∧
    (let w := pack [(40, 3, 3)]
     let c := wardenAt { start with pw := { start.pw with state := .minconfig } } 29 w
     CommitRuns c 0 29 ∧ fld (shadowWord (mst c 0) (halfOf w 3)) 42 40 = 3 ∧ c.pw.state = .minconfig) ∧
    (let w := pack [(40, 3, 1)]
     let c := wardenAt { running with pw := { running.pw with state := .idle } } 29 w
     CommitRuns c 0 29 ∧ fld (shadowWord (mst c 0) (halfOf w 3)) 42 40 = 1 ∧ c.pw.state = .idle) ∧
    (let w := pack [(40, 3, 3), (32, 4, 1)]
     let c := wardenAt running 29 w
     CommitRuns c 0 29 ∧ fld (shadowWord (mst c 0) (halfOf w 3)) 42 40 = 3 ∧ c.pw.state ≠ .minconfig ∧ benched c = false ∧
     anyEnabled c = false ∧ (∀ i : ObjIx, (ownE c i).st ≠ .draining ∧ (ownE c i).st ≠ .scrubbing) ∧
     (powerctlFields c (shadowWord (mst c 0) (halfOf w 3))).wakeen ≠ 0 ∧ c.flt.srcs[(2 : Src)].st = .ok) := by
  unfold CommitRuns; decide +kernel

theorem met_wardenRegisters :
    (CommitRuns (wardenAt start 27 0) 0 27) ∧
    (let w := pack [(56, 5, 23), (48, 6, 59), (40, 6, 59), (0, 28, 159999999)]
     let c := wardenAt { start with cal := { start.cal with stage := some (2399, 12, 31) } } 28 w
     let v := shadowWord (mst c 0) (halfOf w 3)
     CommitRuns c 0 28 ∧ c.cal.stage = some (2399, 12, 31) ∧ 31 ≤ monthDays 2399 12 ∧ fld v 60 56 ≤ 23 ∧ fld v 53 48 ≤ 59 ∧
     fld v 45 40 ≤ 59 ∧ fld v 27 0 < 160000000) ∧
    (CommitRuns (wardenAt start 28 0) 0 28 ∧ (wardenAt start 28 0).cal.stage = none) ∧
    (let w := pack [(63, 1, 1), (32, 16, 65535), (0, 16, 0x4B1C)]
     let c := wardenAt start 35 w
     CommitRuns c 0 35 ∧ fld (shadowWord (mst c 0) (halfOf w 3)) 15 0 = 0x4B1C) ∧
    (let w := pack [(63, 1, 1), (32, 16, start.pw.wdTimeout), (0, 16, 1)]
     let c := wardenAt { start with pw := { start.pw with wdEn := true } } 35 w
     let v := shadowWord (mst c 0) (halfOf w 3)
     CommitRuns c 0 35 ∧ fld v 15 0 ≠ 0 ∧ fld v 15 0 ≠ 0x4B1C ∧ c.pw.wdEn = true ∧ fld v 47 32 = c.pw.wdTimeout) ∧
    (CommitRuns (wardenAt running 2 1) 0 2 ∧ inRun (wardenAt running 2 1) = true) ∧
    (let c := wardenAt start 2 1
     CommitRuns c 0 2 ∧ inConfig c = true ∧ c.img.minimal = false ∧ c.img.accept = none) := by
  unfold CommitRuns; decide +kernel

theorem met_locksAndTestKey :
    CommitRuns (wardenAt start 46 3) 0 46 ∧
    (let c := wardenAt { start with face := { start.face with testlock := true } } 47 0
     CommitRuns c 0 47 ∧ c.face.testlock = true) ∧
    (let c := wardenAt start 47 0x7E57
     CommitRuns c 0 47 ∧ c.face.testlock = false ∧ fld (shadowWord (mst c 0) 0) 15 0 = 0x7E57) ∧
    (let c := wardenAt { start with face := { start.face with keyTick := some (144000 - 16000) } } 47 0x0A11
     CommitRuns c 0 47 ∧ c.face.testlock = false ∧ fld (shadowWord (mst c 0) 0) 15 0 = 0x0A11 ∧
     c.face.keyTick = some (144000 - 16000) ∧ c.tick ≤ (144000 - 16000) + 16000) ∧
    (let c := wardenAt start 47 0
     CommitRuns c 0 47 ∧ c.face.testlock = false ∧ fld (shadowWord (mst c 0) 0) 15 0 ≠ 0x7E57 ∧
     fld (shadowWord (mst c 0) 0) 15 0 ≠ 0x0A11) := by unfold CommitRuns; decide +kernel

theorem met_faultRegisters :
    (let c := wardenAt start 23 511
     let b (d : Half) (i : Nat) : Bool := bit (shadowWord (mst c 0) d) i
     CommitRuns c 0 23 ∧ (b 0x8000 63 = true ∧ b 0x8000 62 = false ∧ b 0x8000 61 = false) ∧
     (b 0x4000 63 = false ∧ b 0x4000 62 = true ∧ b 0x4000 61 = false) ∧
     (b 0x2000 63 = false ∧ b 0x2000 62 = false ∧ b 0x2000 61 = true)) ∧
    (CommitRuns (wardenAt start 18 0) 0 18 ∧ (mst (wardenAt start 18 0) 0).claim = some 0) ∧
    (let c := wardenAt start 25 511
     CommitRuns c 0 25 ∧ fld (shadowWord (mst c 0) 0x4000) 63 62 = 1 ∧ fld (shadowWord (mst c 0) 0x8000) 63 62 = 2 ∧
     c.flt.srcs[srcN (fld (shadowWord (mst c 0) 0x8000) 8 0)].force = false) ∧
    (let c := wardenAt (updSrc start 511 (fun x => { x with force := true })) 25 511
     CommitRuns c 0 25 ∧ fld (shadowWord (mst c 0) 0xC000) 63 62 = 3 ∧
     c.flt.srcs[srcN (fld (shadowWord (mst c 0) 0xC000) 8 0)].force = true) := by unfold CommitRuns; decide +kernel

/-- A submission that waits for its decision, of CL0 by master 0. -/
def asked (op target due : Nat) : Ask :=
  { master := 0, client := 0, cmda := pack [(56, 8, op), (32, 16, target)], cmdb := 0, cmdc := 0, w := 7, due := due }

/-- The part in which one submission waits. -/
def asking (c : Chip) (a : Ask) : Chip := { claimed c 0 0 with wb := { c.wb with asks := [a] } }

theorem met_commandsAreSubmitted :
    (CommitRuns (wardenAt start 8 7) 0 8 ∧ (mst (wardenAt start 8 7) 0).claim = some 0) ∧
    (let reason (c : Chip) (a : Ask) := submitReason { c with wb := { c.wb with asks := [] } } a (argsOk a.cmda a.cmdb a.cmdc)
     let far := asked 0x01 0x800 144001
     let odd := asked 0xFF 0x800 144000
     let nop := asked 0x01 0x800 144000
     let fac : Ask := { asked 0x0A 0x800 144000 with cmdb := 0xFAC7 }
     let bad : Chip := { start with wb := { start.wb with
       clients := upd start.wb.clients 0 (fun v => { v with mismatch := true }) } }
     (asking start far).wb.asks = [far] ∧ start.tick < far.due ∧
     (odd.due ≤ start.tick ∧ reason (asking start odd) odd = 1) ∧
     (nop.due ≤ start.tick ∧ reason (asking start nop) nop = 0 ∧ (opInfo (fld nop.cmda 63 56)).isSome = true) ∧
     (reason (asking bad fac) fac = 0 ∧ (opInfo (fld fac.cmda 63 56)).isSome = true ∧
      (asking bad fac).wb.clients[(0 : Client)].mismatch = true)) := by
  unfold CommitRuns; decide +kernel

/-! ### The journal's commands -/

/-- Any entry passes. -/
def anyE : Entry → Bool := fun _ => true

/-- The part with one fetched command, as a command finds it. -/
def with1 (c : Chip) (e : Entry) : Chip := found (at_ (one c e)) 0

theorem met_nop :
    (let e := cmd 15 1 0x01 0x800 0 0 .s false; Executes (with1 start e) 0x01 anyE e) ∧
    (let e := { cmd 15 1 0x01 0x800 0 0 .s false with commit := true, commitTick := 143998 }
     let c := one start e
     onSysclk c = true ∧ serving c = true ∧ e ∈ c.wb.entries ∧ e.kind = .s ∧ e.state = .active ∧ e.commit = true ∧
     e.commitTick + 2 ≤ c.tick + 0 ∧ (∀ i : ObjIx, (ownE c i).st ≠ .draining) ∧ (∀ o : Fin 24, c.outs[o].ring = [])) ∧
    (let e := { cmd 15 1 0x01 0x800 0 0 .s false with commit := true, commitTick := 143999 }
     let c := one start e
     onSysclk c = true ∧ serving c = true ∧ e ∈ c.wb.entries ∧ e.commitTick + 2 > c.tick + 0) := by
  unfold Executes; decide +kernel

/-- A part in CONFIG that has a host version and stands as img says. -/
def hosted (f : Images → Images) : Chip := { start with pw := { start.pw with hostver := 1 }, img := f start.img }

theorem met_wardenCommands :
    (let e := cmd 0 1 0x08 0x800 0 0 .s false
     (let c := with1 (hosted id) e
      Executes c 0x08 anyE e ∧ c.pw.state = .config ∧ c.pw.hostver ≠ 0 ∧ c.img.hostMismatch = false) ∧
     (let c := with1 start e; Executes c 0x08 anyE e ∧ c.pw.state = .config ∧ c.pw.hostver = 0) ∧
     (let c := with1 (hosted (fun i => { i with hostMismatch := true })) e
      Executes c 0x08 anyE e ∧ c.pw.state = .config ∧ c.pw.hostver ≠ 0 ∧ c.img.hostMismatch = true) ∧
     (let c := with1 running e; Executes c 0x08 anyE e ∧ c.pw.state = .run) ∧
     (let c := with1 { start with pw := { start.pw with state := .minconfig } } e
      Executes c 0x08 anyE e ∧ c.pw.state = .minconfig)) ∧
    (let e := cmd 0 1 0x09 0x800 0 0 .s false
     (let c := with1 (hosted (fun i => { i with
        hostMismatch := true, slotA := { i.slotA with words := storePut i.slotA.words 4 0x100000001 } })) e
      Executes c 0x09 anyE e ∧ c.pw.state = .config ∧ c.img.hostMismatch = true ∧ hostBit c 32 c.pw.hostver = true) ∧
     (let c := with1 running e; Executes c 0x09 anyE e ∧ c.pw.state ≠ .config)) ∧
    (let e := cmd 0 1 0x07 0x800 0 0 .s true
     (let c := with1 { start with flt := { start.flt with benched := true } } e
      Executes c 0x07 anyE e ∧ anyFatal c = false ∧ benched c = true) ∧
     (let c := with1 (updSrc start 511 (fun x => { x with st := .fatal })) e
      Executes c 0x07 anyE e ∧ anyFatal c = true) ∧
     (let c := with1 start e; Executes c 0x07 anyE e ∧ anyFatal c = false ∧ benched c = false)) := by
  unfold Executes; decide +kernel

/-- The part in which object i is in state st with owner k. -/
def inSt (c : Chip) (i : ObjIx) (st : OwnSt) (k : Client) : Chip := updOwn c i (fun o => { o with st := st, owner := k })

theorem met_grant :
    let e := cmd 0 1 0x02 87 15 0 .d false
    let ok (st : OwnSt) (k : Client) (c : Chip) : Bool :=
      findExec c 0x02 anyE = some e && (ownE c 87).st = st && (ownE c 87).owner = k && (ownE c 87).nextBy = none &&
      c.own.prov[(15 : Client)].enabled
    targetOf e = (87 : ObjIx).val ∧ fld e.cmdb 3 0 = (15 : Client).val ∧
    ok .free 0 (with1 (inSt provided 87 .free 0) e) = true ∧ ok .owned 0 (with1 (inSt provided 87 .owned 0) e) = true ∧
    ok .owned 15 (with1 (inSt provided 87 .owned 15) e) = true ∧ ok .scrubbing 0 (with1 (inSt provided 87 .scrubbing 0) e) = true ∧
    ok .draining 0 (with1 (inSt provided 87 .draining 0) e) = true ∧
    ok .absent 0 (with1 (inSt provided 87 .absent 0) e) = true := by decide +kernel

theorem met_releaseAndScrub :
    let r := cmd 0 1 0x03 16 0 0 .d false
    let z := cmd 0 1 0x53 16 0 0 .l false
    let ok (e : Entry) (st : OwnSt) : Bool :=
      let c := with1 (inSt start 16 st 3) e
      findExec c (opcodeOf e) anyE = some e && (ownE c 16).st = st && (ownE c 16).nextBy = none && c.own.scrubActive = none &&
      c.own.scrubQueue = []
    targetOf r = (16 : ObjIx).val ∧ targetOf z = (16 : ObjIx).val ∧ r.client = 0 ∧ z.client = 0 ∧
    ok r .owned = true ∧ ok r .free = true ∧ ok r .absent = true ∧ ok r .scrubbing = true ∧ ok r .draining = true ∧
    ok z .owned = true ∧ ok z .free = true ∧ ok z .scrubbing = true ∧ ok z .draining = true ∧ ok z .absent = true := by decide +kernel

theorem met_apply :
    (let e := cmd 3 1 0x04 76 0 0 .s false
     let c := with1 (owns start 76 3) e
     Canonical (at_ (one (owns start 76 3) e)) ∧ Executes c 0x04 anyE e ∧ targetOf e = (76 : ObjIx).val ∧
     ownerOf c 76 = some e.client ∧ applyCheck c (objOf 76) ≠ 0) ∧
    (let e := cmd 3 1 0x04 44 0 0 .s false
     let c := with1 (owns start 44 3) e
     Canonical (at_ (one (owns start 44 3) e)) ∧ Executes c 0x04 anyE e ∧ targetOf e = (44 : ObjIx).val ∧
     ownerOf c 44 = some e.client ∧ applyCheck c (objOf 44) = 0) ∧
    (let e := cmd 0 1 0x04 0x203 0 0 .s false
     let c := with1 start e
     Executes c 0x04 anyE e ∧ targetOf e = 0x200 + (3 : Fin 4).val ∧ excCheck c 3 = 0) ∧
    (let e := cmd 0 1 0x04 0x300 0 0 .s false
     let c := with1 start e
     Executes c 0x04 anyE e ∧ targetOf e = 0x300 ∧ routerCheck c = 0) := by unfold Executes Canonical; decide +kernel

/-- A word of the staged configuration. -/
def staged (c : Chip) (a : Nat) (w : Word) : Chip := { c with mem := { c.mem with staged := storePut c.mem.staged a w } }

theorem met_faultPolicy :
    (let e := cmd 0 1 0x06 (0x400 + 511) 0 0 .s false
     let c := with1 start e
     let l := policyRange e
     Executes c 0x06 (fun e => !bit e.cmdb 63) e ∧
     l.any (fun n => isFixed n && (stg c (srcBase n) ≠ 0 || stg c (srcBase n + 8) ≠ 0)) = false ∧
     l.any (fun n => !policyValid c n) = false) ∧
    (let e := cmd 0 1 0x06 (0x400 + 511) 0 0 .s false
     let c := with1 (staged start (srcBase 511) 1) e
     Executes c 0x06 (fun e => !bit e.cmdb 63) e ∧
     (policyRange e).any (fun n => isFixed n && (stg c (srcBase n) ≠ 0 || stg c (srcBase n + 8) ≠ 0)) = true) ∧
    (let e := cmd 0 1 0x06 (0x400 + 16) 0 0 .s false
     let c := with1 (staged start (srcBase 16) 0x8000000000000000) e
     let l := policyRange e
     Executes c 0x06 (fun e => !bit e.cmdb 63) e ∧
     l.any (fun n => isFixed n && (stg c (srcBase n) ≠ 0 || stg c (srcBase n + 8) ≠ 0)) = false ∧
     l.any (fun n => !policyValid c n) = true) ∧
    (let e := cmd 0 1 0x06 0x400 (pack [(63, 1, 1), (0, 9, 511)]) 0 .s false
     Executes (with1 start e) 0x06 (fun e => bit e.cmdb 63) e) := by unfold Executes; decide +kernel

theorem met_provisioning :
    (let e := cmd 0 1 0x05 0x10F (pack [(43, 1, 1), (0, 32, 7)]) 0 .s false
     let c := with1 start e
     Executes c 0x05 anyE e ∧ targetOf e = 0x100 + (15 : Client).val ∧ (15 : Client) ≠ 0 ∧ holder c 15 = none) ∧
    (let e := cmd 0 1 0x05 0x10F (pack [(43, 1, 1), (42, 1, 1), (40, 2, 1), (0, 32, 7)]) 0 .s false
     let c := with1 (claimed start 3 15) e
     Executes c 0x05 anyE e ∧ targetOf e = 0x100 + (15 : Client).val ∧ holder c 15 = some 3 ∧ bit e.cmdb 42 = true ∧
     fld e.cmdb 41 40 % 4 ≠ (3 : Mid).val) ∧
    (let e := cmd 0 1 0x05 0x10F (pack [(43, 1, 1), (0, 32, 7)]) 0 .s false
     let c := with1 (claimed start 3 15) e
     Executes c 0x05 anyE e ∧ holder c 15 = some 3 ∧ bit e.cmdb 43 = true ∧ bit e.cmdb 42 = false) ∧
    (let e := cmd 0 1 0x05 0x100 0 0 .s false
     let c := with1 start e
     Executes c 0x05 anyE e ∧ targetOf e = 0x100 + (0 : Client).val ∧ bit e.cmdb 43 = false) := by unfold Executes; decide +kernel

theorem met_resetCommands :
    (let e := cmd 0 1 0x0B 0x800 0 0 .s true; Executes (with1 start e) 0x0B anyE e) ∧
    (let e := cmd 0 1 0x0A 0x800 0xFAC7 0 .s true
     let c := with1 start e
     Executes c 0x0A anyE e ∧ c.wb.factoryDirect = false ∧ c.wb.factory = none ∧ c.own.scrubActive = none ∧
     c.own.scrubQueue = [] ∧ (∀ j : ObjIx, (ownE c j).st = .free ∧ (ownE c j).next = none ∨ (ownE c j).st = .absent) ∧
     (ownE c 0).st = .free) := by unfold Executes; decide +kernel

/-! ### Commands on an object -/

/-- RUN with generator 0 READY at 10 kHz, and channel 15, wheel 3, OUT 23, loop 15, analog output 7, emulator 7 OWNED by client 3 with
words of their configuration in force. -/
def fitted : Chip :=
  let c := { running with exc := upd running.exc 0 (fun x => { x with ready := true, everReady := true }) }
  let c := [(15 : ObjIx), 19, 43, 67, 75, 83].foldl (fun c i => owns c i 3) c
  let c := config c 0x400 (pack [(63, 1, 1), (32, 16, 8000), (0, 17, 16000)])
  let c := config c 0x010F0000 (pack [(63, 1, 1)])
  let c := config c 0x03017000 1
  let c := config c 0x040F0000 1
  let c := config c 0x05007000 (pack [(63, 1, 1)])
  config c 0x0A007000 1

/-- A command of client 3 on object t. -/
def own3 (op t : Nat) (b z : Word) (k : Kind) : Entry := cmd 3 1 op t b z k false

/-- The premises that every command of an owner shares. -/
def Owned (c : Chip) (op : Nat) (p : Entry → Bool) (e : Entry) (i : ObjIx) : Prop :=
  Executes c op p e ∧ targetOf e = i.val ∧ ownerOf c i = some e.client

theorem met_enabled :
    (let e := own3 0x20 15 0 0 .s
     let c := with1 fitted e
     Owned c 0x20 anyE e (ixCh 15) ∧ inConfig c = false ∧ allZero c (objOf (ixCh 15)) = false ∧ c.trk[15].st = .disabled ∧
     feEnableCheck c 15 = 0 ∧ fld (trkcfg c 15) 63 62 < 2) ∧
    (let e := own3 0x20 43 0 0 .s
     let c := with1 fitted e
     Owned c 0x20 anyE e (ixOut 23) ∧ inConfig c = false ∧ allZero c (objOf (ixOut 23)) = false ∧ c.outs[23].trip = false ∧
     c.flt.srcs[srcN (322 + 3 * 23)].level = false) ∧
    (let e := own3 0x20 75 0 0 .s
     let c := with1 fitted e
     Owned c 0x20 anyE e (ixAo 7) ∧ inConfig c = false ∧ allZero c (objOf (ixAo 7)) = false ∧ c.ao[7].enabled = false ∧
     bit (aocfg c 7) 63 = true ∧ c.ao[7].checkfail = false) ∧
    (let e := own3 0x20 83 0 0 .s
     let c := with1 fitted e
     Owned c 0x20 anyE e (ixEnc 7) ∧ inConfig c = false ∧ allZero c (objOf (ixEnc 7)) = false ∧ c.enc[7].st = .disabled) ∧
    (let e := own3 0x20 67 0 0 .s
     let c := with1 fitted e
     Owned c 0x20 anyE e (ixLp 15) ∧ inConfig c = false ∧ allZero c (objOf (ixLp 15)) = false ∧ c.lp[15].mode = .disabled) ∧
    (let e := own3 0x20 19 0 0 .s
     let c := with1 fitted e
     Owned c 0x20 anyE e 19 ∧ inConfig c = false ∧ allZero c (objOf 19) = true) ∧
    (let e := own3 0x20 43 0 0 .s
     let c := with1 { fitted with pw := start.pw } e
     Owned c 0x20 anyE e (ixOut 23) ∧ inConfig c = true) := by
  unfold Owned Executes; decide +kernel

theorem met_enabledWheelAndBank :
    (let e := own3 0x20 19 0 0 .s
     let c := with1 (config fitted 0x02030000 1) e
     Owned c 0x20 anyE e (ixWh 3) ∧ inConfig c = false ∧ allZero c (objOf (ixWh 3)) = false ∧ c.wh[3].st = .disabled ∧
     settStart c 3 = false ∧ whValid c 3 = false) ∧
    (let e := own3 0x20 51 0 0 .s
     let c := with1 (config (owns fitted 51 3) (objBase (.hsb 7)) 1) e
     Owned c 0x20 anyE e (ixHsb 7) ∧ inConfig c = false ∧ allZero c (objOf (ixHsb 7)) = false ∧ c.banks[7].trip = false ∧
     c.flt.srcs[srcN (394 + 3 * 7)].level = false) := by
  unfold Owned Executes; decide +kernel

/-- Channel 15 in a state and mode. -/
def tracking (st : TrkSt) (mode : Nat) : Chip := { fitted with trk := upd fitted.trk 15 (fun x => { x with st := st, mode := mode }) }

/-- Loop 15 in a mode. -/
def looping (m : LpMode) : Chip := { fitted with lp := upd fitted.lp 15 (fun x => { x with mode := m }) }

theorem met_disabled :
    (∀ i ∈ ([0, 16, 20, 44, 52, 68, 76, 84] : List ObjIx),
      let e := own3 0x21 i.val 0 0 .s; Owned (with1 (owns fitted i 3) e) 0x21 anyE e i) ∧
    (let e := own3 0x21 15 0 0 .s
     let c := with1 (tracking .locked 0) e
     Owned c 0x21 anyE e (ixCh 15) ∧ c.trk[15].st ≠ .disabled) ∧
    (let e := own3 0x21 75 0 0 .s; Owned (with1 fitted e) 0x21 anyE e (ixAo 7)) ∧
    (let e := own3 0x21 67 0 0 .s
     let c := with1 (looping .auto) e
     Owned c 0x21 anyE e (ixLp 15) ∧ c.lp[15].mode ≠ .disabled ∧ c.flt.srcs[srcN (418 + 4 * 15)].level = false ∧
     lpDesten (lpcfg c 15) = false) := by unfold Owned Executes; decide +kernel

theorem met_modesOfChannels :
    let mode (e : Entry) : Bool := decide (targetOf e < 16 ∧ fld e.cmdb 63 60 = 0)
    let anchor (e : Entry) : Bool := decide (targetOf e < 16 ∧ fld e.cmdb 63 60 = 1)
    (∀ m ∈ [0, 1],
      let e := own3 0x22 15 (pack [(0, 2, m + 1)]) 0 .s
      let c := with1 (tracking .locked m) e
      Owned c 0x22 mode e (ixCh 15) ∧ c.trk[15].st ≠ .disabled ∧ c.trk[15].mode = m ∧ fld e.cmdb 1 0 = m + 1) ∧
    (let e := own3 0x22 15 (pack [(60, 4, 1)]) 0 .s
     let c := with1 fitted e
     Owned c 0x22 anchor e (ixCh 15) ∧ c.trk[15].st = .disabled) ∧
    (let e := own3 0x22 15 0 0 .s
     let c := with1 fitted e
     Owned c 0x22 mode e (ixCh 15) ∧ c.trk[15].st = .disabled) ∧
    (let e := own3 0x22 15 (pack [(60, 4, 1)]) 0x123400000000 .s
     let c := with1 (tracking .locked 0) e
     Owned c 0x22 anchor e (ixCh 15) ∧ c.trk[15].st = .locked ∧ channelTaken c 15 = false ∧
     (anchorTurns c 15 e.cmdc.toInt).2 = true) := by unfold Owned Executes; decide +kernel

theorem met_modesOfLoops :
    let mode (e : Entry) : Bool := decide (52 ≤ targetOf e ∧ fld e.cmdb 63 60 = 0)
    let man (e : Entry) : Bool := decide (52 ≤ targetOf e ∧ fld e.cmdb 63 60 = 1)
    (let e := own3 0x22 67 (pack [(0, 2, 1), (8, 1, 1)]) 7 .s
     let c := with1 (looping .auto) e
     Owned c 0x22 mode e (ixLp 15) ∧ c.lp[15].mode = .auto ∧ c.lp[15].pend ≠ .start ∧ fld e.cmdb 1 0 = 1 ∧ bit e.cmdb 8 = true) ∧
    (let e := own3 0x22 67 0 0 .s
     let c := with1 fitted e
     Owned c 0x22 mode e (ixLp 15) ∧ c.lp[15].mode = .disabled) ∧
    (∀ m ∈ [LpMode.manual, .disabled, .auto, .tuning],
      let e := own3 0x22 67 (pack [(60, 4, 1)]) 7 .s
      let c := with1 (looping m) e
      Owned c 0x22 man e (ixLp 15) ∧ c.lp[15].mode = m) ∧
    (let e := own3 0x23 67 7 0 .s
     let c := with1 fitted e
     Owned c 0x23 anyE e (ixLp 15) ∧ fld (lpsig c 15) 47 32 = 0) ∧
    (let e := own3 0x23 67 7 0 .s
     let c := with1 (config fitted 0x040F0008 (pack [(32, 16, 1)])) e
     Owned c 0x23 anyE e (ixLp 15) ∧ fld (lpsig c 15) 47 32 ≠ 0) ∧
    (let e := own3 0x24 67 0 0 .s
     let c := with1 fitted e
     Owned c 0x24 anyE e (ixLp 15) ∧ notchRefusal c e 15 ≠ 0) ∧
    (let e := own3 0x24 67 (pack [(0, 32, 65536)]) (pack [(32, 32, 65536)]) .s
     let c := with1 (config fitted 0x040F0000 (pack [(40, 1, 1)])) e
     Owned c 0x24 anyE e (ixLp 15) ∧ notchRefusal c e 15 = 0 ∧ bit e.cmdb 48 = false) := by unfold Owned Executes; decide +kernel

/-- A pending event of an output. -/
def hev (k : Client) (seq : Nat) (start : Int) : HEv :=
  { key := ⟨k, seq⟩, start := start, cmdc := 0, deadline := none, gated := false, notBefore := 0, held := false, ahead := true, jumped := false }

/-- OUT 23 enabled with these pending events. -/
def posting (q : List HEv) : Chip := { fitted with outs := upd fitted.outs 23 (fun x => { x with enabled := true, q := q }) }

theorem met_events :
    (let e := own3 0x30 43 (-5) 1 .d
     let c := with1 (posting [hev 3 7 (-6), hev 3 8 (-4)]) e
     Owned c 0x30 anyE e (ixOut 23) ∧ inConfig c = false ∧ c.outs[23].enabled = true ∧ c.outs[23].q.length < 32 ∧ basePub c 23 = none) ∧
    (let e := own3 0x30 43 5 1 .d
     let c := with1 fitted e
     Owned c 0x30 anyE e (ixOut 23) ∧ inConfig c = false ∧ c.outs[23].enabled = false) ∧
    (let e := own3 0x30 43 5 1 .d
     let c := with1 (posting (List.replicate 32 (hev 3 7 0))) e
     Owned c 0x30 anyE e (ixOut 23) ∧ inConfig c = false ∧ c.outs[23].enabled = true ∧ 32 ≤ c.outs[23].q.length) ∧
    (let e := own3 0x30 43 5 1 .d
     let c := with1 { posting [] with pw := start.pw } e
     Owned c 0x30 anyE e (ixOut 23) ∧ inConfig c = true) ∧
    (let e := own3 0x31 43 0 5 .s
     let c := with1 (posting [hev 3 7 4]) e
     Owned c 0x31 anyE e (ixOut 23) ∧ c.outs[23].run = none ∧ ∀ y ∈ c.outs[23].q, y.start < e.cmdc.toInt) := by
  unfold Owned Executes; decide +kernel

/-- A control command of client 3 that names client 3's command number 9. -/
def ctl (op : Nat) (k : Kind) : Entry := cmd 3 1 op 0x800 (pack [(32, 4, 3), (0, 32, 9)]) 0 k true

/-- Client 3's long operation number 9. -/
def target (st : EState) (z : Cause) : Entry := { cmd 3 9 0x10 15 0 0 .l false with state := st, cause := z }

/-- A control command and its target, as a command finds them. -/
def with2 (op : Nat) (k : Kind) (t : Entry) : Chip := found (at_ (journal fitted [ctl op k, t])) 0

theorem met_controls :
    (let t := target .queued .linkhold
     let c := with2 0x40 .d t
     ctrlTarget c (ctl 0x40 .d) = some t ∧ t.ctrl = false ∧ t.mark = .none ∧ Executes c 0x40 anyE (ctl 0x40 .d) ∧ t.kind = .l) ∧
    (∀ op ∈ [0x40, 0x42], let t := target .active .linkhold
     let c := with2 op .d t
     ctrlTarget c (ctl op .d) = some t ∧ Executes c op anyE (ctl op .d) ∧ t.state = .active ∧ opcodeOf t ≠ 0x53) ∧
    (let t := target .suspended .suspend
     let c := with2 0x41 .s t
     ctrlTarget c (ctl 0x41 .s) = some t ∧ Executes c 0x41 anyE (ctl 0x41 .s) ∧ t.cause = .suspend ∧ benched c = false) ∧
    (let t := target .queued .linkhold
     let c := with2 0x42 .d t
     ctrlTarget c (ctl 0x42 .d) = some t ∧ Executes c 0x42 anyE (ctl 0x42 .d) ∧ t.state = .queued) ∧
    (∀ op ∈ [0x40, 0x41, 0x42], let t := { target .active .linkhold with ctrl := true }
     let c := with2 op .d t
     ctrlTarget c (ctl op .d) = some t ∧ Executes c op anyE (ctl op .d) ∧ t.state ≠ .retired) ∧
    (∀ op ∈ [0x40, 0x41, 0x42],
     let c := with1 fitted (ctl op .d)
     ctrlTarget c (ctl op .d) = none ∧ Executes c op anyE (ctl op .d)) := by unfold Executes; decide +kernel

/-! ### Long operations, images and bindings -/

/-- The first step of a long operation on an object. -/
def long (c : Chip) (p : Entry → Bool) (e : Entry) : Bool := p e && (ckptDue c e || longBarred c e)

/-- What every long operation's first step shares. -/
def Starts (c : Chip) (e : Entry) : Prop :=
  e.mark = .none ∧ findEntry c (keyOf e) = some e ∧ benched c = false ∧ c.pw.sleepPending = false ∧ inConfig c = false

theorem met_longOperationsOfChannels :
    (let e := own3 0x10 15 0 0 .l
     let c := with1 fitted e
     Starts c e ∧ Owned c 0x10 (long c anyE) e (ixCh 15) ∧ discoverPre c 15 = 0) ∧
    (let e := own3 0x11 15 0 0 .l
     let c := with1 fitted e
     Starts c e ∧ Owned c 0x11 (long c (fun e => decide (fld e.cmdb 1 0 = 0))) e (ixCh 15) ∧ calibratePre c 15 false = 0) ∧
    (let e := own3 0x11 15 1 0 .l
     let c := with1 { fitted with fe := upd fitted.fe 15 (fun f => { f with sigok := true }) } e
     Starts c e ∧ Owned c 0x11 (long c (fun e => decide (fld e.cmdb 1 0 = 1))) e (ixCh 15) ∧ calibratePre c 15 true = 0) := by
  unfold Owned Starts Executes; decide +kernel

theorem met_longOperations :
    (let e := own3 0x12 67 0 0 .l
     let c := with1 (looping .auto) e
     Starts c e ∧ Owned c 0x12 (long c anyE) e (ixLp 15) ∧ c.lp[15].mode = .auto ∧ lpRunmode (lpcfg c 15) = 0 ∧
     lpGrpen (lpsup c 15) = false) ∧
    (let e := own3 0x13 19 (pack [(56, 4, 15)]) 0 .l
     let d := { fitted with trk := upd fitted.trk 15 (fun x => { x with valid := true }), wh := upd fitted.wh 3 (fun x => { x with st := .seek }) }
     let c := with1 d e
     Starts c e ∧ Owned c 0x13 (long c anyE) e (ixWh 3) ∧ c.wh[3].st ≠ .disabled ∧ learnRefOwned c e = true ∧ learnRefOk c e = true) ∧
    (let e := own3 0x52 75 5 0 .l
     let c := with1 fitted e
     Starts c e ∧ Owned c 0x52 (long c anyE) e (ixAo 7) ∧ aoSource c 7 = none ∧ c.ao[7].checkfail = false ∧ fld e.cmdb 2 0 ≠ c.ao[7].span) ∧
    (let e := cmd 0 1 0x54 0x800 1 0 .l false
     let c := with1 fitted e
     Starts c e ∧ Executes c 0x54 (fun e => ckptDue c e) e ∧ bit e.cmdb 3 = false) := by
  unfold Owned Starts Executes; decide +kernel

/-- Slot B in a state, holding the words of the image after reset as its page 0. -/
def slotB (st : SlotSt) : Chip :=
  { start with img := { start.img with slotB := { resetSlotB with st := st, words := resetImage, pages := 1, erased := 0 } } }

/-- The first step of a STAGEIMAGE. -/
def due (c : Chip) (op : Nat) (e : Entry) : Bool := decide (fld e.cmdb 63 62 = op) && ckptDue c e

/-- What an image's check at its command has read (R196, R198). -/
def readAs (c : Chip) (b err : Bool) : Chip :=
  { c with img := if b then { c.img with slotB := { c.img.slotB with readErr := err } }
                  else { c.img with slotA := { c.img.slotA with readErr := err } } }

theorem met_imagesStaged :
    (∀ op ∈ [2, 1],
      let e := cmd 0 1 0x50 0x800 (pack [(62, 2, op), (56, 1, 1)]) 0 .l false
      let c := with1 (slotB .writing) e
      e.mark = .none ∧ findEntry c (keyOf e) = some e ∧ benched c = false ∧ c.pw.sleepPending = false ∧ bit e.cmdb 56 = true ∧
      slotRefused c e = false ∧ Executes c 0x50 (due c op) e ∧ (slotOf c true).st = .writing ∧ pagesComplete (slotOf c true) = true ∧
      imageFail (slotOf (readAs c true false) true) c.img.rollctr = 0) ∧
    (∀ op ∈ [2, 0, 1],
      let e := cmd 0 1 0x50 0x800 (pack [(62, 2, op)]) 0 .l false
      let c := with1 (slotB .writing) e
      e.mark = .none ∧ findEntry c (keyOf e) = some e ∧ bit e.cmdb 56 = false ∧ slotRefused c e = true ∧
      Executes c 0x50 (due c op) e) ∧
    (let e := cmd 0 1 0x50 0x800 (pack [(62, 2, 1), (56, 1, 1)]) 0 .l false
     let c := with1 (slotB .staged) e
     slotRefused c e = false ∧ Executes c 0x50 (due c 1) e ∧ (slotOf c true).st ≠ .writing) := by
  unfold Executes; decide +kernel

/-- A CRC register stays within 32 bits. -/
theorem crcBit_lt {c : Nat} (h : c < 2 ^ 32) : crcBit c < 2 ^ 32 := by
  unfold crcBit; split
  · exact Nat.xor_lt_two_pow (by omega) (by decide)
  · omega

theorem crcWord_lt {c : Nat} (w : Word) (h : c < 2 ^ 32) : crcWord c w < 2 ^ 32 := by
  unfold crcWord
  generalize List.range 8 = l
  induction l generalizing c with
  | nil => exact h
  | cons i t ih =>
    refine ih ?_
    unfold crcByte
    iterate 8 apply crcBit_lt
    exact Nat.xor_lt_two_pow h (by omega)

theorem crc32c_lt (l : List Word) : crc32c l < 2 ^ 32 := by
  refine Nat.xor_lt_two_pow ?_ (by decide)
  generalize hc : (0xFFFFFFFF : Nat) = c
  have h : c < 2 ^ 32 := by omega
  clear hc
  induction l generalizing c with
  | nil => exact h
  | cons w t ih => exact ih _ (crcWord_lt w h)

theorem fld_crc (l : List Word) : fld (w64 (crc32c l)) 31 0 = crc32c l := by
  have := crc32c_lt l
  simp only [fld, w64, BitVec.toNat_ofNat, Nat.shiftRight_zero]
  omega

theorem met_pageStaged :
    let e := cmd 0 1 0x50 0x800 (pack [(56, 1, 1)]) (w64 (crc32c (imgbuf start))) .l false
    let c := with1 (slotB .writing) e
    e.mark = .none ∧ findEntry c (keyOf e) = some e ∧ benched c = false ∧ c.pw.sleepPending = false ∧ bit e.cmdb 56 = true ∧
    slotRefused c e = false ∧ Executes c 0x50 (due c 0) e ∧ crc32c (imgbuf c) = fld e.cmdc 31 0 ∧
    (slotOf c true).st = .writing := by
  intro e c
  have hb : crc32c (imgbuf c) = fld e.cmdc 31 0 := by
    show _ = fld (w64 (crc32c (imgbuf start))) 31 0
    rw [fld_crc]
    show crc32c (imgbuf (found _ 0)) = _
    unfold imgbuf liveW
    rw [found_mem]; rfl
  have hx : Executes c 0x50 (due c 0) e := by
    unfold Executes findExec
    rw [if_pos (by decide +kernel)]
    show List.find? _ [e] = some e
    exact List.find?_cons_of_pos (by decide +kernel)
  exact ⟨rfl, rfl, rfl, rfl, by decide +kernel, by decide +kernel, hx, hb, rfl⟩

theorem met_imagesActivated :
    (∀ st ∈ [SlotSt.staged, .eligible],
      let e := cmd 0 1 0x51 0x800 1 0 .s false
      let c := with1 (slotB st) e
      bit e.cmdb 0 = true ∧ Executes c 0x51 (fun e => !bit e.cmdb 8) e ∧ (slotOf c true).st = st ∧
      imageFail (slotOf (readAs c true false) true) c.img.rollctr = 0) ∧
    (∀ st ∈ [SlotSt.empty, .writing],
      let e := cmd 0 1 0x51 0x800 1 0 .s false
      let c := with1 (slotB st) e
      Executes c 0x51 (fun e => !bit e.cmdb 8) e ∧ (slotOf c true).st = st) ∧
    (let e := cmd 0 1 0x51 0x800 0x101 0 .s false
     let c := with1 (slotB .staged) e
     Executes c 0x51 (fun e => bit e.cmdb 8) e ∧ (slotOf c true).st ≠ .eligible) ∧
    (let e := cmd 0 1 0x51 0x800 0x101 0 .s false
     let c := with1 (slotB .eligible) e
     bit e.cmdb 0 = true ∧ Executes c 0x51 (fun e => bit e.cmdb 8) e ∧ (slotOf c true).st = .eligible ∧
     (slotOf c false).st = .eligible ∧ imageFail (slotOf (readAs c false false) false) c.img.rollctr = 0) := by unfold Executes; decide +kernel

/-- Hop 4 UP with a device of serial 5. -/
def hop4 (c : Chip) (d : DState) (pos : Fin 4) : Chip :=
  { c with link := { c.link with hops := upd c.link.hops 3 (fun x => { x with st := .up, dstate := d, serial := 5, pos := pos }) } }

/-- Position 3 is bound to serial 9. -/
def bound3 (c : Chip) : Chip :=
  { c with link := { c.link with sats := upd c.link.sats 3 (fun x => { x with bound := true, serial := 9 }) } }

theorem met_satellitesBound :
    (let e := cmd 0 1 0x60 87 4 5 .s false
     let c := with1 (hop4 start .offered 0) e
     targetOf e = 84 + (3 : Fin 4).val ∧ fld e.cmdb 2 0 = (3 : Fin 4).val + 1 ∧ c.link.hops[3].st = .up ∧
     c.link.hops[3].dstate = .offered ∧ c.link.hops[3].serial = e.cmdc ∧ Executes c 0x60 (fun e => !bit e.cmdb 8) e ∧
     c.link.sats[3].bound = false) ∧
    (let e := cmd 0 1 0x60 87 0x104 5 .s false
     let c := with1 (bound3 (hop4 start .offered 0)) e
     fld e.cmdb 2 0 = (3 : Fin 4).val + 1 ∧ c.link.hops[3].serial = e.cmdc ∧ Executes c 0x60 (fun e => bit e.cmdb 8) e ∧
     c.link.sats[3].bound = true ∧ hopOfSat c 3 = none) ∧
    (let e := cmd 0 1 0x61 87 0 0 .s false
     let c := with1 (bound3 start) e
     targetOf e = 84 + (3 : Fin 4).val ∧ Executes c 0x61 anyE e ∧ releaseRefusal c 3 = 0 ∧ hopOfSat c 3 = none) ∧
    (let e := cmd 0 1 0x61 87 0 0 .s false
     let c := with1 start e
     Executes c 0x61 anyE e ∧ c.link.sats[3].bound = false) ∧
    (let e := cmd 0 1 0x61 87 0 0 .s false
     let c := with1 (config (bound3 start) 0x0A007008 (pack [(55, 1, 1), (52, 2, 3)])) e
     Executes c 0x61 anyE e ∧ releaseRefusal c 3 = 0x6102) ∧
    (∀ b ∈ [0, 0x100],
      let e := cmd 0 1 0x60 87 (w64 (b + 4)) 5 .s false
      let ok (c : Chip) : Bool := findExec c 0x60 (fun e => bit e.cmdb 8 = decide (b = 0x100)) = some e
      ok (with1 (hop4 start .quarantined 0) e) = true ∧ ok (with1 (hop4 (bound3 start) .offered 0) e) = true ∧
      (with1 (hop4 start .quarantined 0) e).link.hops[3].dstate = .quarantined ∧
      (with1 (hop4 (bound3 start) .offered 0) e).link.sats[3].bound = true) := by unfold Executes; decide +kernel

/-! ### Events of the Weighbridge and of the ownership path -/

theorem met_fetch :
    (let e := { cmd 2 1 1 0x800 0 0 .s false with state := .queued, acceptTick := 143994 }
     let c := retireDue (with1 start e)
     mayFetch c = true ∧ pick c = some e ∧ e.kind ≠ .l) ∧
    (let e := { cmd 2 1 0x10 15 0 0 .l false with state := .queued }
     let c := retireDue (with1 start e)
     mayFetch c = true ∧ pick c = some e ∧ needsAbsentSat c e = false) := by decide +kernel

theorem met_checkpoints :
    (∀ n ∈ [1, 2, 3, 4],
      let e := { cmd 0 1 0x54 0x800 0xF 0 .l false with ckpt := n }
      let c := with1 start e
      findEntry c ⟨0, 1⟩ = some e ∧ e.kind = .l ∧ e.state = .active ∧ serving c = true ∧ ckptDue c e = true ∧ opcodeOf e = 0x54 ∧
      targetObj e = none ∧ e.mark = .none ∧ benched c = false ∧ c.pw.sleepPending = false) ∧
    (let e := { cmd 3 1 0x11 15 0 0 .l false with ckpt := 1 }
     let c := with1 (inSt start 15 .draining 3) e
     findEntry c ⟨3, 1⟩ = some e ∧ ckptDue c e = true ∧ opcodeOf e = 0x11 ∧ targetObj e = some 15 ∧ 0 < e.ckpt ∧
     (ownE c 15).st = .draining ∧ isDrainItem c 15 e = true) := by decide +kernel

theorem met_ringAndRetention :
    (let e := { cmd 3 1 0x30 43 0 0 .d false with state := .waiting }
     let r : RingRec := { key := ⟨3, 1⟩, status := 1, detail := 0, tick := 143998, recovered := false }
     let c := with1 { start with outs := upd start.outs 23 (fun x => { x with ring := [r] }) } e
     c.outs[23].ring = r :: [] ∧ r.tick + 2 ≤ c.tick ∧ serving c = true ∧ findEntry c r.key = some e ∧ e.marker = none) ∧
    (serving (found State.reset 0) = true ∧ journalWord 0 = none ∧
     patrolDone (found State.reset 0) false 0 = false) := by decide +kernel

theorem met_ownershipEvents :
    (let c := found (at_ (updOwn (inSt start 0 .draining 3) 0 (fun o => { o with drainTick := 143998 }))) 0
     (ownE c 0).st = .draining ∧ drainDue c 0 = true ∧ c.own.scrubActive = none ∧ c.own.scrubQueue = []) ∧
    (let d := inSt start 0 .scrubbing 3
     let c := found (at_ { d with own := { d.own with scrubActive := some 0, scrubStart := 144000 - 4096 } }) 0
     c.own.scrubActive = some 0 ∧ c.own.scrubStart + scrubLen c 0 ≤ c.tick ∧ serving c = true ∧ c.wb.factory = none ∧
     c.own.scrubQueue = []) ∧
    (let c := found (at_ (updOwn start 87 (fun o => { o with next := some 15, freeTick := 143999 }))) 0
     (ownE c 87).st = .free ∧ (ownE c 87).next = some 15 ∧ (ownE c 87).freeTick < c.tick ∧ serving c = true ∧ c.wb.factory = none ∧
     (ownE c 87).nextBy = none) := by decide +kernel

/-! ### Power, clocks, resets and BOOT -/

/-- The part after reset with its power controller changed. -/
def pw (f : Power → Power) : Chip := { start with pw := f start.pw }

/-- In BOOT at a step. -/
def boot (st : BootStep) (f : Power → Power) : Chip := pw (fun p => f { p with state := .boot, step := st })

/-- The part as a command finds it. -/
def seen (c : Chip) : Chip := found (at_ c) 0

theorem met_bootAdvances :
    (let c := seen (boot .a1 (fun p => { p with lfclk := true, lfCount := 8 }))
     c.pw.state = .boot ∧ c.pw.step = .a1 ∧ 8 ≤ c.pw.lfCount) ∧
    (let c := seen (boot .b (fun p => { p with stepTick := 144000 - 8192 }))
     c.pw.state = .boot ∧ c.pw.step = .b ∧ c.pw.stepTick + 8192 ≤ c.tick) ∧
    (∀ n ∈ [1, 7], let c := seen (boot .a2 (fun p => { p with lfclk := true, lfCount := n }))
     c.pw.state = .boot ∧ c.pw.step = .a2 ∧ 1 ≤ c.pw.lfCount ∧ c.pw.lfCount ≤ 7 ∧ (n = 7 → 7 ≤ c.pw.lfCount)) ∧
    (let c := seen (boot .c id)
     c.pw.state = .boot ∧ c.pw.step = .c ∧ c.flt.held = [] ∧ c.pw.lfLost = false ∧ c.own.mismatch = false ∧
     (∀ k : Client, c.wb.clients[k].mismatch = false) ∧ c.img.slotB.st ≠ .eligible ∧ c.img.slotA.st = .eligible ∧
     imageFail { c.img.slotA with readErr := false } c.img.rollctr = 0) ∧
    (let b := boot .c id
     let c := seen { b with img := { b.img with slotA := resetSlotB } }
     c.pw.step = .c ∧ c.flt.held = [] ∧ c.img.slotB.st ≠ .eligible ∧ c.img.slotA.st ≠ .eligible) ∧
    (let c := seen (boot .held (fun p => { p with nresetLow := true }))
     c.pw.state = .boot ∧ c.pw.step = .held) ∧
    (let c := seen (pw (fun p => { p with state := .backup, lfclk := true, lfCount := 32 }))
     c.pw.state = .backup ∧ 32 ≤ c.pw.lfCount ∧ c.pw.lfLost = false ∧ c.pw.lfStopped = false) := by decide +kernel

theorem met_bootEnds :
    (let c := seen (boot .dCold (fun p => { p with stepTick := 144000 - 8192, cold := true }))
     c.pw.state = .boot ∧ c.pw.step = .dCold ∧ c.pw.stepTick + 8192 ≤ c.tick ∧ c.pw.cold = true) ∧
    (let e := cmd 2 1 1 0x800 0 0 .s false
     let c := seen (one (boot .dWarm (fun p => { p with stepTick := 144000 - 8448 })) e)
     c.pw.state = .boot ∧ c.pw.step = .dWarm ∧ c.pw.stepTick + 8192 + 256 * c.wb.entries.length ≤ c.tick ∧ c.pw.cold = false ∧
     c.wb.halted = false ∧ (∀ e ∈ c.wb.entries, e.kind ≠ .l) ∧ (∀ o : Fin 24, c.outs[o].ring = []) ∧ c.img.minimal = false ∧
     c.pw.autoresume = false) := by decide +kernel

theorem met_resets :
    (vddUp (seen start) = true ∧ (seen start).pw.state ≠ .boot ∧ (seen start).pw.lfclk = false ∧
     (seen start).pw.nresetLow = false) ∧
    (let c := seen (pw (fun p => { p with wdEn := true, wdCount := 0 }))
     vddUp c = true ∧ c.pw.state ≠ .boot ∧ c.pw.wdEn = true ∧ c.pw.wdCount = 0 ∧ serving c = true ∧ c.pw.nresetLow = false) ∧
    (seen (pw (fun p => { p with state := .backup }))).pw.state = .backup ∧
    (let c := seen (pw (fun p => { p with state := .off, vdd := false, vbak := false }))
     c.pw.state = .off ∧ c.pw.vdd = false ∧ c.pw.vbak = false) ∧
    (let c := seen (pw (fun p => { p with state := .off, vdd := true, vbak := false, lfclk := true, lfCount := 64 }))
     c.pw.state = .off ∧ (c.pw.vdd || c.pw.vbak) = true ∧ 64 ≤ c.pw.lfCount) := by decide +kernel

theorem met_clocksAndMonitors :
    (let c := seen (pw (fun p => { p with state := .sleep, lfclk := true, frac := 3 }))
     c.pw.lfclk = true ∧ c.pw.state ≠ .off ∧ c.pw.lfLost = false ∧ c.pw.lfCount < 6) ∧
    (let c := seen (pw (fun p => { p with state := .sleep }))
     c.pw.lfclk = false ∧ c.pw.state = .sleep ∧ c.pw.wakeAt = none ∧ c.pw.lfLost = false) ∧
    (let c := seen { start with tick := 160144000, pw := { start.pw with vbakTick := some 144000 } }
     vddUp c = true ∧ ∀ t, c.pw.vbakTick = some t → t + 160000000 ≤ c.tick) ∧
    ((seen start).pw.lfLost = false ∧ serving (seen start) = true ∧ vddUp (seen start) = true) ∧
    (seen (pw (fun p => { p with motionArmed := true }))).pw.motionArmed = true ∧
    (let c := seen { start with cal := { start.cal with offset := w64i ((calMax + 1) * 160000000 : Nat) } }
     c.cal.endhold = false ∧ calMax < calV c c.tick / 160000000 ∧ c.pw.state ≠ .off) ∧
    (let c := seen { start with img := { start.img with rollGoal := some 64 } }
     c.img.rollGoal = some 64 ∧ 64 ≤ 64 ∧ 4 ≤ 64 ∧ c.img.rollctr ≤ 4) := by decide +kernel

theorem met_sleepAndWake :
    (let c := seen (one (pw (fun p => { p with sleepPending := true })) { cmd 3 1 0x10 15 0 0 .l false with state := .suspended })
     c.pw.sleepPending = true ∧ serving c = true ∧ (∀ e ∈ c.wb.entries, e.state ≠ .active) ∧ c.wb.asks = []) ∧
    (let e := cmd 3 1 0x10 15 0 0 .l false
     let b := { start with tick := 16000000, pw := { start.pw with sleepPending := true, reqTick := 0 } }
     let c := seen (one b e)
     e ∈ c.wb.entries ∧ c.pw.sleepPending = true ∧ c.pw.reqTick + 16000000 ≤ c.tick ∧ e.state = .active ∧ e.kind = .l) ∧
    (let c := seen (pw (fun p => { p with state := .sleep, lfclk := true, lfCount := 1, wake := none, wakeen := 15, motionArmed := true, motionMoved := true }))
     c.pw.state = .sleep ∧ c.pw.lfclk = true ∧ 1 ≤ c.pw.lfCount ∧ c.pw.wake = none ∧ c.pw.wakeen.testBit 0 = true ∧ c.pw.wakeen.testBit 1 = true ∧
     (liveW c 0x100).toNat ≤ c.tick ∧ c.pw.wakeen.testBit 2 = true ∧ c.pw.wakeen.testBit 3 = true ∧ c.pw.motionArmed = true ∧
     c.pw.motionMoved = true) ∧
    (let c := seen (pw (fun p => { p with state := .sleep, lfclk := true, wake := some 2, lfCount := 1 }))
     c.pw.state = .sleep ∧ c.pw.wake = some 2 ∧ c.pw.wakeAt = none ∧ 1 ≤ c.pw.lfCount) ∧
    (let b := pw (fun p => { p with state := .sleep, lfclk := true, lfCount := 1, wakeen := 4 })
     let c := seen { b with link := { b.link with hops := upd b.link.hops 0 (fun x => { x with wake := some (1, 0) }) } }
     c.pw.state = .sleep ∧ c.pw.lfclk = true ∧ 1 ≤ c.pw.lfCount ∧ c.pw.wake = none ∧ c.pw.wakeen.testBit 2 = true ∧
     linkAttention c 0 1 = true) ∧
    (let c := pw (fun p => { p with state := .sleep, wake := some 2, wakeAt := some 144000 })
     c.pw.state = .sleep ∧ c.pw.wakeAt = some 144000 ∧ 144000 ≤ c.tick ∧ c.pw.wake = some 2 ∧ c.flt.held = []) ∧
    (let c := seen (pw (fun p => { p with state := .idle, runPending := true }))
     c.pw.runPending = true ∧ c.pw.state = .idle) := by decide +kernel

/-! ### Generators, channels and encoder emulators -/

/-- The fitted part with generator 0 changed. -/
def gen (f : Exc → Exc) : Chip := { fitted with exc := upd fitted.exc 0 f }

theorem met_generators :
    (let c := seen { gen (fun x => { x with ready := false, softstart := true, zero := 0 }) with tick := 256000 }
     serving c = true ∧ excEn (excCfg c 0) = true ∧ c.exc[0].softstart = true ∧ c.exc[0].thermoff = false ∧
     c.exc[0].zero + 16 * excPeriod (excCfg c 0) ≤ c.tick) ∧
    (let c := seen fitted
     serving c = true ∧ c.exc[0].thermoff = false ∧ c.exc[0].foldback = false ∧ (139 : Int) < 140 ∧ (150 : Int) ≤ 150 ∧ (169 : Int) < 170) ∧
    (let c := seen (gen (fun x => { x with foldback := true }))
     serving c = true ∧ c.exc[0].thermoff = false ∧ c.exc[0].foldback = true) ∧
    (seen (gen (fun x => { x with drvoff := true }))).exc[0].drvoff = true ∧
    (let c := seen (gen (fun x => { x with ready := false, clipRun := 7 }))
     c.exc[0].drvoff = false ∧ c.exc[0].clipRun = 7 ∧ c.exc[0].ready = false) ∧
    (let c := seen (gen (fun x => { x with badRun := 15 }))
     c.exc[0].drvoff = false ∧ c.exc[0].ready = true ∧ c.exc[0].badRun = 15 ∧ 10000 * 0 < 95 * excTarget c 0) ∧
    (let c := seen fitted
     c.exc[0].drvoff = false ∧ 95 * excTarget c 0 ≤ 10000 * (7600 % 65536) ∧ 10000 * (7600 % 65536) ≤ 105 * excTarget c 0) := by
  decide +kernel

/-- Channel 15's front end changed. -/
def front (f : Fe → Fe) : Chip := { fitted with fe := upd fitted.fe 15 f, trk := upd fitted.trk 15 (fun x => { x with st := .hold }) }

/-- Sixteen samples of both inputs, a constant. -/
def samples : List (Int × Int) := List.replicate 16 (1000, 2000)

theorem met_frontEnds :
    (let c := seen { front id with tick := 148000 }
     let rows := windowRows c 15 (c.tick - 64) samples
     feRunning c 15 = true ∧ onSat c 15 = false ∧ 128 ≤ c.tick ∧ windowDue c.fe[15] (c.tick - 64) = true ∧
     (fitRef (fitRows c 15 rows false)).isSome = true ∧ (fitRef (fitRows c 15 rows true)).isSome = true ∧
     sensorAt c.fe[15] (c.tick - 64) = none) ∧
    (let c := seen (front (fun f => { f with sensvalid := true, senstick := 0 }))
     feRunning c 15 = true ∧ windowDue c.fe[15] (c.tick - 64) = true ∧
     sensorAt c.fe[15] (c.tick - 64) = some (c.fe[15].ampimb, c.fe[15].quaderr)) ∧
    (let q : Quad := { sinA := 1, sinB := 1, cosA := 0, cosB := 0, n := 1 }
     let fit (m : Nat) : Chip := seen (front (fun f => { f with magnitude := m, quad := q, fitRise := 0 }))
     let ok (c : Chip) : Bool := feRunning c 15 && refReady c 15 && decide (0 < c.fe[15].quad.n) &&
       decide (c.fe[15].fitRise < lastRise c.exc[feExc (fecfg c 15)] (chPeriod c 15) c.tick) && !bit (fecfg c 15) 60
     ok (fit (2 ^ 32)) = true ∧ lowSignal (fit (2 ^ 32)) 15 (2 ^ 32) = false) ∧
    (let d := front (fun f => { f with quad := { sinA := 1, sinB := 1, cosA := 0, cosB := 0, n := 1 }, fitRise := 0 })
     let c := seen (config d 0x010F0000 (pack [(63, 1, 1), (60, 1, 1)]))
     feRunning c 15 = true ∧ refReady c 15 = true ∧ 0 < c.fe[15].quad.n ∧
     c.fe[15].fitRise < lastRise c.exc[feExc (fecfg c 15)] (chPeriod c 15) c.tick ∧ bit (fecfg c 15) 60 = true) ∧
    (let tone (a : Int) : Tone := { sinI := a, sinQ := 0, sinD := 0, cosI := a, cosQ := 0, cosD := 0, n := 1 }
     let cal (a : Int) : Chip :=
       seen { front (fun f => { f with calFrom := some 0, tone := tone a }) with tick := 1024 * 16000 }
     let ok (a : Int) : Bool := let c := cal a
       feRunning c 15 && selfCalOn c 15 && decide (0 + 1024 * chPeriod c 15 ≤ c.tick) && !onSat c 15
     ok 0 = true ∧ (toneResult (tone 0)).any (fun q => toneBad q.2.1) = true ∧
     ok (toneRef * 2 ^ 29) = true ∧ (toneResult (tone (toneRef * 2 ^ 29))).any (fun q => !toneBad q.2.1 && !toneBad q.2.2) = true) ∧
    (let c := seen { front id with tick := 15000000 }
     feRunning c 15 = true ∧ serving c = true ∧ c.tick % 16000000 = 1000000 * (15 : Fin 16).val ∧
     bit (fecfg c 15) 62 = false ∧ c.fe[15].discrun = false ∧ c.fe[15].presrun = false ∧ onSat c 15 = false) ∧
    (let c := seen { front (fun f => { f with presrun := true, presStart := 0 }) with tick := 192000 }
     feRunning c 15 = true ∧ serving c = true ∧ c.fe[15].presrun = true ∧ c.fe[15].presStart + 192000 ≤ c.tick) := by decide +kernel

/-- A pair on its way. -/
def onWay (t : Nat) : Pair := { stamp := t, s := 0, c := 65536, w := 1, wsum := 1, wn := 1 }

/-- Channel 15 in a state, with one pair on its way. -/
def tracked (st : TrkSt) (ok : Bool) (f : Trk → Trk) : Chip :=
  { fitted with
    fe := upd fitted.fe 15 (fun x => { x with sigok := ok, flight := [onWay 143680] })
    trk := upd fitted.trk 15 (fun x => f { x with st := st }) }

theorem met_tracking :
    (∀ st ∈ [TrkSt.raw, .hold, .locked],
      let c := seen (tracked st (st != .hold) (fun x => { x with valid := true, cmdTick := some 143871 }))
      let p := onWay 143680
      feRunning c 15 = true ∧ c.fe[15].flight = p :: [] ∧ (updateDue c 15 p).2 = none ∧ (updateDue c 15 p).1 ≤ c.tick ∧
      updateSpaced c.trk[15] c.tick = true ∧ c.trk[15].st = st ∧ c.trk[15].oneshot = false ∧ c.trk[15].valid = true ∧
      c.fe[15].sigok = (st != .hold) ∧ 8 * (errorOf p c.trk[15].phi).natAbs ≤ 2 ^ 64 ∧ storeWf c.trk[15].ring = true) ∧
    (∀ q ∈ [1023, 1024],
      let c := seen (tracked .locked true (fun x => { x with winN := 4096, winQ := q }))
      c.trk[15].mode = 0 ∧ c.trk[15].st = .locked ∧ 4096 ≤ c.trk[15].winN ∧ c.trk[15].winQ = q) := by decide +kernel

theorem met_encoder :
    (∀ st ∈ [EncSt.init, .running],
      let d := { fitted with
        trk := upd fitted.trk 0 (fun x => { x with valid := true, outtick := 0 })
        enc := upd fitted.enc 7 (fun x => { x with st := st }) }
      let c := seen (owns d 0 3)
      serving c = true ∧ inReset c (.obj (ixEnc 7)) = false ∧ (encOutput c 7).isSome = true ∧ c.enc[7].benchhold = false ∧
      c.enc[7].st = st ∧ c.enc[7].resume = false ∧ c.enc[7].lastedge + encMinspace (enccfg c 7) ≤ c.tick) ∧
    (let d := { fitted with
        trk := upd fitted.trk 0 (fun x => { x with valid := true, outtick := 0 })
        enc := upd fitted.enc 7 (fun x => { x with st := .running, benchhold := true }) }
     let c := seen (owns d 0 3)
     serving c = true ∧ (encOutput c 7).isSome = true ∧ c.enc[7].st = .running ∧ c.enc[7].benchhold = true) := by decide +kernel

/-! ### The link and the satellites -/

/-- A hop changed. -/
def hop (h : Fin 4) (f : Hop → Hop) : Chip := { start with link := { start.link with hops := upd start.link.hops h f } }

theorem met_hops :
    (let c := seen (hop 0 (fun x => { x with kick := some 144000 }))
     serving c = true ∧ c.link.hops[0].st = .down ∧ c.link.hops[0].kick = some c.tick) ∧
    (let c := seen { hop 2 (fun x => { x with st := .up }) with tick := 160000 }
     serving c = true ∧ c.link.hops[3].st = .down ∧ c.link.hops[((3 : Fin 4) - 1)].st = .up ∧ c.tick % 32000 = 0) ∧
    (let c := seen (hop 3 (fun x => { x with st := .train, stamp := 144000 - 8000 }))
     c.link.hops[3].st = .train ∧ c.link.hops[3].locked = false ∧ c.link.hops[3].satLow = false ∧
     c.tick ≤ c.link.hops[3].stamp + 8000 ∧ c.tick = c.link.hops[3].stamp + 8000) ∧
    (∀ n ∈ [12800, 16000], let c := seen (hop 3 (fun x => { x with st := .train, locked := true, lockTick := 144000 - n }))
     c.link.hops[3].st = .train ∧ c.link.hops[3].locked = true ∧ c.link.hops[3].lockTick + n = c.tick) ∧
    (let c := seen (hop 3 (fun x => { x with st := .ident, stamp := 144000 - 25600 }))
     c.link.hops[3].st = .ident ∧ c.link.hops[3].stamp + 25600 = c.tick ∧ inSatset c (1 % 256) = false ∧
     inSatset c (0 % 256) = true ∧ boundTo c 5 = none) ∧
    (let c := seen (bound3 (hop 3 (fun x => { x with st := .ident, stamp := 144000 - 25600 })))
     c.link.hops[3].st = .ident ∧ inSatset c (0 % 256) = true ∧ boundTo c 9 = some 3) := by decide +kernel

/-- A hop UP whose satellite runs. -/
def upHop0 (h : Fin 4) (f : Hop → Hop) : Chip := hop h (fun x => f { x with st := .up, satSafe := false, satHopok := true })

theorem met_framesUp :
    let c := seen (upHop0 0 id)
    serving c = true ∧ c.link.hops[(0 : Fin 4)].st = .up ∧ c.tick % 200 = 0 ∧ c.link.lastUp ≠ some (frameNo c) ∧
    c.link.badRun < 3 ∧ c.link.hops[(0 : Fin 4)].satSafe = false ∧ frameGood (buildUp c 0 0 ^^^ 1) 0xE2 = false ∧
    frameGood (buildUp c 0 0 ^^^ 0) 0xE2 = true ∧ (buildUp c 0 0 ^^^ 0).toNat.testBit 8 = true := by decide +kernel

theorem met_framesDown :
    (∀ n ∈ [0, 3],
      let c := seen (upHop0 0 (fun x => { x with satBad := n }))
      let g := buildDown c (downNo c 0)
      c.link.hops[0].st = .up ∧ c.tick % 200 = 0 ∧ c.link.hops[0].lastDown ≠ some (downNo c 0) ∧
      (∀ k : Fin 4, k ≤ 0 → c.link.hops[k].satSafe = false) ∧ c.link.hops[0].dstate ≠ .admitted ∧ frameGood (g ^^^ 0) 0xB8 = true ∧
      frameGood (g ^^^ 1) 0xB8 = false ∧ c.link.hops[0].satBad = n) ∧
    (let d := upHop0 0 id
     let c := seen { d with link := { d.link with sched := [(719, 0x4000)] } }
     let g := buildDown c (downNo c 0) ^^^ 0
     frameGood g 0xB8 = true ∧ frameBits g 8 16 / 2 ^ 14 % 4 ≠ (0 : Fin 4).val) ∧
    (seen (hop 3 (fun x => { x with satBad := 4 }))).link.hops[3].satBad = 4 ∧
    (let c := seen (upHop0 3 id)
     serving c = true ∧ c.link.hops[(3 : Fin 4)].st = .up ∧ c.link.hops[(3 : Fin 4)].satSafe = false) ∧
    (seen { start with tick := 144001 }).tick % 200 ≠ 0 := by decide +kernel

theorem met_admission :
    (∀ n ∈ [1, 2],
      let c := seen (hop 3 (fun x => { x with st := .up, dstate := .admitting, pos := 2, nibs := [7, 1, n, 0, 0, 0] }))
      c.link.hops[3].st = .up ∧ serving c = true ∧ recordAt c.link.hops[3] 7 = true ∧
      (c.link.hops[3].nibs.drop 2).headD 0 = n ∧ c.link.hops[3].dstate = .admitting) ∧
    (let d := updOwn (hop 3 (fun x => { x with st := .up, dstate := .admitting, pos := 2 })) (ixSat 2) (fun o => { o with unscrubbed := true })
     let c := seen d
     c.link.hops[3].pos = 2 ∧ (ownE c (ixSat c.link.hops[3].pos)).unscrubbed = true) ∧
    (let c := seen (hop 3 (fun x => { x with
       st := .up, satSafe := false, dstate := .admitting, pos := 2, admTick := 144000 - 12800 }))
     c.link.hops[3].st = .up ∧ c.link.hops[3].dstate = .admitting ∧ c.link.hops[3].satSafe = false ∧ c.link.hops[3].pos = 2 ∧
     c.link.hops[3].admTick + 12800 ≤ c.tick) ∧
    (let c := seen { start with link := { start.link with sats := upd start.link.sats 3 (fun x => { x with bufsoft := true }) } }
     c.link.sats[3].bufsoft = true ∧ c.link.sats[3].bufTick + 16 * excPeriod (excCfg c (satBufExc (satcfg c 3))) ≤ c.tick ∧
     serving c = true) ∧
    (let e := { cmd 3 1 0x11 15 0 0 .l false with state := .suspended, cause := .linkhold, holdTick := 143999, holdLen := 1 }
     let c := with1 start e
     findEntry c ⟨3, 1⟩ = some e ∧ e.state = .suspended ∧ e.cause = .linkhold ∧ e.resumed = false ∧ e.holdTick + e.holdLen ≤ c.tick ∧
     opcodeOf e = 0x11) := by decide +kernel

/-! ### Wheels and the Hopper -/

/-- Wheel 3 with a Hall input, changed. -/
def wheel (f : Wheel → Wheel) : Chip :=
  config { running with wh := upd running.wh 3 f } 0x02030800 (pack [(62, 2, 1)])

/-- Wheel 3 with a VR input and the peak of its last edge. -/
def vrWheel (pk : Option Nat) : Chip :=
  config { running with wh := upd running.wh 3 (fun x => { x with st := .seek, peak := pk }) } 0x02030800 (pack [(62, 2, 2)])

theorem met_wheels :
    (let c := seen (wheel (fun x => { x with st := .seek }))
     c.isN = false ∧ c.pw.lfclk = false ∧ serving c = true ∧ inTransit c (ixWh 3) = false ∧ whInput (whcfg c 3) = 1 ∧
     inReset c (.obj (ixWh 3)) = false ∧ c.wh[3].st = .seek ∧ c.wh[3].last = none ∧ whDirmode (whcfg c 3) = 0) ∧
    (let c := seen (vrWheel none)
     whInput (whcfg c 3) = 2 ∧ vrArmed c 3 1000 = true ∧ vrArmed c 3 0 = false ∧ c.wh[3].jumpNow = none) ∧
    (let c := seen (config (config (wheel (fun x => { x with st := .synced, last := some 100000, hist := [(1000000, 1)] })) 0x02030800
       (pack [(62, 2, 1), (16, 9, 2)])) 0x02030008 0x80000000)
     c.isN = false ∧ inReset c (.obj (ixWh 3)) = false ∧ c.wh[3].st ≠ .disabled ∧ c.wh[3].last = some 100000 ∧
     whDirmode (whcfg c 3) = 0 ∧ c.wh[3].dir = false ∧
     isNoise c 3 false (max 1 (c.tick - (5 + whFilt (whcfg c 3) + 2) - 100000)) = true ∧ c.wh[3].jumpNow = none) ∧
    (let c := seen (wheel (fun x => { x with st := .disabled, sett := { x.sett with stopped := true } }))
     whInput (whcfg c 3) = 1 ∧ c.wh[3].st = .disabled ∧ c.wh[3].sett.stopped = true) ∧
    (∀ st ∈ [WhSt.synced, .seek, .confirm],
     let c := seen { wheel (fun x => { x with st := st, last := some 144000 }) with tick := 16144000 }
     c.isN = false ∧ serving c = true ∧ inReset c (.obj (ixWh 3)) = false ∧ c.wh[3].st = st ∧ stallDue c 3 = true) ∧
    (let c := seen { wheel id with isN := true }
     c.isN = true ∧ serving c = true ∧ c.wh[3].jumpNow = none) := by decide +kernel

theorem met_hopper :
    (let e : HEv := { hev 3 7 0 with deadline := some 144000 }
     let c := seen (posting [e])
     inReset c (.obj (ixOut 23)) = false ∧ hopLive c = true ∧ c.outs[23].q = e :: [] ∧ e.deadline = some 144000 ∧ 144000 ≤ c.tick ∧ e.notBefore ≤ c.tick ∧
     e.gated = false ∧ e.held = false ∧ e.jumped = false ∧ outBanken (outcfg c 23) = false ∧ c.outs[23].run = none ∧
     c.outs[23].trip = false ∧ baseProv c 23 = false) ∧
    (let r : HRun := { key := ⟨3, 7⟩, start := 0, cmdc := 100, tick := 143900, det := 0, endDl := none, endGated := false, lost := false }
     let c := seen { fitted with outs := upd fitted.outs 23 (fun x => { x with run := some r }) }
     c.outs[23].run = some r ∧ evAngle r.cmdc = false ∧ r.tick + fld r.cmdc 31 0 ≤ c.tick) ∧
    (let r : HRun := { key := ⟨3, 7⟩, start := 0, cmdc := 0x7FFFFFFF, tick := 0, det := 0, endDl := none, endGated := false, lost := false }
     let c := seen { fitted with tick := 16000000, outs := upd fitted.outs 23 (fun x => { x with run := some r }) }
     c.outs[23].run = some r ∧ evAngle r.cmdc = false ∧ c.tick < r.tick + fld r.cmdc 31 0 ∧ r.tick + outMaxon (outcfg c 23) ≤ c.tick) ∧
    ((seen start).banks[7].level = bankHigh (seen start) 7) ∧
    (let c := seen { start with banks := upd start.banks 7 (fun x => { x with level := true }) }
     c.banks[7].level ≠ bankHigh c 7) ∧
    (let e : HEv := { hev 3 7 0 with deadline := some 0, held := true }
     let c := seen { posting [e] with tick := 160000 }
     c.outs[23].q = e :: [] ∧ e.held = true ∧ e.deadline.getD 0 + hsbSermax (hsbcfg c (outBank (outcfg c 23))) ≤ c.tick) := by decide +kernel

theorem met_hopperChecks :
    (let c := seen fitted
     supervised c (ixOut 23) c.outs[23].trip c.outs[23].chg (objBase (.out 23)) = true) ∧
    (let c := seen (owns fitted (ixHsb 7) 3)
     supervised c (ixHsb 7) c.banks[7].trip c.banks[7].chg (objBase (.hsb 7)) = true) ∧
    (let c := seen { fitted with outs := upd fitted.outs 23 (fun x => { x with trip := true }) }
     c.outs[23].trip = true ∧ serving c = true ∧ (ownE c (ixOut 23)).st = .owned ∧ c.isN = false) ∧
    (let d := owns fitted (ixHsb 7) 3
     let c := seen { d with banks := upd d.banks 7 (fun x => { x with trip := true }) }
     c.banks[7].trip = true ∧ serving c = true ∧ (ownE c (ixHsb 7)).st = .owned) ∧
    (seen { start with isN := true }).isN = true := by decide +kernel

/-! ### Loops, analog outputs and the collector -/

/-- A boundary's loop 15: what the tick began with. -/
def began (c : Chip) : Chip := loopTriggers (looked (at_ c) 0)

theorem met_loops :
    (∀ free ∈ [false, true],
      let d : Chip := config { looping .manual with tick := 144000 } 0x040F0000 0
      let c := if free then updOwn d 67 (fun o => { o with st := .free }) else owns d 67 3
      let v := began c
      serving (seen c) = true ∧ (∀ m : Fin 16, (seen c).lp[m].mode ≠ .tuning) ∧ (seen c).tick % ceFrame v = 0 ∧
      (seen c).eng.boundary ≠ some (seen c).tick ∧ (seen c).lp[15].mode = .manual ∧ v.lp[15].mode = .manual ∧
      lpDue v 15 ((seen c).tick / ceFrame v) = true ∧ lpFrozen v 15 = free ∧ v.lp[15].pend = .none ∧ v.lp[15].warm = false ∧
      lpGrpen (lpsup v 15) = false) ∧
    (let d : Chip := { fitted with tick := 144000 }
     serving (seen d) = true ∧ (began d).lp[15].mode = .disabled ∧ (seen { d with tick := 144001 }).tick % ceFrame (began d) ≠ 0) ∧
    (let r : LpRun := { fitted.lp[15].run with tick := 136000 }
     let c := seen { fitted with lp := upd fitted.lp 15 (fun l => { l with flight := [r] }) }
     serving c = true ∧ c.lp[15].flight = [r] ∧ r.tick + ceFrame c ≤ c.tick) := by decide +kernel

theorem met_analogMonitors :
    let d : Chip := { fitted with tick := 147200, ao := upd fitted.ao 7 (fun x => { x with own := some 100000 }) }
    let c := seen d
    serving c = true ∧ (ownE c (ixAo 7)).st = .owned ∧ 400 ≤ c.tick ∧ (c.tick - 400) % 3200 = 400 * (7 : Fin 8).val ∧
    c.ao[7].own = some 100000 ∧ 100000 ≤ c.tick - 400 ∧ c.ao[7].emitTick ≤ c.tick - 400 ∧
    c.ao[7].chgtick + aoBlank (aocfg c 7) ≤ c.tick - 400 ∧ c.ao[7].mismatch = false ∧ spanEntry c 7 = none := by decide +kernel

/-- A source changed. -/
def source (n : Src) (f : Source → Source) : Chip := updSrc start n f

theorem met_collector :
    (∀ esc ∈ [0, 1],
      let d := source 96 (fun x => { x with st := .contained, escrun := true, deadline := 144000 })
      let d := config d (srcBase 96) (pack [(63, 1, 1), (60, 1, esc)])
      let c := seen d
      collectorRuns c = true ∧ c.flt.srcs[(96 : Src)].st = .contained ∧ (looked (at_ d) 0).flt.srcs[(96 : Src)].escrun = true ∧
      c.flt.srcs[(96 : Src)].deadline ≤ c.tick ∧ polEscReact (polW c 96) = 0 ∧ bit (polW c 96) 60 = decide (esc = 1)) ∧
    (looked (at_ start) 0).flt.srcs[(96 : Src)].escrun = false ∧
    (∀ st ∈ [SrcSt.corrected, .contained],
      let c := seen { source 96 (fun x => { x with st := st, quiet := 0 }) with tick := 2000000000 }
      collectorRuns c = true ∧ c.flt.srcs[(96 : Src)].st = st ∧ asserted c.flt.srcs[(96 : Src)] 96 = false ∧
      c.flt.srcs[(96 : Src)].quiet + polQuiet (timeW c 96) ≤ c.tick ∧ c.raised.any (fun r => r.src = 96) = false) ∧
    (let c := seen { source 96 (fun x => { x with wcount := 1, winTick := 0 }) with tick := 2000000000 }
     collectorRuns c = true ∧ c.flt.srcs[(96 : Src)].wcount ≠ 0 ∧ c.flt.srcs[(96 : Src)].winTick + polWin (polW c 96) ≤ c.tick) ∧
    (seen start).flt.srcs[(511 : Src)].st ≠ .fatal ∧
    (let c := seen { start with flt := { start.flt with resets := [(.obj 16, 143936)] } }
     serving c = true ∧ c.flt.resets.find? (fun r => blockResetDue c r.1 r.2) = some (.obj 16, 143936)) := by decide +kernel

/-! ### Reset and invariants -/

theorem met_canonical : Canonical State.reset := by unfold Canonical; decide +kernel

theorem met_claimsApart : ClaimsApart State.reset := by
  intro m n k h
  have none_ : ∀ m : Mid, (mst State.reset.chip m).claim = none := by decide +kernel
  rw [none_ m] at h; cases h

theorem met_steps : step { State.reset with pending := [.lfOscRestored 0] } = exec (.lfOscRestored 0) State.reset := rfl

theorem met_stepsKeepTick : ∀ (dt : Nat) (a b : Bool) (rest : List Instr), State.reset.pending ≠ .powerOnReset dt a b :: rest := by
  intro dt a b rest h; cases h

/-! ### WellFormed refuses -/

theorem smoke_registerCommit :
    (Instr.registerCommit 0 0 2 0).wf = false ∧ (Instr.registerCommit 0 0 23 0x2000).wf = false ∧
    (Instr.registerCommit 0 0 25 0x4000).wf = false ∧ (Instr.registerCommit 0 0 5 0xFFFF).wf = true ∧
    (Instr.registerCommit 0 0 23 0x1FFF).wf = true ∧ (Instr.registerCommit 0 0 25 0x3FFF).wf = true := by decide

theorem smoke_registerRead :
    (Instr.registerRead 0 0 11 0 none).wf = false ∧ (Instr.registerRead 0 0 11 1 none).wf = true ∧
    (Instr.registerRead 0 0 11 0 (some true)).wf = true := by decide

theorem smoke_fltack :
    (Instr.fltackRearm 0 0 0x7FFF).wf = false ∧ (Instr.fltackAcksrc 0 0 0xBFFF).wf = false ∧
    (Instr.fltackAckall 0 0 0xDFFF).wf = false ∧ (Instr.fltackRearm 0 0 0x8000).wf = true ∧
    (Instr.fltackAcksrc 0 0 0x4000).wf = true ∧ (Instr.fltackAckall 0 0 0x2000).wf = true := by decide

theorem smoke_fltinject :
    (Instr.fltinjectPulse 0 0 0x8000).wf = false ∧ (Instr.fltinjectSet 0 0 0x4000).wf = false ∧
    (Instr.fltinjectClear 0 0 0x8000).wf = false ∧ (Instr.fltinjectPulse 0 0 0x4000).wf = true ∧
    (Instr.fltinjectSet 0 0 0x8000).wf = true ∧ (Instr.fltinjectClear 0 0 0xC000).wf = true := by decide

theorem smoke_sequenceNumbers :
    (Instr.longOpCheckpoint 0 0 0 []).wf = false ∧ (Instr.longOpCheckpoint 0 0 0x100000000 []).wf = false ∧
    (Instr.longOpCheckpoint 0 0 1 []).wf = true ∧ (Instr.holdExpiry 0 0 0).wf = false ∧
    (Instr.holdExpiry 0 0 0x100000000).wf = false ∧ (Instr.holdExpiry 0 0 0xFFFFFFFF).wf = true := by decide

theorem smoke_addresses :
    (Instr.scrubComplete 0 (some 4)).wf = false ∧ (Instr.scrubComplete 0 (some 8)).wf = true ∧
    (Instr.ownershipMismatch 0 4).wf = false ∧ (Instr.ownershipMismatch 0 0x1008).wf = true ∧
    (Instr.sequencerCheckFail 0 65536).wf = false ∧ (Instr.sequencerCheckFail 0 65535).wf = true := by decide

theorem smoke_resets :
    (Instr.powerOnReset 0 false false).wf = false ∧ (Instr.powerOnReset 0 true false).wf = true ∧
    (Instr.replay 0 [(1024, 0)] none).wf = false ∧ (Instr.replay 0 [(0, 8)] none).wf = false ∧
    (Instr.replay 0 [] (some 1024)).wf = false ∧ (Instr.replay 0 [(1023, 7)] (some 1023)).wf = true ∧
    (Instr.rollbackProgramDone 0 65 true).wf = false ∧ (Instr.rollbackProgramDone 0 64 false).wf = true := by decide

theorem smoke_measurements :
    (Instr.generatorReady 0 0 65536).wf = false ∧ (Instr.generatorReady 0 0 65535).wf = true ∧
    (Instr.generatorLimit 0 0 false ⟨65536, 0⟩).wf = false ∧ (Instr.generatorLimit 0 0 false ⟨65535, 0⟩).wf = true ∧
    (Instr.carrierPeriodFit 0 0 32769).wf = false ∧ (Instr.carrierPeriodFit 0 0 (-32768)).wf = true ∧
    (Instr.bufferReady 0 0 65536).wf = false ∧ (Instr.bufferReady 0 0 65535).wf = true := by decide

theorem smoke_link :
    (Instr.trainingComplete 0 0 65).wf = false ∧ (Instr.trainingComplete 0 0 64).wf = true ∧
    (Instr.hopTrainFail 0 0 (.delay 64)).wf = false ∧ (Instr.hopTrainFail 0 0 (.delay 65)).wf = true ∧
    (Instr.identRecord 0 0 0 65536 0).wf = false ∧ (Instr.identRecord 0 0 0 0 256).wf = false ∧
    (Instr.identRecord 0 0 0 0x0404 1).wf = true := by decide

/-! ### Small tests: values of the spec's worked examples and tables -/

/-- The part after one command, or after reset where there is none. -/
def ran (c : Chip) (i : Instr) : Chip :=
  match exec i (at_ c) with
  | .next s => s.chip
  | _ => start

/-- What a read of halfword 0 of a register latches. -/
def reads (c : Chip) (m : Mid) (r : Fin 64) : Word := (regRead c c m r .clean 0).2

/-- Ch. 3, worked example 1: CLAIM 0x0000_0010_0000_0000 claims CL0. -/
theorem test_claim_warden :
    (mst (ran (shadow start 0 3 0x0000001000000000) (.claim 0 0 0)) 0).claim = some 0 := by decide +kernel

/-- Ch. 3, worked example 1: CMDB of CLAIMCFG for CL2, and CLIENT on MID1 afterwards. -/
theorem test_claimcfg_fields :
    (execOp (one start (cmd 0 1 0x05 0x102 0x00000D0017C4B02D 0 .s true)) 0x05 (fun _ => true) claimCfg).own.prov[2] =
      { enabled := true, passcode := 0x17C4B02D, pinen := true, pinmid := 1 } := by decide +kernel

theorem test_client_reads :
    reads (updM start 1 (fun x => { x with claim := some 2 })) 1 4 = 0x8000000000010002 := by decide +kernel

/-- Ch. 3, Table 3-5: the ownership entry of SAT0 after the first grant. -/
theorem test_ownership_entry :
    ownWord { start.own.entries[84] with gen := 1, st := .owned, owner := 2, next := none } = 0x0001000000010002 := by
  decide +kernel

/-- Ch. 6, worked example 1: IDENT halfword 0 and IMAGESTAT in CONFIG. -/
theorem test_ident_and_imagestat :
    reads start 0 0 = 0x641600010000A55A ∧ reads start 0 31 = 0x0030050301030002 := by decide +kernel

/-- Table 5-4: CALDATE after a cold start, 2000-01-01, a Saturday. -/
theorem test_caldate_cold : caldateWord { start with tick := 0 } = 0x7D010D0000000000 := by decide +kernel

/-- Ch. 5, worked example 1: the offset that the warden's commit of CALTIME derives. -/
theorem test_calendar_offset :
    calOffset (some (2031, 6, 14)) 0x091E000000000000 4608000000000 = 158797152000000000 := by decide +kernel

/-- Ch. 5, worked example 1: what CALDATE then reads. -/
theorem test_calendar_reads :
    caldateWord { start with tick := 4608000000000, cal := { start.cal with offset := 158797152000000000 } } =
      0x7EF675091E000000 := by decide +kernel

/-- Ch. 5, worked example 1: a commit of CALDATE stages year, month and day. -/
theorem test_caldate_stages :
    (busCommit (warden start 27 0x7EF6700000000000) 0 27 0x7EF6).cal.stage = some (2031, 6, 14) := by decide +kernel

/-- Table 2-7: OBJADDR takes the object address, and OBJDATAINC moves it on by 8 and stages the word. -/
theorem test_objaddr :
    (mst (busCommit (shadow (claimed start 0 1) 0 12 0x02010000) 0 12 0) 0).addr * 8 = 0x02010000 := by
  decide +kernel

theorem test_objdatainc_moves :
    let c := shadow (updM (owns (claimed start 0 1) (ixWh 1) 1) 0 (fun x => { x with addr := 0x02010000 / 8 })) 0 14 0x1999999A
    let d := busCommit c 0 14 0
    (mst d 0).addr * 8 = 0x02010008 ∧ storeGet d.mem.staged 0x02010000 = 0x1999999A ∧
    storeGet d.mem.active 0x02010000 = 0 := by decide +kernel

/-- Ch. 4, worked example 1: words 0 of the three records. -/
theorem test_records :
    recWord0 { cmd 1 0x1F41 0x30 20 0 0 .d false with status := 1 } true = 0xC130000000001F41 ∧
    recWord0 { cmd 1 0x1F42 0x04 52 0 0 .s false with status := 1 } true = 0xC104000000001F42 ∧
    recWord0 { cmd 1 0x1F43 0x01 0x800 0 0 .s false with status := 1 } false = 0x8101000000001F43 := by decide +kernel

/-- Table 4-12: an EVENTPOST that had started is recovered as DONE; one that had not started waits on. -/
theorem test_replay_eventpost :
    let e : Entry := { cmd 1 0x1F50 0x30 20 0 0 .d false with state := .waiting, started := true }
    (replayEntry start e).1.state = .retired ∧ (replayEntry start e).1.recovered = true ∧
    (replayEntry start e).1.status = 1 ∧
    replayEntry start { e with started := false } = ({ e with started := false }, false) := by decide +kernel

/-- Table 4-12: CALIBRATE in step goes on from its checkpoint; APPLY stays QUEUED. -/
theorem test_replay_others :
    let e : Entry := { cmd 2 0x0040 0x11 4 0 0 .l false with ckpt := 2 }
    (replayEntry start e).1.state = .active ∧ (replayEntry start e).1.ckpt = 2 ∧
    replayEntry start { cmd 1 0x1F53 0x04 68 0 0 .s false with state := .queued } =
      ({ cmd 1 0x1F53 0x04 68 0 0 .s false with state := .queued }, false) := by decide +kernel

/-- Ch. 8, worked example 1: SNAPSEL after a capture 400 ticks after the sample instant. -/
theorem test_snapsel :
    ageOf 0x1234567990 0x1234567800 = 399 ∧
    snapselWord { mst start 0 with snapCh := 0, snapMech := true, snapHold := pack [(48, 8, 0xC0), (32, 16, 399), (0, 32, 0x34567800)] } =
      0x08C0018F34567800 := by decide +kernel

/-- Table 8-5: with sp2 = 1.148e-7 turn² and apk = 60 turns/s², step 19, 959 Hz, wins. -/
theorem test_bandwidth_policy :
    bestStep 0 31 (1148 * 2 ^ 96 / 10000000000) (60 * 2 ^ 40) = 19 ∧ bwAt 19 = 959 := by decide +kernel

/-- Ch. 15, worked example 1: 4.20 V on span 2 and 0 V on span 0. -/
theorem test_ao_codes :
    aoCode 2 (42 * 2 ^ 48 / 10) = (0x6B85, false) ∧ aoCode 0 0 = (0x8000, false) ∧ aoCode 2 0 = (0, false) := by
  decide +kernel

/-- Ch. 15, worked example 1: DACSTAT of an enabled output on span 2. -/
theorem test_dacstat : dacstatField { start.ao[0] with span := 2, enabled := true } = 0x0A := by decide +kernel

/-- Ch. 15, worked example 1: the result word's old span, new span and largest error, below its checkpoint. -/
theorem test_span_result :
    let c := { start with ao := upd start.ao 0 (fun a => { a with oldSpan := 0, verErr := 16 }) }
    spanResult c (cmd 1 0x60 0x52 68 2 0 .l false) 0 = 0x0000020000000010 := by decide +kernel

/-- Ch. 6, worked example 1: the watchdog's word, EN with TIMEOUT 2441. -/
theorem test_wdog :
    let c := busCommit (warden start 35 0x8000098900004B1C) 0 35 0x8000
    c.pw.wdEn = true ∧ c.pw.wdTimeout = 2441 ∧ c.pw.wdCount = 2441 * 65536 := by decide +kernel

/-- Table 6-11: slot A passes the check against counter 3 and fails it, with 4, against counter 4. -/
theorem test_image_check : imageFail resetSlotA 3 = 0 ∧ imageFail resetSlotA 4 = 4 ∧ slotFail resetSlotB 3 = 5 := by
  decide +kernel

/-- R12: ties round away from zero. -/
theorem test_rounding : rdiv 3 2 = 2 ∧ rdiv (-3) 2 = -2 ∧ rdiv 5 4 = 1 ∧ rdiv (-5) 4 = -1 := by decide

/-- Table 3-6 and R97: ENABLE of a DISABLED loop that was scrubbed is refused late. -/
theorem test_enable_refused :
    let e := { cmd 2 0x33 0x20 56 0 0 .s false with state := .active }
    ((execOwned (one (owns (claimed running 1 2) 56 2) e) 0x20 (fun _ => true) enableCommand).wb.entries.map (·.status)) = [3] := by decide +kernel

/-- R16 and R371: of OUTCFG a write of all ones keeps the fields of Table 12-7 alone. -/
theorem test_reserved_bits :
    let c := shadow (updM (owns (claimed start 0 1) (ixOut 3) 1) 0 (fun x => { x with addr := objBase (.out 3) / 8 })) 0 13 0xFFFFFFFFFFFF
    stg (busCommit c 0 13 0xFFFF) (objBase (.out 3)) = fields (objBase (.out 3)) ∧ fields (objBase (.out 3)) ≠ 0xFFFFFFFFFFFFFFFF := by
  decide +kernel

/-- R291: a frame that the FY6416 or a satellite forms is good, and with one bit inverted it is not. -/
theorem test_frame_crc :
    frameGood (withCrc (0xB8 + 2 ^ 8 * 0x1234)) 0xB8 = true ∧ frameGood (withCrc (0xB8 + 2 ^ 8 * 0x1234) ^^^ (1 <<< 20)) 0xB8 = false := by
  decide +kernel

end Sys2Proof.Tests
end

section
/-! SUPPORT. Writes of the lower halfwords of a register (R41): what a served one does to its master's write shadow. -/

namespace Sys2Proof.Machine

/-! ### Two changes of one master -/

/-- The second change of one master works on what the first has made of it. -/
theorem updM_updM (c : Chip) (m : Mid) (f g : Master → Master) :
    updM (updM c m f) m g = updM c m (fun x => g (f x)) := by
  simp only [updM, upd, Fin.getElem_fin, Vector.getElem_set_self, Vector.set_set]

/-- A change of a master comes to writing its new value. -/
theorem updM_const (c : Chip) (m : Mid) (f : Master → Master) : updM c m f = updM c m (fun _ => f (mst c m)) := rfl

/-- ABANDONED of OBJSTAT is bit 2 (Table 2-11). -/
theorem setFlag_abandoned (c : Chip) (m : Mid) :
    setFlag c m 2 = updM c m (fun x => { x with flags := x.flags ||| 4#11, flagsNow := x.flagsNow ||| 4#11 }) := rfl

/-! ### The write shadow -/

/-- The shadow of x takes d as halfword h of register r. -/
def takeHalf (x : Master) (r : Fin 64) (h : Fin 3) (d : Half) : Master :=
  match h with
  | 0 => { x with wrTag := some r, wr0 := d, wf0 := true }
  | 1 => { x with wrTag := some r, wr1 := d, wf1 := true }
  | 2 => { x with wrTag := some r, wr2 := d, wf2 := true }

/-- The shadow of x is given up for another register: it empties, and ABANDONED is set (R41). -/
def abandon (x : Master) : Master :=
  { x with flags := x.flags ||| 4#11, flagsNow := x.flagsNow ||| 4#11,
           wr0 := 0, wr1 := 0, wr2 := 0, wf0 := false, wf1 := false, wf2 := false }

/-- A shadow with no tag, or tagged with the written register, takes the halfword as it stands. -/
theorem shadowWrite_kept {c : Chip} {m : Mid} {r : Fin 64} (h : Fin 3) (d : Half)
    (ht : (mst c m).wrTag = none ∨ (mst c m).wrTag = some r) :
    shadowWrite c m r h d = updM c m (fun x => takeHalf x r h d) := by
  have other : ((mst c m).wrTag.isSome && (mst c m).wrTag != some r) = false := by
    rcases ht with ht | ht <;> simp [ht]
  simp only [shadowWrite, other, Bool.false_eq_true, if_false]
  rfl

/-- A shadow tagged with another register is given up first. -/
theorem shadowWrite_abandoned {c : Chip} {m : Mid} {r : Fin 64} (h : Fin 3) (d : Half)
    (ht : ¬((mst c m).wrTag = none ∨ (mst c m).wrTag = some r)) :
    shadowWrite c m r h d = updM c m (fun x => takeHalf (abandon x) r h d) := by
  have other : ((mst c m).wrTag.isSome && (mst c m).wrTag != some r) = true := by
    simpa [Option.isSome_iff_ne_none] using ht
  simp only [shadowWrite, other, if_true, setFlag_abandoned, updM_updM]
  rfl

/-! ### The access -/

/-- A served write of halfword 0, 1 or 2 of a register that exists: the shadow takes it, and nothing drives D (R41). -/
theorem busShadow_served {c : Chip} {m : Mid} {r : Fin 64} (h : Fin 3) (d : Half) (hs : faceAt c writeTicks = .serves)
    (hr : r.val < 48) : busShadow c m r h d = driveD (shadowWrite c m r h d) none false := by
  simp only [busShadow, hs, mapped, hr, decide_true, if_true]

/-- SHADOW_HALFWORD_WRITE is the access busShadow of the part as it finds it, in the form of an access to the Face. -/
theorem exec_shadowHalfwordWrite (s : State) (dt : Nat) (m : Mid) (r : Fin 64) (h : Fin 3) (d : Half) :
    exec (.shadowHalfwordWrite dt m r h d) s = runFace s dt (fun c => busShadow c m r h d) := rfl

/-- An access to the Face whose effect on the part is to change one master and drive D has that effect. -/
theorem runFace_driveD_updM {s : State} {dt : Nat} {m : Mid} {f : Chip → Chip} {g : Master → Master} {o : Option Half}
    {w : Bool} (hf : f (found s dt) = driveD (updM (found s dt) m g) o w) :
    runFace s dt f = .next (ended s dt (driveD (updM (found s dt) m g) o w)) := by
  rw [runFace, runWith_next, hf]
  rfl

/-- Settles O3: by R41's two cases of the tag that the write finds. -/
theorem shadowTakesHalfword : Obligations.ShadowTakesHalfword := by
  intro s dt m r h d c x z hs hr
  rw [exec_shadowHalfwordWrite]
  refine runFace_driveD_updM ?_
  rw [busShadow_served h d hs hr]
  by_cases ht : x.wrTag = none ∨ x.wrTag = some r
  · have hz : z = x := if_pos ht
    rw [shadowWrite_kept h d ht, updM_const, hz]
    rfl
  · have hz : z = abandon x := if_neg ht
    rw [shadowWrite_abandoned h d ht, updM_const, hz]
    rfl

end Sys2Proof.Machine
end

section
/-! SUPPORT. Commits of CLAIM that end a claim or do nothing (R82): what the end of a claim does to its master and to the calendar
stage. -/

namespace Sys2Proof.Machine

/-! ### The end of a claim -/

/-- A master without a claim has none to end (R82). -/
theorem endClaim_of_none {c : Chip} {m : Mid} (cause : Nat) (h : (mst c m).claim = none) : endClaim c m cause = c := by
  simp only [endClaim, h]

/-- The claim of client k ends: its master's Face state is cleared (R79, R45), and the calendar stage with a claim of CL0 (R150). -/
theorem endClaim_of_some {c : Chip} {m : Mid} {k : Client} (cause : Nat) (h : (mst c m).claim = some k) :
    endClaim c m cause = { updM c m (fun x => { clearMaster x with claim := none, endcause := cause }) with
      cal := { c.cal with stage := if k = 0 then none else c.cal.stage } } := by
  by_cases hk : k = 0 <;> simp only [endClaim, h, hk, if_true, if_false] <;> rfl

/-- The end of an access does not touch a claim. -/
@[simp] theorem mst_emptyShadow_claim (c : Chip) (m : Mid) : (mst (emptyShadow c m) m).claim = (mst c m).claim := by
  rw [emptyShadow, mst_updM_self]

/-! ### A commit of CLAIM -/

/-- OP 2 ends the master's claim with ENDCAUSE 0 (R82). -/
theorem commitClaim_release {c : Chip} {m : Mid} {w : Word} (h : fld w 37 36 = 2) : commitClaim c m w = endClaim c m 0 := by
  simp only [commitClaim, h, if_true, if_false, OfNat.ofNat_ne_one]

/-- OP 0 and OP 3 have no effect (R82). -/
theorem commitClaim_idle {c : Chip} {m : Mid} {w : Word} (h : fld w 37 36 = 0 ∨ fld w 37 36 = 3) : commitClaim c m w = c := by
  rcases h with h | h <;> simp [commitClaim, h]

/-- A carried-out commit of CLAIM: the shadow empties, OP is carried out, and nothing drives D (R43, R77). -/
theorem busCommit_claim {c : Chip} {m : Mid} (d : Half) (h : CommitRuns c m 3) :
    busCommit c m 3 d = driveD (commitClaim (emptyShadow c m) m (shadowWord (mst c m) d)) none false :=
  busCommit_runs d h

/-- CLAIM and CLAIM_RELEASE are the same access: the word's OP tells them apart. -/
theorem exec_claim (s : State) (dt : Nat) (m : Mid) (d : Half) :
    exec (.claim dt m d) s = runFace s dt (fun c => busCommit c m 3 d) := rfl

theorem exec_claimRelease (s : State) (dt : Nat) (m : Mid) (d : Half) :
    exec (.claimRelease dt m d) s = runFace s dt (fun c => busCommit c m 3 d) := rfl

/-- A Face access has its effect e as it stands, if e leaves what the form of the access keeps. -/
theorem runFace_of_leaves {s : State} {dt : Nat} {f : Chip → Chip} {e : Chip} (hf : f (found s dt) = e)
    (he : leaveAll (found s dt) e = e) : runFace s dt f = .next (ended s dt e) := by
  rw [runFace, runWith_next, hf, he]

/-- A commit of CLAIM that does nothing with the word ends the access and changes nothing else. -/
theorem runFace_claim_idle {s : State} {dt : Nat} {m : Mid} {d : Half} (hr : CommitRuns (found s dt) m 3)
    (hc : commitClaim (emptyShadow (found s dt) m) m (shadowWord (mst (found s dt) m) d) = emptyShadow (found s dt) m) :
    runFace s dt (fun c => busCommit c m 3 d) = .next (ended s dt (committed (found s dt) m)) := by
  refine runFace_of_leaves ?_ rfl
  rw [busCommit_claim d hr, hc, committed]

/-- Settles O14: by the word's OP, and for OP 2 by whether the master has a claim to end. -/
theorem claimIsReleased : Obligations.ClaimIsReleased := by
  intro s dt m d k c op hr
  refine ⟨fun hop hk => ?_, fun hop hnone => ?_, fun hop => ?_⟩
  · have hk' : (mst (emptyShadow c m) m).claim = some k := (mst_emptyShadow_claim c m).trans hk
    rw [exec_claimRelease]
    refine runFace_of_leaves ?_ rfl
    rw [busCommit_claim d hr, commitClaim_release hop, endClaim_of_some 0 hk']
    rfl
  · have hnone' : (mst (emptyShadow c m) m).claim = none := (mst_emptyShadow_claim c m).trans hnone
    exact runFace_claim_idle hr ((commitClaim_release hop).trans (endClaim_of_none 0 hnone'))
  · have idle := runFace_claim_idle hr (commitClaim_idle hop)
    exact ⟨idle, idle⟩

end Sys2Proof.Machine
end

