-- ==== Sys2Proof/Proofs/Frames.lean ====
section
/-! The forms of the commands, said once: every command ends in `ended`, and its form says what it leaves alone. -/

namespace Sys2Proof.Proofs

open Sys2Proof.Machine

/-- The commands whose form may change the Face: its accesses, the resets, LOCKOUT_END, the switch of a wake, CLAIMCFG, and the commands
that end a scrub, move TICK or start the part afresh. -/
def faceRow (i : Instr) : Bool :=
  match i with
  | .shadowHalfwordWrite .. | .registerCommit .. | .busTimeout .. | .objdataRead .. | .objdataWrite .. | .objdataincRead .. |
    .objdataincWrite .. | .completionRead .. | .angsnapCapture .. | .cmdsubmit .. | .claim .. | .lockoutEnd .. | .claimRelease .. |
    .caldate .. | .caltime .. | .idleRequest .. | .runRequest .. | .sleepRequest .. | .wdogKick .. | .hostver .. | .fltackRearm .. |
    .fltackAcksrc .. | .fltackAckall .. | .fltinjectPulse .. | .fltinjectSet .. | .fltinjectClear .. | .evtack .. | .testkey .. |
    .lock .. | .registerRead .. | .claimcfg .. | .softreset .. | .factoryreset .. | .scrubComplete .. | .nextOwnerTakeover .. |
    .nresetPin .. | .brownout .. | .watchdogExpiry .. | .xtalLoss .. | .lfTick .. | .wakeSwitch .. | .powerOnReset .. => true
  | _ => false

/-- The commands that move TICK themselves. -/
def tickRow (i : Instr) : Bool :=
  match i with
  | .lfTick .. | .powerOnReset .. => true
  | _ => false

/-- Every command answers a next state, and its form leaves the variant alone, TICK, the Face, the map and the words except where its row
says so. -/
theorem exec_form (i : Instr) (s : State) :
    ∃ (dt : Nat) (d : Chip), exec i s = .next (ended s dt d) ∧ d.isN = (found s dt).isN ∧
      (tickRow i = false → d.tick = (found s dt).tick) ∧ (faceRow i = false → d.face = (found s dt).face) ∧
      (mapRow i = false → d.own = (found s dt).own) ∧ (wordRow i = false → d.mem = (found s dt).mem) := by
  cases i
  all_goals
    refine ⟨_, _, rfl, ?_, ?_, ?_, ?_, ?_⟩
    all_goals
      simp only [found, tickRow, faceRow, mapRow, wordRow, leaveFace_isN, leaveAll_isN, leaveMem_isN, leaveWords_isN, leaveOwn_isN,
        leaveMap_isN, leaveTick_isN, leaveClock_isN, leaveVariant_isN, leaveFace_tick, leaveAll_tick, leaveMem_tick, leaveWords_tick,
        leaveOwn_tick, leaveMap_tick, leaveTick_tick, leaveFace_face, leaveMem_face, leaveOwn_face, leaveFace_own, leaveAll_own,
        leaveMap_own, leaveOwn_own, leaveClock_own, leaveFace_mem, leaveAll_mem, leaveMem_mem, leaveWords_mem, leaveClock_mem,
        Bool.true_eq_false, false_implies, implies_true]

end Sys2Proof.Proofs
end

