-- ==== Sys2Proof/Proofs/Running.lean ====
section
/-! The shape of a step. -/

open Sys2Proof Sys2Proof.Machine Sys2Proof.Proofs

/-- Settles O60: the form of every command answers `ended`, which leaves the queue alone. -/
theorem noCommandEndsARun : Obligations.NoCommandEndsARun := by
  intro i s
  obtain ⟨dt, d, e, -⟩ := exec_form i s
  exact ⟨_, e, rfl⟩

/-- Settles O1: the first branch of `step`. -/
theorem stepRunsFrontCommand : Obligations.StepRunsFrontCommand := by
  intro s i rest h
  simp only [step, h]

/-- Settles O2: the other branch of `step`. -/
theorem emptyQueuePassesOneTick : Obligations.EmptyQueuePassesOneTick := by
  intro s h
  simp only [step, h]
  rfl
end

