-- ==== Sys2Proof/Proofs/Shared.lean ====
section
/-! The shared operations: the one part of the state that each changes, and what folds of them keep. -/

namespace Sys2Proof.Proofs

open Sys2Proof.Machine

/-- What every step of a fold leaves alone, the fold leaves alone. -/
theorem foldl_fixed {α σ β : Type} (π : σ → β) (f : σ → α → σ) (h : ∀ s a, π (f s a) = π s) (l : List α) (s : σ) :
    π (l.foldl f s) = π s := by
  induction l generalizing s with
  | nil => rfl
  | cons a l ih => rw [List.foldl_cons, ih, h]

/-- What every step of a fold keeps true stays true over the fold. -/
theorem foldl_keeps {α σ : Type} (P : σ → Prop) (f : σ → α → σ) (h : ∀ s a, P s → P (f s a)) (l : List α) (s : σ) (hs : P s) :
    P (l.foldl f s) := by
  induction l generalizing s with
  | nil => exact hs
  | cons a l ih => exact ih _ (h _ _ hs)

/-! ### The journal's operations change the Weighbridge alone -/

/-- Retiring an entry changes the Weighbridge's entries alone. -/
theorem retireAt_only (c : Chip) (k : Key) (st d : Nat) (r : Word) (t : Nat) :
    retireAt c k st d r t = { c with wb := { c.wb with entries := (retireAt c k st d r t).wb.entries } } := by
  unfold retireAt
  split
  · rfl
  · dsimp only
    split <;> rfl

theorem retire_only (c : Chip) (k : Key) (st d : Nat) (r : Word) :
    retire c k st d r = { c with wb := { c.wb with entries := (retire c k st d r).wb.entries } } := retireAt_only ..

@[simp] theorem retire_face (c : Chip) (k : Key) (st d : Nat) (r : Word) : (retire c k st d r).face = c.face :=
  by rw [retire_only]
@[simp] theorem retire_mem (c : Chip) (k : Key) (st d : Nat) (r : Word) : (retire c k st d r).mem = c.mem :=
  by rw [retire_only]
@[simp] theorem retire_own (c : Chip) (k : Key) (st d : Nat) (r : Word) : (retire c k st d r).own = c.own :=
  by rw [retire_only]
@[simp] theorem retire_isN (c : Chip) (k : Key) (st d : Nat) (r : Word) : (retire c k st d r).isN = c.isN :=
  by rw [retire_only]
@[simp] theorem retire_tick (c : Chip) (k : Key) (st d : Nat) (r : Word) : (retire c k st d r).tick = c.tick :=
  by rw [retire_only]

@[simp] theorem refuseLate_face (c : Chip) (e : Entry) (d : Nat) : (refuseLate c e d).face = c.face := retire_face ..
@[simp] theorem refuseLate_mem (c : Chip) (e : Entry) (d : Nat) : (refuseLate c e d).mem = c.mem := retire_mem ..
@[simp] theorem doneS_face (c : Chip) (e : Entry) : (doneS c e).face = c.face := rfl
@[simp] theorem doneS_mem (c : Chip) (e : Entry) : (doneS c e).mem = c.mem := rfl
@[simp] theorem commitS_mem (c : Chip) (e : Entry) (a b : Nat) (r : Word) : (commitS c e a b r).mem = c.mem := rfl

/-! ### Levels and events change the collector alone -/

/-- Setting a level changes the collector's sources and the raised events alone. -/
theorem setLevelR_only (c : Chip) (n : Src) (b : Bool) (r : Raise) :
    setLevelR c n b r =
      { c with flt := { c.flt with srcs := (setLevelR c n b r).flt.srcs }, raised := (setLevelR c n b r).raised } := by
  unfold setLevelR
  dsimp only
  split
  · rfl
  · split <;> rfl

@[simp] theorem setLevelR_face (c : Chip) (n : Src) (b : Bool) (r : Raise) : (setLevelR c n b r).face = c.face :=
  by rw [setLevelR_only]
@[simp] theorem setLevelR_mem (c : Chip) (n : Src) (b : Bool) (r : Raise) : (setLevelR c n b r).mem = c.mem :=
  by rw [setLevelR_only]

theorem setForce_only (c : Chip) (n : Src) (b : Bool) (r : Raise) :
    setForce c n b r = { c with flt := (setForce c n b r).flt, raised := (setForce c n b r).raised } := by
  unfold setForce
  dsimp only
  split <;> rfl

@[simp] theorem setForce_face (c : Chip) (n : Src) (b : Bool) (r : Raise) : (setForce c n b r).face = c.face :=
  by rw [setForce_only]
@[simp] theorem setForce_mem (c : Chip) (n : Src) (b : Bool) (r : Raise) : (setForce c n b r).mem = c.mem :=
  by rw [setForce_only]

theorem holdEvent_only (c : Chip) (r : Raise) : holdEvent c r = { c with flt := (holdEvent c r).flt } := by
  unfold holdEvent
  split <;> rfl

end Sys2Proof.Proofs
end

