-- ==== Sys2Proof/Proofs/FaceKey.lean ====
section
/-! Who acts as which client, and the two lock bits: what each operation of the Face does to them. -/

namespace Sys2Proof.Proofs

open Sys2Proof.Machine

/-- The claims of the masters and the bits of LOCK. -/
def faceKey (c : Chip) : (Mid → Option Client) × Bool × Bool := (fun m => (mst c m).claim, c.face.trimlock, c.face.testlock)

/-- Equal Faces have equal claims and locks. -/
theorem faceKey_of_face {c d : Chip} (h : d.face = c.face) : faceKey d = faceKey c := by
  simp only [faceKey, mst, h]

/-- A change of a master that keeps its claim. -/
theorem faceKey_updM (c : Chip) (m : Mid) (f : Master → Master) (h : ∀ x, (f x).claim = x.claim) : faceKey (updM c m f) = faceKey c := by
  have hc : ∀ n, (mst (updM c m f) n).claim = (mst c n).claim := by
    intro n
    rw [mst_updM]
    split
    · next e => rw [h, e]
    · rfl
  simp only [faceKey, hc]
  rfl

@[simp] theorem faceKey_raiseR (c : Chip) (r : Raise) : faceKey (raiseR c r) = faceKey c := rfl
@[simp] theorem faceKey_driveD (c : Chip) (d : Option Half) (w : Bool) : faceKey (driveD c d w) = faceKey c := rfl
@[simp] theorem faceKey_setFlag (c : Chip) (m : Mid) (i : Nat) : faceKey (setFlag c m i) = faceKey c := faceKey_updM _ _ _ fun _ => rfl
@[simp] theorem faceKey_emptyShadow (c : Chip) (m : Mid) : faceKey (emptyShadow c m) = faceKey c := faceKey_updM _ _ _ fun _ => rfl
@[simp] theorem faceKey_objAdvance (c : Chip) (m : Mid) : faceKey (objAdvance c m) = faceKey c := faceKey_updM _ _ _ fun _ => rfl
@[simp] theorem faceKey_unmapped (c : Chip) (m : Mid) (a : Nat) (r : Fin 64) (h : Nat) : faceKey (unmapped c m a r h) = faceKey c := by
  simp [unmapped]
@[simp] theorem faceKey_deny (c : Chip) (m : Mid) (a : Nat) (r : Fin 64) : faceKey (deny c m a r) = faceKey c := by simp [deny]
@[simp] theorem faceKey_objRefuse (c : Chip) (m : Mid) (a b d f : Nat) : faceKey (objRefuse c m a b d f) = faceKey c := by
  simp [objRefuse]
@[simp] theorem faceKey_retUncorr (c : Chip) (r : Raise) : faceKey (retUncorr c r) = faceKey c := rfl
@[simp] theorem faceKey_latch (c : Chip) (m : Mid) (r : Fin 64) (w : Word) : faceKey (latch c m r w) = faceKey c :=
  faceKey_updM c m _ fun _ => rfl
@[simp] theorem faceKey_bump (c : Chip) (m : Mid) (r : Fin 64) : faceKey (bump c m r) = faceKey c := by
  unfold bump
  split <;> simp
@[simp] theorem faceKey_retCorrected (c : Chip) (r : Raise) (l : Option (Nat × Nat)) : faceKey (retCorrected c r l) = faceKey c := by
  unfold retCorrected
  dsimp only
  split
  · rfl
  · split
    · split <;> rfl
    · rfl
@[simp] theorem faceKey_unserved (c : Chip) (f : FaceCond) (m : Mid) (a : Nat) (r : Fin 64) : faceKey (unserved c f m a r) = faceKey c := by
  unfold unserved
  split <;> rfl

/-! ### Reads -/

@[simp] theorem faceKey_objRead (v c : Chip) (m : Mid) (e : Ecc) : faceKey (objRead v c m e).1 = faceKey c := by
  unfold objRead
  dsimp only
  split
  · simp
  split
  · simp
  split
  · rfl
  split
  · simp
  split <;> simp

@[simp] theorem faceKey_completionRead (v c : Chip) (m : Mid) (k : Client) (e : Ecc) (w : Fin 8) :
    faceKey (completionRead v c m k e w).1 = faceKey c := by
  have h : ∀ d : Chip, faceKey (completionEnd v d k) = faceKey d := by
    intro d
    unfold completionEnd
    split
    · rfl
    · split <;> rfl
  unfold completionRead
  split
  · rfl
  · split <;> simp [h]

@[simp] theorem faceKey_angsnapCapture (v c : Chip) (m : Mid) (k : Client) : faceKey (angsnapCapture v c m k).1 = faceKey c := by
  unfold angsnapCapture
  dsimp only
  split
  · exact faceKey_updM _ _ _ fun _ => rfl
  · rw [angsnapRefuse, faceKey_raiseR, faceKey_setFlag]
    exact faceKey_updM _ _ _ fun _ => rfl

@[simp] theorem faceKey_regRead (v c : Chip) (m : Mid) (r : Fin 64) (e : Ecc) (w : Fin 8) :
    faceKey (regRead v c m r e w).1 = faceKey c := by
  unfold regRead
  dsimp only
  split
  any_goals rfl
  all_goals simp

@[simp] theorem faceKey_busRead (v c : Chip) (m : Mid) (r : Fin 64) (h : Fin 4) (e : Ecc) (w : Fin 8) :
    faceKey (busRead v c m r h e w) = faceKey c := by
  unfold busRead readLow readHigh
  dsimp only
  repeat' split
  all_goals simp

@[simp] theorem faceKey_protocolError (c : Chip) (m : Mid) (r : Fin 64) (h : Fin 4) (w : Bool) :
    faceKey (protocolError c m r h w) = faceKey c := by
  unfold protocolError
  split <;> simp

@[simp] theorem faceKey_timeoutFlags (v c : Chip) (m : Mid) (r : Fin 64) (h : Fin 4) (b : Bool) :
    faceKey (timeoutFlags v c m r h b) = faceKey c := by
  unfold timeoutFlags angsnapRefuse
  repeat' split
  all_goals simp

@[simp] theorem faceKey_busTimeout (v c : Chip) (m : Mid) (r : Fin 64) (h : Fin 4) (b : Bool) :
    faceKey (busTimeout v c m r h b) = faceKey c := by
  unfold busTimeout
  dsimp only
  split
  · rfl
  · rfl
  · rfl
  · rw [faceKey_raiseR, faceKey_driveD]
    split
    · refine (faceKey_updM _ _ _ ?_).trans (faceKey_timeoutFlags ..)
      exact fun _ => rfl
    · exact faceKey_timeoutFlags ..

@[simp] theorem faceKey_busShadow (c : Chip) (m : Mid) (r : Fin 64) (h : Fin 3) (d : Half) : faceKey (busShadow c m r h d) = faceKey c := by
  have hs : faceKey (shadowWrite c m r h d) = faceKey c := by
    unfold shadowWrite
    dsimp only
    rw [faceKey_updM]
    · split <;> simp
    · intro x
      split <;> split <;> rfl
  unfold busShadow
  split
  · split <;> simp [hs]
  · simp

/-! ### Submissions -/

@[simp] theorem faceKey_writeSubmit (c : Chip) (a : Ask) (w : Word) : faceKey (writeSubmit c a w) = faceKey c := by
  unfold writeSubmit
  split
  · exact faceKey_updM _ _ _ fun _ => rfl
  · rfl

theorem faceKey_wb (c : Chip) (w : Wb) : faceKey { c with wb := w } = faceKey c := rfl

@[simp] theorem faceKey_decideAsk (c : Chip) (a : Ask) (b : Bool) : faceKey (decideAsk c a b) = faceKey c := by
  have hr : ∀ n, faceKey (refuseSubmit c a n) = faceKey c := by
    intro n
    unfold refuseSubmit
    dsimp only
    split <;> simp [faceKey_wb]
  have ha : ∀ o, faceKey (acceptSubmit c a o) = faceKey c := by
    intro o
    simp [acceptSubmit, faceKey_wb, chooseLoc]
  unfold decideAsk
  dsimp only
  split
  · exact hr _
  split
  · rfl
  split
  · simp [faceKey_wb]
  · exact ha _

@[simp] theorem faceKey_decideDue (c : Chip) : faceKey (decideDue c) = faceKey c := by
  refine foldl_fixed faceKey _ (fun d a => ?_) c.wb.asks c
  split
  · rw [faceKey_decideAsk, faceKey_wb]
  · rfl

end Sys2Proof.Proofs
end

