-- ==== Sys2Proof/Proofs/Claims.lean ====
section
/-! No operation lets two masters act as one client, and none clears a lock bit. -/

namespace Sys2Proof.Proofs

open Sys2Proof.Machine

/-- No two masters of a part act as the same client. -/
def Apart (c : Chip) : Prop := ∀ (m n : Mid) (k : Client), (mst c m).claim = some k → (mst c n).claim = some k → m = n

/-- What a part must keep of another: claims apart, and the bits of LOCK that are set. -/
structure FaceSafe (c d : Chip) : Prop where
  apart : Apart c → Apart d
  trim : c.face.trimlock = true → d.face.trimlock = true
  test : c.face.testlock = true → d.face.testlock = true

theorem FaceSafe.trans {a b c : Chip} (h : FaceSafe a b) (g : FaceSafe b c) : FaceSafe a c :=
  ⟨g.apart ∘ h.apart, g.trim ∘ h.trim, g.test ∘ h.test⟩

/-- Claims that only end, and locks that stay, are safe. -/
theorem FaceSafe.of_loses {c d : Chip} (h : ∀ m k, (mst d m).claim = some k → (mst c m).claim = some k)
    (ht : d.face.trimlock = c.face.trimlock) (hs : d.face.testlock = c.face.testlock) : FaceSafe c d :=
  ⟨fun ha m n k hm hn => ha m n k (h m k hm) (h n k hn), fun h => ht.trans h, fun h => hs.trans h⟩

theorem FaceSafe.of_key {c d : Chip} (h : faceKey d = faceKey c) : FaceSafe c d := by
  obtain ⟨hc, ht, hs⟩ := Prod.mk.injEq .. ▸ Prod.mk.injEq .. ▸ h
  exact .of_loses (fun m k hk => (congrFun hc m).symm.trans hk) ht hs

theorem FaceSafe.of_face {c d : Chip} (h : d.face = c.face) : FaceSafe c d := .of_key (faceKey_of_face h)

/-- A reset of the Face ends every claim and keeps LOCK (R69, R83). -/
theorem FaceSafe.of_reset {c d : Chip} (h : d.face = resetFace c.face) : FaceSafe c d := by
  refine .of_loses (fun m k hk => ?_) (by rw [h]; rfl) (by rw [h]; rfl)
  have hn : (mst d m).claim = none := by
    unfold mst
    rw [h, resetFace, Fin.getElem_fin, Vector.getElem_map]
    rfl
  rw [hn] at hk
  cases hk

/-! ### Claims -/

/-- The end of a claim changes the masters and the calendar's stage alone. -/
theorem endClaim_only (c : Chip) (m : Mid) (z : Nat) :
    endClaim c m z = { c with face := { c.face with masters := (endClaim c m z).face.masters }, cal := (endClaim c m z).cal } := by
  cases h : (mst c m).claim with
  | none => rw [endClaim_of_none z h]
  | some k => rw [endClaim_of_some z h]; rfl

@[simp] theorem endClaim_mem (c : Chip) (m : Mid) (z : Nat) : (endClaim c m z).mem = c.mem := by rw [endClaim_only]
@[simp] theorem endClaim_own (c : Chip) (m : Mid) (z : Nat) : (endClaim c m z).own = c.own := by rw [endClaim_only]

/-- The masters after the end of a claim (R82): the one that held it has none, with the cause; the others are as before. -/
theorem mst_endClaim (c : Chip) (m n : Mid) (z : Nat) :
    mst (endClaim c m z) n =
      if m = n ∧ (mst c m).claim.isSome = true then { clearMaster (mst c m) with claim := none, endcause := z } else mst c n := by
  cases h : (mst c m).claim with
  | none => simp [endClaim_of_none z h]
  | some k =>
    rw [endClaim_of_some z h]
    exact (mst_updM c m n _).trans (by simp)

theorem endClaim_claim_self (c : Chip) (m : Mid) (z : Nat) : (mst (endClaim c m z) m).claim = none := by
  rw [mst_endClaim]
  cases h : (mst c m).claim <;> simp [h]

theorem endClaim_loses (c : Chip) (m : Mid) (z : Nat) (n : Mid) (k : Client) (h : (mst (endClaim c m z) n).claim = some k) :
    (mst c n).claim = some k := by
  rw [mst_endClaim] at h
  split at h
  · cases h
  · exact h

theorem faceSafe_endClaim (c : Chip) (m : Mid) (z : Nat) : FaceSafe c (endClaim c m z) :=
  .of_loses (endClaim_loses c m z) (by rw [endClaim_only]) (by rw [endClaim_only])

/-- The master that holds a client, if one does (R84). -/
theorem holder_spec {c : Chip} {k : Client} {m : Mid} (h : holder c k = some m) : (mst c m).claim = some k := by
  have := List.find?_some h
  simpa [mst] using this

theorem holder_none {c : Chip} {k : Client} (h : holder c k = none) (m : Mid) : (mst c m).claim ≠ some k := by
  have := List.find?_eq_none.mp h m (List.mem_finRange m)
  simpa [mst] using this

/-- A claim that is granted for a client that no master holds any more. -/
theorem faceSafe_take {c : Chip} {m : Mid} {k : Client} {f : Master → Master} (hf : ∀ x, (f x).claim = some k)
    (hk : ∀ n, (mst c n).claim ≠ some k) : FaceSafe c (updM c m f) := by
  refine ⟨fun ha i j l hi hj => ?_, id, id⟩
  rw [mst_updM] at hi hj
  split at hi <;> split at hj
  · next e1 e2 => rw [← e1, ← e2]
  · rw [hf] at hi
    exact absurd (hj.trans hi.symm) (hk j)
  · rw [hf] at hj
    exact absurd (hi.trans hj.symm) (hk i)
  · exact ha i j l hi hj

/-- The claim of the master that held a client ends before another takes it (R78). -/
theorem faceSafe_claimGrant (c : Chip) (m : Mid) (k : Client) : FaceSafe c (claimGrant c m k) := by
  have hstage : ∀ d : Chip, FaceSafe d (if k = 0 then { d with cal := { d.cal with stage := none } } else d) := by
    intro d
    split <;> exact .of_face rfl
  unfold claimGrant
  split
  · exact .of_key (faceKey_updM _ _ _ fun _ => rfl)
  · dsimp only
    have take : ∀ d : Chip, (Apart c → Apart d) → (Apart c → ∀ n, (mst d n).claim ≠ some k) → (d.face.trimlock = c.face.trimlock) →
        (d.face.testlock = c.face.testlock) →
        FaceSafe c (updM (if k = 0 then { endClaim d m 0 with cal := { (endClaim d m 0).cal with stage := none } } else endClaim d m 0) m
          (fun s => { clearMaster s with claim := some k, fails := 0, badlast := false })) := by
      intro d ha hd ht hs
      have hsafe := (faceSafe_endClaim d m 0).trans (hstage (endClaim d m 0))
      refine ⟨fun hc => ?_, fun h => hsafe.trim (ht.trans h), fun h => hsafe.test (hs.trans h)⟩
      refine (faceSafe_take (fun _ => rfl) fun n hn => hd hc n (endClaim_loses d m 0 n k ?_)).apart (hsafe.apart (ha hc))
      split at hn <;> exact hn
    cases hh : holder c k with
    | none => exact take c id (fun _ => holder_none hh) rfl rfl
    | some h =>
      refine take (endClaim c h 1) (faceSafe_endClaim c h 1).apart (fun hc n hn => ?_) (by rw [endClaim_only]) (by rw [endClaim_only])
      have e : n = h := hc n h k (endClaim_loses c h 1 n k hn) (holder_spec hh)
      rw [e, endClaim_claim_self] at hn
      cases hn

theorem faceKey_lockoutOver (c : Chip) (m : Mid) : faceKey (lockoutOver c m) = faceKey c := by
  unfold lockoutOver
  split
  · exact faceKey_updM _ _ _ fun _ => rfl
  · rfl

theorem faceKey_claimFail (c : Chip) (m : Mid) : faceKey (claimFail c m) = faceKey c := by
  unfold claimFail
  dsimp only
  split
  · rw [faceKey_raiseR, faceKey_updM _ _ _ (by exact fun _ => rfl), faceKey_updM _ _ _ (by exact fun _ => rfl), faceKey_raiseR]
  · rw [faceKey_updM _ _ _ (by exact fun _ => rfl), faceKey_raiseR]

theorem faceSafe_commitClaim (c : Chip) (m : Mid) (w : Word) : FaceSafe c (commitClaim c m w) := by
  have h0 := FaceSafe.of_key (faceKey_lockoutOver c m)
  unfold commitClaim
  dsimp only
  split
  · split
    · exact h0
    · split
      · split
        · exact h0.trans (faceSafe_claimGrant _ _ _)
        · exact h0.trans (.of_key (faceKey_claimFail _ _))
      · exact h0
  · split
    · exact faceSafe_endClaim _ _ _
    · exact .of_face rfl

/-! ### Commits -/

theorem faceKey_objWrite (c : Chip) (m : Mid) (w : Word) : faceKey (objWrite c m w) = faceKey c := by
  have hs : ∀ (a : Nat) (k : Client), faceKey (writeLive c a w m k) = faceKey c := by
    intro a k
    unfold writeLive
    split
    · exact faceKey_of_face (setForce_face ..)
    · dsimp only
      split
      · unfold aoSetWritten aoDeliver
        dsimp only
        split
        · rfl
        · split <;> rfl
      · rfl
  unfold objWrite
  dsimp only
  repeat' split
  any_goals rfl
  all_goals simp [hs]

/-- A commit of LOCK sets bits (R69). -/
theorem faceSafe_commitLock (c : Chip) (w : Word) : FaceSafe c (commitLock c w) :=
  ⟨id, fun h => by simp [commitLock, h], fun h => by simp [commitLock, h]⟩

theorem faceKey_commitTestkey (c : Chip) (m : Mid) (w : Word) : faceKey (commitTestkey c m w) = faceKey c := by
  unfold commitTestkey
  dsimp only
  repeat' split
  all_goals rfl

theorem commitHostver_face (c : Chip) (m : Mid) (w : Word) : (commitHostver c m w).face = c.face := by
  unfold commitHostver hostCheck
  dsimp only
  repeat' split
  all_goals rfl

theorem commitAlarmstat_face (c : Chip) (w : Word) : (commitAlarmstat c w).face = c.face := by
  unfold commitAlarmstat
  split <;> rfl

theorem commitFltack_face (c : Chip) (w : Word) : (commitFltack c w).face = c.face := by
  unfold commitFltack
  dsimp only
  repeat' split
  all_goals rfl

theorem commitFltinject_face (c : Chip) (m : Mid) (w : Word) : (commitFltinject c m w).face = c.face := by
  unfold commitFltinject
  dsimp only
  split
  any_goals rfl
  all_goals exact setForce_face ..

theorem calendarWrite_face (c : Chip) (m : Mid) (w : Word) (k : Option Client) : (calendarWrite c m w k).face = c.face := by
  unfold calendarWrite
  dsimp only
  split <;> rfl

theorem commitPowerctl_face (c : Chip) (w : Word) : (commitPowerctl c w).face = c.face := by
  unfold commitPowerctl reqRun reqIdle reqSleep
  dsimp only
  repeat' split
  all_goals rfl

theorem commitWdog_face (c : Chip) (m : Mid) (w : Word) : (commitWdog c m w).face = c.face := by
  unfold commitWdog
  dsimp only
  split <;> rfl

theorem faceKey_submit (c : Chip) (m : Mid) (k : Client) (w : Word) : faceKey (submit c m k w) = faceKey c :=
  faceKey_updM _ _ _ fun _ => rfl

theorem faceSafe_regWrite (c : Chip) (m : Mid) (r : Fin 64) (w : Word) : FaceSafe c (regWrite c m r w) := by
  unfold regWrite
  dsimp only
  split
  case h_1 => exact .of_face (commitHostver_face ..)
  case h_2 => exact faceSafe_commitClaim ..
  case h_6 => exact .of_key ((faceKey_decideDue _).trans (faceKey_submit ..))
  case h_9 => exact .of_key (faceKey_objWrite ..)
  case h_10 => exact .of_key ((faceKey_objAdvance _ _).trans (faceKey_objWrite ..))
  case h_14 => exact .of_face (commitAlarmstat_face ..)
  case h_15 => exact .of_face (commitFltack_face ..)
  case h_16 => exact .of_face (commitFltinject_face ..)
  case h_18 => exact .of_face (calendarWrite_face ..)
  case h_19 => exact .of_face (commitPowerctl_face ..)
  case h_22 => exact .of_face (commitWdog_face ..)
  case h_24 => exact faceSafe_commitLock ..
  case h_25 => exact .of_key (faceKey_commitTestkey ..)
  any_goals exact .of_face rfl
  all_goals exact .of_key (faceKey_updM _ _ _ fun _ => rfl)

theorem faceSafe_busCommit (c : Chip) (m : Mid) (r : Fin 64) (d : Half) : FaceSafe c (busCommit c m r d) := by
  have hdrive : ∀ a b : Chip, FaceSafe a b → FaceSafe a (driveD b none false) := fun a b h => h.trans (.of_key (faceKey_driveD ..))
  unfold busCommit
  split
  · split
    · refine hdrive _ _ ?_
      unfold commitAt
      dsimp only
      split
      · exact .of_key (by simp)
      split
      · exact .of_key (by simp)
      split
      · exact (FaceSafe.of_key (faceKey_emptyShadow c m)).trans (faceSafe_regWrite ..)
      · exact .of_key (by simp)
    · exact .of_key (by simp)
  · exact .of_key (by simp)

end Sys2Proof.Proofs
end

