-- ==== Sys2Proof/Proofs/Passing.lean ====
section
/-! The resets and the passing of time: what they do to claims and locks. -/

namespace Sys2Proof.Proofs

open Sys2Proof.Machine

/-! ### Time -/

theorem faceKey_clearNow (c : Chip) : faceKey (clearNow c) = faceKey c := by
  have h : ∀ m : Mid, (mst (clearNow c) m).claim = (mst c m).claim := by
    intro m
    simp only [mst, clearNow, Fin.getElem_fin, Vector.getElem_map]
  simp only [faceKey, h]
  rfl

@[simp] theorem faceKey_keep (a b : Chip) : faceKey (keep a b) = faceKey a := rfl

theorem faceKey_advance (c : Chip) (n : Nat) : faceKey (advance c n) = faceKey c := by
  have h := faceKey_clearNow { c with tick := c.tick + n }
  have hw : ∀ d : Chip, faceKey (if d.pw.wdEn && serving d then { d with pw := { d.pw with wdCount := d.pw.wdCount - n } } else d) =
      faceKey d := by
    intro d
    split
    · exact faceKey_of_face rfl
    · rfl
  have hk : ∀ d : Chip, faceKey (if serving d then keep d (mergeLate (drainItems (retireDue d))) else d) = faceKey d := by
    intro d
    split
    · exact faceKey_keep d _
    · rfl
  unfold advance
  split
  · exact (hk _).trans ((hw _).trans h)
  · rfl

theorem faceSafe_settle (c : Chip) : FaceSafe c (settle c) := by
  have own : FaceSafe c (ownWork c) := by
    obtain ⟨-, -, -, -, h⟩ := ownWork_fixed c
    refine .of_key ((faceKey_of_face h).trans ((faceKey_decideDue _).trans ?_))
    split
    · exact faceKey_of_face (wakeDone_face c)
    · rfl
  unfold settle
  split
  · split
    · obtain ⟨-, -, -, -, h⟩ := takeChipReset_fixed c ‹_›
      exact .of_reset h
    · exact own
  · exact own

theorem faceSafe_tickOnce (c : Chip) : FaceSafe c (tickOnce c) := by
  unfold tickOnce
  split
  · exact (FaceSafe.of_key (faceKey_advance c 1)).trans (faceSafe_settle _)
  · exact .of_face rfl

theorem faceSafe_ticks (c : Chip) (n : Nat) : FaceSafe c (ticks c n) := by
  induction n generalizing c with
  | zero => exact .of_face rfl
  | succ n ih => exact (faceSafe_tickOnce c).trans (ih _)

theorem faceSafe_passTicks (c : Chip) (n : Nat) : FaceSafe c (passTicks c n) := by
  unfold passTicks
  split
  · exact faceSafe_ticks c n
  · exact (faceSafe_ticks c _).trans (.of_key (faceKey_advance ..))

/-- The ticks before a command keep claims apart and locks set. -/
theorem faceSafe_found (s : State) (dt : Nat) : FaceSafe s.chip (found s dt) := by
  unfold found lapse
  split
  · exact .of_face rfl
  · dsimp only
    have h := faceSafe_passTicks s.chip
    split
    · exact (h _).trans (faceSafe_tickOnce _)
    · exact (h _).trans (.of_key (faceKey_advance ..))

/-! ### Resets -/

theorem nresetPin_face (c : Chip) (n : Nat) : (nresetPin c n).face = c.face ∨ (nresetPin c n).face = resetFace c.face := by
  unfold nresetPin
  dsimp only
  split
  · exact .inr (warmReset_face ..)
  · exact .inl rfl

/-- The part of a brown-out's reset that moves to the oscillator leaves the Face alone. -/
theorem toLf_face (c : Chip) : (toLf c).face = c.face := rfl

theorem brownout_face (c : Chip) : (brownout c).face = c.face ∨ (brownout c).face = resetFace c.face := by
  have harm : ∀ d : Chip, (armMotion d).face = d.face := by
    intro d
    unfold armMotion
    split <;> rfl
  have hl : ∀ (b : Bool) (d : Chip), (if b = true then toLf d else d).face = d.face := by
    intro b d
    split <;> rfl
  unfold brownout
  split
  · right
    dsimp only
    rw [harm, keep_face, hl]
    dsimp only
    rw [warmReset_face]
  · exact .inl rfl

theorem watchdogExpiry_face (c : Chip) : (watchdogExpiry c).face = c.face ∨ (watchdogExpiry c).face = resetFace c.face := by
  unfold watchdogExpiry
  split
  · exact .inr (warmReset_face ..)
  · exact .inl rfl

theorem clockLoss_face (c : Chip) (b : Bool) : (clockLoss c b).face = c.face ∨ (clockLoss c b).face = resetFace c.face := by
  unfold clockLoss
  split
  · exact .inr (warmReset_face ..)
  · exact .inl rfl

theorem FaceSafe.of_reset_or {c d : Chip} (h : d.face = c.face ∨ d.face = resetFace c.face) : FaceSafe c d :=
  h.elim .of_face .of_reset

theorem wakeSwitch_face (c : Chip) : (wakeSwitch c).face = c.face := by
  unfold wakeSwitch
  split <;> rfl

theorem wakeSwitch_tick (c : Chip) : (wakeSwitch c).tick = c.tick := by
  unfold wakeSwitch
  split <;> rfl

theorem lfStep_face (c : Chip) : (lfStep c).face = c.face := by
  unfold lfStep
  dsimp only
  split <;> rfl

theorem lfStep_tick (c : Chip) : c.tick ≤ (lfStep c).tick := by
  unfold lfStep
  dsimp only
  split <;> exact Nat.le_add_right _ _

/-- An oscillator edge leaves the Face alone. -/
theorem lfTick_face (c : Chip) : (lfTick c).face = c.face := by
  unfold lfTick
  dsimp only
  repeat' split
  any_goals rfl
  · rw [wakeSwitch_face, lfStep_face]
  · exact lfStep_face c

/-- TICK does not go back at an oscillator edge (R143). -/
theorem lfTick_tick (c : Chip) : c.tick ≤ (lfTick c).tick := by
  unfold lfTick
  dsimp only
  repeat' split
  any_goals exact Nat.le_refl _
  · rw [wakeSwitch_tick]
    exact lfStep_tick c
  · exact lfStep_tick c

theorem faceSafe_clockEdge (c : Chip) : FaceSafe c (clockEdge c) := by
  have h := FaceSafe.of_face (lfTick_face c)
  unfold clockEdge
  dsimp only
  split
  · exact h
  · exact h.trans ((FaceSafe.of_key (faceKey_clearNow _)).trans (faceSafe_settle _))

theorem clockEdge_tick (c : Chip) : c.tick ≤ (clockEdge c).tick := by
  unfold clockEdge
  dsimp only
  split
  · exact lfTick_tick c
  · rw [settle_tick]
    exact lfTick_tick c

/-! ### Scrubs and FACTORYRESET -/

/-- The end of the claim of a master that holds a client, where a condition on it says so. -/
def dropHolder (d : Chip) (o : Option Mid) (b : Mid → Bool) : Chip :=
  match o with
  | some m => if b m then endClaim d m 3 else d
  | none => d

theorem faceSafe_dropHolder (d : Chip) (o : Option Mid) (b : Mid → Bool) : FaceSafe d (dropHolder d o b) := by
  cases o with
  | none => exact .of_face rfl
  | some m =>
    unfold dropHolder
    dsimp only
    split
    · exact faceSafe_endClaim d m 3
    · exact .of_face rfl

theorem faceSafe_claimCfg (c : Chip) (e : Entry) : FaceSafe c (claimCfg c e) := by
  unfold claimCfg
  cases fin? 16 (targetOf e - 0x100) with
  | none => exact .of_face rfl
  | some k =>
    dsimp -zeta only
    extract_lets b old pass p own d d2
    split
    · exact .of_face (refuseLate_face ..)
    · refine FaceSafe.trans (b := d) (.of_face rfl) (FaceSafe.trans (b := d2) ?_ (.of_face (doneS_face ..)))
      exact faceSafe_dropHolder d (holder d k) fun m => !p.enabled || (p.pinen && decide (p.pinmid ≠ m))

theorem newEpoch_face (c : Chip) : (newEpoch c).face = c.face := by
  unfold newEpoch
  rw [setLevelR_face]
  rfl

theorem newEpoch_mem (c : Chip) : (newEpoch c).mem = c.mem := by
  unfold newEpoch
  rw [setLevelR_mem]
  rfl

theorem faceSafe_factoryDone (c : Chip) : FaceSafe c (factoryDone c) := by
  have fold : ∀ (l : List Mid) (d : Chip), FaceSafe d (l.foldl (fun c m => endClaim c m 3) d) := by
    intro l
    induction l with
    | nil => exact fun d => .of_face rfl
    | cons m l ih => exact fun d => (faceSafe_endClaim d m 3).trans (ih _)
  have fact : ∀ d : Chip, FaceSafe d (List.foldl (fun c m => endClaim c m 3) d (allFin 4)) := fold (allFin 4)
  unfold factoryDone
  generalize allFin 4 = l at fact ⊢
  dsimp only
  refine FaceSafe.trans ?_ (.of_face (setLevelR_face ..))
  refine (FaceSafe.of_face (newEpoch_face c)).trans ?_
  generalize newEpoch c = d
  refine FaceSafe.trans (b := { d with own :=
    { d.own with prov := provReset, entries := d.own.entries.map freeEntry, mismatch := false, scrubQueue := [] } }) (.of_face rfl) ((fact _).trans ?_)
  generalize List.foldl (fun c m => endClaim c m 3) _ l = b
  exact .of_face rfl

theorem faceSafe_factoryNext (c : Chip) : FaceSafe c (factoryNext c) := by
  unfold factoryNext
  split
  · exact .of_face rfl
  · dsimp only
    split
    · exact .of_face rfl
    · split
      · exact faceSafe_factoryDone c
      · split
        · exact .of_face rfl
        · split <;> exact .of_face rfl

theorem scrubStartBlock_face (c : Chip) (i : ObjIx) : (scrubStartBlock c i).face = c.face := by
  unfold scrubStartBlock
  split <;> rfl

theorem scrubNext_face (c : Chip) : (scrubNext c).face = c.face := by
  unfold scrubNext
  split
  · exact scrubStartBlock_face ..
  · rfl

theorem sendRecord_only (c : Chip) (h : Fin 4) (t p n : Nat) :
    sendRecord c h t p n = { c with link := (sendRecord c h t p n).link } := by
  unfold sendRecord
  dsimp only
  split <;> rfl

theorem clearLevels_only (c : Chip) (i : ObjIx) :
    clearLevels c i = { c with flt := { c.flt with srcs := (clearLevels c i).flt.srcs }, raised := (clearLevels c i).raised } := by
  unfold clearLevels
  generalize allFin 512 = l
  induction l generalizing c with
  | nil => rfl
  | cons n l ih =>
    rw [List.foldl_cons, ih]
    split
    · rw [setLevelR_only c n false]
    · rfl

/-- A scrub of a block keeps who acts as which client (Table 3-4). -/
theorem faceKey_scrubBlock (c : Chip) (i : ObjIx) : faceKey (scrubBlock c i) = faceKey c := by
  have hm : ∀ (n : Fin 16) (x : Master),
      (if x.holdCh = some n then { x with spdHold := 0, snapHold := 0, holdCh := none } else x).claim = x.claim := by
    intro n x
    split <;> rfl
  have hl : ∀ (d : Chip) (i : ObjIx), faceKey (clearLevels d i) = faceKey d := by
    intro d i
    rw [clearLevels_only]
    exact faceKey_of_face rfl
  unfold scrubBlock
  dsimp only
  rw [hl]
  split
  · simp only [faceKey, mst, Fin.getElem_fin, Vector.getElem_map, hm]
    exact congrArg _ rfl
  any_goals exact faceKey_of_face rfl
  · split
    · rw [sendRecord_only]
      exact faceKey_of_face rfl
    · exact faceKey_of_face rfl

end Sys2Proof.Proofs
end

