-- ==== Sys2Proof/Proofs/Transit.lean ====
section
/-! Scrubs, takeovers, FACTORYRESET and the power-on reset keep claims apart; with them every command does. -/

namespace Sys2Proof.Proofs

open Sys2Proof.Machine

@[simp] theorem moveOwn_face (c : Chip) (i : ObjIx) (f : OwnEntry → OwnEntry) : (moveOwn c i f).face = c.face := rfl
@[simp] theorem scrubCkpt_face (c : Chip) (i : ObjIx) (n : Nat) : (scrubCkpt c i n).face = c.face := rfl
@[simp] theorem retireList_face (c : Chip) (l : List Key) : (retireList c l).face = c.face :=
  foldl_fixed Chip.face _ (fun _ _ => retire_face ..) l c

/-- Writes of the object words and of the ownership map do not count for claims and locks. -/
theorem FaceSafe.mem {c d : Chip} (h : FaceSafe c d) (m : ObjMem) : FaceSafe c { d with mem := m } := ⟨h.apart, h.trim, h.test⟩
theorem FaceSafe.wb {c d : Chip} (h : FaceSafe c d) (w : Wb) : FaceSafe c { d with wb := w } := ⟨h.apart, h.trim, h.test⟩
theorem FaceSafe.refl (c : Chip) : FaceSafe c c := ⟨id, id, id⟩

theorem scrubNext_faceKey (c : Chip) : faceKey (scrubNext c) = faceKey c := faceKey_of_face (scrubNext_face c)

/-- The part whose object i is to be scrubbed: its words are zeroed, and the scrubber is idle. -/
def scrubIn (c : Chip) (i : ObjIx) : Chip :=
  { c with mem := c.mem.zeroBlock (objBase (objOf i)) (objBase (objOf i) + objSpan (objOf i)), own := { c.own with scrubActive := none } }

/-- The part after the scrub of an object (R93): its block is fresh as well. -/
def scrubbed (c : Chip) (i : ObjIx) : Chip := { scrubBlock (scrubIn c i) i with mem := (scrubIn c i).mem }

/-- A scrub is complete: the active object's length has passed in a running state. -/
def scrubDone (c : Chip) (i : ObjIx) : Prop :=
  c.own.scrubActive = some i ∧ c.own.scrubStart + scrubLen c i ≤ c.tick ∧ serving c = true

/-- What a scrub does whose verification finds a nonzero word at an address (R95): S034, and the object keeps its state. -/
def unverified (c : Chip) (i : ObjIx) (a : Nat) : Chip :=
  factoryNext (scrubNext (raiseR (updOwn c i (fun o => { o with scrubFailed := true })) (evAt c 34 9 accRead 2 a none)))

/-- A scrub whose verification fails. -/
theorem scrubComplete_some {c : Chip} {i : ObjIx} (h : scrubDone c i) (a : Nat) :
    scrubComplete c (some a) = unverified (scrubbed c i) i a := by
  obtain ⟨ha, hd⟩ := h
  unfold scrubComplete
  rw [ha]
  exact if_pos hd

/-- What a verified scrub does (R93, R87): the object is FREE, and what waits for that retires. -/
def verified (c : Chip) (i : ObjIx) : Chip :=
  let o := ownE c i
  let c := { c with own := { c.own with scrubCount := wrapInc16 c.own.scrubCount } }
  let c := moveOwn (scrubCkpt c i 3) i (fun o => { o with
    st := .free, atFree := [], freeTick := c.tick, owner := 0, scrubFailed := false })
  factoryNext (scrubNext (retireList c o.atFree))

/-- A scrub that is verified. -/
theorem scrubComplete_none {c : Chip} {i : ObjIx} (h : scrubDone c i) :
    scrubComplete c none = verified (scrubbed c i) i := by
  obtain ⟨ha, hd⟩ := h
  unfold scrubComplete
  rw [ha]
  dsimp -zeta only
  rw [if_pos hd]
  extract_lets +onlyGivenNames b own d e f
  have hd : d = scrubIn c i := rfl
  clear_value d
  have hf : f = scrubbed c i := by
    subst hd
    rfl
  rw [← hf]
  clear_value f
  rfl

/-- Without a scrub that is complete nothing happens. -/
theorem scrubComplete_not {c : Chip} (h : ∀ i, ¬ scrubDone c i) (fail : Option Nat) : scrubComplete c fail = c := by
  unfold scrubComplete
  cases ha : c.own.scrubActive with
  | none => rfl
  | some i => exact if_neg fun hd => h i ⟨ha, hd⟩

theorem chip_mem_face (c : Chip) (m : ObjMem) : ({ c with mem := m } : Chip).face = c.face := rfl

theorem scrubbed_face (c : Chip) (i : ObjIx) : (scrubbed c i).face = (scrubBlock (scrubIn c i) i).face :=
  chip_mem_face (scrubBlock (scrubIn c i) i) (scrubIn c i).mem

theorem faceKey_scrubbed (c : Chip) (i : ObjIx) : faceKey (scrubbed c i) = faceKey c :=
  (faceKey_of_face (scrubbed_face c i)).trans
    ((faceKey_scrubBlock (scrubIn c i) i).trans (faceKey_of_face (c := c) (d := scrubIn c i) rfl))

theorem faceSafe_unverified (c : Chip) (i : ObjIx) (a : Nat) : FaceSafe c (unverified c i a) := by
  unfold unverified
  refine .trans (.of_key ?_) (faceSafe_factoryNext _)
  rw [scrubNext_faceKey, faceKey_raiseR]
  exact faceKey_of_face rfl

theorem faceSafe_verified (c : Chip) (i : ObjIx) : FaceSafe c (verified c i) := by
  unfold verified
  refine .trans (.of_key ?_) (faceSafe_factoryNext _)
  rw [scrubNext_faceKey, faceKey_of_face (retireList_face ..)]
  exact faceKey_of_face rfl

theorem faceSafe_scrubComplete (c : Chip) (fail : Option Nat) : FaceSafe c (scrubComplete c fail) := by
  by_cases h : ∃ i, scrubDone c i
  · obtain ⟨i, h⟩ := h
    have hk := FaceSafe.of_key (faceKey_scrubbed c i)
    cases fail with
    | some a =>
      rw [scrubComplete_some h]
      exact hk.trans (faceSafe_unverified ..)
    | none =>
      rw [scrubComplete_none h]
      exact hk.trans (faceSafe_verified ..)
  · rw [scrubComplete_not fun i hi => h ⟨i, hi⟩]
    exact .refl c

theorem faceSafe_takeover (c : Chip) (i : ObjIx) : FaceSafe c (takeover c i) := by
  unfold takeover
  extract_lets o
  split
  · split
    · refine .trans (.of_face ?_) (faceSafe_factoryNext _)
      split
      · exact retire_face ..
      · rfl
    · exact .of_face rfl
  · exact .of_face rfl

theorem faceSafe_factoryExec (c : Chip) : FaceSafe c (factoryExec c) := by
  unfold factoryExec
  split
  · exact .of_face rfl
  · exact ((FaceSafe.refl c).wb _).trans (faceSafe_factoryNext _)

theorem softReset_face (c : Chip) (e : Entry) : (softReset c e).face = resetFace c.face := warmReset_face ..

/-- The release of the power-on reset leaves no claim (R45). -/
theorem apart_powerOnReset (c : Chip) (a b : Bool) (h : Apart c) : Apart (powerOnReset c a b) := by
  unfold powerOnReset
  split
  · split
    · intro m n k hm
      have e : ∀ x y z u v w p q, (mst (coldChip c.isN x y z u v w p q) m).claim = none := by
        intros
        unfold mst
        rw [coldChip, coldFace, Fin.getElem_fin, Vector.getElem_replicate]
        rfl
      rw [e] at hm
      cases hm
    · exact h
  · exact h

/-- What a command executes on keeps claims and locks where its body does. -/
theorem faceSafe_execOp {body : Chip → Entry → Chip} (h : ∀ c e, FaceSafe c (body c e)) (c : Chip) (op : Nat) (p : Entry → Bool) :
    FaceSafe c (execOp c op p body) := by
  unfold execOp
  split
  · exact h ..
  · exact .of_face rfl

/-- Every command but the release of the power-on reset keeps claims apart and locks set. -/
theorem exec_faceSafe (i : Instr) (s : State) (hi : ∀ dt a b, i ≠ .powerOnReset dt a b) :
    ∃ (dt : Nat) (d : Chip), exec i s = .next (ended s dt d) ∧ FaceSafe (found s dt) d := by
  by_cases hf : faceRow i = false
  · obtain ⟨dt, d, e, -, -, h, -⟩ := exec_form i s
    exact ⟨dt, d, e, .of_face (h hf)⟩
  have all : ∀ (dt : Nat) (d : Chip), FaceSafe (found s dt) d → FaceSafe (found s dt) (leaveAll (found s dt) d) :=
    fun _ _ h => h.trans (.of_face rfl)
  cases i
  any_goals exact absurd rfl hf
  case powerOnReset dt a b => exact absurd rfl (hi dt a b)
  case registerCommit dt m r d => exact ⟨_, _, rfl, (faceSafe_busCommit (found s dt) m r d).trans (.of_face rfl)⟩
  case objdataWrite dt m d => exact ⟨_, _, rfl, (faceSafe_busCommit (found s dt) m 13 d).trans (.of_face rfl)⟩
  case objdataincWrite dt m d => exact ⟨_, _, rfl, (faceSafe_busCommit (found s dt) m 14 d).trans (.of_face rfl)⟩
  case shadowHalfwordWrite dt m r h d => exact ⟨_, _, rfl, all dt _ (.of_key (faceKey_busShadow ..))⟩
  case busTimeout dt m r h b => exact ⟨_, _, rfl, all dt _ (.of_key (faceKey_busTimeout ..))⟩
  case registerRead dt m r h p =>
    refine ⟨_, _, rfl, all dt _ (.of_key ?_)⟩
    cases p with
    | none => exact faceKey_busRead ..
    | some w => exact faceKey_protocolError ..
  case objdataRead | objdataincRead | completionRead | angsnapCapture =>
    exact ⟨_, _, rfl, all _ _ (.of_key (faceKey_busRead ..))⟩
  case lockoutEnd dt m =>
    refine ⟨_, _, rfl, all dt _ ?_⟩
    dsimp only
    split
    · exact .of_key (faceKey_lockoutOver ..)
    · exact .of_face rfl
  case claimcfg dt => exact ⟨_, _, rfl, (faceSafe_execOp faceSafe_claimCfg ..).trans (.of_face rfl)⟩
  case softreset dt => exact ⟨_, _, rfl, all dt _ (faceSafe_execOp (fun c e => .of_reset (softReset_face c e)) ..)⟩
  case factoryreset dt =>
    refine ⟨_, _, rfl, FaceSafe.trans ?_ (.of_face (leaveTick_face ..))⟩
    dsimp only
    split
    · exact faceSafe_factoryExec _
    · exact faceSafe_execOp (fun c _ => faceSafe_factoryExec c) ..
  case scrubComplete dt f => exact ⟨_, _, rfl, (faceSafe_scrubComplete _ f).trans (.of_face rfl)⟩
  case nextOwnerTakeover dt x => exact ⟨_, _, rfl, (faceSafe_takeover _ x).trans (.of_face rfl)⟩
  case nresetPin dt n => exact ⟨_, _, rfl, all dt _ (.of_reset_or (nresetPin_face _ n))⟩
  case brownout dt => exact ⟨_, _, rfl, all dt _ (.of_reset_or (brownout_face _))⟩
  case watchdogExpiry dt => exact ⟨_, _, rfl, all dt _ (.of_reset_or (watchdogExpiry_face _))⟩
  case xtalLoss dt p => exact ⟨_, _, rfl, all dt _ (.of_reset_or (clockLoss_face _ p))⟩
  case wakeSwitch dt => exact ⟨_, _, rfl, all dt _ (.of_face (wakeSwitch_face _))⟩
  case lfTick dt => exact ⟨_, _, rfl, (faceSafe_clockEdge _).trans (.of_face rfl)⟩
  all_goals exact ⟨_, _, rfl, all _ _ (faceSafe_busCommit ..)⟩

/-- No command lets two masters act as one client. -/
theorem exec_apart (i : Instr) (s t : State) (h : exec i s = .next t) (ha : Apart s.chip) : Apart t.chip := by
  by_cases hi : ∀ dt a b, i ≠ .powerOnReset dt a b
  · obtain ⟨dt, d, e, hd⟩ := exec_faceSafe i s hi
    obtain rfl := Host.Outcome.next.inj (h.symm.trans e)
    exact hd.apart ((faceSafe_found s dt).apart ha)
  · push Not at hi
    obtain ⟨dt, a, b, rfl⟩ := hi
    obtain rfl := Host.Outcome.next.inj h
    exact apart_powerOnReset _ a b ((faceSafe_found s dt).apart ha)

/-- TICK does not go back but at the release of the power-on reset. -/
theorem exec_tick (i : Instr) (s : State) (hi : ∀ dt a b, i ≠ .powerOnReset dt a b) :
    ∃ (dt : Nat) (d : Chip), exec i s = .next (ended s dt d) ∧ (found s dt).tick ≤ d.tick := by
  by_cases ht : tickRow i = false
  · obtain ⟨dt, d, e, -, h, -⟩ := exec_form i s
    exact ⟨dt, d, e, (h ht).ge⟩
  cases i
  any_goals exact absurd rfl ht
  case powerOnReset dt a b => exact absurd rfl (hi dt a b)
  case lfTick dt => exact ⟨_, _, rfl, clockEdge_tick _⟩

end Sys2Proof.Proofs

open Sys2Proof Sys2Proof.Machine Sys2Proof.Proofs

/-- Settles O57: `exec_apart` for the command at the front, and the tick's own work with none. -/
theorem stepsKeepClaimsApart : Obligations.StepsKeepClaimsApart := by
  intro s t ha h
  cases hp : s.pending with
  | nil =>
    rw [emptyQueuePassesOneTick s hp] at h
    obtain rfl := Host.Outcome.next.inj h
    exact (faceSafe_found s 1).apart ha
  | cons i rest =>
    rw [stepRunsFrontCommand s i rest hp] at h
    exact exec_apart i _ t h ha

/-- Settles O59: the variant by the commands' forms, TICK by `exec_tick`, the locks by `exec_faceSafe`. -/
theorem stepsKeepVariantTickAndLocks : Obligations.StepsKeepVariantTickAndLocks := by
  intro s t h
  cases hp : s.pending with
  | nil =>
    rw [emptyQueuePassesOneTick s hp] at h
    obtain rfl := Host.Outcome.next.inj h
    exact ⟨found_isN s 1, fun _ => ⟨found_tick s 1, (faceSafe_found s 1).trim, (faceSafe_found s 1).test⟩⟩
  | cons i rest =>
    rw [stepRunsFrontCommand s i rest hp] at h
    refine ⟨?_, fun hi => ?_⟩
    · obtain ⟨dt, d, e, hn, -⟩ := exec_form i { s with pending := rest }
      obtain rfl := Host.Outcome.next.inj (h.symm.trans e)
      exact hn.trans (found_isN ..)
    · have hi : ∀ dt a b, i ≠ .powerOnReset dt a b := by
        rintro dt a b rfl
        exact hi dt a b rest rfl
      obtain ⟨dt, d, e, ht⟩ := exec_tick i { s with pending := rest } hi
      obtain ⟨dt', d', e', hd⟩ := exec_faceSafe i { s with pending := rest } hi
      obtain rfl := Host.Outcome.next.inj (h.symm.trans e)
      have hd' := ((faceSafe_found _ dt').trans hd)
      have hc : d = d' := congrArg (fun t : State => t.chip) (Host.Outcome.next.inj (e.symm.trans e'))
      rw [← hc] at hd'
      exact ⟨(found_tick _ dt).trans ht, hd'.trim, hd'.test⟩
end

