-- ==== Sys2Proof/Proofs/Words.lean ====
section
/-! The object words: which word a commit can write, and the canonical form over every command that writes words. -/

namespace Sys2Proof.Proofs

open Sys2Proof.Machine

/-! ### Commits -/

/-- The object words are as before, or the word at one address was written, staged or LIVE. -/
def OneWord (a : Nat) (m n : ObjMem) : Prop := n = m ∨ (∃ w, n = m.putStaged a w) ∨ ∃ w, n = m.putLive a w

theorem OneWord.wf {a : Nat} {m n : ObjMem} (h : OneWord a m n) (hm : m.wf = true) : n.wf = true := by
  obtain rfl | ⟨w, rfl⟩ | ⟨w, rfl⟩ := h
  · exact hm
  · exact ObjMem.wf_putStaged a w hm
  · exact ObjMem.wf_putLive a w hm

/-- Such a write changes no word in force. -/
theorem OneWord.active {a : Nat} {m n : ObjMem} (h : OneWord a m n) : n.active = m.active := by
  obtain rfl | ⟨w, rfl⟩ | ⟨w, rfl⟩ := h <;> rfl

/-- Such a write changes no word outside its address. -/
theorem OneWord.outside {a b : Nat} {m n : ObjMem} (h : OneWord a m n) (hm : m.wf = true) (hb : b ≠ a) :
    storeGet n.staged b = storeGet m.staged b ∧ storeGet n.live b = storeGet m.live b := by
  obtain ⟨hs, -, hl⟩ := (ObjMem.wf_iff m).mp hm
  obtain rfl | ⟨w, rfl⟩ | ⟨w, rfl⟩ := h
  · exact ⟨rfl, rfl⟩
  · exact ⟨(storeGet_put a b w hs).trans (if_neg hb), rfl⟩
  · exact ⟨rfl, (storeGet_put a b w hl).trans (if_neg hb)⟩

theorem aoSetWritten_mem (c : Chip) (x : Fin 8) : (aoSetWritten c x).mem = c.mem := by
  unfold aoSetWritten aoDeliver
  dsimp only
  split
  · rfl
  · split <;> rfl

theorem writeLive_oneWord (c : Chip) (a : Nat) (w : Word) (m : Mid) (k : Client) : OneWord a c.mem (writeLive c a w m k).mem := by
  unfold writeLive
  split
  · exact .inl (setForce_mem ..)
  · dsimp only
    split
    · exact .inr (.inr ⟨_, aoSetWritten_mem ..⟩)
    · exact .inr (.inr ⟨_, rfl⟩)

theorem objWrite_oneWord (c : Chip) (m : Mid) (w : Word) : OneWord (objAddr (mst c m)) c.mem (objWrite c m w).mem := by
  unfold objWrite
  dsimp only
  repeat' split
  any_goals exact .inl rfl
  · exact .inr (.inl ⟨_, rfl⟩)
  · exact writeLive_oneWord ..

theorem claimGrant_mem (c : Chip) (m : Mid) (k : Client) : (claimGrant c m k).mem = c.mem := by
  have hs : ∀ d : Chip, (if k = 0 then { d with cal := { d.cal with stage := none } } else d).mem = d.mem := by
    intro d
    split <;> rfl
  unfold claimGrant
  split
  · rfl
  · dsimp only
    rw [updM_mem, hs, endClaim_mem]
    split
    · exact endClaim_mem ..
    · rfl

theorem commitClaim_mem (c : Chip) (m : Mid) (w : Word) : (commitClaim c m w).mem = c.mem := by
  have hl : (lockoutOver c m).mem = c.mem := by
    unfold lockoutOver
    split <;> rfl
  have hf : ∀ d : Chip, (claimFail d m).mem = d.mem := by
    intro d
    unfold claimFail
    dsimp only
    split <;> rfl
  unfold commitClaim
  dsimp only
  repeat' split
  any_goals exact hl
  · rw [claimGrant_mem, hl]
  · rw [hf, hl]
  · exact endClaim_mem ..
  · rfl

theorem commitHostver_mem (c : Chip) (m : Mid) (w : Word) : (commitHostver c m w).mem = c.mem := by
  unfold commitHostver hostCheck
  dsimp only
  repeat' split
  all_goals rfl

theorem commitAlarmstat_mem (c : Chip) (w : Word) : (commitAlarmstat c w).mem = c.mem := by
  unfold commitAlarmstat
  split <;> rfl

theorem commitFltack_mem (c : Chip) (w : Word) : (commitFltack c w).mem = c.mem := by
  unfold commitFltack
  dsimp only
  repeat' split
  all_goals rfl

theorem commitFltinject_mem (c : Chip) (m : Mid) (w : Word) : (commitFltinject c m w).mem = c.mem := by
  unfold commitFltinject
  dsimp only
  split
  any_goals rfl
  all_goals exact setForce_mem ..

theorem calendarWrite_mem (c : Chip) (m : Mid) (w : Word) (k : Option Client) : (calendarWrite c m w k).mem = c.mem := by
  unfold calendarWrite
  dsimp only
  split <;> rfl

theorem commitPowerctl_mem (c : Chip) (w : Word) : (commitPowerctl c w).mem = c.mem := by
  unfold commitPowerctl reqRun reqIdle reqSleep
  dsimp only
  repeat' split
  all_goals rfl

theorem commitWdog_mem (c : Chip) (m : Mid) (w : Word) : (commitWdog c m w).mem = c.mem := by
  unfold commitWdog
  dsimp only
  split <;> rfl

theorem commitTestkey_mem (c : Chip) (m : Mid) (w : Word) : (commitTestkey c m w).mem = c.mem := by
  unfold commitTestkey
  dsimp only
  repeat' split
  all_goals rfl

/-- A commit of a register writes at most the word that OBJADDR names (R52, R56). -/
theorem regWrite_oneWord (c : Chip) (m : Mid) (r : Fin 64) (w : Word) : OneWord (objAddr (mst c m)) c.mem (regWrite c m r w).mem := by
  unfold regWrite
  dsimp only
  split
  case h_1 => exact .inl (commitHostver_mem ..)
  case h_2 => exact .inl (commitClaim_mem ..)
  case h_9 => exact objWrite_oneWord ..
  case h_10 => exact objWrite_oneWord ..
  case h_14 => exact .inl (commitAlarmstat_mem ..)
  case h_15 => exact .inl (commitFltack_mem ..)
  case h_16 => exact .inl (commitFltinject_mem ..)
  case h_18 => exact .inl (calendarWrite_mem ..)
  case h_19 => exact .inl (commitPowerctl_mem ..)
  case h_22 => exact .inl (commitWdog_mem ..)
  case h_25 => exact .inl (commitTestkey_mem ..)
  all_goals exact .inl rfl

theorem busCommit_oneWord (c : Chip) (m : Mid) (r : Fin 64) (d : Half) : OneWord (objAddr (mst c m)) c.mem (busCommit c m r d).mem := by
  have hd : (deny c m accCommit r).mem = c.mem := rfl
  have hb : ∀ e : Chip, (bump e m r).mem = e.mem := by
    intro e
    unfold bump
    split <;> rfl
  have hu : ∀ f, (unserved c f m accCommit r).mem = c.mem := by
    intro f
    unfold unserved
    split <;> rfl
  have ha : objAddr (mst (emptyShadow c m) m) = objAddr (mst c m) := by
    rw [emptyShadow, mst_updM_self]
    rfl
  unfold busCommit
  split
  · split
    · unfold commitAt
      dsimp only
      split
      · exact .inl rfl
      split
      · exact .inl (hb _)
      split
      · exact ha ▸ regWrite_oneWord (emptyShadow c m) m r _
      · exact .inl (hb _)
    · exact .inl rfl
  · exact .inl (hu _)

/-! ### The commands that write words -/

/-- The canonical form stays. -/
structure WordsSafe (c d : Chip) : Prop where
  wf : c.mem.wf = true → d.mem.wf = true

theorem WordsSafe.of_mem {c d : Chip} (h : d.mem = c.mem) : WordsSafe c d := ⟨fun hc => h ▸ hc⟩

theorem WordsSafe.trans {a b c : Chip} (h : WordsSafe a b) (g : WordsSafe b c) : WordsSafe a c := ⟨g.wf ∘ h.wf⟩

theorem WordsSafe.wb {c d : Chip} (h : WordsSafe c d) (w : Wb) : WordsSafe c { d with wb := w } := ⟨h.wf⟩

theorem wordsSafe_execOp {body : Chip → Entry → Chip} (h : ∀ c e, WordsSafe c (body c e)) (c : Chip) (op : Nat) (p : Entry → Bool) :
    WordsSafe c (execOp c op p body) := by
  unfold execOp
  split
  · exact h ..
  · exact .of_mem rfl

theorem wordsSafe_encKept {m : ObjMem} (e : Fin 8) (h : m.wf = true) : (encKept m e).wf = true :=
  ObjMem.wf_putStaged _ _ (ObjMem.wf_putActive _ _ h)

theorem wordsSafe_applyOwned (c : Chip) (e : Entry) (i : ObjIx) : WordsSafe c (applyOwned c e i) := by
  unfold applyOwned
  dsimp only
  split
  · exact .of_mem (refuseLate_mem ..)
  · refine ⟨fun hc => ?_⟩
    rw [doneS_mem]
    dsimp only
    split
    · exact wordsSafe_encKept _ (ObjMem.wf_applyBlock _ _ hc)
    · exact ObjMem.wf_applyBlock _ _ hc

theorem excApplied_mem (c : Chip) (g : Fin 4) (w : Word) : (excApplied c g w).mem = c.mem := by
  unfold excApplied excStart
  dsimp only
  repeat' split
  all_goals rfl

theorem wordsSafe_applySystem (c : Chip) (e : Entry) : WordsSafe c (applySystem c e) := by
  unfold applySystem
  split
  · split
    · exact .of_mem (refuseLate_mem ..)
    · exact ⟨ObjMem.wf_applyBlock _ _⟩
  · split
    · exact .of_mem rfl
    · split
      · exact .of_mem (refuseLate_mem ..)
      · refine ⟨fun hc => ?_⟩
        rw [doneS_mem, excApplied_mem]
        exact ObjMem.wf_applyBlock _ _ hc

theorem rewindow_mem (old c : Chip) (l : List Src) : (rewindow old c l).mem = c.mem := by
  refine foldl_fixed Chip.mem _ (fun d n => ?_) l c
  split <;> rfl

theorem wordsSafe_faultPolicy (c : Chip) (e : Entry) : WordsSafe c (faultPolicy c e) := by
  unfold faultPolicy
  dsimp only
  split
  · exact .of_mem (refuseLate_mem ..)
  split
  · exact .of_mem (refuseLate_mem ..)
  · refine ⟨fun hc => ?_⟩
    rw [doneS_mem, rewindow_mem]
    exact ObjMem.wf_applyBlock _ _ hc

theorem wordsSafe_faultPolicyDefault (c : Chip) (e : Entry) : WordsSafe c (faultPolicyDefault c e) := by
  refine ⟨fun hc => ?_⟩
  rw [faultPolicyDefault, doneS_mem, rewindow_mem]
  exact ObjMem.wf_zeroBlock _ _ hc

theorem wordsSafe_putNotch (c : Chip) (n : Fin 16) (r j f b d t : Nat) : WordsSafe c (putNotch c n r j f b d t) :=
  ⟨foldl_keeps (fun m => m.wf = true) _ (fun _ _ h => ObjMem.wf_putActive _ _ h) _ c.mem⟩

theorem wordsSafe_notchSet (c : Chip) (e : Entry) (n : Fin 16) : WordsSafe c (notchSet c e n) := by
  unfold notchSet
  dsimp only
  split
  · exact .of_mem (refuseLate_mem ..)
  · refine ⟨fun hc => ?_⟩
    rw [commitS_mem]
    exact foldl_keeps (fun d : Chip => d.mem.wf = true) _ (fun d r h => (wordsSafe_putNotch d n r _ _ _ _ _).wf h) _ c hc

theorem wordsSafe_applyCommand (c : Chip) (e : Entry) : WordsSafe c (applyCommand c e) := by
  unfold applyCommand
  split
  · exact wordsSafe_applySystem ..
  · split
    · exact wordsSafe_applyOwned ..
    · exact .of_mem (refuseLate_mem ..)

/-! ### Transit -/

theorem scrubNext_mem (c : Chip) : (scrubNext c).mem = c.mem := by
  have h : ∀ (d : Chip) (i : ObjIx), (scrubStartBlock d i).mem = d.mem := by
    intro d i
    unfold scrubStartBlock
    split <;> rfl
  unfold scrubNext
  split
  · exact h ..
  · rfl

theorem wordsSafe_factoryDone (c : Chip) : WordsSafe c (factoryDone c) := by
  refine ⟨fun hc => ?_⟩
  have hf : ∀ d : Chip, (List.foldl (fun c m => endClaim c m 3) d (allFin 4)).mem = d.mem :=
    foldl_fixed Chip.mem _ (fun d m => endClaim_mem d m 3) _
  unfold factoryDone
  rw [setLevelR_mem]
  generalize allFin 4 = l at hf ⊢
  dsimp only [keep_mem]
  rw [hf]
  dsimp only
  rw [newEpoch_mem]
  exact ObjMem.wf_zeroBlock _ _ hc

theorem wordsSafe_factoryNext (c : Chip) : WordsSafe c (factoryNext c) := by
  unfold factoryNext
  split
  · exact .of_mem rfl
  · dsimp only
    split
    · exact .of_mem rfl
    · split
      · exact wordsSafe_factoryDone c
      · split
        · exact .of_mem rfl
        · split <;> exact .of_mem rfl

theorem wordsSafe_factoryExec (c : Chip) : WordsSafe c (factoryExec c) := by
  unfold factoryExec
  split
  · exact .of_mem rfl
  · exact ((WordsSafe.of_mem rfl : WordsSafe c c).wb _).trans (wordsSafe_factoryNext _)

theorem scrubbed_mem (c : Chip) (i : ObjIx) :
    (scrubbed c i).mem = c.mem.zeroBlock (objBase (objOf i)) (objBase (objOf i) + objSpan (objOf i)) := rfl

theorem retireList_mem (c : Chip) (l : List Key) : (retireList c l).mem = c.mem :=
  foldl_fixed Chip.mem _ (fun _ _ => retire_mem ..) l c

theorem wordsSafe_unverified (c : Chip) (i : ObjIx) (a : Nat) : WordsSafe c (unverified c i a) := by
  unfold unverified
  refine .trans (.of_mem ?_) (wordsSafe_factoryNext _)
  rw [scrubNext_mem]
  rfl

theorem wordsSafe_verified (c : Chip) (i : ObjIx) : WordsSafe c (verified c i) := by
  unfold verified
  refine .trans (.of_mem ?_) (wordsSafe_factoryNext _)
  rw [scrubNext_mem, retireList_mem]
  rfl

theorem wordsSafe_scrubComplete (c : Chip) (fail : Option Nat) : WordsSafe c (scrubComplete c fail) := by
  by_cases h : ∃ i, scrubDone c i
  · obtain ⟨i, h⟩ := h
    have hz : WordsSafe c (scrubbed c i) := ⟨fun hc => scrubbed_mem c i ▸ ObjMem.wf_zeroBlock _ _ hc⟩
    cases fail with
    | some a =>
      rw [scrubComplete_some h]
      exact hz.trans (wordsSafe_unverified ..)
    | none =>
      rw [scrubComplete_none h]
      exact hz.trans (wordsSafe_verified ..)
  · rw [scrubComplete_not fun i hi => h ⟨i, hi⟩]
    exact .of_mem rfl

theorem wordsSafe_takeover (c : Chip) (i : ObjIx) : WordsSafe c (takeover c i) := by
  unfold takeover
  extract_lets o
  split
  · split
    · refine .trans (.of_mem ?_) (wordsSafe_factoryNext _)
      split
      · exact retire_mem ..
      · rfl
    · exact .of_mem rfl
  · exact .of_mem rfl

theorem wordsSafe_powerOnReset (c : Chip) (a b : Bool) : WordsSafe c (powerOnReset c a b) := by
  unfold powerOnReset
  split
  · split
    · exact ⟨fun _ => rfl⟩
    · exact .of_mem rfl
  · exact .of_mem rfl

/-! ### Every command -/

/-- Every command keeps the words canonical (R59). -/
theorem exec_wordsSafe (i : Instr) (s : State) : ∃ (dt : Nat) (d : Chip), exec i s = .next (ended s dt d) ∧ WordsSafe (found s dt) d := by
  by_cases hf : wordRow i = false
  · obtain ⟨dt, d, e, -, -, -, -, h⟩ := exec_form i s
    exact ⟨dt, d, e, .of_mem (h hf)⟩
  have commit : ∀ (c : Chip) (m : Mid) (r : Fin 64) (d : Half), WordsSafe c (busCommit c m r d) :=
    fun c m r d => ⟨(busCommit_oneWord c m r d).wf⟩
  cases i
  any_goals exact absurd rfl hf
  case registerCommit | objdataWrite | objdataincWrite => exact ⟨_, _, rfl, .trans (commit ..) (.of_mem rfl)⟩
  case apply => exact ⟨_, _, rfl, (wordsSafe_execOp wordsSafe_applyCommand ..).trans (.of_mem rfl)⟩
  case faultpolicy => exact ⟨_, _, rfl, (wordsSafe_execOp wordsSafe_faultPolicy ..).trans (.of_mem rfl)⟩
  case faultpolicyDefault => exact ⟨_, _, rfl, (wordsSafe_execOp wordsSafe_faultPolicyDefault ..).trans (.of_mem rfl)⟩
  case notchset dt =>
    refine ⟨_, _, rfl, .trans ?_ (.of_mem (leaveOwn_mem ..))⟩
    dsimp only
    unfold execOwned
    refine wordsSafe_execOp (fun c e => ?_) ..
    split
    · exact .of_mem rfl
    · split
      · dsimp only
        split
        · exact wordsSafe_notchSet ..
        · exact .of_mem rfl
      · exact .of_mem (refuseLate_mem ..)
  case scrubComplete dt f => exact ⟨_, _, rfl, (wordsSafe_scrubComplete _ f).trans (.of_mem rfl)⟩
  case nextOwnerTakeover dt x => exact ⟨_, _, rfl, (wordsSafe_takeover _ x).trans (.of_mem rfl)⟩
  case factoryreset dt =>
    refine ⟨_, _, rfl, .trans ?_ (.of_mem (leaveTick_mem ..))⟩
    dsimp only
    split
    · exact wordsSafe_factoryExec _
    · exact wordsSafe_execOp (fun c _ => wordsSafe_factoryExec c) ..
  case powerOnReset dt a b => exact ⟨_, _, rfl, (wordsSafe_powerOnReset _ a b).trans (.of_mem rfl)⟩

end Sys2Proof.Proofs

open Sys2Proof Sys2Proof.Machine Sys2Proof.Proofs

/-- Settles O56: `exec_wordsSafe` for the command at the front; ticks alone write no word. -/
theorem stepsKeepWordsCanonical : Obligations.StepsKeepWordsCanonical := by
  intro s t hc h
  cases hp : s.pending with
  | nil =>
    rw [emptyQueuePassesOneTick s hp] at h
    obtain rfl := Host.Outcome.next.inj h
    exact (congrArg ObjMem.wf (found_mem s 1)).trans hc
  | cons i rest =>
    rw [stepRunsFrontCommand s i rest hp] at h
    obtain ⟨dt, d, e, hd⟩ := exec_wordsSafe i { s with pending := rest }
    obtain rfl := Host.Outcome.next.inj (h.symm.trans e)
    exact hd.wf ((congrArg ObjMem.wf (found_mem _ dt)).trans hc)

/-- Settles O58: the commands' forms, and `busCommit_oneWord`. -/
theorem mapAndWordsMoveOnlyByTheirCommands : Obligations.MapAndWordsMoveOnlyByTheirCommands := by
  refine ⟨fun i s t h => ?_, fun i s t dt m d b hc hi h => ?_⟩
  · obtain ⟨dt, c, e, -, -, -, ho, hm⟩ := exec_form i s
    obtain rfl := Host.Outcome.next.inj (h.symm.trans e)
    exact ⟨fun hi => (ho hi).trans (found_own s dt), fun hi => (hm hi).trans (found_mem s dt)⟩
  · have hw : OneWord (objAddr (mst (found s dt) m)) s.chip.mem t.chip.mem := by
      rw [← found_mem s dt]
      obtain rfl | rfl | ⟨r, rfl⟩ := hi
      all_goals
        obtain rfl := Host.Outcome.next.inj h
        exact busCommit_oneWord ..
    refine ⟨congrArg (storeGet · b) hw.active, fun hb => hw.outside hc hb⟩
end

