-- ==== Sys2Proof/Proofs/Reads.lean ====
section
/-! Reads of the Face. -/

namespace Sys2Proof.Proofs

open Sys2Proof.Machine

theorem exec_registerRead (s : State) (dt : Nat) (m : Mid) (r : Fin 64) (h : Fin 4) :
    exec (.registerRead dt m r h none) s =
      .next (ended s dt (leaveAll (found s dt) (busRead (looked s dt) (found s dt) m r h .clean 0))) := rfl

theorem exec_completionRead (s : State) (dt : Nat) (m : Mid) (e : Ecc) (w : Fin 8) :
    exec (.completionRead dt ⟨m, e, w⟩) s =
      .next (ended s dt (leaveAll (found s dt) (busRead (looked s dt) (found s dt) m 11 0 e w))) := rfl

theorem exec_angsnapCapture (s : State) (dt : Nat) (m : Mid) :
    exec (.angsnapCapture dt m) s =
      .next (ended s dt (leaveAll (found s dt) (busRead (looked s dt) (found s dt) m 32 0 .clean 0))) := rfl

theorem exec_objdataRead (s : State) (dt : Nat) (m : Mid) (e : Ecc) :
    exec (.objdataRead dt m e) s =
      .next (ended s dt (leaveAll (found s dt) (busRead (looked s dt) (found s dt) m 13 0 e 0))) := rfl

theorem exec_objdataincRead (s : State) (dt : Nat) (m : Mid) (e : Ecc) :
    exec (.objdataincRead dt m e) s =
      .next (ended s dt (leaveAll (found s dt) (busRead (looked s dt) (found s dt) m 14 0 e 0))) := rfl

/-- A part that differs in other things than the form leaves alone. -/
theorem leaveAll_self {c d : Chip} (h : d = { d with isN := c.isN, tick := c.tick, own := c.own, mem := c.mem }) : leaveAll c d = d := h.symm

/-- The registers whose read has no side effect (Table 2-4). -/
theorem regRead_fst {v c : Chip} {m : Mid} {r : Fin 64} (e : Ecc) (w : Fin 8) (ho : ownRead r = false) (h10 : r ≠ 10) :
    (regRead v c m r e w).1 = c := by
  have h10 : r.val ≠ 10 := fun h => h10 (Fin.ext h)
  have ho : r.val ≠ 11 ∧ r.val ≠ 13 ∧ r.val ≠ 14 ∧ r.val ≠ 32 := by
    simpa [ownRead] using ho
  obtain ⟨h11, h13, h14, h32⟩ := ho
  unfold regRead
  dsimp only
  split
  case h_10 h => exact absurd h h10
  case h_11 h => exact absurd h h11
  case h_13 h => exact absurd h h13
  case h_14 h => exact absurd h h14
  case h_31 h => exact absurd h h32
  all_goals rfl

/-- A master that acts as a client may read every register that asks for a claim. -/
theorem readRuns_of_claim {c : Chip} {m : Mid} {k : Client} {r : Fin 64} (hf : faceCond c = .serves) (hc : (mst c m).claim = some k)
    (hr : r.val < 48) (hp : readPerm r ≠ .warden) : ReadRuns c m r := by
  refine ⟨hf, hr, ?_⟩
  rw [hc]
  cases h : readPerm r with
  | any => rfl
  | claimed => rfl
  | warden => exact absurd h hp
  | none => rfl

/-- A read of halfword 0 that a claim permits: what the register gives is latched. -/
theorem busRead_claimed {v c : Chip} {m : Mid} {k : Client} {r : Fin 64} (e : Ecc) (w : Fin 8) (hf : faceCond c = .serves)
    (hc : (mst c m).claim = some k) (hr : r.val < 48) (hp : readPerm r ≠ .warden) :
    busRead v c m r 0 e w = latch (regRead v c m r e w).1 m r (regRead v c m r e w).2 :=
  busRead_low e w (readRuns_of_claim hf hc hr hp)

/-! ### COMPLETION -/

theorem completionRead_none {v c : Chip} {m : Mid} {k : Client} {ecc : Ecc} {w : Fin 8} (h : clientHead v k = none) :
    completionRead v c m k ecc w = (c, 0) := by
  unfold completionRead
  rw [h]

theorem completionRead_some {v c : Chip} {m : Mid} {k : Client} {w : Fin 8} {e : Entry} (h : clientHead v k = some e) :
    completionRead v c m k .clean w = (completionEnd v c k, completionWord v k) := by
  unfold completionRead
  rw [h]

theorem completionWord_some {v : Chip} {k : Client} {e : Entry} (h : clientHead v k = some e) :
    completionWord v k =
      if e.state = .retired then recWord0 e (v.wb.entries.any (fun x => x.client = k && x.state = .retired && keyOf x ≠ keyOf e))
      else pack [(62, 1, b2n (v.wb.entries.any (fun x => x.client = k && x.state = .retired && keyOf x ≠ keyOf e))), (0, 32, e.seq)] := by
  unfold completionWord
  rw [h]

/-- A record that has not retired stays. -/
theorem completionEnd_waiting {v : Chip} (c : Chip) {k : Client} {e : Entry} (h : clientHead v k = some e) (hr : e.state ≠ .retired) :
    completionEnd v c k = c := by
  unfold completionEnd
  rw [h]
  exact if_neg fun hh => hr hh.1

/-- A retired record is delivered (R126). -/
theorem completionEnd_retired {v c : Chip} {k : Client} {e : Entry} (h : clientHead v k = some e) (hr : e.state = .retired)
    (hf : (findEntry c (keyOf e)).isSome = true) :
    completionEnd v c k = { c with wb := { c.wb with
      entries := c.wb.entries.filter (fun x => keyOf x ≠ keyOf e),
      clients := upd c.wb.clients k (fun x => { x with
        rec0 := completionWord v k, rec1 := w64 e.retireTick, rec2 := e.result,
        rec3 := pack [(32, 16, c.wb.epoch), (0, 32, e.hosttag.toNat)] }) } } := by
  unfold completionEnd
  rw [h]
  exact if_pos ⟨hr, hf⟩

end Sys2Proof.Proofs

open Sys2Proof Sys2Proof.Machine Sys2Proof.Proofs

/-- Settles O4: the served reads of the Laws, and the registers whose read has no side effect. -/
theorem readsAreServedFromTheShadow : Obligations.ReadsAreServedFromTheShadow := by
  intro s dt m r h
  dsimp only
  refine ⟨fun hr ho h10 => ?_, fun hf hr h0 ht => ?_, fun hf hr h0 ht => ?_⟩
  · rw [exec_registerRead, busRead_low .clean 0 hr, regRead_fst .clean 0 ho h10]
    rfl
  · rw [exec_registerRead, busRead_high .clean 0 hf hr h0, readHigh, if_pos ht]
    rfl
  · rw [exec_registerRead, busRead_high .clean 0 hf hr h0, readHigh, if_neg ht]
    rfl

/-- Settles O5: each register's arm of `regRead`. -/
theorem readLatchesTheRegister : Obligations.ReadLatchesTheRegister := by
  intro s dt m k
  dsimp only
  intro hf hc
  obtain rfl : (mst (found s dt) m).claim.getD 0 = k := by rw [hc]; rfl
  have h (r : Fin 64) (hr : r.val < 48) (hp : readPerm r ≠ .warden) :=
    (exec_registerRead s dt m r 0).trans (congrArg (fun d => Host.Outcome.next (ended s dt (leaveAll (found s dt) d)))
      (busRead_claimed (v := looked s dt) (r := r) .clean 0 hf hc hr hp))
  refine ⟨?_, ?_, ?_, ?_, ?_, ?_, ?_, ?_, ?_, ?_⟩
  · exact (h 2 (by decide) (by decide)).trans rfl
  · exact (h 5 (by decide) (by decide)).trans rfl
  · exact (h 12 (by decide) (by decide)).trans rfl
  · exact (h 16 (by decide) (by decide)).trans rfl
  · exact (h 17 (by decide) (by decide)).trans rfl
  · exact (h 26 (by decide) (by decide)).trans rfl
  · exact (h 33 (by decide) (by decide)).trans rfl
  · exact (h 45 (by decide) (by decide)).trans rfl
  · exact (h 46 (by decide) (by decide)).trans rfl
  · exact (h 10 (by decide) (by decide)).trans rfl

/-- Settles O6: what the head of the client's records is decides between three results. -/
theorem completionDeliversInOrder : Obligations.CompletionDeliversInOrder := by
  intro s dt m k w
  dsimp only
  intro hf hc
  have h : exec (.completionRead dt ⟨m, .clean, w⟩) s = .next (ended s dt (leaveAll (found s dt)
      (latch (completionRead (looked s dt) (found s dt) m k .clean w).1 m 11 (completionRead (looked s dt) (found s dt) m k .clean w).2))) := by
    rw [exec_completionRead, busRead_claimed .clean w hf hc (by decide) (by decide)]
    obtain rfl : (mst (found s dt) m).claim.getD 0 = k := by rw [hc]; rfl
    rfl
  refine ⟨fun hn => ?_, fun e he hr => ?_, fun e he hr hf => ?_⟩
  · rw [h, completionRead_none hn]
    rfl
  · rw [h, completionRead_some he, completionEnd_waiting _ he hr, completionWord_some he, if_neg hr]
    rfl
  · rw [h, completionRead_some he, completionEnd_retired he hr hf, completionWord_some he, if_pos hr]
    rfl

/-- Settles O7: the owner of the channel decides between two results. -/
theorem angsnapCaptures : Obligations.AngsnapCaptures := by
  intro s dt m k
  dsimp only
  intro hf hc
  have h : exec (.angsnapCapture dt m) s = .next (ended s dt (leaveAll (found s dt)
      (latch (angsnapCapture (looked s dt) (found s dt) m k).1 m 32 (angsnapCapture (looked s dt) (found s dt) m k).2))) := by
    rw [exec_angsnapCapture, busRead_claimed .clean 0 hf hc (by decide) (by decide)]
    obtain rfl : (mst (found s dt) m).claim.getD 0 = k := by rw [hc]; rfl
    rfl
  refine ⟨fun ho => ?_, fun ho => ?_⟩
  · rw [h, angsnapCapture, if_pos ho]
    rfl
  · rw [h, angsnapCapture, if_neg ho]
    rw [angsnapRefuse, setFlag, updM_updM, faceEvent, mst_updM_self]
    simp only [hc]
    rfl
end

