-- ==== Sys2Proof/Proofs/Commits.lean ====
section
/-! Commits that the Face carries out, and accesses without effect. -/

namespace Sys2Proof.Proofs

open Sys2Proof.Machine

/-- The access of a command that writes halfword 3, in either form of such a command. -/
theorem exec_commit {i : Instr} {s : State} {dt : Nat} {m : Mid} {r : Fin 64} {d : Half} {e : Chip} (hi : commitOf i = some (dt, m, r, d))
    (hb : busCommit (found s dt) m r d = e) (he : leaveAll (found s dt) e = e) : exec i s = .next (ended s dt e) := by
  have hm : leaveMap (found s dt) e = e := by
    rw [← he]
    rfl
  have face : runFace s dt (fun c => busCommit c m r d) = .next (ended s dt e) := runFace_of_leaves hb he
  have store : runStore s dt (fun c => busCommit c m r d) = .next (ended s dt e) := by
    rw [runStore, runWith_next, hb, hm]
  cases i
  any_goals cases hi
  case registerCommit | objdataWrite | objdataincWrite => exact store
  all_goals exact face

/-- A carried-out commit whose register write comes to e. -/
theorem busCommit_eq {c : Chip} {m : Mid} {r : Fin 64} {d : Half} {e : Chip} (h : CommitRuns c m r)
    (he : regWrite (emptyShadow c m) m r (shadowWord (mst c m) d) = e) : busCommit c m r d = driveD e none false := by
  rw [busCommit_runs d h, he]

/-- The client of a master is known to its commit. -/
theorem claim_getD {c : Chip} {m : Mid} {k : Client} (h : (mst c m).claim = some k) : (mst (emptyShadow c m) m).claim.getD 0 = k := by
  rw [mst_emptyShadow_claim, h]
  rfl

theorem faceEvent_emptyShadow (c : Chip) (n : Nat) (m : Mid) (acc : Nat) (r : Fin 64) :
    faceEvent (emptyShadow c m) n m acc r = evAt c (srcN n) m.val acc 1 (8 * r.val) (mst c m).claim := by
  rw [faceEvent, mst_emptyShadow_claim]
  rfl

theorem commitAlarmstat_eq (c : Chip) (w : Word) :
    commitAlarmstat c w = { c with flt := { c.flt with alarmPend := c.flt.alarmPend && (!bit w 63 || c.flt.alarmNow) } } := by
  unfold commitAlarmstat
  cases bit w 63 <;> cases c.flt.alarmNow <;> simp

/-! ### TESTKEY (R70) -/

theorem commitTestkey_first {c : Chip} {m : Mid} {w : Word} (hl : c.face.testlock = false) (hk : fld w 15 0 = 0x7E57) :
    commitTestkey c m w = { c with face := { c.face with keyTick := some c.tick } } := by
  simp only [commitTestkey, hl, hk, Bool.false_eq_true, if_false, if_true]

theorem commitTestkey_second {c : Chip} {m : Mid} {w : Word} {t : Nat} (hl : c.face.testlock = false) (hk : fld w 15 0 = 0x0A11)
    (ht : c.face.keyTick = some t) (hd : c.tick ≤ t + 16000) :
    commitTestkey c m w =
      raiseR { c with face := { c.face with keyTick := none, testen := true } } (faceEvent c 7 m accCommit 47) := by
  simp [commitTestkey, hl, hk, ht, hd]

theorem commitTestkey_other {c : Chip} {m : Mid} {w : Word} (hl : c.face.testlock = false) (hk : fld w 15 0 ≠ 0x7E57)
    (hn : fld w 15 0 ≠ 0x0A11 ∨ c.face.keyTick = none ∨ ∃ t, c.face.keyTick = some t ∧ t + 16000 < c.tick) :
    commitTestkey c m w = { c with face := { c.face with keyTick := none } } := by
  obtain h | h | ⟨t, h, ht⟩ := hn
  · simp [commitTestkey, hl, hk, h]
  · simp [commitTestkey, hl, hk, h]
  · have ht : ¬ c.tick ≤ t + 16000 := by omega
    simp [commitTestkey, hl, hk, h, ht]

/-- A staged word of the master's object, in view 0 and not frozen (R56). -/
theorem objWrite_config {c : Chip} {m : Mid} {w : Word} {cl : Client} {o : OAccess} (hc : (mst c m).claim = some cl)
    (hv : (mst c m).view = false) (hf : foreignRegion c (objAddr (mst c m)) = false)
    (ho : objInfo (objAddr (mst c m)) = some (.config, o)) (ha : mayAccess c cl o true = true)
    (hz : isFrozen c (objAddr (mst c m)) .config o = false) :
    objWrite c m w = { c with mem := c.mem.putStaged (objAddr (mst c m)) (w &&& fields (objAddr (mst c m))) } := by
  simp only [objWrite, hc, hv, hf, ho, ha, hz, Bool.not_true, Bool.false_eq_true, if_false]

/-- An emptied shadow is no part of what an object access asks for. -/
theorem objAddr_emptyShadow (c : Chip) (m : Mid) : objAddr (mst (emptyShadow c m) m) = objAddr (mst c m) := by
  rw [emptyShadow, mst_updM_self]
  rfl

theorem view_emptyShadow (c : Chip) (m : Mid) : (mst (emptyShadow c m) m).view = (mst c m).view := by
  rw [emptyShadow, mst_updM_self]

/-- A write of words of a part that leaves the rest alone, in the form of a commit that may write words. -/
theorem exec_store {i : Instr} {s : State} {dt : Nat} {m : Mid} {r : Fin 64} {d : Half} {e : Chip}
    (hi : i = .objdataWrite dt m d ∧ r = 13 ∨ i = .objdataincWrite dt m d ∧ r = 14)
    (hb : busCommit (found s dt) m r d = e) (he : leaveMap (found s dt) e = e) : exec i s = .next (ended s dt e) := by
  have store : runStore s dt (fun c => busCommit c m r d) = .next (ended s dt e) := by
    rw [runStore, runWith_next, hb, he]
  obtain ⟨rfl, rfl⟩ | ⟨rfl, rfl⟩ := hi
  all_goals exact store

end Sys2Proof.Proofs

open Sys2Proof Sys2Proof.Machine Sys2Proof.Proofs

/-- Settles O10: each register's arm of `regWrite`. -/
theorem registersAreWritten : Obligations.RegistersAreWritten := by
  refine ⟨fun s dt m d => ?_, fun s dt m d k => ?_⟩
  · dsimp only
    refine ⟨fun h => ?_, fun h => ?_, fun h => ?_, fun h => ?_, fun h => ?_, fun h => ?_, fun h => ?_⟩
    all_goals exact exec_commit rfl (busCommit_eq h rfl) rfl
  · dsimp only
    intro hk
    have hk := claim_getD hk
    refine ⟨fun h => ?_, fun h => ?_, fun h => ?_, fun h => ?_⟩
    · refine exec_commit rfl (busCommit_eq h (e := commitCmdstat (emptyShadow (found s dt) m) k _) ?_) rfl
      rw [← hk]
      rfl
    · refine exec_commit rfl (busCommit_eq h (e := commitEvtmask (emptyShadow (found s dt) m) k _) ?_) rfl
      rw [← hk]
      rfl
    · exact exec_commit rfl (busCommit_eq h (commitAlarmstat_eq ..)) rfl
    · exact exec_commit rfl (busCommit_eq h rfl) rfl

/-- Settles O9: `objWrite` of a word that may be staged. -/
theorem configWordsAreStaged : Obligations.ConfigWordsAreStaged := by
  intro s dt m d cl o
  dsimp only
  intro hc hv hf ho ha hz
  have hw : ∀ w, objWrite (emptyShadow (found s dt) m) m w = { emptyShadow (found s dt) m with
      mem := (found s dt).mem.putStaged (objAddr (mst (found s dt) m)) (w &&& fields (objAddr (mst (found s dt) m))) } := by
    intro w
    rw [← objAddr_emptyShadow] at hf ho hz
    rw [objWrite_config ((mst_emptyShadow_claim ..).trans hc) ((view_emptyShadow ..).trans hv) hf ho ha hz, objAddr_emptyShadow]
    rfl
  refine ⟨fun h => ?_, fun h => ?_⟩
  · exact exec_store (.inl ⟨rfl, rfl⟩) (busCommit_eq h (hw _)) rfl
  · exact exec_store (.inr ⟨rfl, rfl⟩) ((busCommit_eq h (congrArg (objAdvance · m) (hw _))).trans rfl) rfl

/-- Settles O17: the two registers' arms of `regWrite`, TESTKEY's by the key and the time of the first one. -/
theorem locksAndTestKey : Obligations.LocksAndTestKey := by
  intro s dt m d t
  dsimp only
  refine ⟨fun h => ?_, fun h hl => ?_, fun h hl hk => ?_, fun h hl hk ht hd => ?_, fun h hl hk hn => ?_⟩
  · exact exec_commit rfl (busCommit_eq h rfl) rfl
  · exact exec_commit rfl (busCommit_eq h (if_pos hl)) rfl
  · exact exec_commit rfl (busCommit_eq h (commitTestkey_first hl hk)) rfl
  · refine exec_commit rfl ((busCommit_eq h (commitTestkey_second hl hk ht hd)).trans ?_) rfl
    rw [faceEvent_emptyShadow]
    rfl
  · exact exec_commit rfl (busCommit_eq h (commitTestkey_other hl hk hn)) rfl
end

