-- ==== Sys2Proof/Proofs/WardenRegisters.lean ====
section
/-! Commits of the warden's registers, and the accesses that the Face refuses. -/

namespace Sys2Proof.Proofs

open Sys2Proof.Machine

/-! ### FLTACK and FLTINJECT -/

theorem upd_map_ack (v : Vector Source 512) (n : Src) : (upd v n ackSource).map ackSource = v.map ackSource := by
  refine Vector.ext fun i hi => ?_
  simp only [upd, Vector.getElem_map, Vector.getElem_set]
  split
  · next h =>
    subst h
    rfl
  · rfl

/-- A commit of FLTACK (Table 16-14): ACKALL covers ACKSRC. -/
theorem commitFltack_eq (c : Chip) (w : Word) :
    commitFltack c w = { c with flt := { c.flt with
      cap := { c.flt.cap with armed := c.flt.cap.armed || bit w 63 },
      srcs := if bit w 61 then c.flt.srcs.map ackSource else if bit w 62 then upd c.flt.srcs (srcN (fld w 8 0)) ackSource
        else c.flt.srcs } } := by
  have hu := upd_map_ack c.flt.srcs (srcN (fld w 8 0))
  unfold commitFltack updSrc
  cases bit w 63 <;> cases bit w 62 <;> cases bit w 61 <;> simp [hu]

/-- The event that FLTINJECT raises (R470). -/
def forcedRaise (c : Chip) (m : Mid) (w : Word) : Raise :=
  { faceEvent c (srcN (fld w 8 0)).val m accCommit 25 with forced := true }

theorem commitFltinject_none {c : Chip} {m : Mid} {w : Word} (h : fld w 63 62 = 0) : commitFltinject c m w = c := by
  simp only [commitFltinject, h]

theorem commitFltinject_pulse {c : Chip} {m : Mid} {w : Word} (h : fld w 63 62 = 1) :
    commitFltinject c m w = raiseR c (forcedRaise c m w) := by
  simp only [commitFltinject, h, forcedRaise]

theorem commitFltinject_set {c : Chip} {m : Mid} {w : Word} (h : fld w 63 62 = 2) :
    commitFltinject c m w = setForce c (srcN (fld w 8 0)) true (forcedRaise c m w) := by
  simp only [commitFltinject, h, forcedRaise]

theorem commitFltinject_clear {c : Chip} {m : Mid} {w : Word} (h : fld w 63 62 = 3) :
    commitFltinject c m w = setForce c (srcN (fld w 8 0)) false (forcedRaise c m w) := by
  simp only [commitFltinject, h, forcedRaise]

theorem srcN_val (n : Src) : srcN n.val = n := dif_pos n.isLt

/-- FORCE is set (R471): an event is raised where it was clear. -/
theorem setForce_set (c : Chip) (n : Src) (r : Raise) :
    setForce c n true r = if c.flt.srcs[n].force then updSrc c n (fun x => { x with force := true })
      else raiseR (updSrc c n (fun x => { x with force := true })) { r with forced := true } := by
  simp only [setForce, Bool.not_true, Bool.and_false, Bool.false_and, Bool.false_eq_true, if_false, Bool.true_and]
  cases c.flt.srcs[n].force <;> rfl

/-- FORCE is cleared (R471): no event. -/
theorem setForce_clear (c : Chip) (n : Src) (r : Raise) :
    setForce c n false r = updSrc c n (fun x =>
      { x with force := false, quiet := if x.force && isLevel n then max x.quiet c.tick else x.quiet }) := by
  simp only [setForce, Bool.false_and, Bool.false_eq_true, if_false, Bool.not_false, Bool.and_true]

end Sys2Proof.Proofs

open Sys2Proof Sys2Proof.Machine Sys2Proof.Proofs

/-- Settles O18: the arms of `regWrite` of the three registers, FLTINJECT's by OP. -/
theorem faultsAreAcknowledgedAndInjected : Obligations.FaultsAreAcknowledgedAndInjected := by
  refine ⟨fun s dt m d k => ⟨fun h i hi => ?_, fun h hk => ?_⟩, fun s dt m d => ?_⟩
  · refine exec_commit (r := 23) (d := d) (m := m) ?_ ((busCommit_eq h (commitFltack_eq ..)).trans rfl) rfl
    fin_cases hi <;> rfl
  · refine exec_commit rfl (busCommit_eq h (e := commitEvtack (emptyShadow (found s dt) m) k _) ?_) rfl
    rw [← claim_getD hk]
    rfl
  · dsimp only
    intro h i hi
    have hi : commitOf i = some (dt, m, 25, d) := by fin_cases hi <;> rfl
    have hf : forcedRaise (emptyShadow (found s dt) m) m (shadowWord (mst (found s dt) m) d) =
        { evAt (found s dt) (srcN (fld (shadowWord (mst (found s dt) m) d) 8 0)) m.val accCommit 1 0x0C8 (mst (found s dt) m).claim with
          forced := true } := by
      rw [forcedRaise, faceEvent_emptyShadow, srcN_val]
      rfl
    have hs : (emptyShadow (found s dt) m).flt = (found s dt).flt := rfl
    refine ⟨fun ho => ?_, fun ho => ?_, fun ho => ?_, fun ho => ?_⟩
    · exact exec_commit hi (busCommit_eq h (commitFltinject_none ho)) rfl
    · refine exec_commit hi ((busCommit_eq h (commitFltinject_pulse ho)).trans ?_) rfl
      rw [hf]
      rfl
    · split
      · next hset =>
        refine exec_commit hi ((busCommit_eq h (commitFltinject_set ho)).trans ?_) rfl
        rw [setForce_set, hs, if_pos hset]
        rfl
      · next hclear =>
        refine exec_commit hi ((busCommit_eq h (commitFltinject_set ho)).trans ?_) rfl
        rw [setForce_set, hs, if_neg hclear, hf]
        rfl
    · refine exec_commit hi ((busCommit_eq h (commitFltinject_clear ho)).trans ?_) rfl
      rw [setForce_clear]
      rfl
end

