-- ==== Sys2Proof/Proofs/WardenCommits.lean ====
section
/-! Commits of the calendar, WDOG, HOSTVER and POWERCTL, and the accesses that the Face refuses. -/

namespace Sys2Proof.Proofs

open Sys2Proof.Machine

/-! ### A commit that may raise a source -/

theorem leaveAll_raise {c e : Chip} {r : Raise} {p : Prop} [Decidable p] (h : leaveAll c e = e) :
    leaveAll c (if p then raiseR e r else e) = if p then raiseR e r else e := by
  split
  · exact congrArg (raiseR · r) h
  · exact h

theorem driveD_raise {e : Chip} {r : Raise} {p : Prop} [Decidable p] (o : Option Half) (b : Bool) :
    driveD (if p then raiseR e r else e) o b = if p then raiseR (driveD e o b) r else driveD e o b := by
  split <;> rfl

/-! ### The calendar (R150 to R152) -/

/-- A valid calendar write (R151). -/
theorem calCheck_valid {w : Word} {y mo da : Nat} (hy : 2000 ≤ y ∧ y ≤ 2399) (hmo : 1 ≤ mo ∧ mo ≤ 12)
    (hda : 1 ≤ da ∧ da ≤ monthDays y mo) (hh : fld w 60 56 ≤ 23) (hmi : fld w 53 48 ≤ 59) (hs : fld w 45 40 ≤ 59)
    (ht : fld w 27 0 < 160000000) : calCheck (some (y, mo, da)) w = 0 := by
  obtain ⟨hy1, hy2⟩ := hy
  obtain ⟨hm1, hm2⟩ := hmo
  obtain ⟨hd1, hd2⟩ := hda
  unfold calCheck secTicks
  dsimp only
  rw [if_neg (by omega), if_neg (by omega), if_neg (by omega), if_neg (by omega), if_neg (by omega), if_neg (by omega), if_neg (by omega)]

theorem calendarWrite_of_zero {c : Chip} {m : Mid} {w : Word} {k : Option Client} (h : calCheck c.cal.stage w = 0) :
    calendarWrite c m w k = { c with cal := { c.cal with
      offset := calOffset c.cal.stage w c.tick, wrTick := c.tick, unset := false, endhold := false, badwrite := false,
      cause := 0, wrcount := wrapInc16 c.cal.wrcount, stage := none } } := by
  simp only [calendarWrite, h, if_true]

/-- A calendar write without a staged date (R152). -/
theorem calendarWrite_unstaged {c : Chip} {m : Mid} {w : Word} {k : Option Client} (h : c.cal.stage = none) :
    calendarWrite c m w k = raiseR { c with cal := { c.cal with
      badwrite := true, cause := 8, badcount := satInc16 c.cal.badcount } } (evAt c 25 m.val accCommit 1 0x0E0 k) := by
  have hs : c.cal = { c.cal with stage := none } := by rw [← h]
  unfold calendarWrite
  rw [h]
  conv_rhs => rw [hs]
  rfl

/-! ### WDOG (R173, R174) -/

/-- A commit of WDOG: what restarts the count, and the key. -/
theorem commitWdog_eq (c : Chip) (m : Mid) (w : Word) :
    let key := fld w 15 0
    let t := fld w 47 32
    let restart := c.pw.wdEn = false ∧ bit w 63 = true ∨ key = 0x4B1C ∨ c.pw.wdEn = true ∧ t ≠ c.pw.wdTimeout
    let e : Chip := { c with pw := { c.pw with
       wdEn := c.pw.wdEn || bit w 63, wdTimeout := t, wdFired := c.pw.wdFired && decide (key ≠ 0x4B1C),
       wdCount := if restart then (if t = 0 then 1 else t) * 65536 else c.pw.wdCount } }
    commitWdog c m w = if key ≠ 0 ∧ key ≠ 0x4B1C then raiseR e (faceEvent c 3 m accCommit 35) else e := by
  intro key t restart e
  have hr : ((c.pw.wdEn || bit w 63) && !c.pw.wdEn || decide (key = 0x4B1C) || (c.pw.wdEn && decide (t ≠ c.pw.wdTimeout))) = true ↔ restart := by
    cases h : c.pw.wdEn <;> simp [restart, h]
  have hf : (!decide (key = 0x4B1C)) = decide (key ≠ 0x4B1C) := by simp
  unfold commitWdog
  dsimp only
  rw [if_congr hr rfl rfl, hf]
  rfl

/-! ### HOSTVER (R189, R190) -/

/-- HOSTVER outside CONFIG is ignored. -/
theorem commitHostver_ignored {c : Chip} {m : Mid} {w : Word} (h : inRun c = true) :
    commitHostver c m w = { c with img := { c.img with hvIgnored := true } } := by
  have hc : inConfig c = false := by
    unfold inRun inConfig at *
    cases hs : c.pw.state <;> simp [hs] at h ⊢
  simp only [commitHostver, hc, Bool.false_eq_true, if_false]

/-- HOSTVER in CONFIG: the version is taken and checked. -/
theorem commitHostver_config {c : Chip} {m : Mid} {w : Word} (h : inConfig c = true) :
    let v := fld w 7 0
    let rec0 := if v = c.pw.hostver then c.img.accept else none
    let tol := decide (c.img.minimal = false ∧ rec0 = some (c.img.actSlot, c.img.actVer, v))
    let mis := !c.img.minimal && decide (v ≠ 0) && !hostBit c 0 v && !tol
    let t : Chip := { c with pw := { c.pw with hostver := v },
                             img := { c.img with hvIgnored := false, accept := rec0, hostMismatch := mis, hostTol := tol } }
    commitHostver c m w = if mis && !c.img.hostMismatch then raiseR t (faceEvent c 506 m accCommit 2) else t := by
  intro v rec0 tol mis t
  unfold commitHostver
  rw [if_pos h]
  unfold hostCheck
  dsimp only
  cases hm : c.img.minimal
  · simp [hm, t, mis, tol, rec0, v, acceptMatches]
    rfl
  · simp [hm, t, mis, tol, rec0, v]

/-! ### POWERCTL (R175 to R177) -/

/-- The reasons for which IDLE is refused (Table 6-13). -/
def idleRefuse (c : Chip) : Nat :=
  (if benched c then 128 else 0) + (if anyChannelEnabled c then 4 else 0) + (if c.pw.state ≠ .run then 1 else 0)

theorem idleRefuse_eq_zero (c : Chip) : idleRefuse c = 0 ↔ c.pw.state = .run ∧ benched c = false ∧ anyChannelEnabled c = false := by
  unfold idleRefuse
  by_cases h1 : benched c = true <;> by_cases h2 : anyChannelEnabled c = true <;> by_cases h3 : c.pw.state = .run <;> simp [h1, h2, h3]

theorem reqIdle_accept {c : Chip} (h : idleRefuse c = 0) :
    reqIdle c = drivers (reqAnswer { c with pw := { c.pw with state := .idle } } 2 0) true := if_neg (not_not.mpr h)

theorem reqIdle_refuse {c : Chip} (h : idleRefuse c ≠ 0) : reqIdle c = reqAnswer c 3 (idleRefuse c) := if_pos h

/-- The reasons for which SLEEP is refused, without STATE. -/
def sleepRefuse (c : Chip) : Nat :=
  (if benched c then 128 else 0) + (if anyEnabled c then 64 else 0) +
    (if c.own.entries.toList.any (fun e => e.st = .draining || e.st = .scrubbing) then 32 else 0) +
    (if c.pw.wakeen = 0 then 16 else 0) + (if c.flt.srcs[(2 : Src)].st ≠ .ok then 8 else 0)

theorem sleepRefuse_even (c : Chip) : sleepRefuse c % 2 = 0 := by
  have h : ∀ (p : Prop) [Decidable p] (n : Nat), n % 2 = 0 → (if p then n else 0) % 2 = 0 := by
    intro p _ n hn
    split <;> omega
  unfold sleepRefuse
  have h1 := h (benched c = true) 128 rfl
  have h2 := h (anyEnabled c = true) 64 rfl
  have h3 := h (c.own.entries.toList.any (fun e => e.st = .draining || e.st = .scrubbing) = true) 32 rfl
  have h4 := h (c.pw.wakeen = 0) 16 rfl
  have h5 := h (c.flt.srcs[(2 : Src)].st ≠ .ok) 8 rfl
  omega

theorem sleepRefuse_odd (c : Chip) : (sleepRefuse c + 1) % 2 = 1 := by
  have := sleepRefuse_even c
  omega

theorem sleepRefuse_eq_zero {c : Chip} (hb : benched c = false) (hen : anyEnabled c = false)
    (htr : c.own.entries.toList.any (fun e => e.st = .draining || e.st = .scrubbing) = false) (hw : c.pw.wakeen ≠ 0)
    (h2 : c.flt.srcs[(2 : Src)].st = .ok) : sleepRefuse c = 0 := by
  simp [sleepRefuse, hb, hen, htr, hw]
  exact h2

theorem reqSleep_accept {c : Chip} (h : sleepRefuse c = 0) (hst : c.pw.state ≠ .minconfig) :
    reqSleep c = reqAnswer { c with pw := { c.pw with sleepPending := true, reqTick := c.tick, sleepFrom := c.pw.state } } 1 0 := by
  have hr : ¬ sleepRefuse c + (if c.pw.state = .minconfig then 1 else 0) ≠ 0 := by
    rw [h, if_neg hst]
    exact not_not.mpr rfl
  exact if_neg hr

/-- SLEEP from minimal CONFIG is refused with STATE. -/
theorem reqSleep_minconfig {c : Chip} (hst : c.pw.state = .minconfig) : reqSleep c = reqAnswer c 3 (sleepRefuse c + 1) := by
  have hr : sleepRefuse c + (if c.pw.state = .minconfig then 1 else 0) = sleepRefuse c + 1 := by rw [if_pos hst]
  have hn : sleepRefuse c + (if c.pw.state = .minconfig then 1 else 0) ≠ 0 := by
    rw [hr]
    exact Nat.succ_ne_zero _
  refine (if_pos hn).trans ?_
  rw [← hr]
  rfl

/-- No object is in transit. -/
theorem noTransit {c : Chip} (h : ∀ i : ObjIx, (ownE c i).st ≠ .draining ∧ (ownE c i).st ≠ .scrubbing) :
    c.own.entries.toList.any (fun e => e.st = .draining || e.st = .scrubbing) = false := by
  rw [List.any_eq_false]
  intro e he
  obtain ⟨i, hi, rfl⟩ := List.mem_iff_getElem.mp he
  obtain ⟨h1, h2⟩ := h ⟨i, by simpa using hi⟩
  simpa [ownE] using ⟨h1, h2⟩

/-- The fields that every commit of POWERCTL writes, and then the request. -/
theorem commitPowerctl_op {c : Chip} {w : Word} {n : Nat} (h : fld w 42 40 = n) :
    (n = 1 → commitPowerctl c w = reqRun { c with pw := powerctlFields c w }) ∧
    (n = 2 → commitPowerctl c w = reqIdle { c with pw := powerctlFields c w }) ∧
    (n = 3 → commitPowerctl c w = reqSleep { c with pw := powerctlFields c w }) := by
  refine ⟨?_, ?_, ?_⟩
  all_goals
    intro hn
    rw [hn] at h
    simp only [commitPowerctl, h]
    rfl

end Sys2Proof.Proofs

open Sys2Proof Sys2Proof.Machine Sys2Proof.Proofs

/-- Settles O16: the arms of `regWrite` of the four registers. -/
theorem wardenRegistersAreWritten : Obligations.WardenRegistersAreWritten := by
  refine ⟨fun s dt m d y mo da => ⟨fun h => ?_, fun h hst hy1 hy2 hm1 hm2 hd1 hd2 hh hmi hs ht => ?_, fun h hst => ?_⟩,
    fun s dt m d => ?_, fun s dt m d => ?_⟩
  · exact exec_commit rfl (busCommit_eq h rfl) rfl
  · have hv := calCheck_valid ⟨hy1, hy2⟩ ⟨hm1, hm2⟩ ⟨hd1, hd2⟩ hh hmi hs ht
    have hst' : (emptyShadow (found s dt) m).cal.stage = some (y, mo, da) := hst
    refine exec_commit rfl ((busCommit_eq h (calendarWrite_of_zero (hst' ▸ hv))).trans ?_) rfl
    rw [hst']
    rfl
  · refine exec_commit rfl ((busCommit_eq h (calendarWrite_unstaged hst)).trans ?_) rfl
    rw [mst_emptyShadow_claim]
    rfl
  · dsimp only
    intro h
    refine exec_commit rfl ((busCommit_eq h (commitWdog_eq ..)).trans ?_) ?_
    · rw [faceEvent_emptyShadow, driveD_raise]
      rfl
    · exact leaveAll_raise rfl
  · dsimp only
    intro h
    refine ⟨fun hr => ?_, fun hr => ?_⟩
    · exact exec_commit rfl (busCommit_eq h (commitHostver_ignored hr)) rfl
    · refine exec_commit rfl ((busCommit_eq h (commitHostver_config hr)).trans ?_) ?_
      · rw [faceEvent_emptyShadow, driveD_raise]
        rfl
      · exact leaveAll_raise rfl

/-- Settles O15: the three requests, by `commitPowerctl_op` and the branches of each request. -/
theorem powerRequestsAreAccepted : Obligations.PowerRequestsAreAccepted := by
  intro s dt m d
  dsimp only
  intro h
  have op {n : Nat} (hop : fld (shadowWord (mst (found s dt) m) d) 42 40 = n) :=
    commitPowerctl_op (c := emptyShadow (found s dt) m) hop
  refine ⟨fun hop hst hb hch => ?_, fun hop hno => ?_, fun hop hst => ?_, fun hop hst => ?_, fun hop hst hb hen htr hw h2 => ?_,
    fun hop hst => ?_⟩
  · obtain ⟨-, hi, -⟩ := op hop
    refine exec_commit rfl (busCommit_eq h ((hi rfl).trans (reqIdle_accept ?_))) rfl
    exact (idleRefuse_eq_zero _).mpr ⟨hst, hb, hch⟩
  · obtain ⟨-, hi, -⟩ := op hop
    refine exec_commit rfl (busCommit_eq h ((hi rfl).trans (reqIdle_refuse fun h0 => ?_))) rfl
    obtain ⟨h1, h2, h3⟩ := (idleRefuse_eq_zero _).mp h0
    obtain hno | hno | hno := hno
    · exact hno h1
    · exact Bool.false_ne_true (h2.symm.trans hno)
    · exact Bool.false_ne_true (h3.symm.trans hno)
  · obtain ⟨hr, -, -⟩ := op hop
    exact exec_commit rfl (busCommit_eq h ((hr rfl).trans (if_neg (not_not.mpr hst)))) rfl
  · obtain ⟨hr, -, -⟩ := op hop
    exact exec_commit rfl (busCommit_eq h ((hr rfl).trans (if_pos hst))) rfl
  · obtain ⟨-, -, hs⟩ := op hop
    refine exec_commit rfl (busCommit_eq h ((hs rfl).trans (reqSleep_accept ?_ hst))) rfl
    exact sleepRefuse_eq_zero hb hen (noTransit (c := found s dt) htr) hw h2
  · obtain ⟨-, -, hs⟩ := op hop
    refine ⟨_, exec_commit rfl (busCommit_eq h ((hs rfl).trans (reqSleep_minconfig hst))) rfl, ?_⟩
    exact sleepRefuse_odd _
end

