-- ==== Sys2Proof/Proofs/ObjectReads.lean ====
section
/-! Reads of object words, refused accesses and the bus timeout. -/

namespace Sys2Proof.Proofs

open Sys2Proof.Machine

/-- A read of a word that exists and that the client may read (R54, R55). -/
theorem objRead_eq {v c : Chip} {m : Mid} {cl : Client} {k : WClass} {o : OAccess} (hc : (mst c m).claim = some cl)
    (hf : foreignRegion c (objAddr (mst c m)) = false) (ho : objInfo (objAddr (mst c m)) = some (k, o))
    (ha : mayAccess v cl o false = true) :
    objRead v c m .clean = (c, objValue v k (mst c m).view (objAddr (mst c m))) ∧
    objRead v c m .single = (retCorrected c (evAt c 64 m.val accRead 2 (objAddr (mst c m)) (some cl)) (journalWord (objAddr (mst c m))),
      objValue v k (mst c m).view (objAddr (mst c m))) ∧
    objRead v c m .double = (retUncorr (setFlag c m 10) (evAt c 65 m.val accRead 2 (objAddr (mst c m)) (some cl)), 0) := by
  refine ⟨?_, ?_, ?_⟩
  all_goals simp only [objRead, hc, hf, ho, ha, Bool.not_true, Bool.false_eq_true, if_false]

theorem updM_id (c : Chip) (m : Mid) : updM c m (fun x => x) = c := by
  simp only [updM, upd, Fin.getElem_fin, Vector.set_getElem_self]

/-- A raised source and a change of a master do not meet. -/
theorem updM_raiseR (c : Chip) (r : Raise) (m : Mid) (f : Master → Master) : updM (raiseR c r) m f = raiseR (updM c m f) r := rfl

/-- The move of OBJADDR by OBJDATAINC, for register 14 alone. -/
theorem bump_eq (c : Chip) (m : Mid) (r : Fin 64) :
    bump c m r = updM c m (fun x => { x with addr := if r = 14 then (x.addr + 1) % 2 ^ 29 else x.addr }) := by
  have hv : r.val = 14 ↔ r = 14 := ⟨fun h => Fin.ext h, fun h => congrArg Fin.val h⟩
  by_cases h : r = 14
  · rw [bump, if_pos (hv.mpr h), objAdvance]
    simp only [h, if_true]
  · rw [bump, if_neg fun hh => h (hv.mp hh)]
    simp only [h, if_false]
    exact (updM_id c m).symm

/-! ### The bus timeout -/

theorem exec_busTimeout (s : State) (dt : Nat) (m : Mid) (r : Fin 64) (h : Fin 4) (b : Bool) :
    exec (.busTimeout dt m r h b) s =
      .next (ended s dt (leaveAll (found s dt) (busTimeout (looked s dt) (found s dt) m r h b))) := rfl

/-- A timeout that the Face serves (R37, R40). -/
theorem busTimeout_served {v c : Chip} {m : Mid} {r : Fin 64} (b : Bool) (h : Fin 4) (hs : faceAt c timeoutTicks = .serves) :
    busTimeout v c m r h b =
      let d := timeoutFlags v c m r h b
      let e := if b then updM d m (fun s => { s with rdTag := none }) else d
      raiseR (driveD e (if b then some deadHalf else none) false) (faceEvent e 8 m (accOf b h) r) := by
  simp only [busTimeout, hs]

theorem timeoutFlags_write {v c : Chip} {m : Mid} {r : Fin 64} {h : Fin 4} (hr : r.val < 48) : timeoutFlags v c m r h false = c := by
  simp [timeoutFlags, mapped, hr]

/-- A timed-out read that sets no flag of its own. -/
theorem timeoutFlags_read {v c : Chip} {m : Mid} {r : Fin 64} {h : Fin 4} (hr : r.val < 48)
    (hh : (h = 0 ∧ permits (readPerm r) (mst c m).claim = true ∧ r ≠ 13 ∧ r ≠ 14 ∧ r ≠ 32) ∨ (h ≠ 0 ∧ (mst c m).rdTag = some r)) :
    timeoutFlags v c m r h true = c := by
  have hm : mapped r = true := decide_eq_true hr
  obtain ⟨h0, hp, h13, h14, h32⟩ | ⟨h0, ht⟩ := hh
  · have h13 : r.val ≠ 13 := fun e => h13 (Fin.ext e)
    have h14 : r.val ≠ 14 := fun e => h14 (Fin.ext e)
    have h32 : r.val ≠ 32 := fun e => h32 (Fin.ext e)
    simp [timeoutFlags, hm, h0, hp, h13, h14, h32]
  · simp [timeoutFlags, hm, h0, ht]

end Sys2Proof.Proofs

open Sys2Proof Sys2Proof.Machine Sys2Proof.Proofs

/-- Settles O8: `objRead` of a word that may be read, by what the memory finds. -/
theorem objectWordsAreRead : Obligations.ObjectWordsAreRead := by
  intro s dt m cl k o
  dsimp only
  intro hs hc hf ho ha
  obtain ⟨h1, h2, h3⟩ := objRead_eq (v := looked s dt) hc hf ho ha
  have h13 (e : Ecc) : exec (.objdataRead dt m e) s = .next (ended s dt (leaveAll (found s dt)
      (latch (objRead (looked s dt) (found s dt) m e).1 m 13 (objRead (looked s dt) (found s dt) m e).2))) := by
    rw [exec_objdataRead, busRead_claimed e 0 hs hc (by decide) (by decide)]
    rfl
  have h14 (e : Ecc) : exec (.objdataincRead dt m e) s = .next (ended s dt (leaveAll (found s dt)
      (latch (objAdvance (objRead (looked s dt) (found s dt) m e).1 m) m 14 (objRead (looked s dt) (found s dt) m e).2))) := by
    rw [exec_objdataincRead, busRead_claimed e 0 hs hc (by decide) (by decide)]
    rfl
  refine ⟨?_, ?_, fun hj => ?_, ?_⟩
  · rw [h13, h1]
    rfl
  · rw [h14, h1]
    rfl
  · rw [h13, h2, hj]
    rfl
  · rw [h13, h3]
    rfl

/-- Settles O11: the two refusals of the Laws for every write of halfword 3, and the served bus timeout. -/
theorem refusedAccessesHaveNoEffect : Obligations.RefusedAccessesHaveNoEffect := by
  refine ⟨fun s i dt m r d => ?_, fun s dt m r h => ?_⟩
  · dsimp only
    intro hi hs hr hw
    refine ⟨fun hp => ?_, fun hp hn => ?_⟩
    · refine exec_commit hi ((busCommit_denied d hs hr hw hp).trans ?_) rfl
      rw [bump_eq, deny, faceEvent_emptyShadow, setFlag, updM_raiseR, updM_updM]
      rfl
    · refine exec_commit hi ((busCommit_partial d hs hr hw hp hn).trans ?_) rfl
      rw [bump_eq, setFlag, updM_raiseR, updM_updM]
      rfl
  · dsimp only
    intro hs hr
    refine ⟨?_, fun hh => ?_⟩
    · rw [exec_busTimeout, busTimeout_served false h hs, timeoutFlags_write hr]
      rfl
    · rw [exec_busTimeout, busTimeout_served true h hs, timeoutFlags_read hr hh]
      dsimp only
      rw [if_pos rfl, if_pos rfl, faceEvent, mst_updM_self]
      rfl
end

