-- ==== Sys2Proof/Proofs/ClaimCommits.lean ====
section
/-! A commit of CLAIM: what a grant and a failure do. -/

namespace Sys2Proof.Proofs

open Sys2Proof.Machine

/-! ### The lockout (R81) -/

/-- A master that is not locked out has no lockout left after the check, and FAILS from 0 where one is over. -/
theorem lockoutOver_eq {c : Chip} {m : Mid} (h : lockedOut c (mst c m) = false) :
    lockoutOver c m = updM c m (fun x => { x with lockEnd := none, fails := if x.lockEnd = none then x.fails else 0 }) := by
  rw [updM_const]
  unfold lockoutOver
  cases he : (mst c m).lockEnd with
  | none =>
    rw [if_neg (by simp)]
    have hx : (mst c m) = { mst c m with lockEnd := none } := by rw [← he]
    conv_lhs => rw [← updM_id c m, updM_const]
    simp only [if_true]
    rw [← hx]
  | some e =>
    rw [if_pos (by simp [h])]
    rw [updM_const]
    simp

theorem lockoutOver_locked {c : Chip} {m : Mid} (h : lockedOut c (mst c m) = true) : lockoutOver c m = c := by
  unfold lockoutOver
  rw [h, if_neg (by simp)]

/-- After the check a master that was not locked out is not. -/
theorem lockedOut_lockoutOver {c : Chip} {m : Mid} (h : lockedOut c (mst c m) = false) :
    lockedOut (lockoutOver c m) (mst (lockoutOver c m) m) = false := by
  rw [lockoutOver_eq h, mst_updM_self]
  rfl

theorem lockedOut_emptyShadow (c : Chip) (m : Mid) :
    lockedOut (emptyShadow c m) (mst (emptyShadow c m) m) = lockedOut c (mst c m) := by
  rw [emptyShadow, mst_updM_self]
  rfl

theorem updM_committed (c : Chip) (m : Mid) (f : Master → Master) :
    updM (committed c m) m f = driveD (updM (emptyShadow c m) m f) none false := rfl

/-! ### The arms of a CLAIM with OP 1 (R77) -/

theorem fin?_val {n : Nat} (k : Fin n) : fin? n k.val = some k := by
  simp [fin?]

theorem commitClaim_locked {c : Chip} {m : Mid} {w : Word} (hop : fld w 37 36 = 1) (h : lockedOut c (mst c m) = true) :
    commitClaim c m w = c := by
  simp only [commitClaim, hop, if_true, lockoutOver_locked h, h]

theorem commitClaim_claim {c : Chip} {m : Mid} {w : Word} {k : Client} (hop : fld w 37 36 = 1) (hk : fld w 35 32 = k.val)
    (h : lockedOut c (mst c m) = false) :
    commitClaim c m w = if claimOk (lockoutOver c m) m k (w.truncate 32) then claimGrant (lockoutOver c m) m k
      else claimFail (lockoutOver c m) m := by
  simp only [commitClaim, hop, if_true, lockedOut_lockoutOver h, Bool.false_eq_true, if_false, hk, fin?_val]

theorem claimOk_iff (c : Chip) (m : Mid) (k : Client) (pass : BitVec 32) :
    claimOk c m k pass = true ↔ c.own.prov[k].enabled = true ∧ (c.own.prov[k].passcode ≠ 0 ∨ k = 0) ∧
      c.own.prov[k].passcode = pass ∧ (c.own.prov[k].pinen = false ∨ c.own.prov[k].pinmid = m) := by
  simp [claimOk, and_assoc]

/-! ### A failure (R80) -/

theorem claimFail_eq (c : Chip) (m : Mid) :
    claimFail c m = if 8 ≤ (mst c m).fails + 1 then
        raiseR (raiseR (updM c m (fun x => { x with badlast := true, fails := 8, lockEnd := some (c.tick + secTicks) }))
          (faceEvent c 32 m accCommit 3)) (faceEvent c 33 m accCommit 3)
      else raiseR (updM c m (fun x => { x with badlast := true, fails := (mst c m).fails + 1 })) (faceEvent c 32 m accCommit 3) := by
  unfold claimFail
  dsimp only
  rw [mst_raiseR]
  split
  · rw [updM_updM]
    simp only [faceEvent, mst_updM_self, mst_raiseR]
    rfl
  · rfl

/-- The part on which a CLAIM of a master that is not locked out is judged: its shadow is empty, and no lockout is left. -/
def unlocked (c : Chip) (m : Mid) : Chip :=
  updM c m (fun x => { x with wr0 := 0, wr1 := 0, wr2 := 0, wf0 := false, wf1 := false, wf2 := false, wrTag := none,
                              lockEnd := none, fails := if x.lockEnd = none then x.fails else 0 })

theorem lockoutOver_emptyShadow {c : Chip} {m : Mid} (h : lockedOut c (mst c m) = false) :
    lockoutOver (emptyShadow c m) m = unlocked c m := by
  rw [lockoutOver_eq ((lockedOut_emptyShadow ..).trans h), emptyShadow, updM_updM]
  rfl

theorem faceKey_unlocked (c : Chip) (m : Mid) : faceKey (unlocked c m) = faceKey c := faceKey_updM _ _ _ fun _ => rfl

/-- A CLAIM by a master that is not locked out (R77). -/
theorem busCommit_claimed {c : Chip} {m : Mid} {d : Half} {k : Client} (h : CommitRuns c m 3)
    (hop : fld (shadowWord (mst c m) d) 37 36 = 1) (hk : fld (shadowWord (mst c m) d) 35 32 = k.val)
    (hl : lockedOut c (mst c m) = false) :
    busCommit c m 3 d =
      driveD (if claimOk c m k ((shadowWord (mst c m) d).truncate 32) then claimGrant (unlocked c m) m k
        else claimFail (unlocked c m) m) none false := by
  rw [busCommit_claim d h, commitClaim_claim hop hk ((lockedOut_emptyShadow ..).trans hl), lockoutOver_emptyShadow hl]
  rfl

/-- A failed CLAIM of a master with the FAILS f that count (R80, R81). -/
theorem claimFail_unlocked (c : Chip) (m : Mid) :
    let x := mst c m
    let f := if x.lockEnd = none then x.fails else 0
    claimFail (unlocked c m) m = if 8 ≤ f + 1 then
        raiseR (raiseR (updM (emptyShadow c m) m (fun y => { y with badlast := true, fails := 8, lockEnd := some (c.tick + 160000000) }))
          (evAt c 32 m.val accCommit 1 0x018 x.claim)) (evAt c 33 m.val accCommit 1 0x018 x.claim)
      else raiseR (updM (emptyShadow c m) m (fun y => { y with badlast := true, fails := f + 1, lockEnd := none }))
        (evAt c 32 m.val accCommit 1 0x018 x.claim) := by
  intro x f
  have hm : mst (unlocked c m) m =
      { mst c m with wr0 := 0, wr1 := 0, wr2 := 0, wf0 := false, wf1 := false, wf2 := false,
                     wrTag := none, lockEnd := none, fails := f } := mst_updM_self ..
  rw [claimFail_eq, faceEvent, faceEvent, hm]
  dsimp only
  split
  · rw [unlocked, updM_updM, emptyShadow, updM_updM]
    rfl
  · rw [unlocked, updM_updM, emptyShadow, updM_updM]
    rfl

/-! ### A grant (R78) -/

theorem holder_of_faceKey {c d : Chip} (h : faceKey d = faceKey c) (k : Client) : holder d k = holder c k := by
  have hm : ∀ m : Mid, d.face.masters[m].claim = c.face.masters[m].claim := congrFun (congrArg Prod.fst h)
  simp only [holder, hm]

/-- A master that already acts as the client keeps its items. -/
theorem claimGrant_same {c : Chip} {m : Mid} {k : Client} (h : (mst c m).claim = some k) :
    claimGrant c m k = updM c m (fun s => { s with fails := 0, badlast := false }) := if_pos h

/-- The part after the claim of the master that held the client has ended. -/
def holderEnds (c : Chip) (k : Client) : Chip :=
  match holder c k with
  | some h => endClaim c h 1
  | none => c

theorem holderEnds_only (c : Chip) (k : Client) :
    holderEnds c k = { c with face := { c.face with masters := (holderEnds c k).face.masters }, cal := (holderEnds c k).cal } := by
  unfold holderEnds
  cases holder c k with
  | none => rfl
  | some h => exact endClaim_only c h 1

/-- The end of a claim of CL0 clears the stage (R150). -/
theorem endClaim_cal (c : Chip) (m : Mid) (z : Nat) :
    (endClaim c m z).cal = { c.cal with stage := if (mst c m).claim = some 0 then none else c.cal.stage } := by
  cases h : (mst c m).claim with
  | none => simp [endClaim_of_none z h]
  | some k => simp [endClaim_of_some z h]

theorem mst_holderEnds (c : Chip) (k : Client) (n : Mid) :
    mst (holderEnds c k) n = if holder c k = some n then { clearMaster (mst c n) with claim := none, endcause := 1 } else mst c n := by
  unfold holderEnds
  cases hh : holder c k with
  | none => rfl
  | some h =>
    dsimp only
    rw [mst_endClaim, holder_spec hh]
    by_cases hn : h = n
    · subst hn
      simp
    · simp [hn]

theorem holderEnds_cal (c : Chip) (k : Client) :
    k ≠ 0 → (holderEnds c k).cal = c.cal := by
  intro hk
  unfold holderEnds
  cases hh : holder c k with
  | none => rfl
  | some h =>
    dsimp only
    rw [endClaim_cal, holder_spec hh, if_neg (by simpa using hk)]

/-- A claim of a client that the master does not act as (R78). -/
theorem claimGrant_other {c : Chip} {m : Mid} {k : Client} (h : (mst c m).claim ≠ some k) :
    claimGrant c m k =
      updM { endClaim (holderEnds c k) m 0 with
          cal := { (endClaim (holderEnds c k) m 0).cal with stage := if k = 0 then none else (endClaim (holderEnds c k) m 0).cal.stage } } m
        (fun s => { clearMaster s with claim := some k, fails := 0, badlast := false }) := by
  unfold claimGrant
  rw [if_neg h]
  by_cases hk : k = 0
  · simp only [hk, if_true]
    rfl
  · simp only [hk, if_false]
    rfl

/-- The master that is granted a claim of another client has not held it. -/
theorem mst_holderEnds_self {c : Chip} {m : Mid} {k : Client} (h : (mst c m).claim ≠ some k) : mst (holderEnds c k) m = mst c m := by
  rw [mst_holderEnds, if_neg fun hh => h (holder_spec hh)]

theorem claimGrant_only {c : Chip} {m : Mid} {k : Client} (h : (mst c m).claim ≠ some k) :
    claimGrant c m k =
      { c with face := { c.face with masters := (claimGrant c m k).face.masters }, cal := (claimGrant c m k).cal } := by
  rw [claimGrant_other h, endClaim_only, holderEnds_only]
  rfl

theorem claimGrant_cal {c : Chip} {m : Mid} {k : Client} (h : (mst c m).claim ≠ some k) :
    (claimGrant c m k).cal = { c.cal with stage := if k = 0 ∨ (mst c m).claim = some 0 then none else c.cal.stage } := by
  rw [claimGrant_other h]
  show ({ (endClaim (holderEnds c k) m 0).cal with stage := _ } : Cal) = _
  rw [endClaim_cal, mst_holderEnds_self h]
  by_cases hk : k = 0
  · have hc : (holderEnds c k).cal = { c.cal with stage := (holderEnds c k).cal.stage } := by
      unfold holderEnds
      cases holder c k with
      | none => rfl
      | some h => dsimp only; rw [endClaim_cal]
    rw [hc]
    simp [hk]
  · rw [holderEnds_cal c k hk]
    simp [hk]

theorem mst_claimGrant_self {c : Chip} {m : Mid} {k : Client} (h : (mst c m).claim ≠ some k) :
    mst (claimGrant c m k) m = { clearMaster (mst c m) with
      claim := some k, fails := 0, badlast := false, endcause := if (mst c m).claim.isSome then 0 else (mst c m).endcause } := by
  rw [claimGrant_other h, mst_updM_self]
  show ({ clearMaster (mst (endClaim (holderEnds c k) m 0) m) with claim := some k, fails := 0, badlast := false } : Master) = _
  rw [mst_endClaim, mst_holderEnds_self h]
  cases hc : (mst c m).claim with
  | none => simp [clearMaster]
  | some j => simp [clearMaster]

theorem mst_claimGrant_other {c : Chip} {m n : Mid} {k : Client} (h : (mst c m).claim ≠ some k) (hn : n ≠ m) :
    mst (claimGrant c m k) n = if holder c k = some n then { clearMaster (mst c n) with claim := none, endcause := 1 } else mst c n := by
  rw [claimGrant_other h, mst_updM, if_neg hn.symm]
  show mst (endClaim (holderEnds c k) m 0) n = _
  rw [mst_endClaim, if_neg fun hh => hn hh.1.symm, mst_holderEnds]

end Sys2Proof.Proofs

open Sys2Proof Sys2Proof.Machine Sys2Proof.Proofs

/-- Settles O13: a failure, a lockout that stands and one that is over. -/
theorem claimFailsAndLocksOut : Obligations.ClaimFailsAndLocksOut := by
  intro s dt m d k e
  dsimp only
  refine ⟨fun h hop hk => ⟨fun hl hno => ?_, fun hl => ?_⟩, fun hs hle he => ?_⟩
  · have hf := claimFail_unlocked (found s dt) m
    have hb := busCommit_claimed h hop hk hl
    rw [if_neg fun hok => hno ((claimOk_iff ..).mp hok), hf] at hb
    refine ⟨fun h7 => ?_, fun h7 => ?_⟩
    · rw [if_neg (by omega)] at hb
      exact exec_commit rfl hb rfl
    · rw [if_pos (by omega)] at hb
      exact exec_commit rfl hb rfl
  · exact exec_commit rfl (busCommit_eq h (commitClaim_locked hop ((lockedOut_emptyShadow ..).trans hl))) rfl
  · have ho : lockoutOver (found s dt) m = updM (found s dt) m (fun x => { x with lockEnd := none, fails := 0 }) :=
      if_pos (by simp [hle, lockedOut, he])
    refine runFace_of_leaves (f := fun c => if serving c then lockoutOver c m else c) ((if_pos hs).trans ho) rfl

/-- Settles O12: the grant of a claim that the master holds, and of one that it does not. -/
theorem claimSucceeds : Obligations.ClaimSucceeds := by
  intro s dt m d k
  dsimp only
  intro h hop hk hl hen hp hpass hpin
  have hb := busCommit_claimed h hop hk hl
  rw [if_pos ((claimOk_iff ..).mpr ⟨hen, hp, hpass, hpin⟩)] at hb
  have hm : (mst (unlocked (found s dt) m) m).claim = (mst (found s dt) m).claim := congrFun (congrArg Prod.fst (faceKey_unlocked ..)) m
  have hcm : clearMaster (mst (unlocked (found s dt) m) m) =
      { clearMaster (mst (found s dt) m) with
        lockEnd := none, fails := if (mst (found s dt) m).lockEnd = none then (mst (found s dt) m).fails else 0 } := by
    rw [unlocked, mst_updM_self]
    rfl
  have he : (mst (unlocked (found s dt) m) m).endcause = (mst (found s dt) m).endcause := by
    rw [unlocked, mst_updM_self]
  refine ⟨fun hc => ?_, fun hc => ?_⟩
  · have hc' : (mst (unlocked (found s dt) m) m).claim ≠ some k := hm ▸ hc
    refine ⟨_, exec_commit rfl hb ?_, ?_, ?_, ?_, ?_, fun n hn => ?_⟩
    · rw [claimGrant_only hc']
      rfl
    · rw [claimGrant_only hc']
      rfl
    · refine (claimGrant_cal hc').trans ?_
      rw [hm]
      rfl
    · rw [claimGrant_only hc']
      rfl
    · refine (mst_claimGrant_self hc').trans ?_
      rw [hcm, he, hm]
    · refine (mst_claimGrant_other hc' hn).trans ?_
      rw [holder_of_faceKey (faceKey_unlocked ..), unlocked, mst_updM, if_neg hn.symm]
  · rw [claimGrant_same (hm.trans hc)] at hb
    refine exec_commit rfl (hb.trans ?_) rfl
    rw [updM_committed, unlocked, updM_updM, emptyShadow, updM_updM]
end

