-- ==== Sys2Proof/Proofs/Submissions.lean ====
section
/-! Submissions: the capture of a command, and the decision. -/

namespace Sys2Proof.Proofs

open Sys2Proof.Machine

/-- The part after a report of a submission and with another Weighbridge: the two are apart. -/
def reported (c : Chip) (a : Ask) (w : Word) (b : Wb) : Chip := { c with face := (writeSubmit c a w).face, wb := b }

theorem writeSubmit_wb (c : Chip) (a : Ask) (w : Word) (b : Wb) : writeSubmit { c with wb := b } a w = reported c a w b := by
  by_cases h : (mst c a.master).claim = some a.client ∧ (mst c a.master).submit = pendingWord
  · rw [reported, writeSubmit, writeSubmit, if_pos h]
    exact if_pos h
  · rw [reported, writeSubmit, writeSubmit, if_neg h]
    exact if_neg h

theorem reported_eq (c : Chip) (a : Ask) (w : Word) (b : Wb) : { writeSubmit c a w with wb := b } = reported c a w b := by
  unfold reported writeSubmit
  split <;> rfl

/-- The part without waiting submissions. -/
def asked (c : Chip) : Chip := { c with wb := { c.wb with asks := [] } }

theorem decideDue_none {c : Chip} {a : Ask} (h : c.wb.asks = [a]) (hd : c.tick < a.due) : decideDue c = c := by
  unfold decideDue
  rw [h]
  simp only [List.foldl_cons, List.foldl_nil, if_neg (Nat.not_le.mpr hd)]

theorem submit_emptyShadow (c : Chip) (m : Mid) (k : Client) (w : Word) :
    submit (emptyShadow c m) m k w =
      { updM (emptyShadow c m) m (fun y => { y with submit := pack [(61, 1, 1)] }) with
        wb := { c.wb with
          asks := c.wb.asks ++ [
            { master := m, client := k, cmda := (mst c m).cmda, cmdb := (mst c m).cmdb, cmdc := (mst c m).cmdc, w := w,
              due := c.tick + Config.freeValue c.freeN % 8 }] },
        freeN := c.freeN + 1 } := by
  have hm : mst (emptyShadow c m) m =
      { mst c m with wr0 := 0, wr1 := 0, wr2 := 0, wf0 := false, wf1 := false, wf2 := false, wrTag := none } := mst_updM_self ..
  unfold submit
  rw [hm]
  rfl

/-! ### The outcomes of a decision -/

/-- The clients' counters after a refusal (R107). -/
def refusedWb (c : Chip) (k : Client) (r : Nat) : Wb :=
  { c.wb with
    asks := [],
    clients := upd c.wb.clients k (fun v =>
      { v with lastReason := r, refused := true, refCount := min (v.refCount + 1) 65535, now := v.now ||| 2#3, refNow := v.refNow + 1 }) }

theorem decideAsk_refused {c : Chip} {a : Ask} {args : Bool} {r : Nat} (hr : submitReason (asked c) a args = r) (h : r ≠ 0) :
    decideAsk (asked c) a args =
      if r = 4 then raiseR (reported c a (pack [(62, 1, 1), (52, 4, r)]) (refusedWb c a.client r))
          (evAt c 67 a.master.val accCommit 1 0x40 (some a.client))
        else reported c a (pack [(62, 1, 1), (52, 4, r)]) (refusedWb c a.client r) := by
  rw [decideAsk]
  dsimp only
  rw [hr, if_pos h, refuseSubmit, asked, writeSubmit_wb]
  rfl

/-- FACTORYRESET of a client whose counters disagree (R114). -/
theorem decideAsk_direct {c : Chip} {a : Ask} {args : Bool} {o : OpInfo} (hr : submitReason (asked c) a args = 0)
    (ho : opInfo (fld a.cmda 63 56) = some o) (hm : c.wb.clients[a.client].mismatch = true) :
    decideAsk (asked c) a args =
      reported c a (pack [(63, 1, 1), (60, 1, 1), (32, 16, c.wb.epoch)]) { c.wb with asks := [], factoryDirect := true } := by
  have hm' : (asked c).wb.clients[a.client].mismatch = true := hm
  rw [decideAsk]
  dsimp only
  rw [hr, if_neg (not_not.mpr rfl), ho]
  dsimp only
  rw [if_pos hm']
  exact writeSubmit_wb c a _ _

/-- An accepted command has a free location (Table 4-2). -/
theorem freeLocs_ne_nil {c : Chip} {a : Ask} {args : Bool} {o : OpInfo} (hr : submitReason c a args = 0)
    (ho : opInfo (fld a.cmda 63 56) = some o) (hm : c.wb.clients[a.client].mismatch = false) : freeLocs c ≠ [] := by
  intro hn
  unfold submitReason at hr
  dsimp only at hr
  simp only [ho, hm, hn, List.isEmpty_nil, Bool.false_eq_true, if_false, if_true, Bool.false_and, Bool.or_false] at hr
  repeat' split at hr
  all_goals cases hr

/-- The sequence number of a client's next command (R106). -/
def seqAfter (c : Chip) (k : Client) : Nat := nextSeq c.wb.clients[k].lastSeq

/-- The journal entry of an accepted command, in the location that is chosen. -/
def acceptedEntry (c : Chip) (a : Ask) (o : OpInfo) : Entry :=
  newEntry c a o (chooseLoc (asked c)).1 (seqAfter c a.client)

/-- An accepted command (R106). -/
theorem decideAsk_accepted {c : Chip} {a : Ask} {args : Bool} {o : OpInfo} (hr : submitReason (asked c) a args = 0)
    (ho : opInfo (fld a.cmda 63 56) = some o) (hm : c.wb.clients[a.client].mismatch = false) :
    decideAsk (asked c) a args =
      reported c a (pack [(63, 1, 1), (60, 1, b2n o.ctrl), (32, 16, c.wb.epoch), (0, 32, seqAfter c a.client)])
        { c.wb with
          asks := [], entries := c.wb.entries ++ [acceptedEntry c a o], placeN := c.wb.placeN + 1,
          clients := upd c.wb.clients a.client (fun v =>
            { v with lastSeq := seqAfter c a.client, lastAccSeq := seqAfter c a.client, lastTag := a.w.truncate 32 }) } := by
  have hm' : ¬ (asked c).wb.clients[a.client].mismatch = true := Bool.eq_false_iff.mp hm
  rw [decideAsk]
  dsimp only
  rw [hr, if_neg (not_not.mpr rfl), ho]
  dsimp only
  rw [if_neg hm']
  exact writeSubmit_wb c a _ _

/-- A place of a list that is not empty, taken round its length, is in it. -/
theorem getD_mod_mem {α : Type} {l : List α} (h : l ≠ []) (n : Nat) (x : α) : l.getD (n % l.length) x ∈ l := by
  have hn : n % l.length < l.length := Nat.mod_lt _ (List.length_pos_iff.mpr h)
  rw [List.getD_eq_getElem l x hn]
  exact List.getElem_mem hn

theorem chooseLoc_mem {c : Chip} (h : freeLocs c ≠ []) : (chooseLoc c).1 ∈ freeLocs c := by
  unfold chooseLoc
  dsimp only
  generalize freeLocs c = l at h ⊢
  generalize Config.journalPlace c.wb.placeN = n
  exact getD_mod_mem h n 0

theorem newEntry_loc (c : Chip) (a : Ask) (o : OpInfo) (l n : Nat) : (newEntry c a o l n).loc = l := rfl

theorem freeLocs_asked (c : Chip) : freeLocs (asked c) = freeLocs c := by
  unfold freeLocs
  rfl

theorem acceptedEntry_loc {c : Chip} {a : Ask} {o : OpInfo} (h : freeLocs (asked c) ≠ []) : (acceptedEntry c a o).loc ∈ freeLocs c := by
  rw [← freeLocs_asked, acceptedEntry, newEntry_loc]
  exact chooseLoc_mem h

/-- The decision of the only submission that waits, when it is due (R105). -/
theorem decideDue_one {c : Chip} {a : Ask} (h : c.wb.asks = [a]) (hd : a.due ≤ c.tick) :
    decideDue c =
      { decideAsk (asked c) a (argsOk a.cmda a.cmdb a.cmdc) with isN := c.isN, tick := c.tick, own := c.own, mem := c.mem } := by
  have he : c.wb.asks.erase a = [] := by
    rw [h]
    exact List.erase_cons_head ..
  have hx : ∀ l : List Ask, l = [] → { c with wb := { c.wb with asks := l } } = asked c := by
    rintro _ rfl
    rfl
  unfold decideDue
  dsimp only
  conv_lhs => rw [h, List.foldl_cons, List.foldl_nil, if_pos hd, hx _ he]

end Sys2Proof.Proofs

open Sys2Proof Sys2Proof.Machine Sys2Proof.Proofs

/-- Settles O19: the capture by `submit`, and the three outcomes of `decideAsk`. -/
theorem commandsAreSubmitted : Obligations.CommandsAreSubmitted := by
  refine ⟨fun s dt m d k => ?_, fun c a o => ?_⟩
  · dsimp only
    intro h hc
    have hw : regWrite (emptyShadow (found s dt) m) m 8 (shadowWord (mst (found s dt) m) d) =
        decideDue (submit (emptyShadow (found s dt) m) m k (shadowWord (mst (found s dt) m) d)) := by
      rw [← claim_getD hc]
      rfl
    rw [submit_emptyShadow] at hw
    exact exec_commit rfl (busCommit_eq h hw) rfl
  · dsimp only
    intro ha
    refine ⟨decideDue_none ha, fun hd hr => ?_, fun hd hr ho hm => ?_, fun hd hr ho hm => ?_⟩
    · rw [decideDue_one ha hd, decideAsk_refused rfl hr]
      by_cases h4 : submitReason (asked c) a (argsOk a.cmda a.cmdb a.cmdc) = 4
      · rw [if_pos h4]
        refine Eq.trans ?_ (if_pos h4).symm
        exact (congrArg (raiseR · _) (reported_eq c a _ _)).symm
      · rw [if_neg h4]
        refine Eq.trans ?_ (if_neg h4).symm
        exact (reported_eq c a _ _).symm
    · refine ⟨acceptedEntry c a o, ?_, rfl, rfl, rfl, rfl, rfl, rfl, rfl, rfl, rfl, rfl, rfl, rfl, acceptedEntry_loc ?_⟩
      · rw [decideDue_one ha hd, decideAsk_accepted hr ho hm]
        exact (reported_eq c a _ _).symm
      · exact freeLocs_ne_nil (c := asked c) hr ho hm
    · rw [decideDue_one ha hd, decideAsk_direct hr ho hm]
      exact (reported_eq c a _ _).symm
end

