-- ==== Sys2Proof/Proofs/Fetched.lean ====
section
/-! The commands of the journal at their commit point: the forms in which they run, and NOP. -/

namespace Sys2Proof.Proofs

open Sys2Proof.Machine

/-- A command of a block has its effect e as it stands, if e leaves what the form leaves alone. -/
theorem runBlock_of_leaves {s : State} {dt : Nat} {f : Chip → Chip} {e : Chip} (hf : f (found s dt) = e)
    (he : leaveFace (found s dt) e = e) : runBlock s dt f = .next (ended s dt e) := by
  rw [runBlock, runWith_next, hf, he]

theorem runOwn_of_leaves {s : State} {dt : Nat} {f : Chip → Chip} {e : Chip} (hf : f (found s dt) = e)
    (he : leaveMem (found s dt) e = e) : runOwn s dt f = .next (ended s dt e) := by
  rw [runOwn, runWith_next, hf, he]

theorem runMem_of_leaves {s : State} {dt : Nat} {f : Chip → Chip} {e : Chip} (hf : f (found s dt) = e)
    (he : leaveOwn (found s dt) e = e) : runMem s dt f = .next (ended s dt e) := by
  rw [runMem, runWith_next, hf, he]

/-- The fetched command that executes. -/
theorem execOp_of {c : Chip} {op : Nat} {p : Entry → Bool} {e : Entry} (h : Executes c op p e) (body : Chip → Entry → Chip) :
    execOp c op p body = body c e := by
  unfold execOp
  rw [h]

/-- A fold whose step does nothing on a part does nothing. -/
theorem foldl_idle {α β : Type} {f : β → α → β} {c : β} (l : List α) (h : ∀ a, f c a = c) : l.foldl f c = c := by
  induction l with
  | nil => rfl
  | cons a l ih => rw [List.foldl_cons, h, ih]

/-- Without a drain no item is retired (R92). -/
theorem drainItems_idle {c : Chip} (h : ∀ i : ObjIx, (ownE c i).st ≠ .draining) : drainItems c = c := by
  unfold drainItems
  exact foldl_idle _ fun i => if_neg fun hh => h i hh.1

/-- Without a record in a ring none is merged (R130). -/
theorem mergeLate_idle {c : Chip} (h : ∀ o : Fin 24, c.outs[o].ring = []) : mergeLate c = c := by
  unfold mergeLate
  refine foldl_idle _ fun o => ?_
  rw [h o]
  rfl

end Sys2Proof.Proofs

open Sys2Proof Sys2Proof.Machine Sys2Proof.Proofs

/-- Settles O20: the commit by `doneS`, the retirement by the clocks' `retireDue`. -/
theorem nopOnlyCommitsAndRetires : Obligations.NopOnlyCommitsAndRetires := by
  refine ⟨fun s dt e h => ?_, fun c n hs hv hd hr => ?_⟩
  · exact runBlock_of_leaves (f := fun c => execOp c 0x01 (fun _ => true) doneS) (execOp_of h doneS) rfl
  · have hw : ∀ d : Chip, serving d = true → (∀ i : ObjIx, (ownE d i).st ≠ .draining) → (∀ o : Fin 24, d.outs[o].ring = []) →
        (if serving d then keep d (mergeLate (drainItems (retireDue d))) else d).wb.entries = (retireDue d).wb.entries := by
      intro d hv hd hr
      rw [if_pos hv, drainItems_idle (c := retireDue d) hd, mergeLate_idle (c := retireDue d) hr]
      rfl
    unfold advance
    rw [if_pos hs]
    dsimp only
    split
    all_goals
      refine (hw _ ?_ ?_ ?_).trans ?_
      · exact hv
      · exact hd
      · exact hr
      · rfl
end

