-- ==== Sys2Proof/Proofs/WardenCommands.lean ====
section
/-! RUN, ACCEPTHOST, BENCHRELEASE, FAULTPOLICY and CLAIMCFG. -/

namespace Sys2Proof.Proofs

open Sys2Proof.Machine

/-- A command of a block has its effect, without what the form leaves alone. -/
theorem runBlock_leaves {s : State} {dt : Nat} {f : Chip → Chip} {e : Chip} (hf : f (found s dt) = e) :
    runBlock s dt f = .next (ended s dt (leaveFace (found s dt) e)) := by
  rw [runBlock, runWith_next, hf]

/-! ### What the forms leave alone of a retirement -/

theorem leaveFace_retire (c : Chip) (k : Key) (st d : Nat) (r : Word) : leaveFace c (retire c k st d r) = retire c k st d r := by
  rw [retire_only]
  rfl

theorem leaveOwn_retire (c : Chip) (k : Key) (st d : Nat) (r : Word) : leaveOwn c (retire c k st d r) = retire c k st d r := by
  rw [retire_only]
  rfl

theorem leaveMem_retire (c : Chip) (k : Key) (st d : Nat) (r : Word) : leaveMem c (retire c k st d r) = retire c k st d r := by
  rw [retire_only]
  rfl

/-! ### Folds over the places of a vector -/

/-- A fold that changes one place for each of its numbers, once each. -/
theorem foldl_each {σ β : Type} {n : Nat} {f : σ → Fin n → σ} (I : σ → Prop) (π : σ → Fin n → β) (g : Fin n → β → β)
    (hI : ∀ c k, I c → I (f c k)) (hs : ∀ c k, I c → π (f c k) k = g k (π c k)) (ho : ∀ c j k, I c → j ≠ k → π (f c j) k = π c k)
    (l : List (Fin n)) (hl : l.Nodup) (c : σ) (hc : I c) (k : Fin n) :
    π (l.foldl f c) k = if k ∈ l then g k (π c k) else π c k := by
  induction l generalizing c with
  | nil => simp
  | cons j l ih =>
    obtain ⟨hj, hl⟩ := List.nodup_cons.mp hl
    rw [List.foldl_cons, ih hl _ (hI c j hc)]
    by_cases hk : k = j
    · subst hk
      simp [hj, hs c k hc]
    · simp [hk, ho c j k hc (Ne.symm hk)]

theorem foldl_allFin {σ β : Type} {n : Nat} {f : σ → Fin n → σ} (I : σ → Prop) (π : σ → Fin n → β) (g : Fin n → β → β)
    (hI : ∀ c k, I c → I (f c k)) (hs : ∀ c k, I c → π (f c k) k = g k (π c k)) (ho : ∀ c j k, I c → j ≠ k → π (f c j) k = π c k)
    (c : σ) (hc : I c) (k : Fin n) : π ((allFin n).foldl f c) k = g k (π c k) :=
  (foldl_each I π g hI hs ho _ (List.nodup_finRange n) c hc k).trans (if_pos (List.mem_finRange k))

/-! ### BENCHRELEASE -/

/-- The end of the Bench in the blocks changes the analog outputs alone (R481). -/
theorem releaseBlocks_only (c : Chip) : releaseBlocks c = { c with ao := (releaseBlocks c).ao } := by
  unfold releaseBlocks
  generalize allFin 8 = l
  refine foldl_keeps (fun d : Chip => d = { c with ao := d.ao }) _ (fun d a h => ?_) l c rfl
  split
  · rw [h]
    rfl
  · exact h

/-- EV of a number reaches every enabled client (R480). -/
theorem notifyEnabled_only (c : Chip) (e : Nat) :
    notifyEnabled c e = { c with flt := { c.flt with evtstat := (notifyEnabled c e).flt.evtstat, evtNow := (notifyEnabled c e).flt.evtNow } } := by
  unfold notifyEnabled
  generalize allFin 16 = l
  refine foldl_keeps (fun d : Chip => d = { c with flt := { c.flt with evtstat := d.flt.evtstat, evtNow := d.flt.evtNow } }) _
    (fun d a h => ?_) l c rfl
  split
  · rw [h]
    rfl
  · exact h

/-- A notification sets one bit of its client's word (R469). -/
theorem notify_evtstat (c : Chip) (j k : Client) (e : Nat) :
    (notify c j e).flt.evtstat[k] = if j = k then c.flt.evtstat[j] ||| (1#64 <<< e) else c.flt.evtstat[k] := upd_get ..

theorem notifyEnabled_evtstat (c : Chip) (e : Nat) (k : Client) :
    (notifyEnabled c e).flt.evtstat[k] = if c.own.prov[k].enabled then c.flt.evtstat[k] ||| (1#64 <<< e) else c.flt.evtstat[k] := by
  have hI : ∀ (d : Chip) (j : Client), d.own = c.own → (if d.own.prov[j].enabled then notify d j e else d).own = c.own := by
    intro d j h
    split
    · exact h
    · exact h
  have hs : ∀ (d : Chip) (j : Client), d.own = c.own → (if d.own.prov[j].enabled then notify d j e else d).flt.evtstat[j] =
      if c.own.prov[j].enabled then d.flt.evtstat[j] ||| (1#64 <<< e) else d.flt.evtstat[j] := by
    intro d j h
    rw [h]
    split
    · exact (notify_evtstat ..).trans (if_pos rfl)
    · rfl
  have ho : ∀ (d : Chip) (i j : Client), d.own = c.own → i ≠ j →
      (if d.own.prov[i].enabled then notify d i e else d).flt.evtstat[j] = d.flt.evtstat[j] := by
    intro d i j _ hj
    split
    · exact (notify_evtstat ..).trans (if_neg hj)
    · rfl
  have h := foldl_allFin (fun d : Chip => d.own = c.own) (fun d k => d.flt.evtstat[k])
    (fun k w => if c.own.prov[k].enabled then w ||| (1#64 <<< e) else w) hI hs ho c rfl k
  unfold notifyEnabled
  rw [h]

/-- The part after the end of the Bench (R480): the collector's state, the events and the analog outputs. -/
theorem benchRelease_only (c : Chip) :
    benchRelease c = { c with
      flt := { c.flt with
        benched := false, carried := false, releaseTick := c.tick, evtstat := (benchRelease c).flt.evtstat,
        evtNow := (benchRelease c).flt.evtNow },
      ao := (benchRelease c).ao } := by
  unfold benchRelease
  rw [releaseBlocks_only, notifyEnabled_only]

theorem benchRelease_evtstat (c : Chip) (k : Client) :
    (benchRelease c).flt.evtstat[k] = if c.own.prov[k].enabled then c.flt.evtstat[k] ||| 8#64 else c.flt.evtstat[k] := by
  unfold benchRelease
  rw [releaseBlocks_only]
  dsimp only
  rw [notifyEnabled_evtstat]
  rfl

/-! ### RUN and ACCEPTHOST (R191, R192) -/

theorem runCommand_running {c : Chip} (e : Entry) (h : c.pw.state = .run ∨ c.pw.state = .idle) : runCommand c e = doneS c e := by
  obtain h | h := h
  all_goals simp only [runCommand, h]

theorem runCommand_minconfig {c : Chip} (e : Entry) (h : c.pw.state = .minconfig) : runCommand c e = refuseLate c e 0x0803 := by
  simp only [runCommand, h]

theorem runCommand_config {c : Chip} (e : Entry) (h : c.pw.state = .config) :
    runCommand c e = if c.pw.hostver = 0 then refuseLate c e 0x0801 else if c.img.hostMismatch then refuseLate c e 0x0802
      else doneS { c with
        pw := { c.pw with state := .run },
        img := { c.img with
          rollGoal := if c.img.rollctr < fld (slotWord (runSlot c) 6) 6 0 then some (fld (slotWord (runSlot c) 6) 6 0) else none } } e := by
  simp only [runCommand, h]

/-! ### FAULTPOLICY (R474) -/

/-- New windows change the collector's sources alone. -/
theorem rewindow_only (old c : Chip) (l : List Src) : rewindow old c l = { c with flt := { c.flt with srcs := (rewindow old c l).flt.srcs } } := by
  unfold rewindow
  refine foldl_keeps (fun d : Chip => d = { c with flt := { c.flt with srcs := d.flt.srcs } }) _ (fun d n h => ?_) l c rfl
  split
  · rw [h]
    rfl
  · exact h

theorem leaveOwn_rewindow (c : Chip) (m : ObjMem) (l : List Src) (e : Entry) :
    leaveOwn c (doneS (rewindow c { c with mem := m } l) e) = doneS (rewindow c { c with mem := m } l) e := by
  rw [rewindow_only]
  rfl

/-! ### CLAIMCFG (R73 to R75) -/

theorem targetClient {e : Entry} {k : Client} (h : targetOf e = 0x100 + k.val) : fin? 16 (targetOf e - 0x100) = some k := by
  rw [h, Nat.add_sub_cancel_left]
  exact fin?_val k

/-- The provisioning that CLAIMCFG gives a client (Table 3-6). -/
def newProv (c : Chip) (k : Client) (b : Word) : Prov :=
  { enabled := bit b 43, passcode := if bit b 44 then c.own.prov[k].passcode else b.truncate 32, pinen := bit b 42,
    pinmid := ⟨fld b 41 40 % 4, by omega⟩ }

/-- The part with a client's new provisioning. -/
def provisioned (c : Chip) (k : Client) (b : Word) : Chip :=
  { c with own := { c.own with prov := upd c.own.prov k (fun _ => newProv c k b) } }

/-- The new provisioning forbids the claim of a master. -/
def forbids (p : Prov) (m : Mid) : Bool := !p.enabled || (p.pinen && decide (p.pinmid ≠ m))

theorem claimCfg_eq {c : Chip} {e : Entry} {k : Client} (h : fin? 16 (targetOf e - 0x100) = some k) :
    claimCfg c e =
      if k = 0 ∧ ((newProv c k e.cmdb).passcode = 0 ∧ bit e.cmdb 44 = false ∨ bit e.cmdb 43 = false) then refuseLate c e 0x0018
      else doneS (dropHolder (provisioned c k e.cmdb) (holder c k) (forbids (newProv c k e.cmdb))) e := by
  unfold claimCfg
  rw [h]
  rfl

theorem forbids_iff (c : Chip) (k : Client) (b : Word) (m : Mid) :
    forbids (newProv c k b) m = true ↔ bit b 43 = false ∨ (bit b 42 = true ∧ (newProv c k b).pinmid ≠ m) := by
  simp [forbids, newProv]

end Sys2Proof.Proofs

open Sys2Proof Sys2Proof.Machine Sys2Proof.Proofs

/-- Settles O21: the arms of the three commands. -/
theorem wardenCommandsRun : Obligations.WardenCommandsRun := by
  intro s dt e
  dsimp only
  refine ⟨fun h => ?_, fun h => ?_, fun h => ?_⟩
  · have hx {t : Chip} (ht : runCommand (found s dt) e = t) (hl : leaveFace (found s dt) t = t) : exec (.run dt) s = .next (ended s dt t) :=
      runBlock_of_leaves (f := fun c => execOp c 0x08 (fun _ => true) runCommand) ((execOp_of h runCommand).trans ht) hl
    refine ⟨fun hs hv hm => ?_, fun hs hv => ?_, fun hs hv hm => ?_, fun hs => ?_, fun hs => ?_⟩
    · refine hx ?_ rfl
      rw [runCommand_config e hs, if_neg hv, if_neg (by simp [hm])]
    · refine hx ?_ (leaveFace_retire ..)
      rw [runCommand_config e hs, if_pos hv]
      rfl
    · refine hx ?_ (leaveFace_retire ..)
      rw [runCommand_config e hs, if_neg hv, if_pos hm]
      rfl
    · exact hx (runCommand_running e hs) rfl
    · exact hx (runCommand_minconfig e hs) (leaveFace_retire ..)
  · have hx {t : Chip} (ht : acceptHost (found s dt) e = t) (hl : leaveFace (found s dt) t = t) :
        exec (.accepthost dt) s = .next (ended s dt t) :=
      runBlock_of_leaves (f := fun c => execOp c 0x09 (fun _ => true) acceptHost) ((execOp_of h acceptHost).trans ht) hl
    refine ⟨fun hs hm hb => ?_, fun hs => ?_⟩
    · refine hx ?_ rfl
      rw [acceptHost, if_neg (not_not.mpr hs), if_neg (by simp [hm]), if_neg (by simp [hb])]
    · exact hx (if_pos hs) (leaveFace_retire ..)
  · have hx {t : Chip} (ht : benchReleaseExec (found s dt) e = t) (hl : leaveFace (found s dt) t = t) :
        exec (.benchrelease dt) s = .next (ended s dt t) :=
      runBlock_of_leaves (f := fun c => execOp c 0x07 (fun _ => true) benchReleaseExec) ((execOp_of h benchReleaseExec).trans ht) hl
    refine ⟨fun hf hb => ?_, fun hf => ?_, fun hf hb => ?_⟩
    · have hbody : benchReleaseExec (found s dt) e = resumeCause (benchRelease (doneS (found s dt) e)) .bench := by
        rw [benchReleaseExec, if_neg (by simp [hf]), if_neg (by simp [hb])]
      refine ⟨_, runBlock_leaves (f := fun c => execOp c 0x07 (fun _ => true) benchReleaseExec)
        ((execOp_of h benchReleaseExec).trans hbody), ?_⟩
      have ho := benchRelease_only (doneS (found s dt) e)
      have he := benchRelease_evtstat (doneS (found s dt) e)
      generalize benchRelease (doneS (found s dt) e) = d at ho he
      rw [ho]
      exact ⟨rfl, rfl, rfl, he, rfl, rfl, rfl, rfl, rfl⟩
    · exact hx (if_pos hf) (leaveFace_retire ..)
    · refine hx ?_ rfl
      rw [benchReleaseExec, if_neg (by simp [hf]), if_pos (by simp [hb])]
      rfl

/-- Settles O25: the branches of the two commands. -/
theorem faultPoliciesTakeEffect : Obligations.FaultPoliciesTakeEffect := by
  intro s dt e
  dsimp only
  have hx (h : Executes (found s dt) 0x06 (fun e => !bit e.cmdb 63) e) {t : Chip} (ht : faultPolicy (found s dt) e = t)
      (hl : leaveOwn (found s dt) t = t) : exec (.faultpolicy dt) s = .next (ended s dt t) :=
    runMem_of_leaves (f := fun c => execOp c 0x06 (fun e => !bit e.cmdb 63) faultPolicy) ((execOp_of h faultPolicy).trans ht) hl
  refine ⟨fun h hf hv => ?_, fun h hf => ?_, fun h hf hv => ?_, fun h => ?_⟩
  · refine hx h ?_ ?_
    · rw [faultPolicy, if_neg (Bool.eq_false_iff.mp hf), if_neg (Bool.eq_false_iff.mp hv)]
      rfl
    · exact leaveOwn_rewindow ..
  · refine hx h ?_ (leaveOwn_retire ..)
    rw [faultPolicy, if_pos hf]
    rfl
  · refine hx h ?_ (leaveOwn_retire ..)
    rw [faultPolicy, if_neg (Bool.eq_false_iff.mp hf), if_pos hv]
    rfl
  · exact runMem_of_leaves (f := fun c => execOp c 0x06 (fun e => bit e.cmdb 63) faultPolicyDefault) (execOp_of h faultPolicyDefault)
      (leaveOwn_rewindow ..)

/-- Settles O26: the branches of CLAIMCFG, with the end of a claim. -/
theorem provisioningIsConfigured : Obligations.ProvisioningIsConfigured := by
  intro s dt e k
  dsimp only
  intro h ht
  have hx {t : Chip} (ht : claimCfg (found s dt) e = t) (hl : leaveWords (found s dt) t = t) :
      exec (.claimcfg dt) s = .next (ended s dt t) := by
    have hr : runClaims s dt (fun c => execOp c 0x05 (fun _ => true) claimCfg) = .next (ended s dt t) := by
      rw [runClaims, runWith_next, execOp_of h, ht, hl]
    exact hr
  have hc := claimCfg_eq (c := found s dt) (targetClient ht)
  have hbad {b : Prop} : b ∧ ((newProv (found s dt) k e.cmdb).passcode = 0 ∧ bit e.cmdb 44 = false ∨ bit e.cmdb 43 = false) ↔
      b ∧ (bit e.cmdb 43 = false ∨ (newProv (found s dt) k e.cmdb).passcode = 0 ∧ bit e.cmdb 44 = false) :=
    and_congr_right fun _ => Or.comm
  refine ⟨fun hb hn => ?_, fun m hb hm hp => ?_, fun m hb hm he hp => ?_, fun hb => ?_⟩
  · rw [if_neg fun hh => hb (hbad.mp hh), hn] at hc
    exact hx hc rfl
  · rw [if_neg fun hh => hb (hbad.mp hh), hm, dropHolder, if_pos ((forbids_iff ..).mpr hp)] at hc
    refine hx (hc.trans ?_) rfl
    rw [endClaim_of_some (c := provisioned (found s dt) k e.cmdb) 3 (holder_spec hm)]
    rfl
  · have hno : ¬ forbids (newProv (found s dt) k e.cmdb) m = true := by
      rw [forbids_iff, he]
      rintro (hh | ⟨h1, h2⟩)
      · cases hh
      · obtain hp | hp := hp
        · exact Bool.false_ne_true (hp.symm.trans h1)
        · exact h2 hp
    rw [if_neg fun hh => hb (hbad.mp hh), hm, dropHolder, if_neg hno] at hc
    exact hx hc rfl
  · rw [if_pos (hbad.mpr hb)] at hc
    refine hx hc ?_
    rw [retire_only]
    rfl
end

