-- ==== Sys2Proof/Proofs/TransitCommands.lean ====
section
/-! GRANT, RELEASE and SCRUB. -/

namespace Sys2Proof.Proofs

open Sys2Proof.Machine

/-- A command of the map has its effect, without what the form leaves alone. -/
theorem runOp_own {s : State} {dt op : Nat} {p : Entry → Bool} {e : Entry} {t : Chip} {body : Chip → Entry → Chip}
    (h : Executes (found s dt) op p e) (hb : body (found s dt) e = t) :
    runOwn s dt (fun c => execOp c op p body) = .next (ended s dt (leaveMem (found s dt) t)) := by
  rw [runOwn, runWith_next, execOp_of h, hb]

theorem leaveMem_self {c d : Chip} (hn : d.isN = c.isN) (ht : d.tick = c.tick) (hm : d.mem = c.mem) (hf : d.face = c.face) :
    leaveMem c d = d := by
  rw [leaveMem, ← hn, ← ht, ← hm, ← hf]

theorem leaveMem_retired {c d : Chip} {k : Key} {st n : Nat} {r : Word} (h : leaveMem c d = d) :
    leaveMem c (retire d k st n r) = retire d k st n r :=
  leaveMem_self ((retire_isN ..).trans (congrArg Chip.isN h).symm) ((retire_tick ..).trans (congrArg Chip.tick h).symm)
    ((retire_mem ..).trans (congrArg Chip.mem h).symm) ((retire_face ..).trans (congrArg Chip.face h).symm)

/-! ### The ownership map after a change of one entry -/

theorem ownE_upd {c : Chip} {o : Own} {i : ObjIx} {f : OwnEntry → OwnEntry} (h : o.entries = upd c.own.entries i f) (j : ObjIx) :
    o.entries[j] = if i = j then f (ownE c i) else ownE c j := by
  rw [h]
  exact upd_get ..

theorem cancelItems_own (c : Chip) (i : ObjIx) (p : Entry → Bool) (t : Nat) : (cancelItems c i p t).own = c.own := by
  unfold cancelItems
  refine foldl_fixed Chip.own _ (fun d e => ?_) _ c
  rw [retireAt_only]
  dsimp only
  split <;> rfl

/-- The entry of an object that enters DRAINING (R91, R92). -/
def drainingEntry (c : Chip) (i : ObjIx) (next : Option Client) (by_ : Option Key) (free : List Key) (n : Nat) : OwnEntry :=
  { ownE c i with st := .draining, next := next, nextBy := by_, atFree := (ownE c i).atFree ++ free, drainTick := c.tick, drainN := n,
                  gen := wrapInc16 c.own.gen }

/-- The map of a part in which an object enters DRAINING. -/
theorem enterDraining_own (c : Chip) (i : ObjIx) (next : Option Client) (by_ : Option Key) (free : List Key) :
    (enterDraining c i next by_ free).own.gen = wrapInc16 c.own.gen ∧
    (∃ n, ownE (enterDraining c i next by_ free) i = drainingEntry c i next by_ free n) ∧
    ∀ j : ObjIx, j ≠ i → ownE (enterDraining c i next by_ free) j = ownE c j := by
  unfold enterDraining
  extract_lets +onlyGivenNames c1 wb c2 n c3
  have hown : (keep c3 (drainBlock c3 i)).own = (updOwn c2 i (fun e => { e with drainN := n })).own := by
    rw [keep_own]
    exact cancelItems_own ..
  have hget (j : ObjIx) : ownE (keep c3 (drainBlock c3 i)) j = if i = j then drainingEntry c i next by_ free n else ownE c j := by
    unfold ownE at *
    rw [hown]
    refine (upd_get _ i j _).trans ?_
    rw [show c2.own.entries[i] = _ from (upd_get c.own.entries i i _).trans (if_pos rfl)]
    by_cases h : i = j
    · rw [if_pos h, if_pos h]
      rfl
    · rw [if_neg h, if_neg h]
      exact (upd_get c.own.entries i j _).trans (if_neg h)
  refine ⟨?_, ⟨n, (hget i).trans (if_pos rfl)⟩, fun j hj => (hget j).trans (if_neg (Ne.symm hj))⟩
  rw [hown]
  rfl

/-- A command that waits for its object's transit has set no NEXT. -/
theorem dropNextBy_none {c : Chip} {i : ObjIx} (h : (ownE c i).nextBy = none) : dropNextBy c i = c := by
  simp only [dropNextBy, h]

theorem targetObj_of {e : Entry} {i : ObjIx} (h : targetOf e = i.val) : targetObj e = some i := by
  rw [targetObj, h]
  exact fin?_val i

/-- The arms of GRANT by the object's state (Table 3-2). -/
theorem grantExec_disabled {c : Chip} {e : Entry} {i : ObjIx} {k : Client} (h : (ownE c i).st = .absent ∨ c.own.prov[k].enabled = false) :
    grantExec c e i k = refuseLate c e 0x0017 := by
  unfold grantExec
  dsimp only
  obtain h | h := h
  · rw [h]
  · rw [h]
    split
    all_goals rfl

theorem grantExec_free {c : Chip} {e : Entry} {i : ObjIx} {k : Client} (h : (ownE c i).st = .free) (he : c.own.prov[k].enabled = true)
    (hn : (ownE c i).nextBy = none) :
    grantExec c e i k = retire (commitD (moveOwn c i (fun o => { o with st := .owned, owner := k, next := none, nextBy := none })) e)
      (keyOf e) 1 0 0 := by
  simp only [grantExec, h, he, dropNextBy_none hn, if_true]
  rfl

theorem grantExec_owned {c : Chip} {e : Entry} {i : ObjIx} {k : Client} (h : (ownE c i).st = .owned) (he : c.own.prov[k].enabled = true) :
    grantExec c e i k = if (ownE c i).owner = k then retire (commitD c e) (keyOf e) 1 0 0
      else enterDraining (commitD c e) i (some k) (some (keyOf e)) [] := by
  simp only [grantExec, h, he, if_true]
  rfl

theorem grantExec_transit {c : Chip} {e : Entry} {i : ObjIx} {k : Client} (h : (ownE c i).st = .draining ∨ (ownE c i).st = .scrubbing)
    (he : c.own.prov[k].enabled = true) (hn : (ownE c i).nextBy = none) :
    grantExec c e i k = updOwn (commitD c e) i (fun o => { o with next := some k, nextBy := some (keyOf e) }) := by
  obtain h | h := h
  all_goals
    simp only [grantExec, h, he, if_true]
    rw [dropNextBy_none (c := commitD c e) hn]

theorem mayTransit_warden {c : Chip} {e : Entry} {i : ObjIx} (h : e.client = 0) : ¬ mayTransit c e i = false := by
  simp [mayTransit, h]

/-- The arms of RELEASE and SCRUB by the warden (Table 3-2). -/
theorem releaseExec_warden {c : Chip} {e : Entry} {i : ObjIx} (h : e.client = 0) (hn : (ownE c i).nextBy = none) :
    releaseExec c e i = match (ownE c i).st with
      | .absent => retire (commitD c e) (keyOf e) 1 0 0
      | .free => retire (updOwn (commitD c e) i (fun o => { o with next := none })) (keyOf e) 1 0 0
      | .owned => enterDraining (commitD c e) i none none [keyOf e]
      | _ => updOwn (commitD c e) i (fun o => { o with next := none, atFree := o.atFree ++ [keyOf e] }) := by
  unfold releaseExec
  rw [if_neg (mayTransit_warden h), dropNextBy_none (c := commitD c e) hn]
  rfl

theorem scrubExec_warden {c : Chip} {e : Entry} {i : ObjIx} (h : e.client = 0) (hn : (ownE c i).nextBy = none) :
    scrubExec c e i = match (ownE c i).st with
      | .absent => retire c (keyOf e) 1 0 0
      | .free => scrubCkpt (enterScrubbing (updOwn (setCkpt c (keyOf e) 1) i
          (fun o => { o with next := none, atFree := o.atFree ++ [keyOf e] })) i) i 2
      | .owned => enterDraining (setCkpt c (keyOf e) 1) i (some (ownE c i).owner) (some (keyOf e)) []
      | .draining => updOwn (setCkpt c (keyOf e) 1) i (fun o => { o with atFree := o.atFree ++ [keyOf e] })
      | .scrubbing => updOwn (setCkpt c (keyOf e) 2) i (fun o => { o with atFree := o.atFree ++ [keyOf e] }) := by
  unfold scrubExec
  dsimp only
  rw [if_neg (mayTransit_warden h), dropNextBy_none (c := setCkpt c (keyOf e) 1) hn]
  rfl

theorem scrubStartBlock_own (c : Chip) (i : ObjIx) : (scrubStartBlock c i).own = c.own := by
  unfold scrubStartBlock aoScrub
  split
  · unfold spanEmit
    rfl
  · rfl

theorem scrubNext_own {c : Chip} {i : ObjIx} (h : c.own.scrubActive = none) (hq : c.own.scrubQueue = [i]) :
    (scrubNext c).own = { c.own with scrubActive := some i, scrubStart := c.tick, scrubQueue := [] } := by
  unfold scrubNext
  rw [h, hq]
  exact scrubStartBlock_own ..

/-- The map of a part in which a FREE object goes to the idle scrubber. -/
theorem enterScrubbing_own {c : Chip} {i : ObjIx} (h : c.own.scrubActive = none) (hq : c.own.scrubQueue = []) :
    (enterScrubbing c i).own = { c.own with
      gen := wrapInc16 c.own.gen,
      entries := upd c.own.entries i (fun o => { o with st := .scrubbing, gen := wrapInc16 c.own.gen }),
      scrubActive := some i, scrubStart := c.tick, scrubQueue := [] } := by
  unfold enterScrubbing
  rw [scrubNext_own]
  · rfl
  · exact h
  · exact congrArg (· ++ [i]) hq

theorem exec_grant {s : State} {dt : Nat} {e : Entry} {i : ObjIx} {k : Client} (h : Executes (found s dt) 0x02 (fun _ => true) e)
    (ht : targetOf e = i.val) (hk : fld e.cmdb 3 0 = k.val) :
    exec (.grant dt) s = .next (ended s dt (leaveMem (found s dt) (grantExec (found s dt) e i k))) := by
  refine runOp_own h ?_
  rw [targetObj_of ht, hk, fin?_val]

theorem exec_release {s : State} {dt : Nat} {e : Entry} {i : ObjIx} (h : Executes (found s dt) 0x03 (fun _ => true) e)
    (ht : targetOf e = i.val) :
    exec (.release dt) s = .next (ended s dt (leaveMem (found s dt) (releaseExec (found s dt) e i))) := by
  refine runOp_own h ?_
  rw [targetObj_of ht]

theorem exec_scrub {s : State} {dt : Nat} {e : Entry} {i : ObjIx} (h : Executes (found s dt) 0x53 (fun _ => true) e)
    (ht : targetOf e = i.val) :
    exec (.scrub dt) s = .next (ended s dt (leaveMem (found s dt) (scrubExec (found s dt) e i))) := by
  refine runOp_own h ?_
  rw [targetObj_of ht]

end Sys2Proof.Proofs

open Sys2Proof Sys2Proof.Machine Sys2Proof.Proofs

/-- Settles O22: the rows of Table 3-2 for GRANT. -/
theorem grantMovesTheObject : Obligations.GrantMovesTheObject := by
  intro s dt e i k
  dsimp only
  intro h ht hk hn
  rw [exec_grant h ht hk]
  refine ⟨fun hs he => ?_, fun hs hne he => ?_, fun hs ho he => ?_, fun hs he => ?_, fun hs => ?_⟩
  · rw [grantExec_free hs he hn, leaveMem_retired rfl]
    rfl
  · rw [grantExec_owned hs he, if_neg hne]
    obtain ⟨hg, ⟨n, hi⟩, hj⟩ := enterDraining_own (commitD (found s dt) e) i (some k) (some (keyOf e)) []
    refine ⟨_, rfl, hg, ⟨n, hi.trans ?_⟩, hj⟩
    rw [drainingEntry, List.append_nil]
    rfl
  · rw [grantExec_owned hs he, if_pos ho, leaveMem_retired rfl]
  · rw [grantExec_transit hs he hn]
    rfl
  · rw [grantExec_disabled hs]
    exact congrArg (fun t => Host.Outcome.next (ended s dt t)) (leaveMem_retire ..)

/-- Settles O23: the rows of Table 3-2 for the warden's RELEASE and SCRUB. -/
theorem releaseAndScrubMoveTheObject : Obligations.ReleaseAndScrubMoveTheObject := by
  intro s dt e i
  dsimp only
  intro ht hw hn
  refine ⟨fun h => ?_, fun h => ?_⟩
  · rw [exec_release h ht, releaseExec_warden hw hn]
    refine ⟨fun hs => ?_, fun hs => ?_, fun hs => ?_, fun hs => ?_⟩
    · rw [hs]
      obtain ⟨hg, ⟨n, hi⟩, hj⟩ := enterDraining_own (commitD (found s dt) e) i none none [keyOf e]
      exact ⟨_, rfl, hg, ⟨n, hi⟩, hj⟩
    · rw [hs]
      dsimp only
      rw [leaveMem_retired rfl]
      rfl
    · rw [hs]
      dsimp only
      rw [leaveMem_retired rfl]
    · obtain hs | hs := hs
      all_goals
        rw [hs]
        rfl
  · rw [exec_scrub h ht, scrubExec_warden hw hn]
    refine ⟨fun hs => ?_, fun hs ha hq => ?_, fun hs => ?_, fun hs => ?_, fun hs => ?_⟩
    · rw [hs]
      obtain ⟨hg, ⟨n, hi⟩, hj⟩ := enterDraining_own (setCkpt (found s dt) (keyOf e) 1) i (some (ownE (found s dt) i).owner) (some (keyOf e)) []
      refine ⟨_, rfl, hg, ⟨n, hi.trans ?_⟩, hj⟩
      rw [drainingEntry, List.append_nil]
      rfl
    · rw [hs]
      dsimp only
      generalize hu : updOwn (setCkpt (found s dt) (keyOf e) 1) i (fun o => { o with next := none, atFree := o.atFree ++ [keyOf e] }) = u
      have ho : u.own = { (found s dt).own with
          entries := upd (found s dt).own.entries i (fun o => { o with next := none, atFree := o.atFree ++ [keyOf e] }) } := hu ▸ rfl
      have hd := enterScrubbing_own (c := u) (i := i) (by rw [ho, ha]) (by rw [ho, hq])
      generalize hv : enterScrubbing u i = v at hd
      have hget (j : ObjIx) : ownE v j = if i = j then { ownE (found s dt) i with
          st := .scrubbing, next := none, atFree := (ownE (found s dt) i).atFree ++ [keyOf e], gen := ((found s dt).own.gen + 1) % 65536 }
          else ownE (found s dt) j := by
        unfold ownE
        rw [hd, ho]
        refine (upd_get _ i j _).trans ?_
        by_cases h : i = j
        · rw [if_pos h, if_pos h, upd_get, if_pos rfl]
          rfl
        · rw [if_neg h, if_neg h, upd_get, if_neg h]
      refine ⟨_, rfl, ?_, ?_, ?_, ?_, ?_, fun j hj => (hget j).trans (if_neg (Ne.symm hj))⟩
      · exact (congrArg Own.gen hd).trans (by rw [ho]; rfl)
      · exact congrArg Own.scrubActive hd
      · exact (congrArg Own.scrubStart hd).trans (by rw [← hu]; rfl)
      · exact congrArg Own.scrubQueue hd
      · refine (hget i).trans ((if_pos rfl).trans ?_)
        rw [← hn]
    · rw [hs]
      rfl
    · rw [hs]
      rfl
    · rw [hs]
      exact congrArg (fun t => Host.Outcome.next (ended s dt t)) (leaveMem_retire ..)
end

