-- ==== Sys2Proof/Proofs/Apply.lean ====
section
/-! APPLY: what of the object words comes into force. -/

namespace Sys2Proof.Proofs

open Sys2Proof.Machine

/-- A command of the object words has its effect, without what the form leaves alone. -/
theorem runOp_mem {s : State} {dt op : Nat} {p : Entry → Bool} {e : Entry} {t : Chip} {body : Chip → Entry → Chip}
    (h : Executes (found s dt) op p e) (hb : body (found s dt) e = t) :
    runMem s dt (fun c => execOp c op p body) = .next (ended s dt (leaveOwn (found s dt) t)) := by
  rw [runMem, runWith_next, execOp_of h, hb]

/-! ### The words of a block in force -/

/-- The words n are the words m with those of a range in force as they are staged, kept as k says. -/
structure Copied (lo hi : Nat) (k : Nat → Word → Word) (m n : ObjMem) : Prop where
  live : n.live = m.live
  staged : ∀ a, storeGet n.staged a = if lo ≤ a ∧ a < hi then k a (storeGet m.staged a) else storeGet m.staged a
  active : ∀ a, storeGet n.active a = if lo ≤ a ∧ a < hi then k a (storeGet m.staged a) else storeGet m.active a

/-- A range that keeps its words as they are staged (R57). -/
theorem copied_applyBlock {m : ObjMem} {lo hi : Nat} {k : Nat → Word → Word} (hk : ∀ a w, lo ≤ a → a < hi → k a w = w) (h : m.wf = true) :
    Copied lo hi k m (m.applyBlock lo hi) := by
  have hk (a : Nat) (w v : Word) : (if lo ≤ a ∧ a < hi then k a w else v) = if lo ≤ a ∧ a < hi then w else v := by
    split
    next ha => exact hk a w ha.1 ha.2
    next => rfl
  refine ⟨rfl, fun a => ?_, fun a => ?_⟩
  · rw [hk, ite_self]
    rfl
  · rw [hk]
    exact ObjMem.get_applyBlock lo hi a h

/-- CLRGAP stands in no block but an emulator's (Table 9-6). -/
theorem clrgapOff_of_not_enc {o : Obj} (ho : ∀ x, o ≠ .enc x) {a : Nat} (w : Word) (hl : objBase o ≤ a) (hh : a < objBase o + objSpan o) :
    clrgapOff a w = w := by
  refine if_neg fun h => ?_
  cases o
  case enc x => exact ho x rfl
  all_goals
    simp only [objBase, objSpan] at hl hh
    omega

/-- In an emulator's block CLRGAP stands in one word (Table 9-6). -/
theorem clrgapOff_enc {x : Fin 8} {a : Nat} (w : Word) (hl : encBase x ≤ a) (hh : a < encBase x + 0x1000) (ha : a ≠ encBase x + 8) :
    clrgapOff a w = w := by
  refine if_neg fun h => ?_
  simp only [encBase, objBase] at hl hh ha
  omega

/-- An emulator keeps its words as they are staged but for CLRGAP (R280). -/
theorem copied_encKept {m : ObjMem} (x : Fin 8) (h : m.wf = true) :
    Copied (encBase x) (encBase x + 0x1000) clrgapOff m (encKept (m.applyBlock (encBase x) (encBase x + 0x1000)) x) := by
  have hw := ObjMem.wf_applyBlock (encBase x) (encBase x + 0x1000) h
  have hs := ((ObjMem.wf_iff _).mp hw).1
  have hl := ((ObjMem.wf_iff _).mp hw).2.1
  have hin : encBase x ≤ encBase x + 8 ∧ encBase x + 8 < encBase x + 0x1000 := by omega
  have hk (a : Nat) (w v : Word) (ha : a ≠ encBase x + 8) :
      (if encBase x ≤ a ∧ a < encBase x + 0x1000 then clrgapOff a w else v) = if encBase x ≤ a ∧ a < encBase x + 0x1000 then w else v := by
    split
    next hr => exact clrgapOff_enc w hr.1 hr.2 ha
    next => rfl
  refine ⟨rfl, fun a => ?_, fun a => ?_⟩
  · refine (storeGet_put _ a _ hs).trans ?_
    by_cases ha : a = encBase x + 8
    · rw [if_pos ha, ha, if_pos hin]
      rfl
    · rw [if_neg ha, hk _ _ _ ha, ite_self]
      rfl
  · refine (storeGet_put _ a _ hl).trans ?_
    rw [ObjMem.get_applyBlock _ _ _ h]
    by_cases ha : a = encBase x + 8
    · rw [if_pos ha, ha, if_pos hin, if_pos hin]
    · rw [if_neg ha, hk _ _ _ ha]
      exact ObjMem.get_applyBlock _ _ _ h

/-! ### The command -/

theorem applyOwned_refused {c : Chip} {e : Entry} {i : ObjIx} (h : applyCheck c (objOf i) ≠ 0) : (applyOwned c e i).mem = c.mem := by
  unfold applyOwned
  dsimp only
  rw [if_pos h]
  exact refuseLate_mem ..

theorem applyOwned_copied {c : Chip} {e : Entry} {i : ObjIx} (h : applyCheck c (objOf i) = 0) (hw : c.mem.wf = true) :
    Copied (objBase (objOf i)) (objBase (objOf i) + objSpan (objOf i)) clrgapOff c.mem (applyOwned c e i).mem := by
  unfold applyOwned
  dsimp only
  rw [if_neg (not_not_intro h), doneS_mem]
  dsimp only
  generalize objOf i = o
  split
  next x => exact copied_encKept x hw
  next ho => exact copied_applyBlock (fun a w hl hh => clrgapOff_of_not_enc ho w hl hh) hw

theorem applySystem_router {c : Chip} {e : Entry} (h : targetOf e = 0x300) (hw : c.mem.wf = true) :
    (routerCheck c = 0 → Copied 0x0C000000 0x0C000010 (fun _ w => w) c.mem (applySystem c e).mem) ∧
    (routerCheck c ≠ 0 → (applySystem c e).mem = c.mem) := by
  unfold applySystem
  rw [if_pos h]
  refine ⟨fun hr => ?_, fun hr => ?_⟩
  · rw [if_neg (not_not_intro hr), doneS_mem]
    exact copied_applyBlock (fun _ _ _ _ => rfl) hw
  · rw [if_pos hr]
    exact refuseLate_mem ..

theorem applySystem_exc {c : Chip} {e : Entry} {g : Fin 4} (h : targetOf e = 0x200 + g.val) (hw : c.mem.wf = true) :
    (excCheck c g = 0 → Copied (0x400 + 0x40 * g.val) (0x400 + 0x40 * g.val + 8) (fun _ w => w) c.mem (applySystem c e).mem) ∧
    (excCheck c g ≠ 0 → (applySystem c e).mem = c.mem) := by
  unfold applySystem
  rw [if_neg (by omega), h, Nat.add_sub_cancel_left, fin?_val]
  dsimp only
  refine ⟨fun hr => ?_, fun hr => ?_⟩
  · rw [if_neg (not_not_intro hr), doneS_mem, excApplied_mem]
    exact copied_applyBlock (fun _ _ _ _ => rfl) hw
  · rw [if_pos hr]
    exact refuseLate_mem ..

theorem applyCommand_system {c : Chip} {e : Entry} (h : 88 ≤ targetOf e) : applyCommand c e = applySystem c e := by
  have hn : targetObj e = none := by
    rw [targetObj, fin?]
    exact dif_neg (by omega)
  simp only [applyCommand, hn]

end Sys2Proof.Proofs

open Sys2Proof Sys2Proof.Machine Sys2Proof.Proofs

/-- Settles O24: the words of a block after a copy into force. -/
theorem applyCopiesTheStagingBlock : Obligations.ApplyCopiesTheStagingBlock := by
  intro s dt e
  dsimp only
  intro hc h
  have hw : (found s dt).mem.wf = true := (congrArg ObjMem.wf (found_mem s dt)).trans hc
  have hx {t : Chip} (ht : applyCommand (found s dt) e = t) : exec (.apply dt) s = .next (ended s dt (leaveOwn (found s dt) t)) :=
    runOp_mem h ht
  refine ⟨fun i hi ho => ⟨_, hx rfl, rfl, ?_⟩, fun g hg => ⟨_, hx (applyCommand_system (by omega)), rfl, ?_⟩,
    fun hr => ⟨_, hx (applyCommand_system (by omega)), rfl, ?_⟩⟩
  · have hd : applyCommand (found s dt) e = applyOwned (found s dt) e i := by
      simp only [applyCommand, targetObj_of hi, ho, if_true]
    rw [hd]
    refine ⟨fun ha => ?_, applyOwned_refused⟩
    obtain ⟨hl, hs, hv⟩ := applyOwned_copied (e := e) ha hw
    exact ⟨hl, hs, hv⟩
  · refine ⟨fun ha => ?_, (applySystem_exc hg hw).2⟩
    obtain ⟨hl, hs, hv⟩ := (applySystem_exc hg hw).1 ha
    exact ⟨hl, hs, hv⟩
  · refine ⟨fun ha => ?_, (applySystem_router hr hw).2⟩
    obtain ⟨hl, hs, hv⟩ := (applySystem_router hr hw).1 ha
    exact ⟨hl, hs, hv⟩
end

