-- ==== Sys2Proof/Proofs/OwnershipEvents.lean ====
section
/-! The events of the ownership map: a drain ends, a scrub ends, an object passes on, the map's copies disagree. -/

namespace Sys2Proof.Proofs

open Sys2Proof.Machine

/-! ### The end of a drain -/

theorem cancelItems_tick (c : Chip) (i : ObjIx) (p : Entry → Bool) (t : Nat) : (cancelItems c i p t).tick = c.tick := by
  unfold cancelItems
  refine foldl_fixed Chip.tick _ (fun d e => ?_) _ c
  rw [retireAt_only]
  dsimp only
  split <;> rfl

theorem drainEnd_own {c : Chip} {i : ObjIx} (h : drainDue c i = true) (ha : c.own.scrubActive = none) (hq : c.own.scrubQueue = []) :
    (drainEnd c i).own = { c.own with
      gen := wrapInc16 c.own.gen,
      entries := upd c.own.entries i (fun o => { o with st := .scrubbing, gen := wrapInc16 c.own.gen }),
      scrubActive := some i, scrubStart := c.tick, scrubQueue := [] } := by
  have ho := cancelItems_own c i (fun _ => true) c.tick
  unfold drainEnd
  rw [if_pos h]
  refine (enterScrubbing_own (by rw [ho, ha]) (by rw [ho, hq])).trans ?_
  rw [ho, cancelItems_tick]

/-! ### What a scrub leaves alone -/

/-- The map index of the object of a map index (Table 3-1). -/
theorem ixOf_objOf (i : ObjIx) : ixOf (objOf i) = i := by
  unfold objOf
  dsimp only
  repeat' split
  all_goals
    apply Fin.ext
    simp only [ixOf, ixCh, ixWh, ixOut, ixHsb, ixLp, ixAo, ixEnc, ixSat]
  all_goals omega

/-- A part with the same TICK and journal and a map that differs at most in UNSCRUBBED of one entry. -/
structure SameButUnscrubbed (i : ObjIx) (c d : Chip) : Prop where
  tick : d.tick = c.tick
  wb : d.wb = c.wb
  own : ∃ f : OwnEntry → OwnEntry, (∀ o, f o = { o with unscrubbed := (f o).unscrubbed }) ∧
    d.own = { c.own with entries := upd c.own.entries i f }

theorem SameButUnscrubbed.of_own {i : ObjIx} {c d : Chip} (ht : d.tick = c.tick) (hw : d.wb = c.wb) (ho : d.own = c.own) :
    SameButUnscrubbed i c d := by
  refine ⟨ht, hw, id, fun _ => rfl, ho.trans ?_⟩
  simp only [upd, id, Fin.getElem_fin, Vector.set_getElem_self]

theorem SameButUnscrubbed.clearLevels {i : ObjIx} {c d : Chip} (h : SameButUnscrubbed i c d) :
    SameButUnscrubbed i c (clearLevels d i) := by
  rw [clearLevels_only]
  exact ⟨h.tick, h.wb, h.own⟩

/-- A scrub of a block moves neither TICK nor the journal, and of the map at most UNSCRUBBED of its own entry (R93). -/
theorem scrubBlock_same (c : Chip) (i : ObjIx) : SameButUnscrubbed i c (scrubBlock c i) := by
  refine SameButUnscrubbed.clearLevels ?_
  split
  case h_8 k hk =>
    dsimp only
    split
    · rw [sendRecord_only]
      exact .of_own rfl rfl rfl
    · have hi : ixSat k = i := by
        rw [← ixOf_objOf i, hk]
        rfl
      exact ⟨rfl, rfl, fun o => { o with unscrubbed := true }, fun _ => rfl, by rw [← hi]; rfl⟩
  all_goals exact .of_own rfl rfl rfl

theorem SameButUnscrubbed.of_mem {i : ObjIx} {c d : Chip} {n : ObjMem} {o : Own} (h : SameButUnscrubbed i { c with mem := n, own := o } d)
    (m : ObjMem) : SameButUnscrubbed i { c with own := o } { d with mem := m } := ⟨h.tick, h.wb, h.own⟩

theorem scrubbed_same (c : Chip) (i : ObjIx) :
    SameButUnscrubbed i { c with own := { c.own with scrubActive := none } } (scrubbed c i) :=
  .of_mem (scrubBlock_same (scrubIn c i) i) _

/-! ### The end of a scrub with an idle scrubber and no FACTORYRESET -/

theorem factoryNext_none {c : Chip} (h : c.wb.factory = none) : factoryNext c = c := by
  unfold factoryNext
  rw [h]

theorem scrubNext_idle {c : Chip} (hq : c.own.scrubQueue = []) : scrubNext c = c := by
  unfold scrubNext
  rw [hq]
  cases c.own.scrubActive <;> rfl

theorem retireList_own (c : Chip) (l : List Key) : (retireList c l).own = c.own := foldl_fixed Chip.own _ (fun _ _ => retire_own ..) l c

theorem retire_factory (c : Chip) (k : Key) (st d : Nat) (r : Word) : (retire c k st d r).wb.factory = c.wb.factory := by
  rw [retire_only]

theorem retireList_factory (c : Chip) (l : List Key) : (retireList c l).wb.factory = c.wb.factory :=
  foldl_fixed (fun d : Chip => d.wb.factory) _ (fun _ _ => retire_factory ..) l c

/-- A scrub whose verification fails marks its object and raises S034 (R95). -/
theorem unverified_idle {c : Chip} {i : ObjIx} (a : Nat) (hf : c.wb.factory = none) (hq : c.own.scrubQueue = []) :
    unverified c i a = raiseR (updOwn c i (fun o => { o with scrubFailed := true })) (evAt c 34 9 accRead 2 a none) := by
  unfold unverified
  rw [scrubNext_idle, factoryNext_none]
  · exact hf
  · exact hq

/-- The map after a verified scrub (R93). -/
theorem verified_own {c : Chip} {i : ObjIx} (hf : c.wb.factory = none) (hq : c.own.scrubQueue = []) :
    (verified c i).own = { c.own with
      scrubCount := wrapInc16 c.own.scrubCount, gen := wrapInc16 c.own.gen,
      entries := upd c.own.entries i (fun o =>
        { o with st := .free, atFree := [], freeTick := c.tick, owner := 0, scrubFailed := false, gen := wrapInc16 c.own.gen }) } := by
  unfold verified
  dsimp only
  rw [scrubNext_idle, factoryNext_none, retireList_own]
  · rfl
  · rw [retireList_factory]
    exact hf
  · rw [retireList_own]
    exact hq

theorem verified_mem {c : Chip} {i : ObjIx} (hf : c.wb.factory = none) (hq : c.own.scrubQueue = []) : (verified c i).mem = c.mem := by
  unfold verified
  dsimp only
  rw [scrubNext_idle, factoryNext_none, retireList_mem]
  · rfl
  · rw [retireList_factory]
    exact hf
  · rw [retireList_own]
    exact hq

/-- The entry of an object that passes to NEXT. -/
theorem takeover_idle {c : Chip} {i : ObjIx} {k : Client} (hs : (ownE c i).st = .free) (hn : (ownE c i).next = some k)
    (ht : (ownE c i).freeTick < c.tick) (hv : serving c = true) (hf : c.wb.factory = none) (hb : (ownE c i).nextBy = none) :
    takeover c i = moveOwn c i (fun o => { o with st := .owned, owner := k, next := none, nextBy := none }) := by
  simp only [takeover, hs, hn, hb, if_pos (And.intro ht hv)]
  exact factoryNext_none hf

theorem ownE_raiseR (c : Chip) (r : Raise) (i : ObjIx) : ownE (raiseR c r) i = ownE c i := rfl

/-- What the entry of a scrubbed object keeps. -/
theorem scrubbed_ownE (c : Chip) (i : ObjIx) :
    (ownE (scrubbed c i) i).st = (ownE c i).st ∧ (ownE (scrubbed c i) i).next = (ownE c i).next ∧
      ∀ j : ObjIx, j ≠ i → ownE (scrubbed c i) j = ownE c j := by
  obtain ⟨-, -, f, hf, hown⟩ := scrubbed_same c i
  have hget (j : ObjIx) : ownE (scrubbed c i) j = if i = j then f (ownE c i) else ownE c j := by
    unfold ownE
    rw [hown]
    exact upd_get ..
  rw [hget, if_pos rfl, hf]
  exact ⟨rfl, rfl, fun j hj => (hget j).trans (if_neg (Ne.symm hj))⟩

/-- The part after a verified scrub (R93). -/
structure Freed (c : Chip) (i : ObjIx) (t : Chip) : Prop where
  st : (ownE t i).st = .free
  gen : (ownE t i).gen = wrapInc16 c.own.gen
  atFree : (ownE t i).atFree = []
  next : (ownE t i).next = (ownE c i).next
  idle : t.own.scrubActive = none
  count : t.own.scrubCount = wrapInc16 c.own.scrubCount
  mem : t.mem = c.mem.zeroBlock (objBase (objOf i)) (objBase (objOf i) + objSpan (objOf i))
  others : ∀ j : ObjIx, j ≠ i → ownE t j = ownE c j

theorem verified_freed {c d : Chip} {i : ObjIx} (hs : ∀ j : ObjIx, j ≠ i → ownE d j = ownE c j) (hn : (ownE d i).next = (ownE c i).next)
    (ho : d.own = { c.own with scrubActive := none, entries := d.own.entries }) (hf : d.wb.factory = none) (hq : c.own.scrubQueue = [])
    (hm : d.mem = c.mem.zeroBlock (objBase (objOf i)) (objBase (objOf i) + objSpan (objOf i))) : Freed c i (verified d i) := by
  have hq : d.own.scrubQueue = [] := (congrArg Own.scrubQueue ho).trans hq
  have hv := verified_own (i := i) hf hq
  have hget (j : ObjIx) : ownE (verified d i) j = if i = j then { ownE d i with
      st := .free, atFree := [], freeTick := d.tick, owner := 0, scrubFailed := false, gen := wrapInc16 d.own.gen } else ownE d j := by
    unfold ownE
    rw [hv]
    exact upd_get ..
  have hi := (hget i).trans (if_pos rfl)
  exact {
    st := congrArg OwnEntry.st hi
    gen := (congrArg OwnEntry.gen hi).trans (by rw [ho])
    atFree := congrArg OwnEntry.atFree hi
    next := (congrArg OwnEntry.next hi).trans hn
    idle := (congrArg Own.scrubActive hv).trans (congrArg Own.scrubActive ho)
    count := (congrArg Own.scrubCount hv).trans (by rw [ho])
    mem := (verified_mem hf hq).trans hm
    others := fun j hj => ((hget j).trans (if_neg (Ne.symm hj))).trans (hs j hj) }

theorem scrubComplete_freed {c : Chip} {i : ObjIx} (h : scrubDone c i) (hf : c.wb.factory = none) (hq : c.own.scrubQueue = []) :
    Freed c i (scrubComplete c none) := by
  obtain ⟨-, hn, hs⟩ := scrubbed_ownE c i
  obtain ⟨-, hwb, f, -, hown⟩ := scrubbed_same c i
  rw [scrubComplete_none h]
  refine verified_freed hs hn ?_ (by rw [hwb]; exact hf) hq (scrubbed_mem c i)
  rw [hown]

/-- The part after a scrub whose verification found a nonzero word (R95). -/
structure Failed (c : Chip) (i : ObjIx) (a : Nat) (t : Chip) : Prop where
  st : (ownE t i).st = (ownE c i).st
  failed : (ownE t i).scrubFailed = true
  raised : evAt c 34 9 accRead 2 a none ∈ t.raised
  mem : t.mem = c.mem.zeroBlock (objBase (objOf i)) (objBase (objOf i) + objSpan (objOf i))

theorem failed_of_scrubbed {c d : Chip} {i : ObjIx} (a : Nat) (hs : (ownE d i).st = (ownE c i).st) (ht : d.tick = c.tick)
    (hm : d.mem = c.mem.zeroBlock (objBase (objOf i)) (objBase (objOf i) + objSpan (objOf i))) :
    Failed c i a (raiseR (updOwn d i (fun o => { o with scrubFailed := true })) (evAt d 34 9 accRead 2 a none)) := by
  have hi : ownE (updOwn d i (fun o => { o with scrubFailed := true })) i = { ownE d i with scrubFailed := true } :=
    (upd_get ..).trans (if_pos rfl)
  have he : evAt d 34 9 accRead 2 a none = evAt c 34 9 accRead 2 a none := by
    unfold evAt evN
    rw [ht]
  exact {
    st := (congrArg OwnEntry.st hi).trans hs
    failed := congrArg OwnEntry.scrubFailed hi
    raised := he ▸ List.mem_append_right _ (List.mem_singleton.mpr rfl)
    mem := hm }

theorem scrubComplete_failed {c : Chip} {i : ObjIx} (h : scrubDone c i) (hf : c.wb.factory = none) (hq : c.own.scrubQueue = []) (a : Nat) :
    Failed c i a (scrubComplete c (some a)) := by
  obtain ⟨ht, hwb, f, -, hown⟩ := scrubbed_same c i
  have hu := (scrubComplete_some h a).trans (unverified_idle (c := scrubbed c i) a (by rw [hwb]; exact hf) (by rw [hown]; exact hq))
  rw [hu]
  exact failed_of_scrubbed a (scrubbed_ownE c i).1 ht (scrubbed_mem c i)

/-- The map's entries are those of the part that a form leaves alone or changes. -/
theorem ownE_leaveTick (c d : Chip) (i : ObjIx) : ownE (leaveTick c d) i = ownE d i := rfl

theorem exec_drainEnd {s : State} {dt : Nat} {i : ObjIx} {t : Chip} (h : drainEnd (found s dt) i = t) :
    exec (.drainEnd dt i) s = .next (ended s dt (leaveMem (found s dt) t)) := h ▸ rfl

theorem exec_scrubComplete {s : State} {dt : Nat} {fail : Option Nat} {t : Chip} (h : scrubComplete (found s dt) fail = t) :
    exec (.scrubComplete dt fail) s = .next (ended s dt (leaveTick (found s dt) t)) := h ▸ rfl

theorem exec_takeover {s : State} {dt : Nat} {i : ObjIx} {t : Chip} (h : takeover (found s dt) i = t) :
    exec (.nextOwnerTakeover dt i) s = .next (ended s dt (leaveTick (found s dt) t)) := h ▸ rfl

end Sys2Proof.Proofs

open Sys2Proof Sys2Proof.Machine Sys2Proof.Proofs

/-- Settles O36: the map after each event, from what a scrub of a block leaves alone. -/
theorem ownershipEventsAct : Obligations.OwnershipEventsAct := by
  intro s dt i
  dsimp only
  refine ⟨fun _ hd ha hq => ?_, fun ha ht hv hf hq => ⟨?_, fun a => ?_⟩, fun k hs hn ht hv hf hb => ?_, fun a hv => ?_⟩
  · have ho := drainEnd_own hd ha hq
    have he : exec (.drainEnd dt i) s = .next (ended s dt (leaveMem (found s dt) (drainEnd (found s dt) i))) := exec_drainEnd rfl
    have hget (j : ObjIx) : ownE (drainEnd (found s dt) i) j =
        if i = j then { ownE (found s dt) i with st := .scrubbing, gen := wrapInc16 (found s dt).own.gen } else ownE (found s dt) j := by
      unfold ownE
      rw [ho]
      exact upd_get ..
    exact ⟨_, he, rfl, rfl, (hget i).trans (if_pos rfl), congrArg Own.gen ho, congrArg Own.scrubActive ho, congrArg Own.scrubStart ho,
      fun j hj => (hget j).trans (if_neg (Ne.symm hj))⟩
  · obtain ⟨hs, hg, ha, hn, hi, hk, hm, ho⟩ := scrubComplete_freed (c := found s dt) ⟨ha, ht, hv⟩ hf hq
    exact ⟨_, exec_scrubComplete rfl, hs, hg, ha, hn, hi, hk, hm, ho⟩
  · obtain ⟨hs, hb, hr, hm⟩ := scrubComplete_failed (c := found s dt) ⟨ha, ht, hv⟩ hf hq a
    exact ⟨_, exec_scrubComplete rfl, hs, hb, hr, hm⟩
  · exact exec_takeover (takeover_idle hs hn ht hv hf hb)
  · refine runOwn_of_leaves (f := fun c => if serving c then ownershipMismatch c a else c) (if_pos hv) ?_
    rw [setLevelR_only]
    rfl
end

