-- ==== Sys2Proof/Proofs/Reset.lean ====
section
/-! The part after reset. -/

namespace Sys2Proof.Proofs

open Sys2Proof.Machine

/-! ### The vectors of the reset state, place by place -/

theorem reset_master (m : Mid) : mst resetChip m = coldMaster := Vector.getElem_replicate m.isLt

theorem reset_client (k : Client) : resetChip.wb.clients[k] = { coldClientWb with epochLost := true } := Vector.getElem_replicate k.isLt

theorem reset_prov (k : Client) :
    resetChip.own.prov[k] = { enabled := decide (k = 0), passcode := 0, pinen := false, pinmid := 0 } := Vector.getElem_ofFn k.isLt

theorem reset_entry_free (i : ObjIx) : (ownE resetChip i).st = .free := congrArg OwnEntry.st (Vector.getElem_ofFn i.isLt)

theorem reset_source (n : Src) : resetChip.flt.srcs[n] = coldSource := Vector.getElem_replicate n.isLt

end Sys2Proof.Proofs

open Sys2Proof Sys2Proof.Machine Sys2Proof.Proofs

/-- Settles O55: the reset state, vector by vector. -/
theorem resetLeavesThePart : Obligations.ResetLeavesThePart := by
  have hm (m : Mid) : mst State.reset.chip m = coldMaster := reset_master m
  refine ⟨rfl, rfl, rfl, rfl, rfl, fun m => ?_, fun k => ⟨?_, ?_, ?_, ?_⟩, reset_entry_free, fun n => ?_, fun a => ⟨rfl, rfl, rfl⟩, rfl, ?_⟩
  · rw [hm]
    exact ⟨rfl, rfl, rfl, rfl⟩
  · exact congrArg ClientWb.epochLost (reset_client k)
  · exact congrArg ClientWb.lastSeq (reset_client k)
  · rw [show State.reset.chip.own.prov[k] = _ from reset_prov k]
    exact decide_eq_true_iff
  · exact congrArg Prov.passcode (reset_prov k)
  · exact congrArg Source.st (reset_source n)
  · intro m n k h
    rw [hm] at h
    cases h
end

