-- ==== Sys2Proof/Proofs/ControlCommands.lean ====
section
/-! SUSPEND, RESUME and CANCEL. -/

namespace Sys2Proof.Proofs

open Sys2Proof.Machine

/-! ### What a form leaves alone of a part that differs elsewhere -/

theorem leaveFace_self {c d : Chip} (hn : d.isN = c.isN) (ht : d.tick = c.tick) (ho : d.own = c.own) (hm : d.mem = c.mem)
    (hf : d.face = c.face) : leaveFace c d = d := by
  rw [leaveFace, ← hn, ← ht, ← ho, ← hm, ← hf]

theorem leaveFace_retired {c d : Chip} {k : Key} {st n : Nat} {r : Word} (h : leaveFace c d = d) :
    leaveFace c (retire d k st n r) = retire d k st n r :=
  leaveFace_self ((retire_isN ..).trans (congrArg Chip.isN h).symm) ((retire_tick ..).trans (congrArg Chip.tick h).symm)
    ((retire_own ..).trans (congrArg Chip.own h).symm) ((retire_mem ..).trans (congrArg Chip.mem h).symm)
    ((retire_face ..).trans (congrArg Chip.face h).symm)

/-- A command of a block whose effect is what its form leaves of it. -/
theorem runOp_block {s : State} {dt op : Nat} {p : Entry → Bool} {e : Entry} {t : Chip} {body : Chip → Entry → Chip}
    (h : Executes (found s dt) op p e) (hb : body (found s dt) e = t) (hl : leaveFace (found s dt) t = t) :
    runBlock s dt (fun c => execOp c op p body) = .next (ended s dt t) :=
  runBlock_of_leaves ((execOp_of h body).trans hb) hl

/-! ### The arms of the control commands (Table 4-6) -/

theorem leaveFace_ctrlEnd {c d : Chip} {e t : Entry} {st n : Nat} (h : leaveFace c d = d) :
    leaveFace c (ctrlEnd d e t st n) = ctrlEnd d e t st n := by
  have hd : leaveFace c (commitD d e) = commitD d e :=
    leaveFace_self (congrArg Chip.isN h).symm (congrArg Chip.tick h).symm (congrArg Chip.own h).symm (congrArg Chip.mem h).symm
      (congrArg Chip.face h).symm
  unfold ctrlEnd
  split
  · exact leaveFace_retired hd
  · exact leaveFace_self (congrArg Chip.isN h).symm (congrArg Chip.tick h).symm (congrArg Chip.own h).symm (congrArg Chip.mem h).symm
      (congrArg Chip.face h).symm

theorem ctrlEnd_d {c : Chip} {e t : Entry} {st n : Nat} (h : e.kind = .d) :
    ctrlEnd c e t st n = retire (commitD c e) (keyOf e) st n (ctrlResult t) := if_pos h

theorem ctrlEnd_s {c : Chip} {e t : Entry} {st n : Nat} (h : e.kind = .s) : ctrlEnd c e t st n = commitS c e st n (ctrlResult t) :=
  if_neg (by rw [h]; decide)

/-- A control command's target that is outstanding, of the normal lane and without a mark. -/
structure Open (c : Chip) (e t : Entry) : Prop where
  target : ctrlTarget c e = some t
  normal : t.ctrl = false
  unmarked : t.mark = .none

theorem suspendExec_queued {c : Chip} {e t : Entry} (h : Open c e t) (hk : t.kind = .l) (hs : t.state = .queued) :
    suspendExec c e = ctrlEnd (updEntry c (keyOf t) (fun x => { x with state := .suspended, cause := .suspend })) e t 1 0 := by
  simp [suspendExec, h.target, h.normal, h.unmarked, hk, hs, stDone]

theorem suspendExec_active {c : Chip} {e t : Entry} (h : Open c e t) (hk : t.kind = .l) (hs : t.state = .active) (ho : opcodeOf t ≠ 0x53) :
    suspendExec c e = placeMark c e t .suspend := by
  simp [suspendExec, h.target, h.normal, h.unmarked, hk, hs, ho]

theorem resumeExec_suspended {c : Chip} {e t : Entry} (h : Open c e t) (hk : t.kind = .l) (hs : t.state = .suspended) (hc : t.cause = .suspend)
    (hb : benched c = false) : resumeExec c e = ctrlEnd (updEntry c (keyOf t) (fun x => { x with resumed := true, mark := .resume })) e t 1 0 := by
  simp [resumeExec, h.target, h.normal, h.unmarked, hk, hs, hc, hb, stDone]

theorem cancelExec_active {c : Chip} {e t : Entry} (h : Open c e t) (hk : t.kind = .l) (hs : t.state = .active) (ho : opcodeOf t ≠ 0x53) :
    cancelExec c e = placeMark c e t .cancel := by
  simp [cancelExec, h.target, h.normal, h.unmarked, hk, hs, ho]

theorem cancelExec_queued {c : Chip} {e t : Entry} (h : Open c e t) (hs : t.state = .queued) :
    cancelExec c e = ctrlEnd (retire c (keyOf t) 2 (cancelDetail e.client t) 0) e t 1 0 := by
  simp [cancelExec, h.target, h.normal, hs, stDone, stCancelled]

/-- Without a target the control commands are refused with 0x0014 (Table 4-6). -/
theorem ctrlExec_none {c : Chip} {e : Entry} (h : ctrlTarget c e = none) :
    suspendExec c e = refuseLate c e 0x0014 ∧ resumeExec c e = refuseLate c e 0x0014 ∧ cancelExec c e = refuseLate c e 0x0014 := by
  simp only [suspendExec, resumeExec, cancelExec, h, and_self]

/-- Of a command of the control lane they are refused with 0x0015 (Table 4-6). -/
theorem ctrlExec_ctrl {c : Chip} {e t : Entry} (h : ctrlTarget c e = some t) (hc : t.ctrl = true) (hs : t.state ≠ .retired) :
    suspendExec c e = ctrlRefuse c e t 0x0015 ∧ resumeExec c e = ctrlRefuse c e t 0x0015 ∧ cancelExec c e = ctrlRefuse c e t 0x0015 := by
  simp [suspendExec, resumeExec, cancelExec, h, hc, hs]

end Sys2Proof.Proofs

open Sys2Proof Sys2Proof.Machine Sys2Proof.Proofs

/-- Settles O31: the arms of the three commands. -/
theorem controlCommandsAct : Obligations.ControlCommandsAct := by
  intro s dt e t
  dsimp only
  have hsus {d : Chip} (h : Executes (found s dt) 0x40 (fun _ => true) e) (hb : suspendExec (found s dt) e = d)
      (hl : leaveFace (found s dt) d = d) : exec (.suspend dt) s = .next (ended s dt d) := runOp_block h hb hl
  have hres {d : Chip} (h : Executes (found s dt) 0x41 (fun _ => true) e) (hb : resumeExec (found s dt) e = d)
      (hl : leaveFace (found s dt) d = d) : exec (.resume dt) s = .next (ended s dt d) := runOp_block h hb hl
  have hcan {d : Chip} (h : Executes (found s dt) 0x42 (fun _ => true) e) (hb : cancelExec (found s dt) e = d)
      (hl : leaveFace (found s dt) d = d) : exec (.cancel dt) s = .next (ended s dt d) := runOp_block h hb hl
  refine ⟨fun ht hc hm => ?_, fun ht => ?_, fun ht hc hs => ?_⟩
  · have ho : Open (found s dt) e t := ⟨ht, hc, hm⟩
    refine ⟨fun h hk hl hs => ?_, fun h hl hs hn => ?_, fun h hk hl hs hz hb => ?_, fun h hl hs hn => ?_, fun h hk hs => ?_⟩
    · exact hsus h ((suspendExec_queued ho hl hs).trans (ctrlEnd_d hk)) (leaveFace_retired rfl)
    · exact hsus h (suspendExec_active ho hl hs hn) rfl
    · exact hres h ((resumeExec_suspended ho hl hs hz hb).trans (ctrlEnd_s hk)) rfl
    · exact hcan h (cancelExec_active ho hl hs hn) rfl
    · have hr : leaveFace (found s dt) (retire (found s dt) (keyOf t) 2 (cancelDetail e.client t) 0) = _ := leaveFace_retire ..
      exact hcan h ((cancelExec_queued ho hs).trans (ctrlEnd_d hk)) (ctrlEnd_d (t := t) hk ▸ leaveFace_ctrlEnd hr)
  · obtain ⟨h1, h2, h3⟩ := ctrlExec_none ht
    exact ⟨fun h => hsus h h1 (leaveFace_retire ..), fun h => hres h h2 (leaveFace_retire ..), fun h => hcan h h3 (leaveFace_retire ..)⟩
  · obtain ⟨h1, h2, h3⟩ := ctrlExec_ctrl ht hc hs
    exact ⟨fun h => hsus h h1 (leaveFace_retire ..), fun h => hres h h2 (leaveFace_retire ..), fun h => hcan h h3 (leaveFace_retire ..)⟩
end

