-- ==== Sys2Proof/Proofs/WeighbridgeEvents.lean ====
section
/-! The Weighbridge's own events: fetch, checkpoint, merge, patrol, counter mismatch. -/

namespace Sys2Proof.Proofs

open Sys2Proof.Machine

/-! ### Entries by their key -/

theorem keyOf_of_find {c : Chip} {k : Key} {e : Entry} (h : findEntry c k = some e) : keyOf e = k :=
  of_decide_eq_true (List.find?_some (p := fun e => decide (keyOf e = k)) h)

/-- Two changes of an entry that keep its key are one. -/
theorem updEntry_updEntry (c : Chip) (k : Key) {f g : Entry → Entry} (hf : ∀ x, keyOf (f x) = keyOf x) :
    updEntry (updEntry c k f) k g = updEntry c k (fun x => g (f x)) := by
  have h : (fun x => if keyOf x = k then g x else x) ∘ (fun x => if keyOf x = k then f x else x) =
      fun x => if keyOf x = k then g (f x) else x := by
    funext x
    by_cases hx : keyOf x = k
    · simp [hx, hf]
    · simp [hx]
  simp only [updEntry, List.map_map, h]

/-- The entry that is found after a change that keeps every key. -/
theorem findEntry_updEntry {c : Chip} {k : Key} {e : Entry} {f : Entry → Entry} (hf : ∀ x, keyOf (f x) = keyOf x)
    (h : findEntry c k = some e) : findEntry (updEntry c k f) k = some (f e) := by
  have hk := keyOf_of_find h
  have hc : (fun x => decide (keyOf x = k)) ∘ (fun x => if keyOf x = k then f x else x) = fun x => decide (keyOf x = k) := by
    funext x
    by_cases hx : keyOf x = k
    · simp [hx, hf]
    · simp [hx]
  unfold findEntry updEntry at *
  rw [List.find?_map, hc, h, Option.map_some, if_pos hk]

/-! ### COMMAND_FETCH -/

theorem fetchEntry_present {c : Chip} {e : Entry} (h : e.kind = .l → needsAbsentSat c e = false) :
    fetchEntry c e = updEntry { c with wb := { c.wb with
      lastFetch := some c.tick, ctlptr := if e.ctrl then e.client else c.wb.ctlptr,
      normptr := if e.ctrl then c.wb.normptr else e.client } } (keyOf e)
        (fun e => { e with state := .active, fetchTick := c.tick, ckTick := c.tick }) := by
  unfold fetchEntry
  refine if_neg fun hh => ?_
  simp only [Bool.and_eq_true, decide_eq_true_eq] at hh
  exact absurd hh.2 (Bool.eq_false_iff.mp (h hh.1))

theorem commandFetch_clean {c : Chip} {e : Entry} {w : Fin 8} (hm : mayFetch (retireDue c) = true) (hp : pick (retireDue c) = some e) :
    commandFetch c .clean w = fetchEntry (retireDue c) e := by
  unfold commandFetch
  dsimp only
  rw [if_pos hm, hp]

/-! ### LONG_OP_CHECKPOINT -/

theorem longCheckpoint_due {c : Chip} {k : Key} {e : Entry} {step : Chip → Entry → Chip × LStep} (hf : findEntry c k = some e)
    (h : e.kind = .l ∧ e.state = .active ∧ 0 < e.ckpt ∧ opcodeOf e ≠ 0x53 ∧ serving c = true ∧ ckptDue c e = true) :
    longCheckpoint c k step = match targetObj e with
      | some i =>
        if (ownE c i).st = .draining ∧ isDrainItem c i e = true then cancelBlock (retire c k 2 3 0) e
        else applyLStep (step c e).1 k (step c e).2
      | none => applyLStep (step c e).1 k (step c e).2 := by
  unfold longCheckpoint
  rw [hf]
  exact if_pos h

/-- Nothing acts at a checkpoint without a mark, a Bench and a SLEEP request. -/
theorem checkpointActs_unmarked {c : Chip} {k : Key} {e : Entry} (hf : findEntry c k = some e) (hm : e.mark = .none)
    (hb : benched c = false) (hs : c.pw.sleepPending = false) : checkpointActs c k = c := by
  simp [checkpointActs, hf, hm, hb, hs]

/-- A step of a long operation that passes its checkpoint (R123). -/
theorem applyLStep_pass {c : Chip} {k : Key} {e : Entry} (n : Nat) (hf : findEntry c k = some e) (hm : e.mark = .none)
    (hb : benched c = false) (hs : c.pw.sleepPending = false) :
    applyLStep c k (.pass n) = updEntry c k (fun e => { e with ckpt := n, ckTick := c.tick, redo := false }) :=
  checkpointActs_unmarked (findEntry_updEntry (fun _ => rfl) hf) hm hb hs

/-- A step that changes its entry and passes its checkpoint. -/
theorem applyLStep_updEntry {c : Chip} {k : Key} {e : Entry} {f : Entry → Entry} (n : Nat) (hk : ∀ x, keyOf (f x) = keyOf x)
    (hf : findEntry c k = some e) (hm : (f e).mark = .none) (hb : benched c = false) (hs : c.pw.sleepPending = false) :
    applyLStep (updEntry c k f) k (.pass n) = updEntry c k (fun x => { f x with ckpt := n, ckTick := c.tick, redo := false }) :=
  (applyLStep_pass n (findEntry_updEntry hk hf) hm hb hs).trans (updEntry_updEntry c k hk)

theorem selftestStep_part {c : Chip} {e : Entry} {src : Option Src} (h1 : 1 ≤ e.ckpt) (h4 : e.ckpt ≤ 4) :
    selftestStep c e false src = (updEntry c (keyOf e) (fun x => { x with result := e.result }), .pass (e.ckpt + 1)) := by
  unfold selftestStep
  rw [if_pos ⟨h1, h4⟩]
  rfl

/-! ### RETIRE_RING_MERGE -/

theorem retireAt_unmarked {c : Chip} {k : Key} {e : Entry} (st d : Nat) (r : Word) (t : Nat) (hf : findEntry c k = some e)
    (hm : e.marker = none) : retireAt c k st d r t = retireOne c k st d r t := by
  simp only [retireAt, hf, hm]

theorem mergeRec_found {c : Chip} {r : RingRec} {e : Entry} (hf : findEntry c r.key = some e) (hm : e.marker = none) :
    mergeRec c r = updEntry c r.key (fun x =>
      { x with state := .retired, status := r.status, detail := r.detail, result := resultOf x e.result, retireTick := r.tick,
               mark := .none, marker := none, resumed := false, recovered := x.recovered || r.recovered }) := by
  unfold mergeRec
  rw [hf]
  dsimp only
  rw [retireAt_unmarked _ _ _ _ hf hm]
  exact updEntry_updEntry c r.key fun _ => rfl

theorem ringMergeRead_clean {c : Chip} {o : Fin 24} {w : Nat} {r : RingRec} {l : List RingRec} (hr : c.outs[o].ring = r :: l)
    (ht : r.tick + 2 ≤ c.tick) (hs : serving c = true) :
    ringMergeRead c o .clean w = updOut (mergeRec c r) o (fun x => { x with ring := l }) := by
  unfold ringMergeRead
  rw [hr]
  dsimp only
  rw [if_pos ht]
  unfold ringMerge
  rw [hr]
  exact if_pos ⟨ht, hs⟩

/-! ### RETENTION_PATROL -/

theorem patrolRead_once {c : Chip} {a : Nat} (ecc : Ecc) (hs : serving c = true) (hj : journalWord a = none) (hd : patrolDone c false a = false) :
    patrolRead c false a ecc = match ecc with
      | .clean => patrolMark c false a
      | .single => raiseR (patrolMark c false a) (evAt c 64 10 accRead 2 a none)
      | .double => raiseR { patrolMark c false a with wb := { (patrolMark c false a).wb with halted := true } } (evAt c 65 10 accRead 2 a none) := by
  have hn : c.wb.entries.find? (fun e => decide ((if false = true then none else journalWord a) = some (e.loc, a % 0x40 / 8))) = none :=
    List.find?_eq_none.mpr fun e _ => by simp [hj]
  unfold patrolRead
  dsimp only
  rw [if_pos (by rw [hs, hd]; rfl), hn, if_neg Bool.false_ne_true, hj]
  cases ecc <;> rfl

end Sys2Proof.Proofs

open Sys2Proof Sys2Proof.Machine Sys2Proof.Proofs

/-- Settles O35: each event's own equation. -/
theorem weighbridgeEventsAct : Obligations.WeighbridgeEventsAct := by
  intro s dt
  dsimp only
  refine ⟨fun e w hm hp hl => ?_, fun k n data e hf hk hs hv hd => ⟨fun ho ht h1 h4 hm hb hp => ?_, fun i ho ht h1 hst hi => ?_⟩,
    fun o w r l e hr ht hv hf hm => ?_, fun a hv hj hd => ?_, fun k hv => ?_⟩
  · have h := (commandFetch_clean (w := w) hm hp).trans (fetchEntry_present hl)
    exact ⟨_, runBlock_of_leaves (f := fun c => commandFetch c .clean w) h rfl, rfl, rfl, rfl, rfl, rfl⟩
  · refine runBlock_of_leaves (f := fun c => longCheckpoint c ⟨k, n⟩ (fun c e => longStep c e [])) ?_ rfl
    have hst : longStep (found s dt) e [] = (updEntry (found s dt) ⟨k, n⟩ (fun x => { x with result := e.result }), .pass (e.ckpt + 1)) := by
      unfold longStep
      rw [ho, ← keyOf_of_find hf]
      exact selftestStep_part h1 h4
    rw [longCheckpoint_due hf ⟨hk, hs, h1, by rw [ho]; decide, hv, hd⟩, ht]
    dsimp only
    rw [hst]
    dsimp only
    exact applyLStep_updEntry (f := fun x => { x with result := e.result }) _ (fun _ => rfl) hf hm hb hp
  · refine runBlock_of_leaves (f := fun c => longCheckpoint c ⟨k, n⟩ (fun c e => longStep c e data)) ?_ (leaveFace_retire ..)
    rw [longCheckpoint_due hf ⟨hk, hs, h1, by rw [ho]; decide, hv, hd⟩, ht]
    dsimp only
    rw [if_pos ⟨hst, hi⟩, cancelBlock, ho]
    rfl
  · have h := (ringMergeRead_clean (w := w) hr ht hv).trans (congrArg (fun d => updOut d o (fun x => { x with ring := l })) (mergeRec_found hf hm))
    refine ⟨_, runBlock_of_leaves (f := fun c => if serving c then ringMergeRead c o .clean w else c) ((if_pos hv).trans h) rfl, rfl, rfl, rfl⟩
  · have h (ecc : Ecc) := patrolRead_once ecc hv hj hd
    refine ⟨?_, ?_, ?_⟩
    · exact runBlock_of_leaves (f := fun c => patrolRead c false a .clean) (h .clean) rfl
    · exact runBlock_of_leaves (f := fun c => patrolRead c false a .single) (h .single) rfl
    · exact runBlock_of_leaves (f := fun c => patrolRead c false a .double) (h .double) rfl
  · refine runBlock_of_leaves (f := fun c => if serving c then counterMismatch c k else c) (if_pos hv) ?_
    rw [setLevelR_only]
    rfl
end

