-- ==== Sys2Proof/Proofs/Boot.lean ====
section
/-! The steps of BOOT. -/

namespace Sys2Proof.Proofs

open Sys2Proof.Machine

/-! ### The image check -/

/-- Without an event held over a reset the collector has nothing to process (R495). -/
theorem processHeld_nil {c : Chip} (h : c.flt.held = []) : processHeld c = c := by
  have hc : { c with flt := { c.flt with held := [] } } = c := by rw [← h]
  unfold processHeld
  rw [hc, h]
  rfl

/-- With nothing standing the comparisons find nothing (R485). -/
theorem standingAgain_clear {c : Chip} (hl : c.pw.lfLost = false) (ho : c.own.mismatch = false)
    (hk : ∀ k : Client, c.wb.clients[k].mismatch = false) : standingAgain c = c := by
  unfold standingAgain
  dsimp only
  rw [hl, if_neg Bool.false_ne_true, ho, if_neg Bool.false_ne_true]
  exact foldl_idle _ fun k => if_neg (Bool.eq_false_iff.mp (hk k))

/-- The selection of an image changes the images, and may raise S504 (R187). -/
theorem selectImage_only (c : Chip) (a b : Bool) :
    selectImage c a b = { c with img := (selectImage c a b).img, raised := (selectImage c a b).raised } := by
  unfold selectImage updSlot
  dsimp only
  split
  all_goals
    repeat' split
    all_goals rfl

/-- Slot A is selected where it alone is eligible and sound, no image where neither is eligible (R187). -/
theorem selectImage_slotA {c : Chip} (hb : c.img.slotB.st ≠ .eligible) :
    (c.img.slotA.st ≠ .eligible → (selectImage c false false).img.minimal = true) ∧
    (c.img.slotA.st = .eligible → imageFail { c.img.slotA with readErr := false } c.img.rollctr = 0 →
      (selectImage c false false).img.minimal = false ∧ (selectImage c false false).img.actSlot = false ∧
      (selectImage c false false).img.actVer = imgVer c.img.slotA) := by
  refine ⟨fun ha => ?_, fun ha hf => ?_⟩
  · simp [selectImage, updSlot, ha, hb]
  · have hs : slotFail { c.img.slotA with readErr := false } c.img.rollctr = 0 := by
      simpa [slotFail, ha] using hf
    dsimp only at hs
    rw [ha] at hs
    simp [selectImage, updSlot, ha, hb, hs, slotOf, imgVer, slotWord]

/-- The part whose image check is placed (R167). -/
def atStepD (c : Chip) : Chip :=
  { c with pw := { c.pw with step := if c.pw.cold then .dCold else .dWarm, stepTick := c.pw.stepTick + 66560 } }

theorem imageCheck_clear {c : Chip} (hb : c.pw.state = .boot) (hs : c.pw.step = .c) (hh : c.flt.held = []) (hl : c.pw.lfLost = false)
    (ho : c.own.mismatch = false) (hk : ∀ k : Client, c.wb.clients[k].mismatch = false) :
    imageCheck c false false = selectImage (atStepD c) false false := by
  unfold imageCheck
  rw [if_pos ⟨hb, hs⟩]
  dsimp only
  rw [processHeld_nil, standingAgain_clear]
  · rfl
  · exact hl
  · exact ho
  · exact hk
  · exact hh

end Sys2Proof.Proofs

open Sys2Proof Sys2Proof.Machine Sys2Proof.Proofs

/-- Settles O37: each step's own branch. -/
theorem bootAdvances : Obligations.BootAdvances := by
  intro s dt
  dsimp only
  refine ⟨fun hb hs hl => ?_, fun hb hs ht => ?_, fun hb hs h1 h7 => ?_, fun hb hs h7 => ?_, fun hb hs hh hl ho hk hB => ?_, fun hb hs => ?_,
    fun hb h32 hl hp => ?_⟩
  · refine runBlock_of_leaves (f := trimLoad) ?_ rfl
    simp only [trimLoad, hb, hs, hl, if_true]
    rfl
  · refine runBlock_of_leaves (f := trimLoad) ?_ rfl
    simp only [trimLoad, hb, hs, ht, if_true]
    rfl
  · exact runBlock_of_leaves (f := pllLock) (if_pos ⟨hb, hs, h1, h7⟩) rfl
  · exact runBlock_of_leaves (f := pllRetry) (if_pos ⟨hb, hs, h7⟩) rfl
  · have he := runBlock_leaves (s := s) (dt := dt) (f := fun c => imageCheck c false false) (imageCheck_clear hb hs hh hl ho hk)
    rw [selectImage_only] at he
    have hsel := selectImage_slotA (c := atStepD (found s dt)) hB
    exact ⟨_, he, rfl, hsel.1, hsel.2, rfl, rfl, rfl⟩
  · refine runBlock_of_leaves (f := nresetRelease) ?_ rfl
    unfold nresetRelease
    exact if_pos ⟨hb, hs⟩
  · refine runBlock_of_leaves (f := backupExit) ?_ rfl
    unfold backupExit
    dsimp only
    rw [if_pos ⟨hb, .inl h32⟩, hp, if_neg Bool.false_ne_true]
    exact if_neg (Bool.eq_false_iff.mp hl)
end

