-- ==== Sys2Proof/Proofs/BootEnd.lean ====
section
/-! The end of BOOT: retention initialisation and replay. -/

namespace Sys2Proof.Proofs

open Sys2Proof.Machine

/-! ### What leaves the Weighbridge and the power controller alone -/

/-- The Weighbridge and the power controller of a part. -/
def core (c : Chip) : Wb × Power := (c.wb, c.pw)

theorem core_wb {c d : Chip} (h : core c = core d) : c.wb = d.wb := congrArg Prod.fst h
theorem core_pw {c d : Chip} (h : core c = core d) : c.pw = d.pw := congrArg Prod.snd h

theorem core_parts {c : Chip} {w : Wb} {p : Power} (h : core c = (w, p)) : c.wb = w ∧ c.pw = p :=
  ⟨congrArg Prod.fst h, congrArg Prod.snd h⟩

theorem core_keep (a b : Chip) : core (keep a b) = core b := rfl

theorem core_own (c : Chip) (o : Own) : core { c with own := o } = core c := rfl

theorem core_setLevelR (c : Chip) (n : Src) (b : Bool) (r : Raise) : core (setLevelR c n b r) = core c := by
  rw [setLevelR_only]
  rfl

theorem core_levelN (c : Chip) (n : Nat) (b : Bool) : core (levelN c n b) = core c := core_setLevelR ..

theorem core_excStartAll (c : Chip) : core (excStartAll c) = core c := by
  unfold excStartAll
  refine foldl_fixed core _ (fun d g => ?_) _ c
  split <;> rfl

theorem core_toSeek (c : Chip) (w : Fin 4) (l : List Nat) : core (toSeek c w l) = core c := by
  unfold toSeek leaveValid
  split <;> rfl

theorem core_whResume (c : Chip) (w : Fin 4) : core (whResume c w) = core c := by
  unfold whResume whStart
  split
  · rfl
  · dsimp only
    split
    · rfl
    · exact core_toSeek ..

theorem core_aoHold (c : Chip) (a : Fin 8) : core (aoHold c a) = core c := rfl

theorem core_tuneEnd (c : Chip) (n : Fin 16) : core (tuneEnd c n) = core c := by
  unfold tuneEnd
  split <;> rfl

theorem core_epochBlocks (c : Chip) : core (epochBlocks c) = core c := by
  unfold epochBlocks
  dsimp only
  refine (foldl_fixed core _ (fun d a => ?_) _ _).trans (foldl_fixed core _ core_tuneEnd _ _)
  split <;> rfl

theorem core_scrubNext (c : Chip) : core (scrubNext c) = core c := by
  unfold scrubNext
  split
  · unfold scrubStartBlock aoScrub spanEmit
    split <;> rfl
  · rfl

theorem core_restartTransits (c : Chip) : core (restartTransits c) = core c := by
  unfold restartTransits
  dsimp only
  refine (core_scrubNext _).trans ((core_own _ _).trans (foldl_fixed core _ (fun d i => ?_) _ c))
  split
  · rfl
  · split <;> rfl

theorem core_hostCheck (c : Chip) (r : Raise) : core (hostCheck c r) = core c := by
  unfold hostCheck
  dsimp only
  split <;> rfl

theorem core_benchRelease (c : Chip) : core (benchRelease c) = core c := by
  rw [benchRelease_only]
  rfl

/-! ### Without a long operation outstanding -/

/-- No long operation is outstanding. -/
def NoLong (c : Chip) : Prop := ∀ e ∈ c.wb.entries, e.kind ≠ .l

theorem core_resumeCause {c : Chip} (z : Cause) (h : NoLong c) : core (resumeCause c z) = core c := by
  have hm : c.wb.entries.map (fun e => if e.kind = .l ∧ e.state = .suspended ∧ e.cause = z then { e with resumed := true } else e) =
      c.wb.entries :=
    (List.map_congr_left (g := id) fun e he => if_neg fun hh => h e he hh.1).trans (List.map_id _)
  unfold core resumeCause
  rw [hm]

theorem core_bootBench {c : Chip} (h : NoLong c) : core (bootBench c) = core c := by
  unfold bootBench
  split
  · have hb := core_benchRelease c
    refine (core_resumeCause _ ?_).trans hb
    unfold NoLong
    rw [core_wb hb]
    exact h
  · rfl

/-- No long operation goes on where none is outstanding. -/
theorem resumeAll_idle {c : Chip} (l : List Entry) (h : ∀ e ∈ l, e.kind ≠ .l) :
    l.foldl (fun (c : Chip) (e : Entry) =>
      if e.kind = .l ∧ e.state = .active ∧ opcodeOf e ≠ 0x53 then resumeBlock c (keyOf e) else c) c = c := by
  induction l with
  | nil => rfl
  | cons e l ih =>
    rw [List.foldl_cons, if_neg fun hh => h e List.mem_cons_self hh.1, ih fun x hx => h x (List.mem_cons_of_mem _ hx)]

theorem core_bootEndBlocks {c : Chip} (h : NoLong c) : core (bootEndBlocks c) = core c := by
  unfold bootEndBlocks
  extract_lets +onlyGivenNames c1 c2 c3 c4 c5
  have h2 : core c2 = core c1 := by
    unfold c2
    split <;> rfl
  have h3 : core c3 = core c2 := rfl
  have h4 : core c4 = core c3 := foldl_fixed core _ core_whResume _ _
  have h5 : core c5 = core c4 := foldl_fixed core _ core_aoHold _ _
  have hc : core c5 = core c := h5.trans (h4.trans (h3.trans (h2.trans (core_excStartAll c))))
  clear_value c5
  rw [resumeAll_idle]
  · exact hc
  · rw [core_wb hc]
    exact h

/-- The state in which a BOOT ends (R160, R188). -/
def bootState (c : Chip) : PState :=
  if c.img.minimal then .minconfig else if !c.pw.cold && resumes (hostCheck c (evN c 506)) then c.pw.resume else .config

/-- The power controller after a BOOT that ends in tick t in state st (R171). -/
def bootPower (p : Power) (st : PState) (t : Nat) : Power :=
  let q := { bootCause p with state := st, cold := false, causeMask := 0, brown := false, serveTick := t, serveHeld := true }
  { q with wdCount := wdPeriod q }

theorem hostCheck_same (c : Chip) (r : Raise) :
    (hostCheck c r).pw = c.pw ∧ (hostCheck c r).wb = c.wb ∧ (hostCheck c r).tick = c.tick ∧ (hostCheck c r).img.minimal = c.img.minimal := by
  unfold hostCheck
  dsimp only
  split
  all_goals exact ⟨rfl, rfl, rfl, rfl⟩

/-- Without a long operation outstanding the end of a BOOT leaves the journal alone. -/
theorem bootEnd_core {c : Chip} (h : NoLong c) :
    core (bootEnd c) = ({ c.wb with lastFetch := none }, bootPower c.pw (bootState c) c.tick) := by
  obtain ⟨hpw, hwb, htick, hmin⟩ := hostCheck_same c (evN c 506)
  unfold bootEnd
  extract_lets +onlyGivenNames wasCold brown c1 st pw img wb c2 c3 c4 c5 c6
  have hst : st = bootState c := by
    unfold st c1
    rw [hmin, hpw]
    rfl
  have h3 : core c3 = ({ c1.wb with lastFetch := none }, bootPower c1.pw st c1.tick) := rfl
  have h4 : core c4 = core c3 := by
    unfold c4
    split <;> rfl
  have h5 : core c5 = core c4 := by
    unfold c5
    split <;> rfl
  have h6 : core c6 = core c5 := by
    unfold c6
    split
    · exact core_levelN ..
    · rfl
  have hc : core c6 = ({ c.wb with lastFetch := none }, bootPower c.pw (bootState c) c.tick) := by
    rw [h6, h5, h4, h3, hst]
    unfold c1
    rw [hwb, hpw, htick]
  clear_value c6
  have hr := (core_restartTransits c6).trans hc
  have hn : ∀ d : Chip, core d = ({ c.wb with lastFetch := none }, bootPower c.pw (bootState c) c.tick) → NoLong d := by
    intro d hd
    unfold NoLong
    rw [(core_parts hd).1]
    exact h
  have hb := (core_bootBench (hn _ hr)).trans hr
  exact (core_bootEndBlocks (hn _ hb)).trans hb

/-! ### Retention initialisation -/

theorem core_newEpoch (c : Chip) : core (newEpoch c) = ({ c.wb with
    entries := [], epoch := wrapInc16 c.wb.epoch, halted := false, factory := none, factoryDirect := false,
    clients := c.wb.clients.map (fun (k : ClientWb) => { k with
      lastSeq := 0, lastTag := 0, lastAccSeq := 0, epochLost := true, now := k.now ||| 4#3, rec0 := 0, rec1 := 0, rec2 := 0, rec3 := 0,
      mismatch := false }) }, c.pw) := by
  unfold newEpoch
  extract_lets +onlyGivenNames wb c1 own c2
  refine (core_setLevelR ..).trans ?_
  exact (core_keep c2 _).trans (core_epochBlocks c2)

theorem newEpoch_img (c : Chip) : (newEpoch c).img = c.img := by
  unfold newEpoch
  rw [setLevelR_only]
  rfl

theorem newEpoch_tick (c : Chip) : (newEpoch c).tick = c.tick := by
  unfold newEpoch
  rw [setLevelR_only]
  rfl

/-- A cold BOOT ends in CONFIG, or in minimal CONFIG (R158). -/
theorem bootState_cold {c : Chip} (h : c.pw.cold = true) : bootState c = if c.img.minimal then .minconfig else .config := by
  unfold bootState
  rw [h]
  rfl

/-- A client's numbers in a new epoch (R112). -/
theorem freshEpoch_client {l v : Vector ClientWb 16} (k : Client) (h : l = v.map (fun (k : ClientWb) => { k with
      lastSeq := 0, lastTag := 0, lastAccSeq := 0, epochLost := true, now := k.now ||| 4#3, rec0 := 0, rec1 := 0, rec2 := 0, rec3 := 0,
      mismatch := false })) : l[k].lastSeq = 0 ∧ l[k].epochLost = true := by
  subst h
  simp only [Fin.getElem_fin, Vector.getElem_map, and_self]

theorem retentionInit_core {c : Chip} (hb : c.pw.state = .boot) (hs : c.pw.step = .dCold) (ht : c.pw.stepTick + 8192 ≤ c.tick)
    (hc : c.pw.cold = true) :
    core (retentionInit c) = ({ (newEpoch c).wb with lastFetch := none },
      bootPower c.pw (if c.img.minimal then .minconfig else .config) c.tick) := by
  obtain ⟨hw, hpw⟩ := core_parts (core_newEpoch c)
  have hno : NoLong (newEpoch c) := by
    unfold NoLong
    rw [hw]
    exact fun e he => absurd he List.not_mem_nil
  unfold retentionInit
  rw [if_pos ⟨hb, hs, ht⟩, bootEnd_core hno, bootState_cold (by rw [hpw]; exact hc), hpw, newEpoch_tick, newEpoch_img]

/-- RESETCAUSE after a cold BOOT (R171). -/
theorem bootCause_cold {p : Power} (h : p.cold = true) :
    (bootCause p).rcCold = true ∧ (bootCause p).sticky = 0 ∧ (bootCause p).warmcount = 0 := by
  simp [bootCause, h]

/-- RESETCAUSE after a warm BOOT (R171). -/
theorem bootCause_warm {p : Power} (h : p.cold = false) :
    (bootCause p).last = p.cause ∧ (bootCause p).resettick = p.causeTick ∧ (bootCause p).warmcount = wrapInc16 p.warmcount ∧
    (bootCause p).sticky = p.sticky ||| p.causeMask ∧ (bootCause p).rcCold = false := by
  simp [bootCause, h]

/-! ### Replay -/

/-- Without a record in a ring replay merges nothing (R135). -/
theorem mergeRings_same {c : Chip} (h : ∀ o : Fin 24, c.outs[o].ring = []) : core (mergeRings c) = core c ∧ (mergeRings c).img = c.img ∧ (mergeRings c).tick = c.tick := by
  have hs (d : Chip) (o : Fin 24) (hd : (core d = core c ∧ d.img = c.img ∧ d.tick = c.tick) ∧ ∀ o : Fin 24, d.outs[o].ring = []) :
      (core (mergeRing d o) = core c ∧ (mergeRing d o).img = c.img ∧ (mergeRing d o).tick = c.tick) ∧ ∀ j : Fin 24, (mergeRing d o).outs[j].ring = [] := by
    obtain ⟨hc, ho⟩ := hd
    unfold mergeRing
    rw [ho o]
    refine ⟨hc, fun j => (congrArg OutSt.ring (upd_get d.outs o j _)).trans ?_⟩
    split
    · rfl
    · exact ho j
  unfold mergeRings
  exact (foldl_keeps (fun d : Chip => (core d = core c ∧ d.img = c.img ∧ d.tick = c.tick) ∧ ∀ o : Fin 24, d.outs[o].ring = []) mergeRing hs (allFin 24) c
    ⟨⟨rfl, rfl, rfl⟩, h⟩).1

/-- The journal's classification without a long operation (Table 4-7). -/
def classified (p : Power) (e : Entry) : Entry :=
  match e.state with
  | .active =>
    if e.kind = .s ∧ e.commit = true then { e with state := .retired, recovered := true, retireTick := e.commitTick }
    else { e with state := .queued }
  | .waiting =>
    if opcodeOf e = 0x30 ∧ e.started = true then
      { e with state := .retired, recovered := true, status := 1, detail := 0, retireTick := p.causeTick }
    else e
  | .suspended => if e.cause = .sleep then { e with cause := .suspend } else e
  | _ => e

theorem replayEntry_classified {c : Chip} {e : Entry} (h : e.kind ≠ .l) : (replayEntry c e).1 = classified c.pw e := by
  unfold replayEntry classified
  cases e.state
  case active =>
    cases hk : e.kind with
    | l => exact absurd hk h
    | s => by_cases hc : e.commit = true <;> simp [hc]
    | d => simp
  case waiting =>
    dsimp only
    split <;> rfl
  all_goals rfl

theorem classified_kind (p : Power) (e : Entry) : (classified p e).kind = e.kind := by
  unfold classified
  split
  · split <;> rfl
  · split <;> rfl
  · split <;> rfl
  · rfl

theorem core_reinsert (c : Chip) (e : Entry) : core (reinsert c e) = core c := by
  unfold reinsert
  split <;> rfl


/-- A part with a journal and with the images and the power controller of another. -/
structure Journal (l : List Entry) (c d : Chip) : Prop where
  entries : d.wb.entries = l
  pw : d.pw = c.pw
  img : d.img = c.img
  tick : d.tick = c.tick

theorem Journal.clients {l : List Entry} {c d : Chip} (h : Journal l c d) (v : Vector ClientWb 16) :
    Journal l c { d with wb := { d.wb with clients := v } } := ⟨h.entries, h.pw, h.img, h.tick⟩

/-- Replay's classification of a journal without a long operation. -/
theorem classifyAll_journal {c : Chip} (h : NoLong c) : Journal (c.wb.entries.map (classified c.pw)) c (classifyAll c) := by
  unfold classifyAll
  extract_lets +onlyGivenNames l touched wb c1
  have hl : c1.wb.entries = c.wb.entries.map (classified c.pw) :=
    (List.map_map ..).trans (List.map_congr_left fun e he => replayEntry_classified (h e he))
  refine foldl_keeps (Journal (c.wb.entries.map (classified c.pw)) c) _ (fun d e hd => ?_) _ c1 ⟨hl, rfl, rfl, rfl⟩
  unfold reinsert
  split
  · split
    · exact ⟨hd.entries, hd.pw, hd.img, hd.tick⟩
    · exact hd
  · exact hd

theorem replayRings_journal {c : Chip} (h : ∀ o : Fin 24, c.outs[o].ring = []) : Journal c.wb.entries c (replayRings c) := by
  obtain ⟨hc, hi, ht⟩ := mergeRings_same h
  unfold replayRings
  exact .clients ⟨congrArg Wb.entries (core_wb hc), core_pw hc, hi, ht⟩ _

/-- The part whose journal replay has classified. -/
theorem replayed_journal {c : Chip} (hl : NoLong c) (hr : ∀ o : Fin 24, c.outs[o].ring = []) :
    Journal (c.wb.entries.map (classified c.pw)) c (classifyAll (replayRings c)) := by
  have h := replayRings_journal hr
  have hn : NoLong (replayRings c) := by
    unfold NoLong
    rw [h.entries]
    exact hl
  have hj := classifyAll_journal hn
  rw [h.entries, h.pw] at hj
  exact ⟨hj.entries, hj.pw.trans h.pw, hj.img.trans h.img, hj.tick.trans h.tick⟩

/-- Replay without errors ends a warm BOOT in the epoch that was (R135). -/
theorem replay_clean {c : Chip} (hb : c.pw.state = .boot) (hs : c.pw.step = .dWarm)
    (ht : c.pw.stepTick + 8192 + 256 * c.wb.entries.length ≤ c.tick) (hh : c.wb.halted = false) :
    replay c [] none = bootEnd (classifyAll (replayRings c)) := by
  unfold replay
  rw [if_pos ⟨hb, hs, ht⟩]
  exact if_neg (Bool.eq_false_iff.mp hh)

/-- A warm BOOT that does not resume ends in CONFIG, or in minimal CONFIG (R158, R160). -/
theorem bootState_noResume {c : Chip} (h : c.img.minimal = true ∨ c.pw.autoresume = false) :
    bootState c = if c.img.minimal then .minconfig else .config := by
  unfold bootState
  obtain h | h := h
  · rw [h]
    rfl
  · have hr : resumes (hostCheck c (evN c 506)) = false := by
      unfold resumes
      rw [(hostCheck_same c (evN c 506)).1, h]
      rfl
    rw [hr, Bool.and_false]
    rfl

/-- The part after a warm BOOT without a long operation outstanding (R135, R171). -/
structure WarmBooted (c t : Chip) : Prop where
  entries : t.wb.entries = c.wb.entries.map (classified c.pw)
  cause : ∃ st, t.pw = bootPower c.pw st c.tick
  minimal : c.img.minimal = true → t.pw.state = .minconfig
  config : c.img.minimal = false → c.pw.autoresume = false → t.pw.state = .config

theorem WarmBooted.leaveMem {c t : Chip} (h : WarmBooted c t) : WarmBooted c (Machine.leaveMem c t) :=
  ⟨h.entries, h.cause, h.minimal, h.config⟩

theorem bootEnd_warm {c d : Chip} (h : NoLong c) (hj : Journal (c.wb.entries.map (classified c.pw)) c d) : WarmBooted c (bootEnd d) := by
  obtain ⟨he, hp, hi, ht⟩ := hj
  have hn : NoLong d := by
    unfold NoLong
    rw [he]
    intro e hm
    obtain ⟨x, hx, rfl⟩ := List.mem_map.mp hm
    rw [classified_kind]
    exact h x hx
  obtain ⟨hwb, hpw⟩ := core_parts (bootEnd_core hn)
  have hst : (bootEnd d).pw.state = bootState d := congrArg Power.state hpw
  refine ⟨(congrArg Wb.entries hwb).trans he, ⟨_, hpw.trans (by rw [hp, ht])⟩, fun hm => ?_, fun hm ha => ?_⟩
  · rw [hst, bootState_noResume (.inl (by rw [hi]; exact hm)), hi, hm]
    rfl
  · rw [hst, bootState_noResume (.inr (by rw [hp]; exact ha)), hi, hm]
    rfl

end Sys2Proof.Proofs

open Sys2Proof Sys2Proof.Machine Sys2Proof.Proofs

/-- Settles O38: what the end of a BOOT makes of the journal and of the power controller. -/
theorem bootEnds : Obligations.BootEnds := by
  intro s dt
  dsimp only
  intro hb
  refine ⟨fun hs ht hc => ?_, fun hs ht hc hh hl hr => ?_⟩
  · obtain ⟨hwb, hpw⟩ := core_parts (retentionInit_core hb hs ht hc)
    rw [(core_parts (core_newEpoch (found s dt))).1] at hwb
    have he : exec (.retentionInit dt) s = .next (ended s dt (leaveMem (found s dt) (retentionInit (found s dt)))) := rfl
    have hk (k : Client) := freshEpoch_client k (congrArg Wb.clients hwb)
    obtain ⟨h1, h2, h3⟩ := bootCause_cold hc
    exact ⟨_, he, congrArg Wb.entries hwb, congrArg Wb.epoch hwb, congrArg Wb.halted hwb, hk, congrArg Power.state hpw, congrArg Power.cold hpw,
      (congrArg Power.rcCold hpw).trans h1, (congrArg Power.sticky hpw).trans h2, (congrArg Power.warmcount hpw).trans h3, rfl⟩
  · have he : exec (.replay dt [] none) s = .next (ended s dt (leaveMem (found s dt) (replay (found s dt) [] none))) := rfl
    rw [replay_clean hb hs ht hh] at he
    obtain ⟨hw, ⟨st, hpw⟩, hm, hn⟩ := (bootEnd_warm hl (replayed_journal hl hr)).leaveMem
    obtain ⟨h1, h2, h3, h4, h5⟩ := bootCause_warm hc
    exact ⟨_, he, hw, (congrArg Power.last hpw).trans h1, (congrArg Power.resettick hpw).trans h2, (congrArg Power.warmcount hpw).trans h3,
      (congrArg Power.sticky hpw).trans h4, (congrArg Power.rcCold hpw).trans h5, hm, hn⟩
end

