-- ==== Sys2Proof/Proofs/Resets.lean ====
section
/-! The resets of the whole part. -/

namespace Sys2Proof.Proofs

open Sys2Proof.Machine

/-! ### What leaves the power controller and the sources' states alone -/

/-- The power controller, and what of every source an acknowledgement or a reset sets. -/
def steady (c : Chip) : Power × (Src → SrcSt × Bool) := (c.pw, fun n => (c.flt.srcs[n].st, c.flt.srcs[n].unack))

theorem steady_of {c d : Chip} (hp : d.pw = c.pw) (hf : d.flt.srcs = c.flt.srcs) : steady d = steady c := by
  simp only [steady, hp, hf]

/-- A level of a source is none of its state. -/
theorem steady_setLevelR (c : Chip) (n : Src) (b : Bool) (r : Raise) : steady (setLevelR c n b r) = steady c := by
  unfold setLevelR
  dsimp only
  split
  · rfl
  · have hs : ∀ k : Src, (upd c.flt.srcs n (fun s => { s with level := b, quiet := max s.quiet c.tick }))[k].st = c.flt.srcs[k].st ∧
        (upd c.flt.srcs n (fun s => { s with level := b, quiet := max s.quiet c.tick }))[k].unack = c.flt.srcs[k].unack := by
      intro k
      rw [upd_get]
      split
      next h =>
        subst h
        exact ⟨rfl, rfl⟩
      next => exact ⟨rfl, rfl⟩
    have h1 : steady { c with flt := { c.flt with srcs := upd c.flt.srcs n (fun s => { s with level := b, quiet := max s.quiet c.tick }) } } =
        steady c := by
      refine Prod.ext rfl (funext fun k => Prod.ext (hs k).1 (hs k).2)
    split
    · exact h1
    · exact h1

theorem steady_satSignalLoss (c : Chip) (k : Fin 4) : steady (satSignalLoss c k) = steady c := by
  unfold satSignalLoss
  refine foldl_fixed steady _ (fun d n => ?_) _ c
  split
  · exact steady_setLevelR ..
  · rfl

/-- The loss of a position in a reset. -/
theorem steady_satLoss (c : Chip) (k : Fin 4) {cause : Nat} (h : cause ≠ 0) : steady (satLoss c k cause) = steady c := by
  unfold satLoss
  dsimp only
  rw [if_pos h, if_neg h, steady_satSignalLoss]
  rfl

theorem steady_hopLoss (c : Chip) (h : Fin 4) {cause : Nat} (hc : cause ≠ 0) : steady (hopLoss c h cause) = steady c := by
  unfold hopLoss
  extract_lets +onlyGivenNames x long wake c1
  have h1 : steady c1 = steady c := rfl
  clear_value c1
  split
  · exact (steady_satLoss c1 x.pos hc).trans h1
  · exact h1

theorem steady_linkLoss (c : Chip) (h : Fin 4) {cause : Nat} (hc : cause ≠ 0) : steady (linkLoss c h cause) = steady c := by
  unfold linkLoss
  rw [if_neg fun hh => hc hh.2.1]
  refine foldl_fixed steady _ (fun d x => ?_) _ c
  split
  · exact steady_hopLoss d x hc
  · rfl

theorem steady_link (c : Chip) (l : Link) : steady { c with link := l } = steady c := rfl

theorem steady_linkStop (c : Chip) {cause : Nat} (hc : cause ≠ 0) : steady (linkStop c cause) = steady c :=
  (steady_link ..).trans (steady_linkLoss c 0 hc)

theorem steady_whReset (c : Chip) (w : Fin 4) : steady (whReset c w) = steady c := by
  unfold whReset
  split <;> rfl

theorem steady_levels (c : Chip) (l : List Raise) :
    steady { c with raised := l, flt := { c.flt with srcs := c.flt.srcs.map (fun s => { s with level := false }) } } = steady c := by
  refine Prod.ext rfl (funext fun n => ?_)
  simp only [steady, Fin.getElem_fin, Vector.getElem_map]

theorem steady_warmBlocks (c : Chip) (b : Bool) : steady (warmBlocks c b) = steady c := by
  have hc : (if b then 3 else 1) ≠ 0 := by cases b <;> decide
  unfold warmBlocks
  extract_lets +onlyGivenNames eng c1 c2
  refine (steady_levels c2 []).trans ((foldl_fixed steady _ steady_whReset _ _).trans ((steady_linkStop c1 hc).trans ?_))
  rfl

theorem steady_keep (a b : Chip) : steady (keep a b) = steady b := rfl

theorem holdRaised_pw (c : Chip) : (holdRaised c).pw = c.pw := by
  unfold holdRaised
  refine foldl_fixed Chip.pw _ (fun d r => ?_) _ _
  rw [holdEvent_only]

/-- A reset's power controller, and every source OK and acknowledged (R170, R485). -/
theorem steady_warmReset (c : Chip) (cause src t : Nat) :
    steady (warmReset c cause src t) = (powerReset c.pw cause src t, fun _ => (.ok, false)) := by
  unfold warmReset
  extract_lets +onlyGivenNames c1 c2 face wb cal img flt c3
  have h3 : steady c3 = (powerReset c1.pw cause src t, fun n => (c2.flt.srcs[n].st, c2.flt.srcs[n].unack)) := rfl
  refine (steady_keep c1 _).trans ((steady_warmBlocks c3 _).trans (h3.trans (Prod.ext ?_ (funext fun n => ?_))))
  · exact congrArg (fun p => powerReset p cause src t) (holdRaised_pw c)
  · simp [c2, collectorReset]

/-! ### A reset outside BOOT -/

/-- The reset unit outside BOOT takes the cause as it is (R170). -/
theorem powerReset_fresh {p : Power} (h : p.state ≠ .boot) (cause src t : Nat) :
    (powerReset p cause src t).cause = cause ∧ (powerReset p cause src t).causeTick = t ∧ (powerReset p cause src t).state = .boot := by
  simp [powerReset, h]

/-- A part that a reset of a cause has left (R158, R170, R485). -/
structure ResetBy (c t : Chip) (cause : Nat) : Prop where
  cause : t.pw.cause = cause
  causeTick : t.pw.causeTick = c.tick + 1
  face : t.face = resetFace c.face
  sources : ∀ n : Src, t.flt.srcs[n].st = .ok ∧ t.flt.srcs[n].unack = false

theorem steady_sources {t : Chip} {p : Power} (h : steady t = (p, fun _ => (.ok, false))) (n : Src) :
    t.flt.srcs[n].st = .ok ∧ t.flt.srcs[n].unack = false := by
  have hn := congrFun (congrArg Prod.snd h) n
  exact ⟨congrArg Prod.fst hn, congrArg Prod.snd hn⟩

theorem steady_pw {t : Chip} {p : Power} {f : Src → SrcSt × Bool} (h : steady t = (p, f)) : t.pw = p := congrArg Prod.fst h

/-- What a reset leaves of a master (R45, R67, R83). -/
theorem ResetBy.master {c t : Chip} {cause : Nat} (h : ResetBy c t cause) (m : Mid) :
    (mst t m).claim = none ∧ (mst t m).wrTag = none ∧ (mst t m).scratch = (mst c m).scratch := by
  have hm : mst t m = resetMaster (mst c m) := by
    unfold mst
    rw [h.face, resetFace, Fin.getElem_fin, Vector.getElem_map]
    rfl
  rw [hm]
  exact ⟨rfl, rfl, rfl⟩

theorem leaveAll_pw (c d : Chip) : (leaveAll c d).pw = d.pw := rfl

/-- A reset keeps TICK, the map and the words (R15, R98). -/
theorem ResetBy.leaveAll {c d : Chip} {cause : Nat} (h : ResetBy c d cause) :
    ((leaveAll c d).tick = c.tick ∧ (leaveAll c d).own = c.own ∧ (leaveAll c d).mem = c.mem ∧ (leaveAll c d).isN = c.isN) ∧
    (leaveAll c d).pw.cause = cause ∧ (leaveAll c d).pw.causeTick = c.tick + 1 ∧
    (∀ m : Mid, (mst (leaveAll c d) m).claim = none ∧ (mst (leaveAll c d) m).wrTag = none ∧
      (mst (leaveAll c d) m).scratch = (mst c m).scratch) ∧
    ∀ n : Src, (leaveAll c d).flt.srcs[n].st = .ok ∧ (leaveAll c d).flt.srcs[n].unack = false :=
  ⟨⟨rfl, rfl, rfl, rfl⟩, h.cause, h.causeTick, h.master, h.sources⟩

/-- A warm reset of the part d, which differs from c in nothing that it takes over. -/
theorem warmReset_resetBy {c d : Chip} (hf : d.face = c.face) (hb : d.pw.state ≠ .boot) (cause src : Nat) :
    ResetBy c (warmReset d cause src (c.tick + 1)) cause := by
  have h := steady_warmReset d cause src (c.tick + 1)
  obtain ⟨h1, h2, -⟩ := powerReset_fresh hb cause src (c.tick + 1)
  refine ⟨?_, ?_, ?_, steady_sources h⟩
  · rw [steady_pw h, h1]
  · rw [steady_pw h, h2]
  · rw [warmReset_face, hf]

theorem nresetPin_long {c : Chip} {n : Nat} (hv : vddUp c = true) (hn : 162 ≤ n) :
    nresetPin c n = warmReset { (drawFree c).2 with pw := { c.pw with nresetLow := true } } 1 0 (c.tick + 1) := by
  have h : (vddUp c && (decide (162 ≤ n) || (decide (158 ≤ n) && Config.nresetBand c.freeN))) = true := by
    simp [hv, hn]
  exact if_pos h

theorem nresetPin_short {c : Chip} {n : Nat} (hn : n < 158) : nresetPin c n = { c with freeN := c.freeN + 1 } := by
  have h : ¬ (vddUp c && (decide (162 ≤ n) || (decide (158 ≤ n) && Config.nresetBand c.freeN))) = true := by
    have h1 : ¬ 162 ≤ n := by omega
    have h2 : ¬ 158 ≤ n := by omega
    simp [h1, h2]
  exact if_neg h

/-! ### A brown-out (R166) -/

theorem steady_beginStay (c : Chip) : steady (beginStay c) = steady c := by
  unfold beginStay whStay
  refine (foldl_fixed steady _ (fun d w => ?_) _ _).trans ?_
  · split <;> rfl
  · rfl

/-- The part of a brown-out's reset in BACKUP. -/
structure Brown (p : Power) (q : Power) : Prop where
  cause : q.cause = p.cause
  causeTick : q.causeTick = p.causeTick
  state : q.state = .backup
  vdd : q.vdd = false
  vbak : q.vbak = true
  lfclk : q.lfclk = (p.lfclk || p.lfLost)

/-- A part in BACKUP after the reset that a brown-out makes of d. -/
structure BrownOut (d t : Chip) : Prop where
  power : Brown d.pw t.pw
  face : t.face = d.face
  sources : (steady t).2 = (steady d).2

theorem BrownOut.armMotion {d t : Chip} (h : BrownOut d t) : BrownOut d (Machine.armMotion t) := by
  unfold Machine.armMotion
  split
  · exact ⟨⟨h.power.cause, h.power.causeTick, h.power.state, h.power.vdd, h.power.vbak, h.power.lfclk⟩, h.face, h.sources⟩
  · exact h

theorem BrownOut.of_steady {d t u : Chip} (h : BrownOut d t) (hs : steady u = steady t) (hf : u.face = t.face) : BrownOut d u :=
  ⟨(show u.pw = t.pw from congrArg Prod.fst hs) ▸ h.power, hf.trans h.face, (congrArg Prod.snd hs).trans h.sources⟩

/-- The part in BACKUP from tick t on, with the net still where it was (R166). -/
def inBackup (d : Chip) (t : Nat) : Chip :=
  { d with pw := { d.pw with state := .backup, vdd := false, vbak := true, nresetLow := false, lfCount := 0, vddTick := t, lfStopped := d.pw.lfLost } }

/-- The part in BACKUP, armed for a stay: without an oscillator the net has none (R184). -/
def backedUp (d : Chip) (t : Nat) : Chip := if d.pw.lfLost then toLf (inBackup d t) else inBackup d t

theorem brownOut_backedUp (d : Chip) (t : Nat) : BrownOut d (backedUp d t) := by
  unfold backedUp
  split
  next hl => exact ⟨⟨rfl, rfl, rfl, rfl, rfl, by rw [hl, Bool.or_true]; rfl⟩, rfl, rfl⟩
  next hl => exact ⟨⟨rfl, rfl, rfl, rfl, rfl, by rw [Bool.eq_false_iff.mpr hl, Bool.or_false]; rfl⟩, rfl, rfl⟩

theorem brownOut_stay {d x : Chip} (h : BrownOut d x) : BrownOut d (Machine.armMotion (keep x (beginStay x))) :=
  (h.of_steady ((steady_keep x _).trans (steady_beginStay x)) rfl).armMotion

theorem brownout_reset {c : Chip} (hv : vddUp c = true) : BrownOut (warmReset c 5 0 (c.tick + 1)) (brownout c) := by
  unfold brownout
  rw [if_pos hv]
  dsimp only
  generalize warmReset c 5 0 (c.tick + 1) = d
  exact brownOut_stay (brownOut_backedUp d c.tick)

/-- A brown-out's reset leaves the net and the oscillator's loss as they were (R166). -/
theorem warmReset_net (c : Chip) :
    ((warmReset c 5 0 (c.tick + 1)).pw.lfclk || (warmReset c 5 0 (c.tick + 1)).pw.lfLost) = (c.pw.lfclk || c.pw.lfLost) := by
  rw [steady_pw (steady_warmReset ..)]
  simp [powerReset]

theorem brownout_resetBy {c : Chip} (hv : vddUp c = true) (hb : c.pw.state ≠ .boot) : ResetBy c (brownout c) 5 := by
  have hr := warmReset_resetBy (c := c) (d := c) rfl hb 5 0
  have h := brownout_reset hv
  exact {
    cause := h.power.cause.trans hr.cause
    causeTick := h.power.causeTick.trans hr.causeTick
    face := h.face.trans hr.face
    sources := fun n => by
      have hs := congrFun (h.sources.trans (congrArg Prod.snd (steady_warmReset c 5 0 (c.tick + 1)))) n
      exact ⟨congrArg Prod.fst hs, congrArg Prod.snd hs⟩ }

/-! ### The other causes -/

theorem nresetPin_resetBy {c : Chip} {n : Nat} (hv : vddUp c = true) (hb : c.pw.state ≠ .boot) (hn : 162 ≤ n) :
    ResetBy c (nresetPin c n) 1 ∧ (nresetPin c n).pw.state = .boot ∧ (nresetPin c n).pw.step = .held ∧ (nresetPin c n).pw.nresetLow = true := by
  rw [nresetPin_long hv hn]
  refine ⟨warmReset_resetBy (by rfl) (by exact hb) 1 0, ?_⟩
  rw [steady_pw (steady_warmReset ..)]
  exact ⟨rfl, rfl, rfl⟩

theorem watchdogExpiry_resetBy {c : Chip} (hb : c.pw.state ≠ .boot) (he : c.pw.wdEn = true) (h0 : c.pw.wdCount = 0) (hs : serving c = true) :
    ResetBy c (watchdogExpiry c) 2 ∧ (watchdogExpiry c).pw.state = .boot ∧ (watchdogExpiry c).pw.wdFired = true := by
  unfold watchdogExpiry
  rw [if_pos ⟨he, h0, hs⟩]
  refine ⟨warmReset_resetBy (by rfl) (by exact hb) 2 0, ?_⟩
  rw [steady_pw (steady_warmReset ..)]
  exact ⟨rfl, Bool.or_true _⟩

theorem clockLoss_resetBy {c : Chip} (pll : Bool) (hv : vddUp c = true) (hb : c.pw.state ≠ .boot) (hl : c.pw.lfclk = false)
    (hn : c.pw.nresetLow = false) :
    ResetBy c (clockLoss c pll) 6 ∧ (clockLoss c pll).pw.state = .boot ∧ (clockLoss c pll).pw.lfclk = true ∧ (clockLoss c pll).pw.step = .a1 := by
  unfold clockLoss
  rw [if_pos (by rw [hv, hl]; rfl)]
  refine ⟨warmReset_resetBy (by rfl) (by exact hb) 6 0, ?_⟩
  rw [steady_pw (steady_warmReset ..)]
  refine ⟨rfl, Bool.or_true _, ?_⟩
  simp [powerReset, countN, raiseR, hn]

/-! ### The power-on reset (R165) -/

theorem powerOnReset_held {c : Chip} {vdd vbak : Bool} (ho : c.pw.state = .off) (hv : (vdd || vbak) = true) (h1 : c.pw.vdd = false)
    (h2 : c.pw.vbak = false) :
    powerOnReset c vdd vbak = { c with pw := { c.pw with vdd := vdd, vbak := vbak, lfCount := 0, lfLost := false } } := by
  simp [powerOnReset, ho, hv, h1, h2]

theorem powerOnReset_released {c : Chip} {vdd vbak : Bool} (ho : c.pw.state = .off) (hv : (vdd || vbak) = true)
    (h1 : (c.pw.vdd || c.pw.vbak) = true) (h64 : 64 ≤ c.pw.lfCount) :
    ∃ (a b : Slot) (n : Nat), powerOnReset c vdd vbak = coldChip c.isN vdd vbak a b c.img.rollctr c.wb.epoch c.wb.placeN n := by
  have hp : ((c.pw.vdd || c.pw.vbak) && decide (porPeriods ≤ c.pw.lfCount)) = true := by
    rw [h1, Bool.true_and]
    exact decide_eq_true h64
  exact ⟨_, _, _, (if_pos ⟨ho, hv⟩).trans (if_pos hp)⟩

theorem coldChip_master (isN vdd vbak : Bool) (a b : Slot) (roll epoch placeN freeN : Nat) (m : Mid) :
    mst (coldChip isN vdd vbak a b roll epoch placeN freeN) m = coldMaster := Vector.getElem_replicate m.isLt

theorem coldChip_entry (isN vdd vbak : Bool) (a b : Slot) (roll epoch placeN freeN : Nat) (i : ObjIx) :
    (ownE (coldChip isN vdd vbak a b roll epoch placeN freeN) i).st = if isN && lacksOnN (objOf i) then .absent else .free :=
  congrArg OwnEntry.st (Vector.getElem_ofFn i.isLt)

end Sys2Proof.Proofs

open Sys2Proof Sys2Proof.Machine Sys2Proof.Proofs

/-- Settles O39: the reset unit's answer to each cause, and what the reset keeps. -/
theorem resetsTakeEffect : Obligations.ResetsTakeEffect := by
  intro s dt
  dsimp only
  refine ⟨fun hv hb => ⟨fun n hn => ?_, fun n hn => ?_, fun he h0 hs => ?_, fun b hl hn => ?_, ?_, ?_⟩, fun hb => ?_, fun b hb => ?_, fun vdd vbak ho hv => ⟨fun h1 h2 => ?_, fun h1 h64 => ?_⟩⟩
  · obtain ⟨hr, hp⟩ := nresetPin_resetBy hv hb hn
    exact ⟨_, rfl, hr.leaveAll, hp⟩
  · exact congrArg (fun t => Host.Outcome.next (ended s dt (leaveAll (found s dt) t))) (nresetPin_short hn)
  · obtain ⟨hr, hp⟩ := watchdogExpiry_resetBy hb he h0 hs
    exact ⟨_, rfl, hr.leaveAll, hp⟩
  · obtain ⟨hr, hp⟩ := clockLoss_resetBy b hv hb hl hn
    exact ⟨_, rfl, hr.leaveAll, hp⟩
  · have hr := brownout_resetBy hv hb
    obtain ⟨-, -, hst, hvdd, hvbak, hclk⟩ := (brownout_reset hv).power
    exact ⟨_, rfl, hr.leaveAll, hst, hvdd, hvbak, hclk.trans (warmReset_net _)⟩
  · have he : exec (.vddLossWithoutVbak dt) s = .next (ended s dt (leaveFace (found s dt) (vddLoss (found s dt)))) := rfl
    rw [vddLoss, if_pos (.inl hv)] at he
    exact ⟨_, he, ⟨rfl, rfl, rfl, rfl⟩, rfl⟩
  · have he : exec (.vbakLoss ⟨dt, false⟩) s = .next (ended s dt (leaveFace (found s dt) (vbakLoss (found s dt) false))) := rfl
    rw [vbakLoss, if_pos ⟨hb, rfl⟩] at he
    exact ⟨_, he, ⟨rfl, rfl, rfl, rfl⟩, rfl⟩
  · refine runBlock_of_leaves (f := fun c => vbakLoss c b) (if_neg fun hh => ?_) rfl
    obtain hb | hb := hb
    · exact hb hh.1
    · exact Bool.false_ne_true (hh.2.symm.trans hb)
  · exact congrArg (fun t => Host.Outcome.next (ended s dt (leaveVariant (found s dt) t))) (powerOnReset_held ho hv h1 h2)
  · obtain ⟨a, b, n, hp⟩ := powerOnReset_released ho hv h1 h64
    have he : exec (.powerOnReset dt vdd vbak) s = .next (ended s dt (leaveVariant (found s dt) (powerOnReset (found s dt) vdd vbak))) := rfl
    rw [hp] at he
    refine ⟨_, he, rfl, rfl, rfl, rfl, rfl, rfl, rfl, rfl, rfl, rfl, rfl, rfl, fun m => ?_, fun i => ?_⟩
    · have hm := coldChip_master (found s dt).isN vdd vbak a b (found s dt).img.rollctr (found s dt).wb.epoch (found s dt).wb.placeN n m
      exact ⟨congrArg Master.claim hm, congrArg Master.scratch hm⟩
    · exact coldChip_entry ..
end

