-- ==== Sys2Proof/Proofs/Clocks.lean ====
section
/-! The oscillator, the monitors and the programming of the anti-rollback steps. -/

namespace Sys2Proof.Proofs

open Sys2Proof.Machine

/-! ### An oscillator edge (R143, R144) -/

/-- The part after an oscillator period that drives the net (R143). -/
theorem lfStep_eq (c : Chip) :
    lfStep c = { c with
      tick := c.tick + (if 16 ≤ c.pw.frac + 13 then 4883 else 4882),
      pw := { c.pw with frac := if 16 ≤ c.pw.frac + 13 then c.pw.frac + 13 - 16 else c.pw.frac + 13, lfCount := c.pw.lfCount + 1 } } := by
  unfold lfStep
  dsimp only
  split <;> rfl

theorem clockEdge_period {c : Chip} (hl : c.pw.lfLost = false) (ho : c.pw.state ≠ .off) (hc : c.pw.lfclk = true) (hn : c.pw.lfCount < 6) :
    clockEdge c = settle (clearNow (lfStep c)) := by
  have hd : lfTick c = lfStep c := by
    have h7 : ¬ 7 ≤ (lfStep c).pw.lfCount := by
      rw [lfStep_eq]
      exact Nat.not_le_of_lt (by show c.pw.lfCount + 1 < 7; omega)
    simp [lfTick, hl, ho, hc, h7]
  have ht : (lfStep c).tick ≠ c.tick := by
    rw [lfStep_eq]
    dsimp only
    split <;> omega
  unfold clockEdge
  dsimp only
  rw [hd, if_neg ht]

theorem leaveClock_settled {c d : Chip} (hn : d.isN = c.isN) (ho : d.own = c.own) (hm : d.mem = c.mem) :
    leaveClock c (settle (clearNow d)) = settle (clearNow d) := by
  unfold leaveClock
  rw [← hn, ← ho, ← hm, show d.isN = (settle (clearNow d)).isN from (settle_isN (clearNow d)).symm,
    show d.own = (settle (clearNow d)).own from (settle_own (clearNow d)).symm, show d.mem = (settle (clearNow d)).mem from (settle_mem (clearNow d)).symm]

theorem clockEdge_switch {c : Chip} (hc : c.pw.lfclk = false) (hs : c.pw.state = .sleep) (hw : c.pw.wakeAt = none) (hl : c.pw.lfLost = false) :
    clockEdge c = toLf c := by
  have hd : lfTick c = toLf c := by simp [lfTick, hl, hs, hc, hw]
  unfold clockEdge
  dsimp only
  rw [hd]
  exact if_pos rfl

/-! ### The monitors -/

/-- VBAK's check where it is due (R182). -/
theorem vbakCheck_due {c : Chip} (b : Bool) (hv : vddUp c = true) (ht : ∀ t, c.pw.vbakTick = some t → t + 160000000 ≤ c.tick) :
    vbakCheck c b = if b then countN { c with pw := { c.pw with vbakTick := some c.tick } } 6 else { c with pw := { c.pw with vbakTick := some c.tick } } := by
  have hd : (match c.pw.vbakTick with | some t => decide (t + secTicks ≤ c.tick) | none => true) = true := by
    cases h : c.pw.vbakTick with
    | none => rfl
    | some t => exact decide_eq_true (ht t h)
  refine if_pos ?_
  rw [hv, Bool.true_and]
  exact hd

theorem leaveFace_levelN {c d : Chip} (n : Nat) (b : Bool) (h : leaveFace c d = d) : leaveFace c (levelN d n b) = levelN d n b := by
  unfold levelN
  rw [setLevelR_only]
  exact leaveFace_self (congrArg Chip.isN h).symm (congrArg Chip.tick h).symm (congrArg Chip.own h).symm (congrArg Chip.mem h).symm
    (congrArg Chip.face h).symm

theorem lfLoss_serving {c : Chip} (b : Bool) (hl : c.pw.lfLost = false) (hs : serving c = true) :
    lfLoss c b = levelN { c with pw := { c.pw with lfLost := true } } 2 true := by
  cases hst : c.pw.state <;> simp [serving, inConfig, inRun, hst] at hs <;> simp [lfLoss, hl, hst]

theorem whMotion_only (c : Chip) (m : Fin 4) : whMotion c m = { c with wh := (whMotion c m).wh } := by
  unfold whMotion
  refine foldl_keeps (fun d : Chip => d = { c with wh := d.wh }) _ (fun d w h => ?_) _ c rfl
  split
  · rw [h]
    rfl
  · exact h

theorem moveStay_only (c : Chip) : moveStay c = { c with stays := (moveStay c).stays } := by
  unfold moveStay
  split
  · split <;> rfl
  · rfl

/-- A qualified edge of the motion comparator counts, and notes the edge where wheels and stays are kept (R181). -/
theorem motionEdge_only {c : Chip} (h : c.pw.motionArmed = true) :
    motionEdge c = { c with
      pw := { c.pw with motionCount := satInc16 c.pw.motionCount, motionMoved := true }, wh := (motionEdge c).wh,
      stays := (motionEdge c).stays } := by
  unfold motionEdge
  rw [if_pos h, moveStay_only, whMotion_only]

/-! ### The anti-rollback steps (R194) -/

theorem recheck_st (s : Slot) (n : Nat) : (recheck s n).st = s.st := by
  unfold recheck
  split <;> rfl

theorem rollbackDone_ok {c : Chip} {g : Nat} (n : Nat) (h : c.img.rollGoal = some g) (hg : g ≤ 64) :
    rollbackDone c n false = { c with img := (rollbackDone c n false).img } ∧ (rollbackDone c n false).img.rollctr = max c.img.rollctr g ∧
    (rollbackDone c n false).img.rollGoal = none ∧ (rollbackDone c n false).img.slotA.st = c.img.slotA.st := by
  simp [rollbackDone, h, updSlot, recheck_st, Nat.min_eq_left hg]

theorem rollbackDone_failed {c : Chip} {g n : Nat} (h : c.img.rollGoal = some g) (hg : g ≤ 64) (hn : n ≤ g) (hr : c.img.rollctr ≤ n) :
    (rollbackDone c n true).img.rollctr = n ∧ (rollbackDone c n true).img.rollGoal = none ∧ evN c 508 ∈ (rollbackDone c n true).raised := by
  have h1 : min g (max c.img.rollctr n) = n := by omega
  have h2 : max c.img.rollctr (min n 64) = n := by omega
  simp [rollbackDone, h, updSlot, h1, h2, countN, raiseR, evN, srcN]

end Sys2Proof.Proofs

open Sys2Proof Sys2Proof.Machine Sys2Proof.Proofs

/-- Settles O40: each event's own branch. -/
theorem clocksAndMonitorsAct : Obligations.ClocksAndMonitorsAct := by
  refine ⟨fun s dt => ?_, fun s dt n g => ?_⟩
  · dsimp only
    refine ⟨fun hc ho hl hn => ?_, fun hc hs hw hl => ?_, fun b hl hv => ?_, ?_, fun hm => ?_, fun b hv ht => ?_, fun hh hc ho => ?_⟩
    · have he : exec (.lfTick dt) s = .next (ended s dt (leaveClock (found s dt) (clockEdge (found s dt)))) := rfl
      rw [clockEdge_period hl ho hc hn, lfStep_eq, leaveClock_settled] at he
      · exact he
      · rfl
      · rfl
      · rfl
    · exact congrArg (fun t => Host.Outcome.next (ended s dt (leaveClock (found s dt) t))) (clockEdge_switch hc hs hw hl)
    · exact runBlock_of_leaves (f := fun c => lfLoss c b) (lfLoss_serving b hl hv) (leaveFace_levelN _ _ rfl)
    · exact runBlock_of_leaves (f := lfRestored) rfl (leaveFace_levelN _ _ rfl)
    · have he := runBlock_leaves (s := s) (dt := dt) (f := motionEdge) (motionEdge_only hm)
      exact ⟨_, he, rfl, rfl, rfl⟩
    · refine runBlock_of_leaves (f := fun c => vbakCheck c b) (vbakCheck_due b hv ht) ?_
      cases b <;> rfl
    · exact runBlock_of_leaves (f := calendarEnd) (if_pos ⟨hh, hc, ho⟩) rfl
  · dsimp only
    refine ⟨fun hr hg => ?_, fun hr hg hn hl => ?_, fun hv => ?_⟩
    · obtain ⟨h1, h2, h3, h4⟩ := rollbackDone_ok n hr hg
      have he := runBlock_leaves (s := s) (dt := dt) (f := fun c => rollbackDone c n false) h1
      exact ⟨_, he, h2, h3, h4, rfl⟩
    · obtain ⟨h2, h3, h4⟩ := rollbackDone_failed hr hg hn hl
      have he := runBlock_leaves (s := s) (dt := dt) (f := fun c => rollbackDone c n true) rfl
      exact ⟨_, he, h2, h3, h4⟩
    · exact runBlock_of_leaves (f := fun c => sequencerFail c n) (if_pos hv) rfl
end

