-- ==== Sys2Proof/Proofs/Sleep.lean ====
section
/-! SLEEP and its wakes. -/

namespace Sys2Proof.Proofs

open Sys2Proof.Machine

/-! ### The link stops in SLEEP (R310) -/

/-- What the loss of a hop leaves alone: the journal, the variant and the other hops. -/
structure LinkOnly (c d : Chip) : Prop where
  wb : d.wb = c.wb
  isN : d.isN = c.isN
  hops : d.link.hops = c.link.hops

theorem LinkOnly.trans {a b c : Chip} (h : LinkOnly a b) (g : LinkOnly b c) : LinkOnly a c :=
  ⟨g.wb.trans h.wb, g.isN.trans h.isN, g.hops.trans h.hops⟩

theorem LinkOnly.levelB {c d : Chip} (h : LinkOnly c d) (n : Nat) (b : Bool) : LinkOnly c (levelB d n b) := by
  unfold Machine.levelB
  rw [setLevelR_only]
  exact ⟨h.wb, h.isN, h.hops⟩

theorem linkOnly_satSignalLoss (c : Chip) (k : Fin 4) : LinkOnly c (satSignalLoss c k) := by
  unfold satSignalLoss
  refine foldl_keeps (LinkOnly c) _ (fun d n h => ?_) _ c ⟨rfl, rfl, rfl⟩
  split
  · refine LinkOnly.levelB ?_ _ _
    exact ⟨h.wb, h.isN, h.hops⟩
  · exact h

theorem linkOnly_satLoss (c : Chip) (k : Fin 4) {cause : Nat} (h : cause ≠ 0) : LinkOnly c (satLoss c k cause) := by
  unfold satLoss
  dsimp only
  rw [if_pos h, if_neg h]
  generalize hd : updSat c k _ = d
  have h1 : LinkOnly c d := hd ▸ ⟨rfl, rfl, rfl⟩
  exact h1.trans (linkOnly_satSignalLoss d k)

/-- A hop that is lost is DOWN, and the others stay (R297). -/
structure HopLost (c : Chip) (h : Fin 4) (d : Chip) : Prop where
  wb : d.wb = c.wb
  isN : d.isN = c.isN
  down : d.link.hops[h].st = .down
  others : ∀ j : Fin 4, h ≠ j → d.link.hops[j] = c.link.hops[j]

theorem HopLost.trans {c d e : Chip} {h : Fin 4} (a : HopLost c h d) (b : LinkOnly d e) : HopLost c h e :=
  ⟨b.wb.trans a.wb, b.isN.trans a.isN, by rw [b.hops]; exact a.down, fun j hj => by rw [b.hops]; exact a.others j hj⟩

theorem hopLost_updHop (c : Chip) (h : Fin 4) {f : Hop → Hop} (hf : ∀ x, (f x).st = .down) : HopLost c h (updHop c h f) := by
  refine ⟨rfl, rfl, ?_, fun j hj => ?_⟩
  · exact (congrArg Hop.st (upd_get c.link.hops h h f)).trans (by rw [if_pos rfl, hf])
  · exact (upd_get c.link.hops h j f).trans (if_neg hj)

theorem hopLoss_lost (c : Chip) (h : Fin 4) {cause : Nat} (hc : cause ≠ 0) : HopLost c h (hopLoss c h cause) := by
  unfold hopLoss
  extract_lets +onlyGivenNames x long wake c1
  have h1 : HopLost c h c1 := hopLost_updHop c h fun _ => rfl
  clear_value c1
  split
  · exact h1.trans (linkOnly_satLoss c1 x.pos hc)
  · exact h1

/-- A stop of the link leaves every hop DOWN (R310). -/
structure LinkDown (c d : Chip) : Prop where
  wb : d.wb = c.wb
  isN : d.isN = c.isN
  down : ∀ h : Fin 4, d.link.hops[h].st = .down

theorem linkLoss_down (c : Chip) {cause : Nat} (hc : cause ≠ 0) : LinkDown c (linkLoss c 0 cause) := by
  unfold linkLoss
  rw [if_neg fun hh => hc hh.2.1]
  dsimp only
  have hf : (fun (c : Chip) (x : Fin 4) => if 0 ≤ x then hopLoss c x cause else c) = fun c x => hopLoss c x cause := by
    funext c x
    exact if_pos (Fin.zero_le x)
  rw [hf]
  have hkeep := foldl_keeps (fun d : Chip => d.wb = c.wb ∧ d.isN = c.isN) (fun c x => hopLoss c x cause)
    (fun d x h => ⟨(hopLoss_lost d x hc).wb.trans h.1, (hopLoss_lost d x hc).isN.trans h.2⟩) (allFin 4) c ⟨rfl, rfl⟩
  exact ⟨hkeep.1, hkeep.2, fun h => foldl_allFin (fun _ => True) (fun (d : Chip) (k : Fin 4) => d.link.hops[k].st) (fun _ _ => HopSt.down)
    (fun _ _ _ => trivial) (fun d k _ => (hopLoss_lost d k hc).down)
    (fun d j k _ hj => congrArg Hop.st ((hopLoss_lost d j hc).others k hj)) c trivial h⟩

theorem LinkDown.hops {c d : Chip} (h : LinkDown c d) {l : Link} (hl : l.hops = d.link.hops) : LinkDown c { d with link := l } :=
  ⟨h.wb, h.isN, fun j => by
    dsimp only
    rw [hl]
    exact h.down j⟩

theorem linkStop_down (c : Chip) {cause : Nat} (hc : cause ≠ 0) : LinkDown c (linkStop c cause) := by
  have h := linkLoss_down c hc
  unfold linkStop
  dsimp only
  generalize linkLoss c 0 cause = d at h ⊢
  exact h.hops rfl

/-! ### Entry to SLEEP (R178) -/

theorem whStay_only (c : Chip) : whStay c = { c with wh := (whStay c).wh } := by
  unfold whStay
  refine foldl_keeps (fun d : Chip => d = { c with wh := d.wh }) _ (fun d w h => ?_) _ c rfl
  split
  · rw [h]
    rfl
  · exact h

/-- Without an entry in progress nothing waits to be written RETIRED. -/
theorem retireDue_quiet {c : Chip} (h : ∀ e ∈ c.wb.entries, e.state ≠ .active) : retireDue c = c := by
  have hm : c.wb.entries.map (fun e => if e.kind = .s ∧ e.state = .active ∧ e.commit = true ∧ e.commitTick + 2 ≤ c.tick then
      { e with state := .retired, retireTick := e.commitTick } else e) = c.wb.entries :=
    (List.map_congr_left (g := id) fun e he => if_neg fun hh => h e he hh.2.1).trans (List.map_id _)
  unfold retireDue
  rw [hm]

/-- The part in SLEEP. -/
structure Asleep (c t : Chip) : Prop where
  state : t.pw.state = .sleep
  sleepFrom : t.pw.sleepFrom = c.pw.state
  pending : t.pw.sleepPending = false
  reqstat : t.pw.reqstat = 2
  armed : t.pw.motionArmed = (c.pw.motionArmed || (c.pw.motionen && !c.isN))
  down : ∀ h : Fin 4, t.link.hops[h].st = .down
  wb : t.wb = c.wb

theorem steady_same_pw {c d : Chip} (h : steady c = steady d) : c.pw = d.pw := congrArg Prod.fst h

/-- The blocks in SLEEP keep the power controller, the journal and the variant, and the link is down. -/
theorem sleepBlocks_down (c : Chip) : LinkDown c (sleepBlocks c) ∧ (sleepBlocks c).pw = c.pw := by
  have h := linkStop_down c (cause := 2) (by decide)
  have hp : (linkStop c 2).pw = c.pw := steady_same_pw (steady_linkStop c (cause := 2) (by decide))
  unfold sleepBlocks beginStay
  rw [whStay_only]
  generalize linkStop c 2 = d at h hp ⊢
  exact ⟨⟨h.wb, h.isN, h.down⟩, hp⟩

theorem sleepEntry_asleep {c : Chip} (hp : c.pw.sleepPending = true) (hv : serving c = true) (he : ∀ e ∈ c.wb.entries, e.state ≠ .active)
    (ha : c.wb.asks = []) : Asleep c (sleepEntry c) := by
  have hany : c.wb.entries.any (fun e => decide (e.state = .active)) = false := by
    rw [List.any_eq_false]
    exact fun e hm => by simpa using he e hm
  obtain ⟨⟨hwb, hN, hdown⟩, hpw⟩ := sleepBlocks_down c
  unfold sleepEntry
  rw [retireDue_quiet he]
  dsimp only
  rw [if_pos ⟨hp, hv, hany, ha⟩]
  generalize sleepBlocks c = d at hwb hN hdown hpw ⊢
  unfold armMotion
  rw [hpw, hN]
  split
  next hm => exact ⟨rfl, rfl, rfl, rfl, by rw [hm, Bool.or_true]; rfl, hdown, hwb⟩
  next hm => exact ⟨rfl, by rw [← hpw]; rfl, rfl, rfl, by rw [Bool.eq_false_iff.mpr hm, Bool.or_false, ← hpw]; rfl, hdown, hwb⟩

/-! ### A SLEEP request that is abandoned (R178) -/

/-- A long operation in progress, and one that is suspended, are none of the entries that are written RETIRED. -/
theorem mem_retireDue {c : Chip} {e : Entry} (h : e ∈ c.wb.entries) (hk : e.kind = .l) : e ∈ (retireDue c).wb.entries := by
  refine List.mem_map.mpr ⟨e, h, if_neg fun hh => ?_⟩
  rw [hk] at hh
  cases hh.1

theorem sleepTimeout_due {c : Chip} {e : Entry} (he : e ∈ c.wb.entries) (hp : c.pw.sleepPending = true) (ht : c.pw.reqTick + 16000000 ≤ c.tick)
    (ha : e.state = .active) (hk : e.kind = .l) :
    sleepTimeout c = resumeCause (reqAnswer { retireDue c with pw := { c.pw with sleepPending := false } } 3 2) .sleep := by
  have hany : (retireDue c).wb.entries.any (fun e => decide (e.state = .active)) = true :=
    List.any_eq_true.mpr ⟨e, mem_retireDue he hk, decide_eq_true ha⟩
  exact if_pos ⟨hp, ht, hany⟩

/-- What a cause had suspended goes on (R120). -/
theorem mem_resumeCause {c : Chip} {x : Entry} {z : Cause} (h : x ∈ c.wb.entries) (hk : x.kind = .l) (hs : x.state = .suspended) (hc : x.cause = z) :
    { x with resumed := true } ∈ (resumeCause c z).wb.entries :=
  List.mem_map.mpr ⟨x, h, if_pos ⟨hk, hs, hc⟩⟩

/-- What the form leaves of the entry to SLEEP. -/
theorem sleepEntry_left {c : Chip} (hp : c.pw.sleepPending = true) (hv : serving c = true) (he : ∀ e ∈ c.wb.entries, e.state ≠ .active)
    (ha : c.wb.asks = []) :
    let t := leaveFace c (sleepEntry c)
    t.pw.state = .sleep ∧ t.pw.sleepFrom = c.pw.state ∧ t.pw.sleepPending = false ∧ t.pw.reqstat = 2 ∧
      t.pw.motionArmed = (c.pw.motionArmed || (c.pw.motionen && !c.isN)) ∧
      (∀ h : Fin 4, t.link.hops[h].st = .down) ∧ t.wb.entries.length = c.wb.entries.length := by
  obtain ⟨h1, h2, h3, h4, h5, h6, h7⟩ := sleepEntry_asleep hp hv he ha
  exact ⟨h1, h2, h3, h4, h5, h6, congrArg (fun w : Wb => w.entries.length) h7⟩

/-- What the form leaves of an abandoned request. -/
theorem sleepTimeout_left {c : Chip} {e : Entry} (he : e ∈ c.wb.entries) (hp : c.pw.sleepPending = true)
    (ht : c.pw.reqTick + 16000000 ≤ c.tick) (ha : e.state = .active) (hk : e.kind = .l) :
    let t := leaveFace c (sleepTimeout c)
    t.pw = { c.pw with sleepPending := false, reqstat := 3, refuse := 2 } ∧ t = { c with pw := t.pw, wb := t.wb } ∧
      ∀ x ∈ c.wb.entries, x.kind = .l → x.state = .suspended → x.cause = .sleep → { x with resumed := true } ∈ t.wb.entries := by
  rw [sleepTimeout_due he hp ht ha hk]
  exact ⟨rfl, rfl, fun x hx hk hs hc => mem_resumeCause (mem_retireDue hx hk) hk hs hc⟩

/-! ### Wakes (R179, R180) -/

theorem wakeBy_first {c : Chip} {b : Nat} (hs : c.pw.state = .sleep) (hc : c.pw.lfclk = true) (h1 : 1 ≤ c.pw.lfCount) (hw : c.pw.wake = none) :
    wakeBy c b true = { c with pw := { c.pw with wake := some (2 ^ b), stepTick := c.tick, lfCount := 0 } } := by
  unfold wakeBy
  rw [if_pos ⟨hs, hc, .inl h1, rfl⟩, hw]

/-- The first source that WAKEEN enables is noted by its bit (R179). -/
theorem wakeEnabled_first {c : Chip} {b : Nat} {ok : Bool} (hs : c.pw.state = .sleep) (hc : c.pw.lfclk = true) (h1 : 1 ≤ c.pw.lfCount)
    (hw : c.pw.wake = none) (hb : c.pw.wakeen.testBit b = true) (hok : ok = true) :
    wakeEnabled c b ok = { c with pw := { c.pw with wake := some (2 ^ b), stepTick := c.tick, lfCount := 0 } } := by
  unfold wakeEnabled
  rw [hb, hok]
  exact wakeBy_first hs hc h1 hw

theorem leaveFace_pw (c : Chip) (p : Power) : leaveFace c { c with pw := p } = { c with pw := p } := rfl

/-- An event of a block that changes only the power state. -/
theorem runBlock_pw {s : State} {dt : Nat} {f : Chip → Chip} {p : Power} (hf : f (found s dt) = { found s dt with pw := p }) :
    runBlock s dt f = .next (ended s dt { found s dt with pw := p }) :=
  runBlock_of_leaves hf (leaveFace_pw _ p)

theorem wakeSwitch_due {c : Chip} {w : Nat} (hs : c.pw.state = .sleep) (hw : c.pw.wake = some w) (ha : c.pw.wakeAt = none) (h1 : 1 ≤ c.pw.lfCount) :
    wakeSwitch c = { toSysclk c with pw := { (toSysclk c).pw with wakeAt := some (c.tick + 16) } } :=
  if_pos ⟨by rw [hw]; rfl, hs, ha, .inl h1⟩

/-- The power controller after a wake (R180). -/
theorem wakeDone_pw {c : Chip} {w : Nat} (hw : c.pw.wake = some w) (hh : c.flt.held = []) :
    (wakeDone c).pw = { c.pw with
      state := c.pw.sleepFrom, wake := none, wakecause := w, wakeAt := none, serveTick := c.tick, serveHeld := false,
      wdCount := wdPeriod c.pw } := by
  have hwake (d : Chip) : (wakeBlocks d).pw = d.pw := by
    unfold wakeBlocks
    have h := core_pw (core_excStartAll d)
    generalize excStartAll d = x at h ⊢
    dsimp only
    split
    · exact h
    · exact h
  have hlevel (d : Chip) (b : Bool) : (if b then levelN d 2 true else d).pw = d.pw ∧ (if b then levelN d 2 true else d).flt.held = d.flt.held := by
    split
    · unfold levelN
      rw [setLevelR_only]
      exact ⟨rfl, rfl⟩
    · exact ⟨rfl, rfl⟩
  unfold wakeDone
  extract_lets +onlyGivenNames pw c1 c2
  obtain ⟨hp, hf⟩ := hlevel c1 c1.pw.lfLost
  have hk (a b : Chip) : (keep a b).pw = b.pw := rfl
  rw [hk, hwake]
  rw [processHeld_nil (c := wdRestart c2) (show c2.flt.held = [] from hf.trans hh)]
  show { c2.pw with wdCount := wdPeriod c2.pw } = _
  rw [show c2.pw = c1.pw from hp]
  simp only [c1, hw, Option.getD_some]
  rfl

/-- The four wake sources of SLEEP on the oscillator (Table 6-7). -/
theorem wakeSources {s : State} {dt : Nat} (hs : (found s dt).pw.state = .sleep) (hc : (found s dt).pw.lfclk = true)
    (h1 : 1 ≤ (found s dt).pw.lfCount) (hw : (found s dt).pw.wake = none) :
    let c := found s dt
    let p := c.pw
    let wake (b : Nat) : State := ended s dt { c with pw := { p with wake := some (2 ^ b), stepTick := c.tick, lfCount := 0 } }
    (p.wakeen.testBit 0 = true → exec (.wakePin dt) s = .next (wake 0)) ∧
      (p.wakeen.testBit 1 = true → (liveW c 0x100).toNat ≤ c.tick → exec (.wakeTimer dt) s = .next (wake 1)) ∧
      (∀ (h : Fin 4) (levels : BitVec 4), p.wakeen.testBit 2 = true → linkAttention c h levels = true →
        exec (.wakeLink ⟨dt, h, levels⟩) s = .next (wake 2)) ∧
      (p.wakeen.testBit 3 = true → p.motionArmed = true → p.motionMoved = true → exec (.wakeMotion dt) s = .next (wake 3)) :=
  ⟨fun hb => runBlock_pw (f := fun c => wakeEnabled c 0 true) (wakeEnabled_first hs hc h1 hw hb rfl),
    fun hb ht => runBlock_pw (f := fun c => wakeEnabled c 1 (decide ((liveW c 0x100).toNat ≤ c.tick)))
      (wakeEnabled_first hs hc h1 hw hb (decide_eq_true ht)),
    fun h levels hb hl => runBlock_pw (f := fun c => if linkAttention c h levels then wakeEnabled c 2 true else c)
      ((if_pos hl).trans (wakeEnabled_first hs hc h1 hw hb rfl)),
    fun hb hm hn => runBlock_pw (f := fun c => wakeEnabled c 3 (c.pw.motionArmed && c.pw.motionMoved))
      (wakeEnabled_first hs hc h1 hw hb (Bool.and_eq_true_iff.mpr ⟨hm, hn⟩))⟩

end Sys2Proof.Proofs

open Sys2Proof Sys2Proof.Machine Sys2Proof.Proofs

/-- Settles O41: entry to SLEEP, its abandonment, each wake and its end. -/
theorem sleepAndWake : Obligations.SleepAndWake := by
  refine ⟨fun s dt => ?_, fun c w t hs ha ht hw hh => ⟨?_, wakeDone_pw hw hh, rfl, rfl⟩⟩
  · dsimp only
    refine ⟨fun hp hv he ha => ?_, fun e he hp ht ha hk => ?_, fun hs hc h1 hw => ?_, fun w hs hw ha h1 => ?_, fun hr hi => ?_⟩
    · exact ⟨_, runBlock_leaves (f := sleepEntry) rfl, sleepEntry_left hp hv he ha⟩
    · exact ⟨_, runBlock_leaves (f := sleepTimeout) rfl, sleepTimeout_left he hp ht ha hk⟩
    · exact wakeSources hs hc h1 hw
    · exact congrArg (fun t => Host.Outcome.next (ended s dt (leaveAll (found s dt) t))) (wakeSwitch_due hs hw ha h1)
    · exact runBlock_of_leaves (f := frontEndsReady) (if_pos ⟨hr, hi⟩) rfl
  · unfold wakeDue
    rw [hs, ha]
    exact decide_eq_true ht
end

