-- ==== Sys2Proof/Proofs/Bindings.lean ====
section
/-! SATACCEPT and SATRELEASE (R299): the decision on a binding and what its admission changes. -/

namespace Sys2Proof.Proofs
open Sys2Proof.Machine

/-! ### The link's operations change the link alone -/

/-- d differs from c in the link alone. -/
def OnlyLink (c d : Chip) : Prop := d = { c with link := d.link }

theorem OnlyLink.trans {a b c : Chip} (h : OnlyLink a b) (g : OnlyLink b c) : OnlyLink a c := by
  unfold OnlyLink at *
  rw [g, h]

theorem onlyLink_sendRecord (c : Chip) (h : Fin 4) (t p n : Nat) : OnlyLink c (sendRecord c h t p n) := sendRecord_only c h t p n

theorem onlyLink_updHop (c : Chip) (h : Fin 4) (f : Hop → Hop) : OnlyLink c (updHop c h f) := rfl

theorem onlyLink_pushItem (c : Chip) (h : Fin 4) (n : Nat) (i : Nat × Nat × Nat × Nat) : OnlyLink c (pushItem h n c i) := by
  unfold pushItem
  split
  · rfl
  · dsimp only
    split
    · exact onlyLink_updHop ..
    · exact (onlyLink_updHop ..).trans (onlyLink_sendRecord ..)

theorem onlyLink_linkPush (c : Chip) (h : Fin 4) : OnlyLink c (linkPush c h) := by
  unfold linkPush
  dsimp only
  split
  · exact foldl_keeps (OnlyLink c) _ (fun d i hd => hd.trans (onlyLink_pushItem d h _ i)) _ c rfl
  · rfl

theorem onlyLink_beginAdmission (c : Chip) (h k : Fin 4) : OnlyLink c (beginAdmission c h k) := by
  unfold beginAdmission
  extract_lets t c1 c2
  have h1 : OnlyLink c c1 := onlyLink_updHop ..
  have h2 : OnlyLink c1 c2 := by
    unfold c2
    split
    · exact onlyLink_sendRecord ..
    · rfl
  exact h1.trans (h2.trans ((onlyLink_sendRecord ..).trans (onlyLink_linkPush ..)))

theorem onlyLink_satAccept (c : Chip) (k h : Fin 4) (w : Word) : OnlyLink c (satAccept c k h w) := by
  unfold satAccept
  exact OnlyLink.trans (b := updSat c k _) rfl (onlyLink_beginAdmission ..)

/-- The form of a block leaves everything of a command that changes the link and commits. -/
theorem leaveFace_doneS_link {c d : Chip} (e : Entry) (h : OnlyLink c d) : leaveFace c (doneS d e) = doneS d e := by
  rw [h]
  rfl

/-! ### SATACCEPT -/

theorem fin?_pred (h : Fin 4) {n : Nat} (hn : n = h.val + 1) : fin? 4 (n - 1) = some h := by
  rw [hn, Nat.add_sub_cancel]
  exact fin?_val h

/-- SATACCEPT of a device names position and hop; it commits or is refused by acceptRefusal. -/
theorem acceptCommand_eq {c : Chip} {e : Entry} {k h : Fin 4} (hk : targetOf e = 84 + k.val) (hh : fld e.cmdb 2 0 = h.val + 1) :
    acceptCommand c e = if acceptRefusal c k h e.cmdc (bit e.cmdb 8) ≠ 0 then
      refuseLate c e (acceptRefusal c k h e.cmdc (bit e.cmdb 8)) else doneS (satAccept c k h e.cmdc) e := by
  unfold acceptCommand
  rw [hk, Nat.add_sub_cancel_left, fin?_val, fin?_pred h hh]

/-- The predicate of its form holds of the command that a form executes. -/
theorem executes_form {c : Chip} {op : Nat} {p : Entry → Bool} {e : Entry} (h : Executes c op p e) : p e = true := by
  unfold Executes findExec at h
  split at h
  · have := List.find?_some h
    exact (Bool.and_eq_true_iff.mp this).2
  · cases h

/-- A form of SATACCEPT that binds an offered device. -/
theorem runAccept_bound {s : State} {dt : Nat} {e : Entry} {k h : Fin 4} {p : Entry → Bool} (hk : targetOf e = 84 + k.val)
    (hh : fld e.cmdb 2 0 = h.val + 1) (he : Executes (found s dt) 0x60 p e)
    (hr : acceptRefusal (found s dt) k h e.cmdc (bit e.cmdb 8) = 0) :
    runBlock s dt (fun c => execOp c 0x60 p acceptCommand) = .next (ended s dt (doneS (satAccept (found s dt) k h e.cmdc) e)) :=
  runOp_block he ((acceptCommand_eq hk hh).trans (if_neg (not_not.mpr hr)))
    (leaveFace_doneS_link e (onlyLink_satAccept ..))

/-- A form of SATACCEPT that is refused. -/
theorem runAccept_refused {s : State} {dt n : Nat} {e : Entry} {k h : Fin 4} {p : Entry → Bool} (hk : targetOf e = 84 + k.val)
    (hh : fld e.cmdb 2 0 = h.val + 1) (he : Executes (found s dt) 0x60 p e)
    (hr : acceptRefusal (found s dt) k h e.cmdc (bit e.cmdb 8) = n) (hn : n ≠ 0) :
    runBlock s dt (fun c => execOp c 0x60 p acceptCommand) = .next (ended s dt (refuseLate (found s dt) e n)) :=
  runOp_block he (by rw [acceptCommand_eq hk hh, hr, if_pos hn]) (leaveFace_retire ..)

section
variable {c : Chip} {k h : Fin 4} {w : Word}

theorem acceptRefusal_quarantined {b : Bool}
    (hq : c.link.hops[h].st = .up ∧ c.link.hops[h].dstate = .quarantined ∧ c.link.hops[h].serial = w) :
    acceptRefusal c k h w b = 0x0019 :=
  if_pos hq

theorem acceptRefusal_bound (hq : ¬(c.link.hops[h].st = .up ∧ c.link.hops[h].dstate = .quarantined ∧ c.link.hops[h].serial = w))
    (hb : c.link.sats[k].bound = true) : acceptRefusal c k h w false = 0x6001 :=
  (if_neg hq).trans (if_pos ⟨rfl, hb⟩)

theorem acceptRefusal_replace_unbound
    (hq : ¬(c.link.hops[h].st = .up ∧ c.link.hops[h].dstate = .quarantined ∧ c.link.hops[h].serial = w))
    (hb : c.link.sats[k].bound = false) : acceptRefusal c k h w true = 0x6003 :=
  (if_neg hq).trans ((if_neg fun hh => nomatch hh.1).trans (if_pos ⟨rfl, .inl hb⟩))

/-- An offered device is not quarantined. -/
theorem not_quarantined_of_offered {P : Prop} (hd : c.link.hops[h].dstate = .offered) :
    ¬(c.link.hops[h].st = .up ∧ c.link.hops[h].dstate = .quarantined ∧ P) := by
  rw [hd]
  exact fun hh => nomatch hh.2.1

theorem acceptRefusal_offered (hs : c.link.hops[h].st = .up) (hd : c.link.hops[h].dstate = .offered) (hw : c.link.hops[h].serial = w)
    (hb : c.link.sats[k].bound = false) : acceptRefusal c k h w false = 0 :=
  (if_neg (not_quarantined_of_offered hd)).trans ((if_neg fun hh => by rw [hb] at hh; exact nomatch hh.2).trans
    ((if_neg fun hh => nomatch hh.1).trans (if_pos ⟨hs, hd, hw⟩)))

theorem acceptRefusal_replace_offered (hs : c.link.hops[h].st = .up) (hd : c.link.hops[h].dstate = .offered)
    (hw : c.link.hops[h].serial = w) (hb : c.link.sats[k].bound = true) (hn : hopOfSat c k = none) : acceptRefusal c k h w true = 0 := by
  refine (if_neg (not_quarantined_of_offered hd)).trans ((if_neg fun hh => nomatch hh.1).trans
    ((if_neg fun hh => ?_).trans (if_pos ⟨hs, hd, hw⟩)))
  rw [hb, hn] at hh
  exact hh.2.elim nofun nofun

end

/-! ### SATRELEASE -/

theorem releaseCommand_eq {c : Chip} {e : Entry} {k : Fin 4} (hk : targetOf e = 84 + k.val) :
    releaseCommand c e = if releaseRefusal c k ≠ 0 then refuseLate c e (releaseRefusal c k) else doneS (satRelease c k) e := by
  unfold releaseCommand
  rw [hk, Nat.add_sub_cancel_left, fin?_val]

/-- The release of a position whose device is absent clears its binding alone. -/
theorem satRelease_absent {c : Chip} {k : Fin 4} (h : hopOfSat c k = none) :
    satRelease c k = updSat c k (fun s => { s with
      bound := false, serial := 0, hop := none, admitted := false, bufready := false, bufsoft := false, everReady := false }) := by
  unfold satRelease
  rw [h]

/-- SATRELEASE where it is refused. -/
theorem runRelease_refused {s : State} {dt n : Nat} {e : Entry} {k : Fin 4} (hk : targetOf e = 84 + k.val)
    (he : Executes (found s dt) 0x61 (fun _ => true) e) (hr : releaseRefusal (found s dt) k = n) (hn : n ≠ 0) :
    exec (.satrelease dt) s = .next (ended s dt (refuseLate (found s dt) e n)) :=
  runOp_block he (by rw [releaseCommand_eq hk, hr, if_pos hn]) (leaveFace_retire ..)

theorem runRelease_absent {s : State} {dt : Nat} {e : Entry} {k : Fin 4} (hk : targetOf e = 84 + k.val)
    (he : Executes (found s dt) 0x61 (fun _ => true) e) (hr : releaseRefusal (found s dt) k = 0) (hn : hopOfSat (found s dt) k = none) :
    exec (.satrelease dt) s = .next (ended s dt (doneS (updSat (found s dt) k (fun s => { s with
      bound := false, serial := 0, hop := none, admitted := false, bufready := false, bufsoft := false, everReady := false })) e)) :=
  runOp_block he (((releaseCommand_eq hk).trans (if_neg (not_not.mpr hr))).trans (by rw [satRelease_absent hn]))
    (leaveFace_doneS_link e rfl)

end Sys2Proof.Proofs

open Sys2Proof Sys2Proof.Machine Sys2Proof.Proofs

/-- Settles O34: SATACCEPT, with and without REPLACE, and SATRELEASE. -/
theorem satellitesAreBound : Obligations.SatellitesAreBound := by
  intro s dt e k h
  refine fun hk => ⟨fun hh he => ?_, fun hh he => ?_, fun he => ?_⟩
  · have hb : bit e.cmdb 8 = false := by simpa using executes_form he
    exact ⟨fun hs hd hw hn => runAccept_bound hk hh he (hb ▸ acceptRefusal_offered hs hd hw hn),
      fun hq hb' => runAccept_refused hk hh he (hb ▸ acceptRefusal_bound hq hb') (by decide),
      fun hq => runAccept_refused hk hh he (acceptRefusal_quarantined hq) (by decide)⟩
  · have hb : bit e.cmdb 8 = true := executes_form he
    exact ⟨fun hs hd hw hb' hn => runAccept_bound hk hh he (hb ▸ acceptRefusal_replace_offered hs hd hw hb' hn),
      fun hq hb' => runAccept_refused hk hh he (hb ▸ acceptRefusal_replace_unbound hq hb') (by decide),
      fun hq => runAccept_refused hk hh he (acceptRefusal_quarantined hq) (by decide)⟩
  · exact ⟨fun hr hn => runRelease_absent hk he hr hn, fun hb => runRelease_refused hk he (if_pos hb) (by decide),
      fun hr => runRelease_refused hk he hr (by decide)⟩
end

