-- ==== Sys2Proof/Proofs/Images.lean ====
section
/-! STAGEIMAGE and ACTIVATEIMAGE (R196, R198): the record of a slot and the first step of a long operation on the chip. -/

namespace Sys2Proof.Proofs
open Sys2Proof.Machine

/-! ### Slots -/

/-- The images with one slot changed. -/
def imgSlot (i : Images) (b : Bool) (f : Slot → Slot) : Images :=
  if b then { i with slotB := f i.slotB } else { i with slotA := f i.slotA }

theorem updSlot_img (c : Chip) (b : Bool) (f : Slot → Slot) : updSlot c b f = { c with img := imgSlot c.img b f } := by
  cases b <;> rfl

theorem slotOf_other (c : Chip) (b : Bool) (f : Slot → Slot) : slotOf { c with img := imgSlot c.img (!b) f } b = slotOf c b := by
  cases b <;> rfl

theorem slotOf_same (c : Chip) (b : Bool) (f : Slot → Slot) : slotOf { c with img := imgSlot c.img b f } b = f (slotOf c b) := by
  cases b <;> rfl

/-- A slot's record after a change of its state (R199). -/
def recordOf (t : Nat) (st : SlotSt) (x : Slot) : Slot :=
  { x with st := st, hist := { tick := t, st := x.st, pages := x.pages } :: x.hist.filter (fun r => decide (t < r.tick + 160000)) }

theorem setRecord_img (c : Chip) (b : Bool) (st : SlotSt) (p : BitVec 16) :
    setRecord c b st p = { c with img := imgSlot c.img b (fun x => { recordOf c.tick st x with pages := p }) } :=
  updSlot_img ..

theorem setSlotSt_img (c : Chip) (b : Bool) (st : SlotSt) :
    setSlotSt c b st = { c with img := imgSlot c.img b (recordOf c.tick st) } := by
  cases b <;> rfl

/-! ### The first step of a long operation on the chip (R123) -/

/-- Nothing acts at the first checkpoint of e: no mark, no Bench, no SLEEP request. -/
structure Unhindered (c : Chip) (e : Entry) : Prop where
  mark : e.mark = .none
  found : findEntry c (keyOf e) = some e
  bench : benched c = false
  sleep : c.pw.sleepPending = false

section
variable {s : State} {dt op : Nat} {e : Entry} {i : Images} {p : Entry → Bool} {step : Chip → Entry → Chip × LStep}

theorem execLongChip_of {c : Chip} (hx : Executes c op (fun e => p e && ckptDue c e) e) :
    execLongChip c op p step = applyLStep (step c e).1 (keyOf e) (step c e).2 :=
  execOp_of hx _

/-- A first step that changes the images and passes checkpoint 1. -/
theorem runLongChip_pass (hu : Unhindered (found s dt) e) (hx : Executes (found s dt) op (fun e => p e && ckptDue (found s dt) e) e)
    (hs : step (found s dt) e = ({ found s dt with img := i }, .pass 1)) :
    runBlock s dt (fun c => execLongChip c op p step) = .next (ended s dt (updEntry { found s dt with img := i } (keyOf e)
      (fun x => { x with ckpt := 1, ckTick := (found s dt).tick, redo := false }))) := by
  refine runBlock_of_leaves ((execLongChip_of hx).trans ?_) rfl
  rw [hs]
  exact applyLStep_pass 1 hu.found hu.mark hu.bench hu.sleep

/-- A first step that is refused. -/
theorem runLongChip_refused {n : Nat} (hx : Executes (found s dt) op (fun e => p e && ckptDue (found s dt) e) e)
    (hs : step (found s dt) e = ({ found s dt with img := i }, .final 1 stRefused n 0)) :
    runBlock s dt (fun c => execLongChip c op p step) = .next (ended s dt (retire (setCkpt { found s dt with img := i } (keyOf e) 1)
      (keyOf e) 3 n 0)) := by
  refine runBlock_of_leaves ((execLongChip_of hx).trans ?_) (leaveFace_retired rfl)
  rw [hs]
  rfl

end

/-! ### STAGEIMAGE (Table 6-10) -/

section
variable {c : Chip} {e : Entry}

theorem eraseStart_passes (hr : slotRefused c e = false) :
    eraseStart c e = ({ c with img := imgSlot c.img (bit e.cmdb 56) (fun x => { recordOf c.tick .writing x with pages := 0 }) }, .pass 1) := by
  unfold eraseStart
  rw [hr, if_neg Bool.false_ne_true]
  exact congrArg (·, LStep.pass 1) (setRecord_img ..)

theorem eraseStart_refused (hr : slotRefused c e = true) : eraseStart c e = (c, .final 1 stRefused 0x5001 0) := if_pos hr

theorem pageStart_refused (hr : slotRefused c e = true) : pageStart c e = (c, .final 1 stRefused 0x5001 0) := if_pos hr

theorem pageStart_passes (hr : slotRefused c e = false) (hc : crc32c (imgbuf c) = fld e.cmdc 31 0)
    (hw : (slotOf c (bit e.cmdb 56)).st = .writing) : pageStart c e = (c, .pass 1) := by
  unfold pageStart
  rw [hr, if_neg Bool.false_ne_true, if_neg (not_not.mpr hc)]
  exact congrArg (·, LStep.pass 1) (if_pos hw)

variable {b err : Bool}

/-- What an image's check has read of a slot (check 1 of Table 6-9). -/
def readSlot (c : Chip) (b err : Bool) : Chip := { c with img := imgSlot c.img b (fun x => { x with readErr := err }) }

theorem slotRefused_read : slotRefused (readSlot c b err) e = slotRefused c e := by
  cases b <;> rfl

theorem readSlot_st : (slotOf (readSlot c b err) b).st = (slotOf c b).st := by
  cases b <;> rfl

theorem readSlot_pages : pagesComplete (slotOf (readSlot c b err) b) = pagesComplete (slotOf c b) := by
  cases b <;> rfl

theorem readSlot_rollctr : (readSlot c b err).img.rollctr = c.img.rollctr := by
  cases b <;> rfl

theorem finishStart_refused (hb : bit e.cmdb 56 = b) (hr : slotRefused c e = true) :
    finishStart c e err = (readSlot c b err, .final 1 stRefused 0x5001 0) := by
  unfold finishStart
  rw [show argSlot e 56 = b from hb, updSlot_img]
  exact if_pos (slotRefused_read.trans hr)

theorem finishStart_not_writing (hb : bit e.cmdb 56 = b) (hr : slotRefused c e = false) (hw : (slotOf c b).st ≠ .writing) :
    finishStart c e err = (readSlot c b err, .final 1 stRefused 0x5009 0) := by
  unfold finishStart
  rw [show argSlot e 56 = b from hb, updSlot_img]
  exact (if_neg (Bool.eq_false_iff.mp (slotRefused_read.trans hr))).trans (if_pos fun h => hw (readSlot_st.symm.trans h))

theorem finishStart_passes (hb : bit e.cmdb 56 = b) (hr : slotRefused c e = false) (hw : (slotOf c b).st = .writing)
    (hp : pagesComplete (slotOf c b) = true) (hi : imageFail (slotOf (readSlot c b err) b) c.img.rollctr = 0) :
    finishStart c e err = (readSlot c b err, .pass 1) := by
  have hi' : imageFail (slotOf (readSlot c b err) b) (readSlot c b err).img.rollctr = 0 := by rw [readSlot_rollctr, hi]
  unfold finishStart
  rw [show argSlot e 56 = b from hb, updSlot_img]
  refine (if_neg (Bool.eq_false_iff.mp (slotRefused_read.trans hr))).trans ((if_neg (not_not.mpr (readSlot_st.trans hw))).trans
    ((if_neg ?_).trans ((if_neg ?_).trans (if_neg (not_not.mpr hi')))))
  · exact Bool.eq_false_iff.mp ((congrArg not (readSlot_pages.trans hp)))
  · exact fun h => absurd (hi'.symm.trans h) (by decide)

/-! ### ACTIVATEIMAGE (R198) -/

theorem promote_bare (hb : bit e.cmdb 0 = b) (hs : (slotOf c b).st = .empty ∨ (slotOf c b).st = .writing) :
    promote c e err = refuseLate (readSlot c b err) e 0x5101 := by
  unfold promote
  rw [show argSlot e 0 = b from hb]
  dsimp only
  rw [updSlot_img]
  exact if_pos (show (slotOf (readSlot c b err) b).st = .empty ∨ _ from readSlot_st.symm ▸ hs)

theorem promote_sound (hb : bit e.cmdb 0 = b) (hs : (slotOf c b).st = .staged ∨ (slotOf c b).st = .eligible)
    (hi : imageFail (slotOf (readSlot c b err) b) c.img.rollctr = 0) :
    promote c e err = doneS { c with img := imgSlot (readSlot c b err).img b (recordOf c.tick .eligible) } e := by
  have hn : ¬((slotOf (readSlot c b err) b).st = .empty ∨ (slotOf (readSlot c b err) b).st = .writing) := by
    rw [readSlot_st]
    rcases hs with h | h <;> rw [h] <;> decide
  have hi' : imageFail (slotOf (readSlot c b err) b) (readSlot c b err).img.rollctr = 0 := by rw [readSlot_rollctr, hi]
  unfold promote
  rw [show argSlot e 0 = b from hb]
  dsimp only
  rw [updSlot_img]
  refine (if_neg hn).trans ((if_neg (not_not.mpr hi')).trans ?_)
  exact congrArg (doneS · e) (setSlotSt_img (readSlot c b err) b .eligible)

theorem demote_not_eligible (hb : bit e.cmdb 0 = b) (hs : (slotOf c b).st ≠ .eligible) :
    demote c e err = refuseLate (readSlot c (!b) err) e 0x5103 := by
  unfold demote
  rw [show argSlot e 0 = b from hb]
  dsimp only
  rw [updSlot_img]
  exact if_pos (.inl ((slotOf_other c b _).symm ▸ hs))

theorem demote_sound (hb : bit e.cmdb 0 = b) (hs : (slotOf c b).st = .eligible) (ho : (slotOf c (!b)).st = .eligible)
    (hi : imageFail (slotOf (readSlot c (!b) err) (!b)) c.img.rollctr = 0) :
    demote c e err = doneS { c with img := imgSlot (readSlot c (!b) err).img b (recordOf c.tick .staged) } e := by
  unfold demote
  rw [show argSlot e 0 = b from hb]
  dsimp only
  rw [updSlot_img]
  refine (if_neg ?_).trans (congrArg (doneS · e) (setSlotSt_img (readSlot c (!b) err) b .staged))
  rintro (h | h | h)
  · exact h ((congrArg Slot.st (slotOf_other c b _)).trans hs)
  · exact h (readSlot_st.trans ho)
  · exact h (readSlot_rollctr.symm ▸ hi)

end

/-- A command on the images that commits at once. -/
theorem runActivate_done {s : State} {dt op : Nat} {e : Entry} {i : Images} {p : Entry → Bool} {body : Chip → Entry → Chip}
    (hx : Executes (found s dt) op p e) (hd : body (found s dt) e = doneS { found s dt with img := i } e) :
    runBlock s dt (fun c => execOp c op p body) = .next (ended s dt (doneS { found s dt with img := i } e)) :=
  runOp_block hx hd rfl

theorem runActivate_refused {s : State} {dt op n : Nat} {e : Entry} {i : Images} {p : Entry → Bool} {body : Chip → Entry → Chip}
    (hx : Executes (found s dt) op p e) (hd : body (found s dt) e = refuseLate { found s dt with img := i } e n) :
    runBlock s dt (fun c => execOp c op p body) = .next (ended s dt (retire { found s dt with img := i } (keyOf e) 3 n 0)) :=
  runOp_block hx hd (leaveFace_retired rfl)

end Sys2Proof.Proofs

open Sys2Proof Sys2Proof.Machine Sys2Proof.Proofs

/-- Settles O33: the first steps of STAGEIMAGE and ACTIVATEIMAGE. -/
theorem imagesAreStagedAndActivated : Obligations.ImagesAreStagedAndActivated := by
  intro s dt e b err
  refine ⟨fun hm hf hb hs ha => ?_, fun ha => ⟨fun hx => ?_, fun hx => ?_⟩⟩
  · have hu : Unhindered (found s dt) e := ⟨hm, hf, hb, hs⟩
    refine ⟨fun hr => ⟨fun hx => ?_, fun hx hc hw => ?_, fun hx hw hp hi => ?_, fun hx hw => ?_⟩, fun hr => ⟨fun hx => ?_, fun hx => ?_, fun hx => ?_⟩⟩
    · exact runLongChip_pass hu hx (ha ▸ eraseStart_passes hr)
    · exact runLongChip_pass (i := (found s dt).img) hu hx (pageStart_passes hr hc (ha.symm ▸ hw))
    · exact runLongChip_pass hu hx (finishStart_passes ha hr hw hp hi)
    · exact runLongChip_refused hx (finishStart_not_writing ha hr hw)
    · exact runLongChip_refused (i := (found s dt).img) hx (eraseStart_refused hr)
    · exact runLongChip_refused (i := (found s dt).img) hx (pageStart_refused hr)
    · exact runLongChip_refused hx (finishStart_refused ha hr)
  · exact ⟨fun hs hi => runActivate_done hx (promote_sound ha hs hi), fun hs => runActivate_refused hx (promote_bare ha hs)⟩
  · exact ⟨fun hs ho hi => runActivate_done hx (demote_sound ha hs ho hi), fun hs => runActivate_refused hx (demote_not_eligible ha hs)⟩
end

