-- ==== Sys2Proof/Proofs/LongStarts.lean ====
section
/-! The first step of the long operations on ownable objects, and of SELFTEST (R123, checkpoint 1). -/

namespace Sys2Proof.Proofs
open Sys2Proof.Machine

/-! ### Vectors -/

theorem upd_at {α : Type} {n : Nat} (v : Vector α n) (i : Fin n) (f : α → α) : (upd v i f)[i] = f v[i] :=
  (upd_get v i i f).trans (if_pos rfl)

theorem upd_upd {α : Type} {n : Nat} (v : Vector α n) (i : Fin n) (f g : α → α) :
    upd (upd v i f) i g = upd v i (fun x => g (f x)) := by
  simp [upd]

theorem upd_to {α : Type} {n : Nat} (v : Vector α n) (i : Fin n) (f : α → α) : upd v i f = upd v i (fun _ => f v[i]) := rfl

/-- The place of an object in its family. -/
theorem fin?_sub {n m b : Nat} (k : Fin n) (h : m = b + k.val) : fin? n (m - b) = some k := by
  rw [h, Nat.add_sub_cancel_left]
  exact fin?_val k

/-! ### A first step that changes a block alone -/

/-- d differs from c in what no form of a block takes back and no checkpoint reads. -/
structure BlockStep (c d : Chip) : Prop where
  wb : d.wb = c.wb
  pw : d.pw = c.pw
  flt : d.flt = c.flt
  tick : d.tick = c.tick
  leaves : leaveFace c d = d

theorem BlockStep.leaves_updEntry {c d : Chip} (h : BlockStep c d) (k : Key) (f : Entry → Entry) :
    leaveFace c (updEntry d k f) = updEntry d k f :=
  leaveFace_self (congrArg Chip.isN h.leaves).symm h.tick (congrArg Chip.own h.leaves).symm (congrArg Chip.mem h.leaves).symm
    (congrArg Chip.face h.leaves).symm

theorem Unhindered.step {c d : Chip} {e : Entry} (hu : Unhindered c e) (h : BlockStep c d) : Unhindered d e where
  mark := hu.mark
  found := by rw [findEntry, h.wb]; exact hu.found
  bench := by rw [benched, h.flt]; exact hu.bench
  sleep := h.pw ▸ hu.sleep

/-- The command that a form executes has passed no checkpoint. -/
theorem executes_ckpt {c : Chip} {op : Nat} {p : Entry → Bool} {e : Entry} (h : Executes c op p e) : e.ckpt = 0 := by
  unfold Executes findExec at h
  split at h
  · have hf := List.find?_some h
    simp only [Bool.and_eq_true, decide_eq_true_eq] at hf
    exact hf.1.1.1.2
  · cases h

theorem longBarred_outside {c : Chip} {e : Entry} (h : inConfig c = false) : longBarred c e = false := by
  rw [longBarred, h, Bool.false_and, Bool.false_and]

/-- An object with an owner is not DRAINING. -/
theorem not_draining_of_owner {c : Chip} {i : ObjIx} {k : Client} (h : ownerOf c i = some k) : (ownE c i).st ≠ .draining := by
  unfold ownerOf at h
  split at h
  next hs => exact fun hd => nomatch hs.symm.trans hd
  next => cases h

section
variable {s : State} {dt op : Nat} {e : Entry} {p : Entry → Bool}

/-- The first step of a long operation of an object's owner passes checkpoint 1. -/
theorem runLong_pass {i : ObjIx} {d : Chip} {step : Chip → Entry → ObjIx → Chip × LStep} (hu : Unhindered (found s dt) e)
    (hc : inConfig (found s dt) = false) (ht : targetOf e = i.val) (ho : ownerOf (found s dt) i = some e.client)
    (hx : Executes (found s dt) op (fun e => p e && (ckptDue (found s dt) e || longBarred (found s dt) e)) e)
    (hs : step (found s dt) e i = (d, .pass 1)) (hd : BlockStep (found s dt) d) :
    runBlock s dt (fun c => execLong c op p step) = .next (ended s dt (updEntry d (keyOf e)
      (fun x => { x with ckpt := 1, ckTick := (found s dt).tick, redo := false }))) := by
  refine runBlock_of_leaves (f := fun c => execLong c op p step) ((execOp_of hx _).trans ?_) (hd.leaves_updEntry ..)
  have hp := applyLStep_pass 1 (hu.step hd).found hu.mark (hu.step hd).bench (hu.step hd).sleep
  rw [targetObj_of ht]
  dsimp only
  rw [longBarred_outside hc, if_neg Bool.false_ne_true, if_neg fun h => not_draining_of_owner ho h.1, if_pos ho, hs]
  exact hp.trans (by rw [hd.tick])

end

theorem blockStep_fe (c : Chip) (v : Vector Fe 16) : BlockStep c { c with fe := v } := ⟨rfl, rfl, rfl, rfl, rfl⟩
theorem blockStep_lp (c : Chip) (v : Vector Lp 16) : BlockStep c { c with lp := v } := ⟨rfl, rfl, rfl, rfl, rfl⟩
theorem blockStep_ao (c : Chip) (v : Vector Ao 8) : BlockStep c { c with ao := v } := ⟨rfl, rfl, rfl, rfl, rfl⟩
theorem blockStep_self (c : Chip) : BlockStep c c := ⟨rfl, rfl, rfl, rfl, rfl⟩

/-! ### The steps -/

theorem updLp_updLp (c : Chip) (n : Fin 16) (f g : Lp → Lp) : updLp (updLp c n f) n g = updLp c n (fun x => g (f x)) :=
  congrArg (fun v => { c with lp := v }) (upd_upd c.lp n f g)

theorem updAo_updAo (c : Chip) (a : Fin 8) (f g : Ao → Ao) : updAo (updAo c a f) a g = updAo c a (fun x => g (f x)) :=
  congrArg (fun v => { c with ao := v }) (upd_upd c.ao a f g)

/-- The relay of an AUTOTUNE at its checkpoint 1. -/
def firstRelay (c : Chip) (e : Entry) (n : Fin 16) : Relay :=
  { u0 := c.lp[n].run.ua, d := e.cmdb.toInt, eps := (fld e.cmdc 62 32 : Int) * 2 ^ 32, high := none, from_ := none,
    ylo := none, yhi := none, cycles := [], applied := false }

/-- Checkpoint 1 of AUTOTUNE on a loop: TUNING with a relay. -/
def tuningOf (k : Relay) (l : Lp) : Lp :=
  { l with relay := k, mode := .tuning, pend := if l.pend = .start ∧ LpMode.tuning ≠ .disabled then .start else .none,
           transfers := wrapInc16 l.transfers,
           ferun := if l.mode = .auto then 0 else l.ferun, feclear := if l.mode = .auto then 0 else l.feclear,
           feover := l.feover && l.mode ≠ .auto, atres := { l.atres with ckpt := 1 } }

theorem tuneBegin_marked (c : Chip) (e : Entry) (n : Fin 16) :
    tuneMark (tuneBegin c e n) n 1 = updLp c n (tuningOf (firstRelay c e n)) :=
  (congrArg (updLp · n _) (updLp_updLp ..)).trans (updLp_updLp ..)

/-- Checkpoint 1 of SPANCHANGE on an output: the safe value k of the old span is emitted at t. -/
def spanningOf (k : Nat × Bool) (t : Nat) (x : Ao) : Ao :=
  { noteClamp k.2 { x with spanbusy := true, oldSpan := x.span } with seqCode := k.1, emitTick := t, verN := 0, verErr := 0 }

theorem spanEmit_busy (c : Chip) (a : Fin 8) :
    spanEmit (updAo c a (fun x => { x with spanbusy := true, oldSpan := x.span })) a =
      updAo c a (spanningOf (aoSafe c a c.ao[a].span) c.tick) := by
  have h : (updAo c a (fun x => { x with spanbusy := true, oldSpan := x.span })).ao[a].span = c.ao[a].span := by
    show (upd c.ao a _)[a].span = _
    rw [upd_at]
  unfold spanEmit
  rw [h]
  exact updAo_updAo ..

section
variable {c : Chip} {e : Entry} (h0 : e.ckpt = 0)
include h0

theorem discoverStep_first {n : Fin 16} (h : discoverPre c n = 0) :
    discoverStep c e n [] = ({ c with fe := upd c.fe n (fun f =>
      { f with discrun := true, presrun := false, presN := 0, restarted := false }) }, .pass 1) := by
  unfold discoverStep
  rw [h0, h]
  rfl

theorem calibrateStep_first {n : Fin 16} {rot : Bool} (hr : decide (fld e.cmdb 1 0 = 1) = rot) (h : calibratePre c n rot = 0) :
    calibrateStep c e n [] = (feStepBegin { c with fe := upd c.fe n (fun f => { f with calMax := 0 }) } n, .pass 1) := by
  unfold calibrateStep
  rw [h0, hr]
  exact if_neg (not_not.mpr h)

theorem tuneStep_first {n : Fin 16} (hm : c.lp[n].mode = .auto) (hr : lpRunmode (lpcfg c n) = 0) (hg : lpGrpen (lpsup c n) = false) :
    tuneStep c e n = ({ c with lp := upd c.lp n (fun _ => tuningOf (firstRelay c e n) c.lp[n]) }, .pass 1) := by
  unfold tuneStep
  rw [h0]
  dsimp only
  rw [if_neg (not_not.mpr hm), if_neg (not_not.mpr hr), hg, if_neg Bool.false_ne_true]
  exact congrArg (·, LStep.pass 1) (tuneBegin_marked c e n)

theorem learnStep_first {w : Fin 4} (hw : c.wh[w].st ≠ .disabled) (ho : learnRefOwned c e = true) (hr : learnRefOk c e = true) :
    learnStep c e w = (c, .pass 1) := by
  unfold learnStep
  rw [h0]
  dsimp only
  exact (if_neg hw).trans ((if_neg (ne_false_of_eq_true ho)).trans (if_neg (ne_false_of_eq_true hr)))

theorem spanStep_first {a : Fin 8} (hs : aoSource c a = none) (hf : c.ao[a].checkfail = false) (hn : fld e.cmdb 2 0 ≠ c.ao[a].span) :
    spanStep c e a = ({ c with ao := upd c.ao a (fun _ => spanningOf (aoSafe c a c.ao[a].span) c.tick c.ao[a]) }, .pass 1) := by
  unfold spanStep
  rw [h0, hs]
  dsimp only
  rw [if_neg Bool.false_ne_true, hf, if_neg Bool.false_ne_true, if_neg hn]
  exact congrArg (·, LStep.pass 1) (spanEmit_busy c a)

end

/-- A form of CALIBRATE executes the mode that it names. -/
theorem calibrate_mode {c : Chip} {op m : Nat} {q : Entry → Bool} {e : Entry}
    (h : Executes c op (fun e => decide (fld e.cmdb 1 0 = m) && q e) e) : fld e.cmdb 1 0 = m :=
  of_decide_eq_true (Bool.and_eq_true_iff.mp (executes_form h)).1

/-! ### SELFTEST -/

theorem selftestStart_parts {c : Chip} {e : Entry} (h : bit e.cmdb 3 = false) :
    selftestStart c e = (updEntry c (keyOf e) (fun x => { x with result := 0 }), .pass 1) := by
  unfold selftestStart
  rw [h]
  rfl

theorem runSelftest_pass {s : State} {dt : Nat} {e : Entry} (hu : Unhindered (found s dt) e)
    (hx : Executes (found s dt) 0x54 (fun e => ckptDue (found s dt) e) e) (hb : bit e.cmdb 3 = false) :
    exec (.selftest dt) s = .next (ended s dt (updEntry (updEntry (found s dt) (keyOf e) (fun x => { x with result := 0 })) (keyOf e)
      (fun x => { x with ckpt := 1, ckTick := (found s dt).tick, redo := false }))) := by
  refine runBlock_of_leaves (f := fun c => execLongChip c 0x54 (fun _ => true) selftestStart) ((execOp_of hx _).trans ?_) rfl
  rw [selftestStart_parts hb]
  refine (applyLStep_updEntry (f := fun x => { x with result := 0 }) 1 (fun _ => rfl) hu.found hu.mark hu.bench hu.sleep).trans ?_
  rw [updEntry_updEntry]
  exact fun _ => rfl

end Sys2Proof.Proofs

open Sys2Proof Sys2Proof.Machine Sys2Proof.Proofs

/-- Settles O32: checkpoint 1 of every long operation. -/
theorem longOperationsStart : Obligations.LongOperationsStart := by
  intro s dt e c long one hm hf hb hs hc
  have hu : Unhindered (found s dt) e := ⟨hm, hf, hb, hs⟩
  refine ⟨fun n ht ho => ⟨fun hx hp => ?_, fun hx hp => ?_, fun hx hp => ?_⟩, fun n ht ho hx hm hr hg => ?_, fun w ht ho hx hw hr hk => ?_,
    fun a ht ho hx hs hf hn => ?_, fun hx hb => runSelftest_pass hu hx hb⟩
  · refine runLong_pass hu hc ht ho hx ?_ (blockStep_fe _ _)
    rw [show fin? 16 (ixCh n).val = some n from fin?_val n]
    exact discoverStep_first (executes_ckpt hx) hp
  · refine runLong_pass hu hc ht ho hx ?_ (blockStep_fe _ _)
    rw [show fin? 16 (ixCh n).val = some n from fin?_val n]
    exact calibrateStep_first (executes_ckpt hx) (decide_eq_false fun h => absurd ((calibrate_mode hx).symm.trans h) (by decide)) hp
  · refine runLong_pass hu hc ht ho hx ?_ (blockStep_fe _ _)
    rw [show fin? 16 (ixCh n).val = some n from fin?_val n]
    exact calibrateStep_first (executes_ckpt hx) (decide_eq_true (calibrate_mode hx)) hp
  · refine ⟨tuningOf (firstRelay c e n) c.lp[n], runLong_pass hu hc ht ho hx ?_ (blockStep_lp _ _), rfl, rfl, rfl, rfl, rfl, rfl⟩
    rw [fin?_sub n (show (ixLp n).val = _ from rfl)]
    exact tuneStep_first (executes_ckpt hx) hm hr hg
  · refine runLong_pass hu hc ht ho hx ?_ (blockStep_self _)
    rw [fin?_sub w (show (ixWh w).val = _ from rfl)]
    exact learnStep_first (executes_ckpt hx) hw hr hk
  · refine ⟨spanningOf (aoSafe c a c.ao[a].span) c.tick c.ao[a], runLong_pass hu hc ht ho hx ?_ (blockStep_ao _ _), rfl, rfl, rfl, rfl, rfl, rfl⟩
    rw [fin?_sub a (show (ixAo a).val = _ from rfl)]
    exact spanStep_first (executes_ckpt hx) hs hf hn
end

