-- ==== Sys2Proof/Proofs/Modes.lean ====
section
/-! The commands that set a mode, a setpoint or a notch (R240, R258, R393 to R395, R411, R416). -/

namespace Sys2Proof.Proofs
open Sys2Proof.Machine

/-! ### A command of an object's owner -/

theorem BlockStep.leaves_doneS {c d : Chip} (h : BlockStep c d) (e : Entry) : leaveFace c (doneS d e) = doneS d e := h.leaves_updEntry ..

section
variable {s : State} {dt op : Nat} {e : Entry} {p : Entry → Bool} {i : ObjIx} {body : Chip → Entry → ObjIx → Chip}

theorem execOwned_of {c : Chip} (ht : targetOf e = i.val) (ho : ownerOf c i = some e.client) (hx : Executes c op p e) :
    execOwned c op p body = body c e i := by
  refine (execOp_of hx _).trans ?_
  rw [targetObj_of ht]
  exact if_pos ho

/-- A command of an object's owner that changes its block and commits. -/
theorem runOwned_done {d : Chip} (ht : targetOf e = i.val) (ho : ownerOf (found s dt) i = some e.client) (hx : Executes (found s dt) op p e)
    (hb : body (found s dt) e i = doneS d e) (hd : BlockStep (found s dt) d) :
    runBlock s dt (fun c => execOwned c op p body) = .next (ended s dt (doneS d e)) :=
  runBlock_of_leaves (f := fun c => execOwned c op p body) ((execOwned_of ht ho hx).trans hb) (hd.leaves_doneS e)

/-- A command of an object's owner that is refused at its execution. -/
theorem runOwned_refused {n : Nat} (ht : targetOf e = i.val) (ho : ownerOf (found s dt) i = some e.client) (hx : Executes (found s dt) op p e)
    (hb : body (found s dt) e i = refuseLate (found s dt) e n) :
    runBlock s dt (fun c => execOwned c op p body) = .next (ended s dt (retire (found s dt) (keyOf e) 3 n 0)) :=
  runBlock_of_leaves (f := fun c => execOwned c op p body) ((execOwned_of ht ho hx).trans hb) (leaveFace_retire ..)

/-- A command of an object's owner that writes object words. -/
theorem runOwned_mem {t : Chip} (ht : targetOf e = i.val) (ho : ownerOf (found s dt) i = some e.client) (hx : Executes (found s dt) op p e)
    (hb : body (found s dt) e i = t) (hl : leaveOwn (found s dt) t = t) :
    runMem s dt (fun c => execOwned c op p body) = .next (ended s dt t) :=
  runMem_of_leaves (f := fun c => execOwned c op p body) ((execOwned_of ht ho hx).trans hb) hl

end

/-- The form of a command that writes object words leaves everything of one that writes them alone. -/
theorem leaveOwn_commitS_mem {c d : Chip} (h : d = { c with mem := d.mem }) (e : Entry) (st n : Nat) (r : Word) :
    leaveOwn c (commitS d e st n r) = commitS d e st n r := by
  rw [h]
  rfl

theorem blockStep_trk (c : Chip) (v : Vector Trk 16) : BlockStep c { c with trk := v } := ⟨rfl, rfl, rfl, rfl, rfl⟩

theorem upd_congr {α : Type} {n : Nat} {v : Vector α n} {i : Fin n} {f g : α → α} (h : f v[i] = g v[i]) : upd v i f = upd v i g := by
  rw [upd, h, upd]

/-! ### SETMODE of a channel (Table 8-2) -/

section
variable {c : Chip} {e : Entry} {n : Fin 16}

theorem chModeCommand_disabled (h : c.trk[n].st = .disabled) : chModeCommand c e n = refuseLate c e 0x2201 := if_pos h

theorem chModeCommand_fixed (hs : c.trk[n].st ≠ .disabled) (hm : c.trk[n].mode = 0) (h1 : fld e.cmdb 1 0 = 1) :
    chModeCommand c e n = doneS { c with trk := upd c.trk n (fun t =>
      { t with mode := 1, cmdTick := some c.tick, old := some (t.st, 0, t.valid) }) } e := by
  refine (if_neg hs).trans (congrArg (doneS · e) ?_)
  unfold trkSetMode
  rw [h1]
  dsimp only
  rw [hm, if_neg nofun, if_neg nofun, if_neg nofun, if_neg nofun]
  refine congrArg (fun v => { c with trk := v }) (upd_congr ?_)
  show { trkCommand c c.trk[n] with mode := 1 } = _
  rw [trkCommand, hm]

theorem chModeCommand_raw (hs : c.trk[n].st ≠ .disabled) (hm : c.trk[n].mode ≠ 2) (h2 : fld e.cmdb 1 0 = 2) :
    chModeCommand c e n = doneS { c with trk := upd c.trk n (fun _ => trkRaw (trkCommand c c.trk[n]) (bit e.cmdb 8)) } e := by
  refine (if_neg hs).trans (congrArg (doneS · e) ?_)
  unfold trkSetMode
  rw [h2]
  exact (if_neg (Ne.symm hm)).trans (if_pos rfl)

theorem anchorCommand_disabled (h : c.trk[n].st = .disabled) : anchorCommand c e n = refuseLate c e 0x2201 := if_pos h

theorem anchorCommand_near (h : c.trk[n].st = .locked) (hf : channelTaken c n = false) (hk : (anchorTurns c n e.cmdc.toInt).2 = true) :
    anchorCommand c e n = doneS (anchorApply c n (anchorTurns c n e.cmdc.toInt).1) e := by
  unfold anchorCommand
  dsimp only
  rw [h, hf, hk]
  rfl

/-! ### SETMODE and SETPOINT of a loop (Table 14-3) -/

theorem lpSetMode_disabled (h : c.lp[n].mode = .disabled) : lpSetMode c e n = refuseLate c e 0x2211 := if_pos h

theorem lpSetMode_manual (h : c.lp[n].mode = .auto) (hp : c.lp[n].pend ≠ .start) (h1 : fld e.cmdb 1 0 = 1) (hb : bit e.cmdb 8 = true) :
    lpSetMode c e n = doneS { c with lp := upd c.lp n (fun l => { l with
      mode := .manual, manval := e.cmdc.toInt, pend := .none, transfers := (l.transfers + 1) % 65536,
      ferun := 0, feclear := 0, feover := false }) } e := by
  unfold lpSetMode
  dsimp only
  rw [h, h1, hb, if_neg nofun, if_pos rfl, if_neg nofun]
  refine congrArg (doneS · e) ((updLp_updLp ..).trans (congrArg (fun v => { c with lp := v }) (upd_congr ?_)))
  dsimp only
  rw [h, if_neg fun hh => hp hh.1]
  simp [wrapInc16]

theorem lpSetManval_manual (h : c.lp[n].mode = .manual) :
    lpSetManval c e n = doneS (updLp c n (fun l => { l with manval := e.cmdc.toInt })) e := by
  rw [lpSetManval, h]

theorem lpSetManval_disabled (h : c.lp[n].mode = .disabled) : lpSetManval c e n = refuseLate c e 0x2211 := by
  rw [lpSetManval, h]

theorem lpSetManval_running (h : c.lp[n].mode = .auto ∨ c.lp[n].mode = .tuning) : lpSetManval c e n = refuseLate c e 0x2212 := by
  unfold lpSetManval
  rcases h with h | h <;> rw [h]

/-! ### NOTCHSET (R393 to R395) -/

/-- m' differs from m in words in force alone. -/
structure ActiveOnly (m m' : ObjMem) : Prop where
  staged : m'.staged = m.staged
  live : m'.live = m.live

theorem putNotch_active (c : Chip) (n : Fin 16) (r j f0 bw depth t : Nat) :
    putNotch c n r j f0 bw depth t = { c with mem := (putNotch c n r j f0 bw depth t).mem } ∧
      ActiveOnly c.mem (putNotch c n r j f0 bw depth t).mem := by
  refine ⟨rfl, ?_⟩
  unfold putNotch
  refine foldl_keeps (ActiveOnly c.mem) _ (fun m p h => ?_) _ c.mem ⟨rfl, rfl⟩
  exact ⟨h.staged, h.live⟩

theorem notchSet_refused (h : notchRefusal c e n ≠ 0) : notchSet c e n = refuseLate c e (notchRefusal c e n) := if_pos h

theorem notchSet_one (h : notchRefusal c e n = 0) (hb : bit e.cmdb 48 = false) :
    notchSet c e n = commitS (putNotch c n (fld e.cmdb 54 52) (fld e.cmdb 58 56) (fld e.cmdb 31 0) (fld e.cmdc 63 32) (fld e.cmdc 15 0)
      (lpDiv (lpcfg c n) * ceFrame c)) e 1 0 1 := by
  unfold notchSet
  rw [h, hb]
  rfl

end

end Sys2Proof.Proofs

open Sys2Proof Sys2Proof.Machine Sys2Proof.Proofs

/-- Settles O29: SETMODE, SETPOINT and NOTCHSET of an object's owner. -/
theorem modesAndSetpointsAreSet : Obligations.ModesAndSetpointsAreSet := by
  intro s dt e n
  have hch : fin? 16 (ixCh n).val = some n := fin?_val n
  have hlp : fin? 16 ((ixLp n).val - 52) = some n := fin?_sub n rfl
  refine ⟨fun ht ho => ⟨fun hx hs hm h1 => ?_, fun hx hs hm h2 => ?_, fun hx hs => ?_, fun hx hs hf hk => ?_, fun hx hs => ?_⟩,
    fun ht ho => ⟨fun hx hm hp h1 hb => ?_, fun hx hm => ?_, fun hx hm => ?_, fun hx hm => ?_, fun hx hm => ?_, fun hx hs => ?_, fun hx hs => ?_,
      fun hx hr hb => ?_, fun hx hr => ?_⟩⟩
  · exact runOwned_done (i := ixCh n) ht ho hx (by rw [hch]; exact chModeCommand_fixed hs hm h1) (blockStep_trk _ _)
  · exact ⟨trkRaw (trkCommand (found s dt) (found s dt).trk[n]) (bit e.cmdb 8),
      runOwned_done (i := ixCh n) ht ho hx (by rw [hch]; exact chModeCommand_raw hs hm h2) (blockStep_trk _ _), rfl, rfl, rfl, rfl, rfl, rfl⟩
  · exact runOwned_refused (i := ixCh n) ht ho hx (by rw [hch]; exact chModeCommand_disabled hs)
  · exact runOwned_done (i := ixCh n) ht ho hx (by rw [hch]; exact anchorCommand_near hs hf hk) (blockStep_trk _ _)
  · exact runOwned_refused (i := ixCh n) ht ho hx (by rw [hch]; exact anchorCommand_disabled hs)
  · exact runOwned_done (i := ixLp n) ht ho hx (by rw [hlp]; exact lpSetMode_manual hm hp h1 hb) (blockStep_lp _ _)
  · exact runOwned_refused (i := ixLp n) ht ho hx (by rw [hlp]; exact lpSetMode_disabled hm)
  · exact runOwned_done (i := ixLp n) ht ho hx (by rw [hlp]; exact lpSetManval_manual hm) (blockStep_lp _ _)
  · exact runOwned_refused (i := ixLp n) ht ho hx (by rw [hlp]; exact lpSetManval_disabled hm)
  · exact runOwned_refused (i := ixLp n) ht ho hx (by rw [hlp]; exact lpSetManval_running hm)
  · exact runOwned_done (i := ixLp n) ht ho hx (by rw [hlp]; exact if_neg (not_not.mpr hs)) (blockStep_lp _ _)
  · exact runOwned_refused (i := ixLp n) ht ho hx (by rw [hlp]; exact if_pos hs)
  · obtain ⟨hmem, hact⟩ := putNotch_active (found s dt) n (fld e.cmdb 54 52) (fld e.cmdb 58 56) (fld e.cmdb 31 0) (fld e.cmdc 63 32)
      (fld e.cmdc 15 0) (lpDiv (lpcfg (found s dt) n) * ceFrame (found s dt))
    exact ⟨_, runOwned_mem (i := ixLp n) ht ho hx (by rw [hlp]; exact notchSet_one hr hb) (leaveOwn_commitS_mem hmem e _ _ _), hmem,
      hact.staged, hact.live⟩
  · exact runOwned_mem (i := ixLp n) ht ho hx (by rw [hlp]; exact notchSet_refused hr) (leaveOwn_retire ..)
end

