-- ==== Sys2Proof/Proofs/HopperOps.lean ====
section
/-! What the operations of the Hopper change: the events of one output, the balls of outputs and banks (chapter 12). -/

namespace Sys2Proof.Proofs
open Sys2Proof.Machine

/-! ### The frame of the blocks: what no block's own operation changes -/

/-- The parts of the chip that no command of a block may change. -/
def frame (c : Chip) : Bool × Nat × Own × ObjMem × Face := (c.isN, c.tick, c.own, c.mem, c.face)

theorem leaveFace_of_frame {c d : Chip} (h : frame d = frame c) : leaveFace c d = d := by
  simp only [frame, Prod.mk.injEq] at h
  obtain ⟨hn, ht, ho, hm, hf⟩ := h
  exact leaveFace_self hn ht ho hm hf

theorem frame_tick {c d : Chip} (h : frame d = frame c) : d.tick = c.tick := congrArg (fun f => f.2.1) h

/-- What no operation of an output changes. -/
def outRest (c : Chip) : Wb × (Bool × Nat × Own × ObjMem × Face) × Collector × Vector BankSt 8 := (c.wb, frame c, c.flt, c.banks)

/-- What no operation of a bank's ball changes. -/
def bankRest (c : Chip) : Wb × (Bool × Nat × Own × ObjMem × Face) × Collector × Vector OutSt 24 := (c.wb, frame c, c.flt, c.outs)

/-- What driving the balls leaves. -/
def hopRest (c : Chip) : Wb × (Bool × Nat × Own × ObjMem × Face) × Collector := (c.wb, frame c, c.flt)

theorem hopRest_of_out {c d : Chip} (h : outRest d = outRest c) : hopRest d = hopRest c :=
  congrArg (fun r => (r.1, r.2.1, r.2.2.1)) h

theorem hopRest_of_bank {c d : Chip} (h : bankRest d = bankRest c) : hopRest d = hopRest c :=
  congrArg (fun r => (r.1, r.2.1, r.2.2.1)) h

theorem frame_of_hop {c d : Chip} (h : hopRest d = hopRest c) : frame d = frame c := congrArg (fun r => r.2.1) h
theorem wb_of_hop {c d : Chip} (h : hopRest d = hopRest c) : d.wb = c.wb := congrArg (fun r => r.1) h
theorem flt_of_hop {c d : Chip} (h : hopRest d = hopRest c) : d.flt = c.flt := congrArg (fun r => r.2.2) h
theorem banks_of_out {c d : Chip} (h : outRest d = outRest c) : d.banks = c.banks := congrArg (fun r => r.2.2.2) h
theorem outs_of_bank {c d : Chip} (h : bankRest d = bankRest c) : d.outs = c.outs := congrArg (fun r => r.2.2.2) h

theorem hopRest_updOut (c : Chip) (o : Fin 24) (f : OutSt → OutSt) : hopRest (updOut c o f) = hopRest c := rfl

theorem hopRest_updBank (c : Chip) (b : Fin 8) (f : BankSt → BankSt) : hopRest (updBank c b f) = hopRest c := rfl

/-! ### One place of a vector -/

theorem upd_self {α : Type} {n : Nat} {v : Vector α n} {i : Fin n} {f : α → α} (h : f v[i] = v[i]) : upd v i f = v := by
  rw [upd, h]
  exact Vector.set_getElem_self ..

theorem upd_other {α : Type} {n : Nat} (v : Vector α n) {i j : Fin n} (f : α → α) (h : j ≠ i) : (upd v i f)[j] = v[j] :=
  (upd_get v i j f).trans (if_neg (Ne.symm h))

/-! ### Records of events (R130, R370) -/

/-- An output with a record in its ring. -/
def recorded (k : Key) (st n : Nat) (r : Bool) (t : Nat) (x : OutSt) : OutSt :=
  { x with
    ring := x.ring ++ [{ key := k, status := st, detail := n, tick := t, recovered := r }],
    missed := if st = stMissed then wrapInc16 x.missed else x.missed,
    overlap := if st = stOverlap then wrapInc16 x.overlap else x.overlap }

theorem evRecord_outs (c : Chip) (o : Fin 24) (k : Key) (st n : Nat) (r : Bool) (t : Nat) :
    (evRecord c o k st n r t).outs = upd c.outs o (recorded k st n r t) := by
  unfold evRecord
  exact (apply_ite Chip.outs _ _ _).trans (ite_self _)

theorem outRest_evRecord (c : Chip) (o : Fin 24) (k : Key) (st n : Nat) (r : Bool) (t : Nat) :
    outRest (evRecord c o k st n r t) = outRest c := by
  unfold evRecord
  dsimp only
  split <;> rfl

/-- An output whose pending event is retired. -/
def dropped (st n t : Nat) (x : OutSt) (k : Key) : OutSt := recorded k st n false t { x with q := x.q.filter (fun e => e.key ≠ k) }

theorem evRetireAt_outs (c : Chip) (o : Fin 24) (k : Key) (st n t : Nat) :
    (evRetireAt c o k st n t).outs = upd c.outs o (dropped st n t · k) :=
  (evRecord_outs ..).trans (upd_upd ..)

theorem outRest_evRetireAt (c : Chip) (o : Fin 24) (k : Key) (st n t : Nat) : outRest (evRetireAt c o k st n t) = outRest c :=
  outRest_evRecord ..

/-! ### The end of a running event (R352) -/

/-- An output whose running event ends. -/
def endedOut (st n : Nat) (trig : Bool) (t : Nat) (x : OutSt) : OutSt :=
  match x.run with
  | none => x
  | some r => recorded r.key st n false t { x with run := none, trig := if trig && bit r.cmdc 58 then x.trig + 1 else x.trig }

theorem endRun_outs (c : Chip) (o : Fin 24) (st n : Nat) (b : Bool) : (endRun c o st n b).outs = upd c.outs o (endedOut st n b c.tick) := by
  unfold endRun
  cases h : c.outs[o].run with
  | none => exact (upd_self (by rw [endedOut, h])).symm
  | some r =>
    refine (evRecord_outs ..).trans ((upd_upd ..).trans (upd_congr ?_))
    rw [endedOut, h]
    rfl

theorem outRest_endRun (c : Chip) (o : Fin 24) (st n : Nat) (b : Bool) : outRest (endRun c o st n b) = outRest c := by
  unfold endRun
  split
  · rfl
  · exact outRest_evRecord ..

theorem endedOut_run (st n : Nat) (b : Bool) (t : Nat) (x : OutSt) : (endedOut st n b t x).run = none := by
  unfold endedOut
  split
  next h => exact h
  next => rfl

/-- What the end of a running event leaves of an output. -/
theorem endedOut_kept (st n : Nat) (b : Bool) (t : Nat) (x : OutSt) :
    (endedOut st n b t x).q = x.q ∧ (endedOut st n b t x).trip = x.trip ∧ (endedOut st n b t x).trips = x.trips ∧
      (endedOut st n b t x).level = x.level := by
  unfold endedOut
  split <;> exact ⟨rfl, rfl, rfl, rfl⟩

/-- The end of a running event writes its record. -/
theorem endedOut_ring {st n t : Nat} {b : Bool} {x : OutSt} {r : HRun} (h : x.run = some r) :
    (endedOut st n b t x).ring = x.ring ++ [{ key := r.key, status := st, detail := n, tick := t, recovered := false }] := by
  rw [endedOut, h]
  rfl

/-! ### The end of pending events -/

/-- Keys in sequence order. -/
def seqOrder (ks : List Key) : List Key :=
  ks.foldl (fun (l : List Key) k => l.filter (fun j => decide (j.seq < k.seq)) ++ [k] ++ l.filter (fun j => decide (k.seq ≤ j.seq))) []

theorem retirePendingAt_eq (c : Chip) (o : Fin 24) (p : HEv → Bool) (st n t : Nat) :
    retirePendingAt c o p st n t = (seqOrder ((c.outs[o].q.filter p).map (·.key))).foldl (fun d k => evRetireAt d o k st n t) c := rfl

theorem mem_seqOrder {k : Key} {ks : List Key} (h : k ∈ ks) : k ∈ seqOrder ks := by
  suffices hl : ∀ (ks l : List Key), k ∈ ks ∨ k ∈ l → k ∈ ks.foldl (fun (l : List Key) k =>
      l.filter (fun j => decide (j.seq < k.seq)) ++ [k] ++ l.filter (fun j => decide (k.seq ≤ j.seq))) l from hl ks [] (.inl h)
  intro ks
  induction ks with
  | nil => exact fun l h => h.elim (fun h => nomatch h) id
  | cons a ks ih =>
    refine fun l h => ih _ ?_
    simp only [List.mem_append, List.mem_filter, List.mem_cons, decide_eq_true_eq] at h ⊢
    rcases h with (h | h) | h
    · exact .inr (.inl (.inr (.inl h)))
    · exact .inl h
    · exact .inr ((Nat.lt_or_ge k.seq a.seq).elim (fun g => .inl (.inl ⟨h, g⟩)) (fun g => .inr ⟨h, g⟩))

theorem foldl_outs {o : Fin 24} {f : Chip → Key → Chip} {g : OutSt → Key → OutSt} (h : ∀ d k, (f d k).outs = upd d.outs o (g · k))
    (ks : List Key) (c : Chip) : (ks.foldl f c).outs = upd c.outs o (fun x => ks.foldl g x) := by
  induction ks generalizing c with
  | nil => exact (upd_self rfl).symm
  | cons k ks ih => rw [List.foldl_cons, ih, h, upd_upd]; rfl

theorem retirePending_outs (c : Chip) (o : Fin 24) (p : HEv → Bool) (st n : Nat) :
    (retirePending c o p st n).outs =
      upd c.outs o (fun x => (seqOrder ((c.outs[o].q.filter p).map (·.key))).foldl (dropped st n c.tick) x) := by
  unfold retirePending
  rw [retirePendingAt_eq]
  exact foldl_outs (f := fun d k => evRetireAt d o k st n c.tick) (g := dropped st n c.tick) (fun d k => evRetireAt_outs ..) _ c

theorem outRest_retirePending (c : Chip) (o : Fin 24) (p : HEv → Bool) (st n : Nat) : outRest (retirePending c o p st n) = outRest c := by
  unfold retirePending
  rw [retirePendingAt_eq]
  exact foldl_fixed outRest _ (fun d k => outRest_evRetireAt ..) _ c

theorem foldl_dropped_run (st n t : Nat) (ks : List Key) (x : OutSt) : (ks.foldl (dropped st n t) x).run = x.run :=
  foldl_fixed OutSt.run (dropped st n t) (fun _ _ => rfl) ks x

theorem foldl_dropped_q (st n t : Nat) (ks : List Key) (x : OutSt) :
    (ks.foldl (dropped st n t) x).q = x.q.filter (fun e => decide (e.key ∉ ks)) := by
  induction ks generalizing x with
  | nil => simp
  | cons k ks ih =>
    rw [List.foldl_cons, ih]
    show (x.q.filter _).filter _ = _
    rw [List.filter_filter]
    refine List.filter_congr fun e _ => ?_
    simp [Bool.and_comm]

theorem retirePending_all (c : Chip) (o : Fin 24) (st n : Nat) :
    (retirePending c o (fun _ => true) st n).outs[o].q = [] ∧ (retirePending c o (fun _ => true) st n).outs[o].run = c.outs[o].run := by
  have h := retirePending_outs c o (fun _ => true) st n
  rw [List.filter_true] at h
  have ho := (congrArg (·[o]) h).trans (upd_at ..)
  refine ⟨(congrArg OutSt.q ho).trans ((foldl_dropped_q ..).trans ?_), (congrArg OutSt.run ho).trans (foldl_dropped_run ..)⟩
  refine List.filter_eq_nil_iff.mpr fun e he hn => ?_
  exact of_decide_eq_true hn (mem_seqOrder (List.mem_map_of_mem he))

theorem outRest_retireAll (c : Chip) (o : Fin 24) (st n : Nat) : outRest (retireAll c o st n) = outRest c := by
  unfold retireAll
  split
  · exact outRest_retirePending ..
  · exact (outRest_retirePending ..).trans ((outRest_endRun ..).trans (outRest_retirePending ..))

/-- Every event of an output is retired. -/
theorem retireAll_empty (c : Chip) (o : Fin 24) (st n : Nat) :
    (retireAll c o st n).outs[o].run = none ∧ (retireAll c o st n).outs[o].q = [] := by
  unfold retireAll
  split
  next h => exact ⟨(retirePending_all ..).2.trans h, (retirePending_all ..).1⟩
  next r h =>
    refine ⟨(retirePending_all ..).2.trans ?_, (retirePending_all ..).1⟩
    exact (congrArg OutSt.run ((congrArg (·[o]) (endRun_outs ..)).trans (upd_at ..))).trans (endedOut_run ..)

theorem retirePending_others {c : Chip} {o p : Fin 24} (h : p ≠ o) (q : HEv → Bool) (st n : Nat) :
    (retirePending c o q st n).outs[p] = c.outs[p] :=
  (congrArg (·[p]) (retirePending_outs ..)).trans (upd_other _ _ h)

theorem endRun_others {c : Chip} {o p : Fin 24} (h : p ≠ o) (st n : Nat) (b : Bool) : (endRun c o st n b).outs[p] = c.outs[p] :=
  (congrArg (·[p]) (endRun_outs ..)).trans (upd_other _ _ h)

theorem retireAll_others {c : Chip} {o p : Fin 24} (h : p ≠ o) (st n : Nat) : (retireAll c o st n).outs[p] = c.outs[p] := by
  unfold retireAll
  split
  · exact retirePending_others h ..
  · exact (retirePending_others h ..).trans ((endRun_others h ..).trans (retirePending_others h ..))

/-! ### Balls follow their outputs and banks -/

/-- An output whose ball follows its running event. -/
def drivenOut (t : Nat) (x : OutSt) : OutSt :=
  if x.level = (x.run.isSome && !x.trip) then x else { x with level := x.run.isSome && !x.trip, chg := t }

theorem updOut_outs (c : Chip) (o : Fin 24) (f : OutSt → OutSt) : (updOut c o f).outs = upd c.outs o f := rfl

theorem driveOut_outs (c : Chip) (o : Fin 24) : (driveOut c o).outs = upd c.outs o (drivenOut c.tick) := by
  unfold driveOut
  dsimp only
  split
  next h =>
    refine (upd_self ?_).symm
    exact if_pos h
  next h =>
    refine (updOut_outs ..).trans (upd_congr ?_)
    exact (if_neg h).symm

theorem outRest_driveOut (c : Chip) (o : Fin 24) : outRest (driveOut c o) = outRest c := by
  unfold driveOut
  dsimp only
  split <;> rfl

theorem bankRest_driveBank (c : Chip) (b : Fin 8) : bankRest (driveBank c b) = bankRest c := by
  unfold driveBank
  dsimp only
  split <;> rfl

theorem hopRest_driveAll (c : Chip) : hopRest (driveAll c) = hopRest c :=
  (foldl_fixed hopRest _ (fun d b => hopRest_of_bank (bankRest_driveBank d b)) _ _).trans
    (foldl_fixed hopRest _ (fun d o => hopRest_of_out (outRest_driveOut d o)) _ c)

theorem driveAll_out (c : Chip) (o : Fin 24) : (driveAll c).outs[o] = drivenOut c.tick c.outs[o] := by
  unfold driveAll
  rw [foldl_fixed Chip.outs _ (fun d b => outs_of_bank (bankRest_driveBank d b))]
  refine foldl_allFin (fun d : Chip => d.tick = c.tick) (fun d p => d.outs[p]) (fun _ x => drivenOut c.tick x) ?_ ?_ ?_ c rfl o
  · exact fun d p h => (frame_tick (frame_of_hop (hopRest_of_out (outRest_driveOut d p)))).trans h
  · exact fun d p h => ((congrArg (·[p]) (driveOut_outs ..)).trans (upd_at ..)).trans (by rw [h])
  · exact fun d p q _ h => (congrArg (·[q]) (driveOut_outs ..)).trans (upd_other _ _ (Ne.symm h))

/-- What driving its ball leaves of an output. -/
theorem drivenOut_kept (t : Nat) (x : OutSt) :
    (drivenOut t x).run = x.run ∧ (drivenOut t x).q = x.q ∧ (drivenOut t x).ring = x.ring ∧ (drivenOut t x).trip = x.trip ∧
      (drivenOut t x).enabled = x.enabled ∧ (drivenOut t x).mismatch = x.mismatch ∧ (drivenOut t x).trips = x.trips ∧
      (drivenOut t x).fired = x.fired ∧ (drivenOut t x).trig = x.trig ∧ (drivenOut t x).overlap = x.overlap := by
  unfold drivenOut
  split <;> exact ⟨rfl, rfl, rfl, rfl, rfl, rfl, rfl, rfl, rfl, rfl⟩

theorem drivenOut_level (t : Nat) (x : OutSt) : (drivenOut t x).level = (x.run.isSome && !x.trip) := by
  unfold drivenOut
  split
  next h => exact h
  next => rfl

/-- What driving its ball leaves of a bank. -/
def bankKept (y : BankSt) : Bool × Bool × Bool × Bool × Nat × Nat := (y.enabled, y.trip, y.rbBad, y.mismatch, y.overlap, y.trips)

theorem driveBank_kept (c : Chip) (p b : Fin 8) : bankKept (driveBank c p).banks[b] = bankKept c.banks[b] := by
  unfold driveBank
  dsimp only
  split
  · rfl
  · show bankKept (upd c.banks p _)[b] = _
    rw [upd_get]
    split
    next h => rw [h]; rfl
    next => rfl

theorem driveAll_bank (c : Chip) (b : Fin 8) : bankKept (driveAll c).banks[b] = bankKept c.banks[b] := by
  unfold driveAll
  refine (foldl_fixed (fun d : Chip => bankKept d.banks[b]) _ (fun d p => driveBank_kept d p b) _ _).trans ?_
  rw [foldl_fixed Chip.banks _ (fun d o => banks_of_out (outRest_driveOut d o))]

theorem driveAll_bank_enabled (c : Chip) (b : Fin 8) : (driveAll c).banks[b].enabled = c.banks[b].enabled := by
  have h := driveAll_bank c b
  simp only [bankKept, Prod.mk.injEq] at h
  exact h.1

end Sys2Proof.Proofs
end

