-- ==== Sys2Proof/Proofs/Enables.lean ====
section
/-! ENABLE and DISABLE of an object by its owner (R97, Table 4-3): what each kind's block changes. -/

namespace Sys2Proof.Proofs
open Sys2Proof.Machine

theorem leaveFace_doneS_frame {c d : Chip} (h : frame d = frame c) (e : Entry) : leaveFace c (doneS d e) = doneS d e :=
  leaveFace_of_frame (show frame (doneS d e) = _ from h)

theorem frame_setLevelR (c : Chip) (n : Src) (b : Bool) (r : Raise) : frame (setLevelR c n b r) = frame c := by
  rw [setLevelR_only]
  rfl

/-! ### DISABLE -/

/-- DISABLE of a loop stops it where it is not disabled, and may hold its analog output. -/
theorem lpDisable_cases (c : Chip) (n : Fin 16) :
    c.lp[n].mode = .disabled ∧ lpDisable c n = lpRewrite c n ∨ lpDisable c n = lpStop (lpRewrite c n) n ∨
      ∃ a, lpDisable c n = aoHold (lpStop (lpRewrite c n) n) a := by
  unfold lpDisable
  dsimp only
  split
  next h => exact .inl ⟨h, rfl⟩
  next =>
    refine .inr ?_
    cases (if (lpDesten (lpcfg c n) && bit (lpsup c n) 61) = true then fin? 8 (lpDestao (lpcfg c n)) else none) with
    | none => exact .inl rfl
    | some a =>
      dsimp only
      split
      · exact .inr ⟨a, rfl⟩
      · exact .inl rfl

theorem frame_updLp (c : Chip) (n : Fin 16) (f : Lp → Lp) : frame (updLp c n f) = frame c := rfl

theorem frame_lpStop (c : Chip) (n : Fin 16) : frame (lpStop c n) = frame c := rfl

theorem frame_aoHold (c : Chip) (a : Fin 8) : frame (aoHold c a) = frame c := rfl

theorem lpDisable_frame (c : Chip) (n : Fin 16) : frame (lpDisable c n) = frame c := by
  have h : frame (lpRewrite c n) = frame c := (frame_setLevelR ..).trans (frame_updLp ..)
  rcases lpDisable_cases c n with ⟨-, hd⟩ | hd | ⟨a, hd⟩ <;> rw [hd]
  · exact h
  · exact (frame_lpStop ..).trans h
  · exact (frame_aoHold ..).trans ((frame_lpStop ..).trans h)

theorem disableBlock_frame (c : Chip) (o : Obj) : frame (disableBlock c o) = frame c := by
  cases o with
  | ch n =>
    show frame (trkDisable c n) = _
    unfold trkDisable
    split <;> rfl
  | wh w =>
    show frame (whDisable c w) = _
    unfold whDisable
    dsimp only
    split <;> rfl
  | out o =>
    show frame (outDisable c o) = _
    unfold outDisable
    exact frame_of_hop ((hopRest_driveAll _).trans ((hopRest_updOut ..).trans (hopRest_of_out (outRest_retireAll ..))))
  | hsb b =>
    show frame (bankDisable c b) = _
    unfold bankDisable
    have h : outRest ((members c b).foldl (fun c o => endRun c o stCancelled 0x3013 false) c) = outRest c :=
      foldl_fixed outRest (fun c o => endRun c o stCancelled 0x3013 false) (fun d o => outRest_endRun ..) _ c
    exact frame_of_hop ((hopRest_driveAll _).trans ((hopRest_updBank ..).trans (hopRest_of_out h)))
  | lp n => exact lpDisable_frame c n
  | ao a => rfl
  | enc e =>
    show frame (encDisable c e) = _
    unfold encDisable
    split
    · rfl
    · exact (frame_setLevelR ..).trans (frame_setLevelR ..)
  | sat _ => rfl

/-- An object is disabled. -/
def IsOff (t : Chip) (o : Obj) : Prop :=
  match o with
  | .ch n => t.trk[n].st = .disabled
  | .wh w => t.wh[w].st = .disabled
  | .out o => t.outs[o].enabled = false
  | .hsb b => t.banks[b].enabled = false
  | .lp n => t.lp[n].mode = .disabled
  | .ao a => t.ao[a].enabled = false
  | .enc x => t.enc[x].st = .disabled
  | .sat _ => True

theorem updTrk_at (c : Chip) (n : Fin 16) (f : Trk → Trk) : (updTrk c n f).trk[n] = f c.trk[n] := upd_at ..
theorem updWh_at (c : Chip) (w : Fin 4) (f : Wheel → Wheel) : (updWh c w f).wh[w] = f c.wh[w] := upd_at ..
theorem updOut_at (c : Chip) (o : Fin 24) (f : OutSt → OutSt) : (updOut c o f).outs[o] = f c.outs[o] := upd_at ..
theorem updBank_at (c : Chip) (b : Fin 8) (f : BankSt → BankSt) : (updBank c b f).banks[b] = f c.banks[b] := upd_at ..
theorem updLp_at (c : Chip) (n : Fin 16) (f : Lp → Lp) : (updLp c n f).lp[n] = f c.lp[n] := upd_at ..
theorem updAo_at (c : Chip) (a : Fin 8) (f : Ao → Ao) : (updAo c a f).ao[a] = f c.ao[a] := upd_at ..
theorem updEnc_at (c : Chip) (e : Fin 8) (f : Enc → Enc) : (updEnc c e f).enc[e] = f c.enc[e] := upd_at ..

theorem setLevelR_enc (c : Chip) (n : Src) (b : Bool) (r : Raise) : (setLevelR c n b r).enc = c.enc := by
  rw [setLevelR_only]

theorem setLevelR_lp (c : Chip) (n : Src) (b : Bool) (r : Raise) : (setLevelR c n b r).lp = c.lp := by
  rw [setLevelR_only]

theorem lpStop_off (c : Chip) (n : Fin 16) : (lpStop c n).lp[n].mode = .disabled := by
  unfold lpStop lpMode
  rw [updLp_at]

theorem lpDisable_off (c : Chip) (n : Fin 16) : (lpDisable c n).lp[n].mode = .disabled := by
  rcases lpDisable_cases c n with ⟨h, hd⟩ | hd | ⟨a, hd⟩ <;> rw [hd]
  · unfold lpRewrite levelB
    simp only [setLevelR_lp, updLp_at, h]
  · exact lpStop_off ..
  · exact lpStop_off ..

theorem disableBlock_off (c : Chip) (o : Obj) : IsOff (disableBlock c o) o := by
  cases o with
  | ch n =>
    show (trkDisable c n).trk[n].st = _
    unfold trkDisable
    split
    next h => exact h
    next =>
      rw [updTrk_at]
  | wh w =>
    show (whDisable c w).wh[w].st = _
    unfold whDisable
    rw [updWh_at]
  | out o =>
    show (outDisable c o).outs[o].enabled = _
    unfold outDisable
    rw [driveAll_out, (drivenOut_kept ..).2.2.2.2.1, updOut_at]
  | hsb b =>
    show (bankDisable c b).banks[b].enabled = _
    unfold bankDisable
    rw [driveAll_bank_enabled, updBank_at]
  | lp n => exact lpDisable_off c n
  | ao a =>
    show (aoDisable c a).ao[a].enabled = _
    unfold aoDisable
    rw [updAo_at]
  | enc e =>
    show (encDisable c e).enc[e].st = _
    unfold encDisable
    split
    next h => exact h
    next =>
      unfold levelB
      simp only [setLevelR_enc, updEnc_at]
  | sat _ => trivial

/-- A command of an object's owner that keeps the frame and commits. -/
theorem runOwned_frame {s : State} {dt op : Nat} {e : Entry} {p : Entry → Bool} {i : ObjIx} {body : Chip → Entry → ObjIx → Chip} {d : Chip}
    (ht : targetOf e = i.val) (ho : ownerOf (found s dt) i = some e.client) (hx : Executes (found s dt) op p e)
    (hb : body (found s dt) e i = doneS d e) (hd : frame d = frame (found s dt)) :
    runBlock s dt (fun c => execOwned c op p body) = .next (ended s dt (doneS d e)) :=
  runBlock_of_leaves (f := fun c => execOwned c op p body) ((execOwned_of ht ho hx).trans hb) (leaveFace_doneS_frame hd e)

/-! ### The objects of the map -/

theorem objOf_ixCh : ∀ n : Fin 16, objOf (ixCh n) = .ch n := by decide
theorem objOf_ixWh : ∀ w : Fin 4, objOf (ixWh w) = .wh w := by decide
theorem objOf_ixOut : ∀ o : Fin 24, objOf (ixOut o) = .out o := by decide
theorem objOf_ixHsb : ∀ b : Fin 8, objOf (ixHsb b) = .hsb b := by decide
theorem objOf_ixLp : ∀ n : Fin 16, objOf (ixLp n) = .lp n := by decide
theorem objOf_ixAo : ∀ a : Fin 8, objOf (ixAo a) = .ao a := by decide
theorem objOf_ixEnc : ∀ x : Fin 8, objOf (ixEnc x) = .enc x := by decide

/-! ### ENABLE -/

section
variable {c : Chip} {e : Entry} {i : ObjIx}

theorem enableCommand_config (h : inConfig c = true) : enableCommand c e i = refuseLate c e 0x0012 := if_pos h

theorem enableCommand_zero (h : inConfig c = false) (hz : allZero c (objOf i) = true) : enableCommand c e i = refuseLate c e 0x0010 :=
  (if_neg (Bool.eq_false_iff.mp h)).trans (if_pos hz)

theorem enableCommand_done {d : Chip} (h : inConfig c = false) (hz : allZero c (objOf i) = false) (hb : enableBlock c (objOf i) = (d, 0)) :
    enableCommand c e i = doneS d e := by
  refine (if_neg (Bool.eq_false_iff.mp h)).trans ((if_neg (Bool.eq_false_iff.mp hz)).trans ?_)
  rw [hb]
  rfl

/-- A channel after its ENABLE in a tracking mode (Table 8-2). -/
def enabledTrk (c : Chip) (n : Fin 16) (t : Trk) : Trk :=
  trkHold { trkCommand c t with mode := fld (trkcfg c n) 63 62, j := jmaxOf (trkauto c n) }

theorem enableBlock_ch {n : Fin 16} (hs : c.trk[n].st = .disabled) (hf : feEnableCheck c n = 0) (hm : fld (trkcfg c n) 63 62 < 2) :
    enableBlock c (.ch n) = ({ c with trk := upd c.trk n (fun _ => enabledTrk c n c.trk[n]) }, 0) := by
  refine (if_neg (not_not.mpr hf)).trans (congrArg (·, 0) ((if_neg (not_not.mpr hs)).trans ?_))
  refine congrArg (fun v => { c with trk := v }) (upd_congr ?_)
  exact if_neg (Nat.ne_of_lt hm)

theorem enabledTrk_is (c : Chip) (n : Fin 16) (t : Trk) :
    (enabledTrk c n t).st = .hold ∧ (enabledTrk c n t).mode = fld (trkcfg c n) 63 62 ∧ (enabledTrk c n t).valid = false ∧
      (enabledTrk c n t).cmdTick = some c.tick ∧ (enabledTrk c n t).elecang = t.elecang :=
  ⟨rfl, rfl, rfl, rfl, rfl⟩

/-- A wheel after its ENABLE without a Sett to start from (Table 11-3). -/
def seekingWh (x : Wheel) : Wheel :=
  { x with st := .seek, hist := [], ivals := [], last := none, confN := 0, dirKnown := false, quick := false, confcyc := 0 }

theorem seekingWh_is (x : Wheel) : (seekingWh x).st = .seek ∧ (seekingWh x).hist = [] ∧ (seekingWh x).confN = 0 ∧
    (seekingWh x).dirKnown = false ∧ (seekingWh x).sett = x.sett :=
  ⟨rfl, rfl, rfl, rfl, rfl⟩

theorem updWh_updWh (c : Chip) (w : Fin 4) (f g : Wheel → Wheel) : updWh (updWh c w f) w g = updWh c w (fun x => g (f x)) :=
  congrArg (fun v => { c with wh := v }) (upd_upd c.wh w f g)

theorem enableBlock_wh {w : Fin 4} (hs : c.wh[w].st = .disabled) (hn : settStart c w = false) :
    enableBlock c (.wh w) = ({ c with wh := upd c.wh w (fun _ => seekingWh c.wh[w]) }, 0) := by
  refine congrArg (·, 0) ((if_pos hs).trans ?_)
  unfold whStart
  extract_lets +onlyGivenNames d
  have hd : d.wh[w] = { c.wh[w] with hist := [], ivals := [], last := none, confN := 0, dirKnown := false, quick := false } := updWh_at ..
  have hset : settStart d w = false := by
    unfold settStart
    rw [hd]
    exact hn
  have hval : whValid d w = false := by
    rw [whValid, hd, hs]
    rfl
  rw [hset, if_neg Bool.false_ne_true]
  unfold toSeek leaveValid
  rw [hval, if_neg Bool.false_ne_true]
  exact updWh_updWh ..

theorem setLevelR_idle {n : Src} {b : Bool} {r : Raise} (h : c.flt.srcs[n].level = b) : setLevelR c n b r = c := if_pos h

theorem levelB_idle {d : Chip} {n : Nat} {b : Bool} (h : d.flt.srcs[srcN n].level = b) : levelB d n b = d := if_pos h

theorem enableBlock_out {o : Fin 24} (ht : c.outs[o].trip = false) (hl : c.flt.srcs[srcN (322 + 3 * o.val)].level = false) :
    enableBlock c (.out o) = ({ c with outs := upd c.outs o (fun x =>
      { x with enabled := true, rbBad := false, mismatch := false, chg := c.tick }) }, 0) := by
  have hu : updOut c o (fun x => { x with enabled := true, trip := false, rbBad := false, mismatch := false, chg := c.tick }) =
      { c with outs := upd c.outs o (fun x => { x with enabled := true, rbBad := false, mismatch := false, chg := c.tick }) } :=
    congrArg (fun v => { c with outs := v }) (upd_congr (by rw [← ht]))
  show ((outEnable c o).1, if (outEnable c o).2 then 0 else 0x2004) = _
  unfold outEnable
  rw [ht, if_neg fun hh => Bool.false_ne_true hh.1, hu]
  refine congrArg (fun d : Chip => (d, 0)) (levelB_idle ?_)
  exact hl

theorem enableBlock_hsb {b : Fin 8} (ht : c.banks[b].trip = false) (hl : c.flt.srcs[srcN (394 + 3 * b.val)].level = false) :
    enableBlock c (.hsb b) = ({ c with banks := upd c.banks b (fun x =>
      { x with enabled := true, rbBad := false, mismatch := false, chg := c.tick }) }, 0) := by
  have hu : updBank c b (fun x => { x with enabled := true, trip := false, rbBad := false, mismatch := false, chg := c.tick }) =
      { c with banks := upd c.banks b (fun x => { x with enabled := true, rbBad := false, mismatch := false, chg := c.tick }) } :=
    congrArg (fun v => { c with banks := v }) (upd_congr (by rw [← ht]))
  show ((bankEnable c b).1, if (bankEnable c b).2 then 0 else 0x2004) = _
  unfold bankEnable
  rw [ht, if_neg fun hh => Bool.false_ne_true hh.1, hu]
  refine congrArg (fun d : Chip => (d, 0)) (levelB_idle ?_)
  exact hl

theorem enableBlock_ao {a : Fin 8} (hd : c.ao[a].enabled = false) (hb : bit (aocfg c a) 63 = true) (hf : c.ao[a].checkfail = false) :
    enableBlock c (.ao a) = (updAo c a (fun x => { x with enabled := true, safehold := true }), 0) := by
  show aoEnable c a = _
  unfold aoEnable
  dsimp only
  rw [hd, hb, hf]
  rfl

theorem enableBlock_enc {x : Fin 8} (h : c.enc[x].st = .disabled) :
    enableBlock c (.enc x) = (updEnc c x (fun y =>
      { y with st := .init, lagmax := 0, tgt := y.cnt, benchhold := outputsHeld c, resume := false }), 0) :=
  congrArg (·, 0) (if_pos h)

/-- A loop after its ENABLE in a mode (R407). -/
def startedLp (m : LpMode) (l : Lp) : Lp :=
  { l with applied := false, warm := false, mode := m, pend := if l.pend = .start ∧ m ≠ .disabled then .start else .start,
           transfers := wrapInc16 l.transfers,
           ferun := if l.mode = .auto then 0 else l.ferun, feclear := if l.mode = .auto then 0 else l.feclear,
           feover := l.feover && l.mode ≠ .auto }

theorem startedLp_is (m : LpMode) (l : Lp) : (startedLp m l).mode = m ∧ (startedLp m l).pend = .start ∧
    (startedLp m l).applied = false ∧ (startedLp m l).run = l.run :=
  ⟨rfl, ite_self _, rfl, rfl⟩

theorem enableBlock_lp {n : Fin 16} (h : c.lp[n].mode = .disabled) :
    enableBlock c (.lp n) =
      ({ c with lp := upd c.lp n (fun _ => startedLp (if bit (lpsup c n) 63 then .manual else .auto) c.lp[n]) }, 0) :=
  congrArg (·, 0) ((if_pos h).trans (updLp_updLp ..))

/-! ### DISABLE of a channel and of a loop -/

/-- A channel after its DISABLE (Table 8-2). -/
def disabledTrk (c : Chip) (t : Trk) : Trk := { trkClear (trkCommand c t) with st := .disabled, valid := false }

theorem disabledTrk_is (c : Chip) (t : Trk) : (disabledTrk c t).st = .disabled ∧ (disabledTrk c t).valid = false ∧
    (disabledTrk c t).mode = t.mode ∧ (disabledTrk c t).elecang = t.elecang :=
  ⟨rfl, rfl, rfl, rfl⟩

theorem disableBlock_ch {n : Fin 16} (h : c.trk[n].st ≠ .disabled) :
    disableBlock c (.ch n) = { c with trk := upd c.trk n (fun _ => disabledTrk c c.trk[n]) } :=
  if_neg h

/-- A loop that has stopped, before its mode changes (R408). -/
def haltedLp (l : Lp) : Lp :=
  { dropFlight { l with checkfail := false } with trigcount := 0, trigsat := false, pend := .none, ferun := 0, feclear := 0, feover := false }

/-- A loop after its DISABLE (R408). -/
def stoppedLp (l : Lp) : Lp :=
  { haltedLp l with mode := .disabled, pend := .none, transfers := wrapInc16 (haltedLp l).transfers,
                    ferun := if (haltedLp l).mode = .auto then 0 else (haltedLp l).ferun,
                    feclear := if (haltedLp l).mode = .auto then 0 else (haltedLp l).feclear,
                    feover := (haltedLp l).feover && (haltedLp l).mode ≠ .auto }

theorem disableBlock_lp {n : Fin 16} (h : c.lp[n].mode ≠ .disabled) (hl : c.flt.srcs[srcN (418 + 4 * n.val)].level = false)
    (hd : lpDesten (lpcfg c n) = false) : disableBlock c (.lp n) = { c with lp := upd c.lp n (fun _ => stoppedLp c.lp[n]) } := by
  have h0 : lpRewrite c n = updLp c n (fun l => { l with checkfail := false }) := setLevelR_idle hl
  show lpDisable c n = _
  unfold lpDisable
  dsimp only
  rw [if_neg h, hd, Bool.false_and, h0]
  unfold lpStop lpMode
  rw [updLp_updLp, updLp_updLp]
  exact congrArg (fun v => { c with lp := v }) (upd_congr rfl)

theorem dropFlight_flight (l : Lp) : (dropFlight l).flight = [] := by
  unfold dropFlight
  split
  next h => exact List.isEmpty_iff.mp h
  next => rfl

theorem dropFlight_run (l : Lp) : (dropFlight l).run = l.run := by
  unfold dropFlight
  split <;> rfl

theorem stoppedLp_is (l : Lp) : (stoppedLp l).mode = .disabled ∧ (stoppedLp l).pend = .none ∧ (stoppedLp l).flight = [] ∧
    (stoppedLp l).trigcount = 0 ∧ (stoppedLp l).run = l.run :=
  ⟨rfl, rfl, dropFlight_flight _, rfl, dropFlight_run _⟩

end

section
variable {s : State} {dt : Nat} {e : Entry} {i : ObjIx} {d : Chip}

/-- ENABLE of an object whose block accepts it. -/
theorem runEnable_done (hb : enableBlock (found s dt) (objOf i) = (d, 0)) (hd : frame d = frame (found s dt))
    (hx : Executes (found s dt) 0x20 (fun _ => true) e) (ht : targetOf e = i.val) (ho : ownerOf (found s dt) i = some e.client)
    (hc : inConfig (found s dt) = false) (hz : allZero (found s dt) (objOf i) = false) :
    exec (.enable dt) s = .next (ended s dt (doneS d e)) :=
  runOwned_frame ht ho hx (enableCommand_done hc hz hb) hd

/-- DISABLE of an object. -/
theorem runDisable_done (hb : disableBlock (found s dt) (objOf i) = d) (hx : Executes (found s dt) 0x21 (fun _ => true) e)
    (ht : targetOf e = i.val) (ho : ownerOf (found s dt) i = some e.client) :
    exec (.disable dt) s = .next (ended s dt (doneS d e)) :=
  runOwned_frame ht ho hx (congrArg (doneS · e) hb) (hb ▸ disableBlock_frame ..)

end

theorem frame_trk (c : Chip) (v : Vector Trk 16) : frame { c with trk := v } = frame c := rfl
theorem frame_wh (c : Chip) (v : Vector Wheel 4) : frame { c with wh := v } = frame c := rfl
theorem frame_outs (c : Chip) (v : Vector OutSt 24) : frame { c with outs := v } = frame c := rfl
theorem frame_banks (c : Chip) (v : Vector BankSt 8) : frame { c with banks := v } = frame c := rfl
theorem frame_ao (c : Chip) (v : Vector Ao 8) : frame { c with ao := v } = frame c := rfl
theorem frame_enc (c : Chip) (v : Vector Enc 8) : frame { c with enc := v } = frame c := rfl
theorem frame_lp (c : Chip) (v : Vector Lp 16) : frame { c with lp := v } = frame c := rfl

end Sys2Proof.Proofs

open Sys2Proof Sys2Proof.Machine Sys2Proof.Proofs

/-- Settles O28: ENABLE and DISABLE of every kind of object by its owner. -/
theorem objectsAreEnabledAndDisabled : Obligations.ObjectsAreEnabledAndDisabled := by
  intro s dt e
  refine ⟨fun n hs hf hm => ?_, fun w hs hn _ => ?_, fun o ht hl => ?_, fun b ht hl => ?_, fun a hd hb hf => ?_, fun x h => ?_,
    fun n h => ?_, fun i hx ht ho => ⟨fun hc => ?_, fun hc hz => ?_⟩, fun i => ?_, fun n h => ?_, fun a => ?_, fun n h hl hd => ?_⟩
  · exact ⟨enabledTrk (found s dt) n (found s dt).trk[n],
      runEnable_done ((congrArg _ (objOf_ixCh n)).trans (enableBlock_ch hs hf hm)) (frame_trk ..), enabledTrk_is ..⟩
  · exact ⟨seekingWh (found s dt).wh[w], runEnable_done ((congrArg _ (objOf_ixWh w)).trans (enableBlock_wh hs hn)) (frame_wh ..),
      seekingWh_is _⟩
  · exact runEnable_done ((congrArg _ (objOf_ixOut o)).trans (enableBlock_out ht hl)) (frame_outs ..)
  · exact runEnable_done ((congrArg _ (objOf_ixHsb b)).trans (enableBlock_hsb ht hl)) (frame_banks ..)
  · exact runEnable_done ((congrArg _ (objOf_ixAo a)).trans (enableBlock_ao hd hb hf)) (frame_ao ..)
  · exact runEnable_done ((congrArg _ (objOf_ixEnc x)).trans (enableBlock_enc h)) (frame_enc ..)
  · exact ⟨startedLp (if bit (lpsup (found s dt) n) 63 then .manual else .auto) (found s dt).lp[n],
      runEnable_done ((congrArg _ (objOf_ixLp n)).trans (enableBlock_lp h)) (frame_lp ..), startedLp_is ..⟩
  · exact runOwned_refused ht ho hx (enableCommand_config hc)
  · exact runOwned_refused ht ho hx (enableCommand_zero hc hz)
  · exact ⟨_, runDisable_done rfl, disableBlock_off ..⟩
  · exact ⟨disabledTrk (found s dt) (found s dt).trk[n], runDisable_done ((congrArg _ (objOf_ixCh n)).trans (disableBlock_ch h)),
      disabledTrk_is ..⟩
  · exact runDisable_done (congrArg _ (objOf_ixAo a))
  · exact ⟨stoppedLp (found s dt).lp[n], runDisable_done ((congrArg _ (objOf_ixLp n)).trans (disableBlock_lp h hl hd)), stoppedLp_is _⟩
end

