-- ==== Sys2Proof/Proofs/Analog.lean ====
section
/-! MONITOR_READING and AO_CHECK_MISMATCH (R445, R446, R449): what a reading and the check change of one analog output. -/

namespace Sys2Proof.Proofs
open Sys2Proof.Machine

/-! ### Operations of one analog output -/

/-- d differs from c in output a, and in nothing that a form of the block takes back. -/
structure TouchesAo (a : Fin 8) (c d : Chip) : Prop where
  others : ∀ b : Fin 8, b ≠ a → d.ao[b] = c.ao[b]
  frame : frame d = frame c
  wb : d.wb = c.wb

theorem TouchesAo.refl (a : Fin 8) (c : Chip) : TouchesAo a c c := ⟨fun _ _ => rfl, rfl, rfl⟩

theorem TouchesAo.trans {a : Fin 8} {b c d : Chip} (h : TouchesAo a b c) (g : TouchesAo a c d) : TouchesAo a b d :=
  ⟨fun k hk => (g.others k hk).trans (h.others k hk), g.frame.trans h.frame, g.wb.trans h.wb⟩

theorem touchesAo_updAo (c : Chip) (a : Fin 8) (f : Ao → Ao) : TouchesAo a c (updAo c a f) :=
  ⟨fun b hb => (upd_get c.ao a b f).trans (if_neg (Ne.symm hb)), rfl, rfl⟩

theorem TouchesAo.countB {a : Fin 8} {c d : Chip} (h : TouchesAo a c d) (n : Nat) : TouchesAo a c (countB d n) := ⟨h.others, h.frame, h.wb⟩

theorem countB_ao (c : Chip) (n : Nat) (a : Fin 8) : (countB c n).ao[a] = c.ao[a] := rfl

theorem touchesAo_openReading (c : Chip) (a : Fin 8) (lim : Bool) : TouchesAo a c (openReading c a lim) := by
  unfold openReading
  extract_lets x n o k
  split
  · exact touchesAo_updAo ..
  · split
    · exact touchesAo_updAo ..
    · split
      · exact (touchesAo_updAo ..).countB _
      · split <;> exact touchesAo_updAo ..

/-- What no reading of the comparator decides. -/
def openKept (x : Ao) : Nat × Nat × Nat × Bool := (x.moncode, x.code, x.span, x.mismatch)

theorem openReading_kept (c : Chip) (a : Fin 8) (lim : Bool) : openKept (openReading c a lim).ao[a] = openKept c.ao[a] := by
  unfold openReading
  extract_lets x n o k
  split
  · rw [updAo_at]; rfl
  · split
    · rw [updAo_at]; rfl
    · split
      · rw [countB_ao, updAo_at]; rfl
      · split <;> (rw [updAo_at]; rfl)

theorem touchesAo_mismatchReading (c : Chip) (a : Fin 8) (bad : Bool) : TouchesAo a c (mismatchReading c a bad) := by
  unfold mismatchReading
  extract_lets x n m k
  split
  · exact .refl ..
  · split
    · exact (touchesAo_updAo ..).countB _
    · split <;> exact touchesAo_updAo ..

/-- What no MISMATCH reading decides. -/
def mismatchKept (x : Ao) : Nat × Nat × Nat × Bool × Int := (x.moncode, x.code, x.span, x.monvalid, x.monval)

theorem mismatchReading_kept (c : Chip) (a : Fin 8) (bad : Bool) : mismatchKept (mismatchReading c a bad).ao[a] = mismatchKept c.ao[a] := by
  unfold mismatchReading
  extract_lets x n m k
  split
  · rfl
  · split
    · rw [countB_ao, updAo_at]; rfl
    · split <;> (rw [updAo_at]; rfl)

theorem aoMmcount_pos (w : Word) : 0 < aoMmcount w := by
  unfold aoMmcount orDef
  split <;> omega

/-- A reading that agrees sets no MISMATCH. -/
theorem mismatchReading_agrees {c : Chip} {a : Fin 8} (h : c.ao[a].mismatch = false) : (mismatchReading c a false).ao[a].mismatch = false := by
  have hn : ¬aoMmcount (aocfg c a) ≤ 0 := Nat.not_le.mpr (aoMmcount_pos _)
  unfold mismatchReading
  extract_lets x n m k
  split
  · exact h
  · rw [show x.mismatch = false from h, show decide (n ≤ m) = false from decide_eq_false hn]
    simp only [Bool.and_false, Bool.false_and, Bool.false_eq_true, if_false, updAo_at, h]

/-! ### MONITOR_READING (R445, R446) -/

/-- The reading of output a in its slot. -/
structure InSlot (c : Chip) (a : Fin 8) : Prop where
  serves : serving c = true
  owned : (ownE c (ixAo a)).st = .owned
  sampled : 400 ≤ c.tick
  slot : (c.tick - 400) % 3200 = 400 * a.val

/-- The reading counts (R446). -/
def counts (c : Chip) (a : Fin 8) : Bool :=
  (match c.ao[a].own with | some t => decide (t ≤ c.tick - 400) | none => false) && decide (c.ao[a].emitTick ≤ c.tick - 400) &&
    decide (c.ao[a].chgtick + aoBlank (aocfg c a) ≤ c.tick - 400)

/-- The reading disagrees with the code in force. -/
def disagrees (c : Chip) (a : Fin 8) (m : Fin 4096) : Bool :=
  decide (aoTol (aocfg c a) < (((m.val * 16 : Nat) : Int) - c.ao[a].code).natAbs)

/-- The reading taken, its comparator judged. -/
def taken (c : Chip) (a : Fin 8) (m : Fin 4096) (lim : Bool) : Chip := openReading (updAo c a (fun x => { x with moncode := m.val * 16 })) a lim

/-- What a counted reading notes before MISMATCH is judged. -/
def noted (x : Ao) (m err : Nat) (good : Bool) : Ao :=
  { x with monval := aoPhys x.span m, monvalid := true, verN := if good then x.verN + 1 else 0, verErr := if good then max x.verErr err else 0 }

theorem monitorReading_slot {c : Chip} {a : Fin 8} (m : Fin 4096) (lim : Bool) (h : InSlot c a) :
    ∃ err good, monitorReading c a m lim =
      if counts c a then mismatchReading (updAo (taken c a m lim) a (fun x => noted x (m.val * 16) err good)) a (disagrees c a m)
      else taken c a m lim := by
  have hs : (serving c && decide ((ownE c (ixAo a)).st = .owned) && decide (400 ≤ c.tick ∧ (c.tick - 400) % 3200 = 400 * a.val)) = true := by
    rw [h.serves, decide_eq_true h.owned, decide_eq_true ⟨h.sampled, h.slot⟩]
    rfl
  exact ⟨_, _, if_pos hs⟩

theorem taken_kept (c : Chip) (a : Fin 8) (m : Fin 4096) (lim : Bool) :
    openKept (taken c a m lim).ao[a] = (m.val * 16, c.ao[a].code, c.ao[a].span, c.ao[a].mismatch) := by
  unfold taken
  rw [openReading_kept, updAo_at]
  rfl

theorem touchesAo_taken (c : Chip) (a : Fin 8) (m : Fin 4096) (lim : Bool) : TouchesAo a c (taken c a m lim) :=
  (touchesAo_updAo ..).trans (touchesAo_openReading ..)

theorem touchesAo_monitorReading {c : Chip} {a : Fin 8} (m : Fin 4096) (lim : Bool) (h : InSlot c a) : TouchesAo a c (monitorReading c a m lim) := by
  obtain ⟨err, good, hr⟩ := monitorReading_slot m lim h
  rw [hr]
  split
  · exact (touchesAo_taken ..).trans ((touchesAo_updAo ..).trans (touchesAo_mismatchReading ..))
  · exact touchesAo_taken ..

theorem monitorReading_code {c : Chip} {a : Fin 8} (m : Fin 4096) (lim : Bool) (h : InSlot c a) :
    (monitorReading c a m lim).ao[a].moncode = m.val * 16 ∧ (monitorReading c a m lim).ao[a].code = c.ao[a].code ∧
      (monitorReading c a m lim).ao[a].span = c.ao[a].span := by
  obtain ⟨err, good, hr⟩ := monitorReading_slot m lim h
  have ht := taken_kept c a m lim
  simp only [openKept, Prod.mk.injEq] at ht
  obtain ⟨h1, h2, h3, -⟩ := ht
  rw [hr]
  split
  · have hm := mismatchReading_kept (updAo (taken c a m lim) a (fun x => noted x (m.val * 16) err good)) a (disagrees c a m)
    simp only [mismatchKept, Prod.mk.injEq, updAo_at] at hm
    obtain ⟨g1, g2, g3, -⟩ := hm
    exact ⟨g1.trans h1, g2.trans h2, g3.trans h3⟩
  · exact ⟨h1, h2, h3⟩

/-- A reading that counts becomes the monitored value. -/
theorem monitorReading_counts {c : Chip} {a : Fin 8} (m : Fin 4096) (lim : Bool) (h : InSlot c a) (hc : counts c a = true) :
    (monitorReading c a m lim).ao[a].monvalid = true ∧ (monitorReading c a m lim).ao[a].monval = aoPhys c.ao[a].span (m.val * 16) ∧
      (disagrees c a m = false → c.ao[a].mismatch = false → (monitorReading c a m lim).ao[a].mismatch = false) := by
  obtain ⟨err, good, hr⟩ := monitorReading_slot m lim h
  have ht := taken_kept c a m lim
  simp only [openKept, Prod.mk.injEq] at ht
  obtain ⟨-, -, h3, h4⟩ := ht
  have hm := mismatchReading_kept (updAo (taken c a m lim) a (fun x => noted x (m.val * 16) err good)) a (disagrees c a m)
  simp only [mismatchKept, Prod.mk.injEq, updAo_at] at hm
  obtain ⟨-, -, -, g4, g5⟩ := hm
  rw [hr, if_pos hc]
  refine ⟨g4, g5.trans (by rw [noted, h3]), fun hd hn => ?_⟩
  rw [hd]
  refine mismatchReading_agrees ?_
  rw [updAo_at]
  exact h4.trans hn

/-! ### AO_CHECK_MISMATCH (R449) -/

theorem setLevelR_level (c : Chip) (n : Src) (b : Bool) (r : Raise) : (setLevelR c n b r).flt.srcs[n].level = b := by
  unfold setLevelR
  extract_lets x y d
  split
  next h => exact h
  next =>
    have hd : d.flt.srcs[n].level = b := congrArg Source.level (upd_at c.flt.srcs n _)
    split <;> exact hd

theorem TouchesAo.level {a : Fin 8} {c d : Chip} (h : TouchesAo a c d) (n : Nat) (b : Bool) : TouchesAo a c (levelB d n b) := by
  unfold levelB
  rw [setLevelR_only]
  exact ⟨h.others, h.frame, h.wb⟩

theorem setLevelR_ao (c : Chip) (n : Src) (b : Bool) (r : Raise) : (setLevelR c n b r).ao = c.ao := by
  rw [setLevelR_only]

theorem levelB_ao (c : Chip) (n : Nat) (b : Bool) (a : Fin 8) : (levelB c n b).ao[a] = c.ao[a] :=
  congrArg (·[a]) (setLevelR_ao ..)

/-- What a step of an output keeps. -/
def stepKept (x : Ao) : Nat × Bool × Bool × Bool × Bool := (x.span, x.checkfail, x.enabled, x.spanbusy, x.safehold)

theorem aoState_kept (c : Chip) (a : Fin 8) : stepKept (aoState c a).ao[a] = stepKept c.ao[a] := by
  unfold aoState
  extract_lets x row safe code owned newSafe
  rw [updAo_at]
  cases newSafe <;> rfl

/-- An output whose check failed is at mid-scale (Table 15-2). -/
theorem aoState_failed {c : Chip} {a : Fin 8} (h : c.ao[a].checkfail = true) : (aoState c a).ao[a].code = 0x8000 := by
  have hr : aoRow c a = 1 := if_pos h
  unfold aoState
  rw [hr]
  exact congrArg Ao.code (updAo_at ..)

theorem touchesAo_aoState (c : Chip) (a : Fin 8) : TouchesAo a c (aoState c a) := touchesAo_updAo ..

/-- The failed output, its source asserted. -/
def failed (c : Chip) (a : Fin 8) : Chip := levelB (updAo c a (fun x => { x with checkfail := true, enabled := false })) (482 + 3 * a.val) true

theorem touchesAo_failed (c : Chip) (a : Fin 8) : TouchesAo a c (failed c a) := (touchesAo_updAo ..).level ..

theorem failed_kept (c : Chip) (a : Fin 8) : stepKept (failed c a).ao[a] = (c.ao[a].span, true, false, c.ao[a].spanbusy, c.ao[a].safehold) := by
  unfold failed
  rw [levelB_ao, updAo_at]
  rfl

theorem failed_level (c : Chip) (a : Fin 8) : (failed c a).flt.srcs[srcN (482 + 3 * a.val)].level = true := setLevelR_level ..

theorem failed_result (c : Chip) (e : Entry) (a : Fin 8) : spanResult (failed c a) e a = spanResult c e a := by
  unfold spanResult failed
  rw [levelB_ao, updAo_at]

theorem failed_tick (c : Chip) (a : Fin 8) : (failed c a).tick = c.tick := congrArg (·.2.1) (touchesAo_failed c a).frame

theorem retire_wb {c d : Chip} (hw : d.wb = c.wb) (ht : d.tick = c.tick) (k : Key) (st n : Nat) (r : Word) :
    (retire d k st n r).wb = (retire c k st n r).wb := by
  have hf : findEntry d k = findEntry c k := by rw [findEntry, hw, findEntry]
  unfold retire retireAt
  rw [hf, ht]
  cases findEntry c k with
  | none => exact hw
  | some e =>
    dsimp only
    cases e.marker with
    | none => simp only [retireOne, updEntry, hw]
    | some m => simp only [retireOne, updEntry, hw]

/-- The SPANCHANGE that holds an output, ACTIVE or SUSPENDED. -/
def heldSpan (c : Chip) (a : Fin 8) : Option Entry :=
  c.wb.entries.find? (fun e => opcodeOf e = 0x52 && targetOf e = 68 + a.val && (e.state = .active || e.state = .suspended) && decide (0 < e.ckpt))

section
variable {c : Chip} {a : Fin 8} (hs : serving c = true)
include hs

theorem aoCheckMismatch_free (h : heldSpan c a = none) : aoCheckMismatch c a = aoState (failed c a) a := by
  unfold aoCheckMismatch
  rw [if_pos hs, show List.find? _ c.wb.entries = none from h]
  rfl

theorem aoCheckMismatch_held {e : Entry} (h : heldSpan c a = some e) :
    aoCheckMismatch c a = aoState (spanEnd (retire (failed c a) (keyOf e) stFaulted 0x5206 (spanResult c e a)) a) a := by
  unfold aoCheckMismatch
  rw [if_pos hs, show List.find? _ c.wb.entries = some e from h, ← failed_result]
  rfl

end

/-- Output a has failed its check, from c to d. -/
structure CheckFailed (c : Chip) (a : Fin 8) (d : Chip) : Prop where
  others : ∀ b : Fin 8, b ≠ a → d.ao[b] = c.ao[b]
  frame : frame d = frame c
  checkfail : d.ao[a].checkfail = true
  enabled : d.ao[a].enabled = false
  span : d.ao[a].span = c.ao[a].span
  level : d.flt.srcs[srcN (482 + 3 * a.val)].level = true

theorem checkFailed_failed (c : Chip) (a : Fin 8) : CheckFailed c a (failed c a) := by
  have hf := failed_kept c a
  simp only [stepKept, Prod.mk.injEq] at hf
  exact ⟨(touchesAo_failed c a).others, (touchesAo_failed c a).frame, hf.2.1, hf.2.2.1, hf.1, failed_level c a⟩

section
variable {c d : Chip} {a : Fin 8} (h : CheckFailed c a d)
include h

theorem CheckFailed.retire (k : Key) (st n : Nat) (r : Word) : CheckFailed c a (retire d k st n r) := by
  rw [retire_only]
  exact ⟨h.others, h.frame, h.checkfail, h.enabled, h.span, h.level⟩

theorem CheckFailed.update {f : Ao → Ao} (hf : ∀ x, (f x).checkfail = x.checkfail ∧ (f x).enabled = x.enabled ∧ (f x).span = x.span) :
    CheckFailed c a (updAo d a f) := by
  have ht := touchesAo_updAo d a f
  refine ⟨fun b hb => (ht.others b hb).trans (h.others b hb), h.frame, ?_, ?_, ?_, h.level⟩
  · exact (congrArg Ao.checkfail (updAo_at d a f)).trans ((hf _).1.trans h.checkfail)
  · exact (congrArg Ao.enabled (updAo_at d a f)).trans ((hf _).2.1.trans h.enabled)
  · exact (congrArg Ao.span (updAo_at d a f)).trans ((hf _).2.2.trans h.span)

theorem CheckFailed.aoState : CheckFailed c a (aoState d a) := by
  unfold Machine.aoState
  extract_lets x row safe code owned newSafe
  refine h.update fun x => ?_
  cases newSafe <;> exact ⟨rfl, rfl, rfl⟩

end

theorem aoCheckMismatch_fails {c : Chip} {a : Fin 8} (hs : serving c = true) :
    CheckFailed c a (aoCheckMismatch c a) ∧ (aoCheckMismatch c a).ao[a].code = 0x8000 := by
  cases hh : heldSpan c a with
  | none =>
    rw [aoCheckMismatch_free hs hh]
    exact ⟨(checkFailed_failed c a).aoState, aoState_failed (checkFailed_failed c a).checkfail⟩
  | some e =>
    rw [aoCheckMismatch_held hs hh]
    have hd : CheckFailed c a (spanEnd (retire (failed c a) (keyOf e) stFaulted 0x5206 (spanResult c e a)) a) :=
      ((checkFailed_failed c a).retire ..).update fun x => ⟨rfl, rfl, rfl⟩
    exact ⟨hd.aoState, aoState_failed hd.checkfail⟩

theorem aoCheckMismatch_no_span {c : Chip} {a : Fin 8} (hs : serving c = true) (h : heldSpan c a = none) :
    (aoCheckMismatch c a).wb = c.wb ∧ (aoCheckMismatch c a).ao[a].spanbusy = c.ao[a].spanbusy := by
  have hk := (aoState_kept (failed c a) a).trans (failed_kept c a)
  simp only [stepKept, Prod.mk.injEq] at hk
  rw [aoCheckMismatch_free hs h]
  exact ⟨(touchesAo_failed c a).wb, hk.2.2.2.1⟩

/-- The end of a SPANCHANGE sequence, seen after the step of the output. -/
theorem aoState_spanEnd (d : Chip) (a : Fin 8) :
    (aoState (spanEnd d a) a).ao[a].spanbusy = false ∧ (aoState (spanEnd d a) a).ao[a].safehold = true ∧ (aoState (spanEnd d a) a).wb = d.wb := by
  have hk := aoState_kept (spanEnd d a) a
  have he : (spanEnd d a).ao[a] = { d.ao[a] with spanbusy := false, safehold := true } := updAo_at ..
  rw [he] at hk
  simp only [stepKept, Prod.mk.injEq] at hk
  exact ⟨hk.2.2.2.1, hk.2.2.2.2, rfl⟩

theorem aoCheckMismatch_span {c : Chip} {a : Fin 8} {e : Entry} (hs : serving c = true) (h : heldSpan c a = some e) :
    (aoCheckMismatch c a).ao[a].spanbusy = false ∧ (aoCheckMismatch c a).ao[a].safehold = true ∧
      (aoCheckMismatch c a).wb = (retire c (keyOf e) 5 0x5206 (spanResult c e a)).wb := by
  rw [aoCheckMismatch_held hs h]
  obtain ⟨h1, h2, h3⟩ := aoState_spanEnd (retire (failed c a) (keyOf e) stFaulted 0x5206 (spanResult c e a)) a
  exact ⟨h1, h2, h3.trans (retire_wb (touchesAo_failed c a).wb (failed_tick c a) ..)⟩

end Sys2Proof.Proofs

open Sys2Proof Sys2Proof.Machine Sys2Proof.Proofs

/-- Settles O53: the reading of the monitor and the mismatch of an output's copies. -/
theorem analogMonitorsAct : Obligations.AnalogMonitorsAct := by
  intro s dt a m lim w c x at_ others span hs
  refine ⟨fun ho ht hd => ?_, ?_⟩
  · have hi : InSlot c a := ⟨hs, ho, ht, hd⟩
    have hc := touchesAo_monitorReading m lim hi
    obtain ⟨h1, h2, h3⟩ := monitorReading_code m lim hi
    have hm : m.val * 16 = 16 * m.val := Nat.mul_comm ..
    refine ⟨_, runBlock_of_leaves (f := fun c => monitorReading c a m lim) rfl (leaveFace_of_frame hc.frame), hc.others, hm ▸ h1, h2, h3,
      fun hw hl he hg => ?_⟩
    have hn : counts c a = true := by
      unfold counts
      rw [show c.ao[a].own = some w from hw]
      exact Bool.and_eq_true_iff.mpr ⟨Bool.and_eq_true_iff.mpr ⟨decide_eq_true hl, decide_eq_true he⟩, decide_eq_true hg⟩
    obtain ⟨g1, g2, g3⟩ := monitorReading_counts m lim hi hn
    refine ⟨g1, hm ▸ g2, fun ha hx => g3 (decide_eq_false (Nat.not_lt.mpr ?_)) hx⟩
    rw [hm]
    exact ha
  · obtain ⟨h, hcode⟩ := aoCheckMismatch_fails (c := c) (a := a) hs
    exact ⟨_, runBlock_of_leaves (f := fun c => aoCheckMismatch c a) rfl (leaveFace_of_frame h.frame), h.others, h.checkfail, h.enabled, hcode,
      h.span, h.level, aoCheckMismatch_no_span hs, fun e he => aoCheckMismatch_span hs he⟩
end

