-- ==== Sys2Proof/Proofs/HopperChecks.lean ====
section
/-! READBACK_TRIP, READBACK_AGREE and SCHEDULER_MISMATCH (R356 to R358, R369). -/

namespace Sys2Proof.Proofs
open Sys2Proof.Machine

/-! ### A source asserts and its owner hears of it (R509) -/

/-- Source n asserts, and the owner of an object gets event 28. -/
def alarmed (c : Chip) (n : Nat) (i : ObjIx) : Chip := notifyObj (levelB c n true) i 28

section
variable (c : Chip) (n : Nat) (i : ObjIx)

theorem levelB_rest (b : Bool) : (levelB c n b).wb = c.wb ∧ (levelB c n b).outs = c.outs ∧ (levelB c n b).banks = c.banks ∧
    frame (levelB c n b) = frame c := by
  unfold levelB
  rw [setLevelR_only]
  exact ⟨rfl, rfl, rfl, rfl⟩

theorem alarmed_wb : (alarmed c n i).wb = c.wb := (levelB_rest c n true).1
theorem alarmed_outs : (alarmed c n i).outs = c.outs := (levelB_rest c n true).2.1
theorem alarmed_banks : (alarmed c n i).banks = c.banks := (levelB_rest c n true).2.2.1
theorem alarmed_frame : frame (alarmed c n i) = frame c := (levelB_rest c n true).2.2.2
theorem alarmed_level : (alarmed c n i).flt.srcs[srcN n].level = true := setLevelR_level c ..

end

/-! ### The end of running events, then the balls -/

/-- The members of a bank depend on the object words alone. -/
theorem members_of_frame {c d : Chip} (h : frame d = frame c) (b : Fin 8) : members d b = members c b := by
  have hm : d.mem = c.mem := congrArg (fun f => f.2.2.2.1) h
  unfold members outcfg act
  rw [hm]

theorem endRun_at (c : Chip) (o : Fin 24) (st n : Nat) (b : Bool) : (endRun c o st n b).outs[o] = endedOut st n b c.tick c.outs[o] :=
  (congrArg (·[o]) (endRun_outs ..)).trans (upd_at ..)

/-- The running events of outputs end. -/
def endRuns (c : Chip) (l : List (Fin 24)) (st n : Nat) : Chip := l.foldl (fun d o => endRun d o st n false) c

theorem outRest_endRuns (c : Chip) (l : List (Fin 24)) (st n : Nat) : outRest (endRuns c l st n) = outRest c :=
  foldl_fixed outRest (fun d o => endRun d o st n false) (fun _ _ => outRest_endRun ..) l c

theorem endRuns_out (c : Chip) {l : List (Fin 24)} (hl : l.Nodup) (st n : Nat) (p : Fin 24) :
    (endRuns c l st n).outs[p] = if p ∈ l then endedOut st n false c.tick c.outs[p] else c.outs[p] := by
  refine foldl_each (fun d : Chip => d.tick = c.tick) (fun d p => d.outs[p]) (fun _ x => endedOut st n false c.tick x) ?_ ?_ ?_ l hl c rfl p
  · exact fun d p h => (frame_tick (frame_of_hop (hopRest_of_out (outRest_endRun d p st n false)))).trans h
  · exact fun d p h => (endRun_at ..).trans (by rw [h])
  · exact fun d p q _ h => endRun_others (Ne.symm h) ..

theorem members_nodup (c : Chip) (b : Fin 8) : (members c b).Nodup := (List.nodup_finRange 24).filter _

/-- An output whose events are untouched, and which is not tripped anew. -/
def SameOut (x y : OutSt) : Prop := y.run = x.run ∧ y.q = x.q ∧ y.ring = x.ring ∧ y.trip = x.trip

theorem sameOut_driven (t : Nat) (x : OutSt) : SameOut x (drivenOut t x) :=
  let ⟨h1, h2, h3, h4, _⟩ := drivenOut_kept t x
  ⟨h1, h2, h3, h4⟩

/-! ### READBACK_TRIP (R357) -/

/-- An output that trips. -/
def trippedOut (x : OutSt) : OutSt := { x with trip := true, rbBad := true, trips := wrapInc16 x.trips }

/-- A bank that trips. -/
def trippedBank (y : BankSt) : BankSt := { y with trip := true, rbBad := true, trips := wrapInc16 y.trips }

section
variable {c : Chip} {o : Fin 24} {b : Fin 8}

theorem outTrip_supervised (h : supervised c (ixOut o) c.outs[o].trip c.outs[o].chg (objBase (.out o)) = true) :
    outTrip c o = driveAll (endRun (alarmed (updOut c o trippedOut) (320 + 3 * o.val) (ixOut o)) o 5 0x3010 false) := if_pos h

theorem bankTrip_supervised (h : supervised c (ixHsb b) c.banks[b].trip c.banks[b].chg (objBase (.hsb b)) = true) :
    bankTrip c b = driveAll (endRuns (alarmed (updBank c b trippedBank) (392 + 3 * b.val) (ixHsb b)) (members c b) 5 0x3011) := by
  refine (if_pos h).trans ?_
  have hm : members (alarmed (updBank c b trippedBank) (392 + 3 * b.val) (ixHsb b)) b = members c b := members_of_frame (alarmed_frame ..) b
  rw [← hm]
  rfl

/-- A tripped ball is not supervised (R356). -/
theorem supervised_tripped (i : ObjIx) (t n : Nat) : supervised c i true t n = false := by
  unfold supervised
  rw [Bool.not_true, Bool.and_false, Bool.false_and]

/-- A tripped output's pin that disagrees brings its condition back (R358). -/
theorem outTrip_tripped (ht : c.outs[o].trip = true) (hs : serving c = true) (ho : (ownE c (ixOut o)).st = .owned) :
    outTrip c o = levelB (updOut c o (fun x => { x with rbBad := true })) (320 + 3 * o.val) true := by
  refine (if_neg ?_).trans (if_pos ?_)
  · rw [ht, supervised_tripped]
    exact Bool.false_ne_true
  · rw [ht, hs, decide_eq_true ho]
    rfl

theorem bankTrip_tripped (ht : c.banks[b].trip = true) (hs : serving c = true) (ho : (ownE c (ixHsb b)).st = .owned) :
    bankTrip c b = levelB (updBank c b (fun x => { x with rbBad := true })) (392 + 3 * b.val) true := by
  refine (if_neg ?_).trans (if_pos ?_)
  · rw [ht, supervised_tripped]
    exact Bool.false_ne_true
  · rw [ht, hs, decide_eq_true ho]
    rfl

/-- What a trip of output o leaves of the rest of the chip. -/
theorem outTrip_rest (h : supervised c (ixOut o) c.outs[o].trip c.outs[o].chg (objBase (.out o)) = true) :
    (outTrip c o).wb = c.wb ∧ frame (outTrip c o) = frame c ∧ (outTrip c o).flt.srcs[srcN (320 + 3 * o.val)].level = true := by
  rw [outTrip_supervised h]
  have hr := (hopRest_driveAll _).trans (hopRest_of_out
    (outRest_endRun (alarmed (updOut c o trippedOut) (320 + 3 * o.val) (ixOut o)) o 5 0x3010 false))
  refine ⟨(wb_of_hop hr).trans (alarmed_wb ..), (frame_of_hop hr).trans (alarmed_frame ..), ?_⟩
  rw [flt_of_hop hr]
  exact alarmed_level ..

theorem outTrip_others (h : supervised c (ixOut o) c.outs[o].trip c.outs[o].chg (objBase (.out o)) = true) {p : Fin 24} (hp : p ≠ o) :
    SameOut c.outs[p] (outTrip c o).outs[p] := by
  rw [outTrip_supervised h, driveAll_out, endRun_others hp, alarmed_outs, updOut_outs, upd_other _ _ hp]
  exact sameOut_driven ..

theorem outTrip_at (h : supervised c (ixOut o) c.outs[o].trip c.outs[o].chg (objBase (.out o)) = true) :
    ∃ t : Nat, (outTrip c o).outs[o] = drivenOut t (endedOut 5 0x3010 false c.tick (trippedOut c.outs[o])) := by
  have ht : (alarmed (updOut c o trippedOut) (320 + 3 * o.val) (ixOut o)).tick = c.tick := frame_tick (alarmed_frame ..)
  rw [outTrip_supervised h]
  refine ⟨_, (driveAll_out ..).trans (congrArg (drivenOut _) ((endRun_at ..).trans ?_))⟩
  rw [ht, alarmed_outs, updOut_outs, upd_at]

/-- What a trip of bank b leaves of the rest of the chip. -/
theorem bankTrip_rest (h : supervised c (ixHsb b) c.banks[b].trip c.banks[b].chg (objBase (.hsb b)) = true) :
    (bankTrip c b).wb = c.wb ∧ frame (bankTrip c b) = frame c ∧ (bankTrip c b).flt.srcs[srcN (392 + 3 * b.val)].level = true ∧
      (bankTrip c b).banks[b].trip = true ∧ (bankTrip c b).banks[b].trips = wrapInc16 c.banks[b].trips := by
  rw [bankTrip_supervised h]
  have ho := outRest_endRuns (alarmed (updBank c b trippedBank) (392 + 3 * b.val) (ixHsb b)) (members c b) 5 0x3011
  have hr := (hopRest_driveAll _).trans (hopRest_of_out ho)
  have hb := driveAll_bank (endRuns (alarmed (updBank c b trippedBank) (392 + 3 * b.val) (ixHsb b)) (members c b) 5 0x3011) b
  rw [banks_of_out ho, alarmed_banks, updBank_at] at hb
  simp only [bankKept, Prod.mk.injEq] at hb
  refine ⟨(wb_of_hop hr).trans (alarmed_wb ..), (frame_of_hop hr).trans (alarmed_frame ..), ?_, hb.2.1, hb.2.2.2.2.2⟩
  rw [flt_of_hop hr]
  exact alarmed_level ..

theorem bankTrip_out (h : supervised c (ixHsb b) c.banks[b].trip c.banks[b].chg (objBase (.hsb b)) = true) (p : Fin 24) :
    ∃ t : Nat, (bankTrip c b).outs[p] = drivenOut t (if p ∈ members c b then endedOut 5 0x3011 false c.tick c.outs[p] else c.outs[p]) := by
  have ht : (alarmed (updBank c b trippedBank) (392 + 3 * b.val) (ixHsb b)).tick = c.tick := frame_tick (alarmed_frame ..)
  rw [bankTrip_supervised h]
  refine ⟨_, (driveAll_out ..).trans (congrArg (drivenOut _) ((endRuns_out _ (members_nodup c b) ..).trans ?_))⟩
  rw [ht, alarmed_outs]
  rfl

/-! ### SCHEDULER_MISMATCH (R369) -/

/-- Output o with its mismatch held and its source asserted. -/
def mismatched (c : Chip) (o : Fin 24) : Chip := levelB (updOut c o (fun x => { x with mismatch := true })) (322 + 3 * o.val) true

/-- An output that the check disables. -/
def offOut (x : OutSt) : OutSt := { x with enabled := false, baseOk := false, baseProv := false }

theorem outCheck_is (hn : c.isN = false) : outCheck c o = driveAll (updOut (retireAll (mismatched c o) o 5 0x3019) o offOut) :=
  if_neg (Bool.eq_false_iff.mp hn)

/-- A bank with its mismatch held, disabled, its source asserted. -/
def mismatchedBank (c : Chip) (b : Fin 8) : Chip :=
  levelB (updBank c b (fun x => { x with mismatch := true, enabled := false })) (394 + 3 * b.val) true

theorem bankCheck_is (hn : c.isN = false) : bankCheck c b = driveAll (endRuns (mismatchedBank c b) (members c b) 5 0x3019) := by
  refine (if_neg (Bool.eq_false_iff.mp hn)).trans ?_
  have hm : members (mismatchedBank c b) b = members c b := members_of_frame (levelB_rest ..).2.2.2 b
  rw [← hm]
  rfl

theorem retirePending_mismatch (c : Chip) (o : Fin 24) (q : HEv → Bool) (st n : Nat) :
    (retirePending c o q st n).outs[o].mismatch = c.outs[o].mismatch := by
  rw [retirePending_outs, upd_at]
  exact foldl_fixed OutSt.mismatch (dropped st n c.tick) (fun _ _ => rfl) _ _

theorem endedOut_mismatch (st n : Nat) (b : Bool) (t : Nat) (x : OutSt) : (endedOut st n b t x).mismatch = x.mismatch := by
  unfold endedOut
  split <;> rfl

theorem retireAll_mismatch (c : Chip) (o : Fin 24) (st n : Nat) : (retireAll c o st n).outs[o].mismatch = c.outs[o].mismatch := by
  unfold retireAll
  split
  · exact retirePending_mismatch ..
  · refine (retirePending_mismatch ..).trans ?_
    rw [endRun_at, endedOut_mismatch]
    exact retirePending_mismatch ..

theorem outCheck_rest (hn : c.isN = false) : (outCheck c o).wb = c.wb ∧ frame (outCheck c o) = frame c := by
  rw [outCheck_is hn]
  have hr := (hopRest_driveAll _).trans ((hopRest_updOut _ o offOut).trans (hopRest_of_out (outRest_retireAll (mismatched c o) o 5 0x3019)))
  exact ⟨(wb_of_hop hr).trans (levelB_rest ..).1, (frame_of_hop hr).trans (levelB_rest ..).2.2.2⟩

theorem outCheck_at (hn : c.isN = false) : (outCheck c o).outs[o].enabled = false ∧ (outCheck c o).outs[o].mismatch = true ∧
    (outCheck c o).outs[o].run = none ∧ (outCheck c o).outs[o].q = [] := by
  obtain ⟨hrun, hq⟩ := retireAll_empty (mismatched c o) o 5 0x3019
  have hm : (retireAll (mismatched c o) o 5 0x3019).outs[o].mismatch = true := by
    rw [retireAll_mismatch]
    unfold mismatched
    rw [(levelB_rest ..).2.1, updOut_outs, upd_at]
  rw [outCheck_is hn, driveAll_out, updOut_at]
  obtain ⟨h1, h2, -, -, h5, h6, -⟩ := drivenOut_kept (updOut (retireAll (mismatched c o) o 5 0x3019) o offOut).tick
    (offOut (retireAll (mismatched c o) o 5 0x3019).outs[o])
  exact ⟨h5, h6.trans hm, h1.trans hrun, h2.trans hq⟩

theorem outCheck_others (hn : c.isN = false) {p : Fin 24} (hp : p ≠ o) : SameOut c.outs[p] (outCheck c o).outs[p] := by
  rw [outCheck_is hn, driveAll_out, updOut_outs, upd_other _ _ hp, retireAll_others hp]
  unfold mismatched
  rw [(levelB_rest ..).2.1, updOut_outs, upd_other _ _ hp]
  exact sameOut_driven ..

theorem bankCheck_rest (hn : c.isN = false) : (bankCheck c b).wb = c.wb ∧ frame (bankCheck c b) = frame c ∧
    (bankCheck c b).banks[b].enabled = false ∧ (bankCheck c b).banks[b].mismatch = true := by
  rw [bankCheck_is hn]
  have ho := outRest_endRuns (mismatchedBank c b) (members c b) 5 0x3019
  have hr := (hopRest_driveAll _).trans (hopRest_of_out ho)
  have hb := driveAll_bank (endRuns (mismatchedBank c b) (members c b) 5 0x3019) b
  rw [banks_of_out ho, mismatchedBank, (levelB_rest ..).2.2.1, updBank_at] at hb
  simp only [bankKept, Prod.mk.injEq] at hb
  exact ⟨(wb_of_hop hr).trans (levelB_rest ..).1, (frame_of_hop hr).trans (levelB_rest ..).2.2.2, hb.1, hb.2.2.2.1⟩

theorem bankCheck_out (hn : c.isN = false) (p : Fin 24) :
    ∃ t : Nat, (bankCheck c b).outs[p] = drivenOut t (if p ∈ members c b then endedOut 5 0x3019 false c.tick c.outs[p] else c.outs[p]) := by
  have ht : (mismatchedBank c b).tick = c.tick := frame_tick (levelB_rest ..).2.2.2
  rw [bankCheck_is hn]
  refine ⟨_, (driveAll_out ..).trans (congrArg (drivenOut _) ((endRuns_out _ (members_nodup c b) ..).trans ?_))⟩
  rw [ht, mismatchedBank, (levelB_rest ..).2.1]
  rfl

end

/-- An output whose running event a bank ends. -/
theorem driven_ended_member {t u st n : Nat} {x y : OutSt} {P : Prop} [Decidable P] (h : y = drivenOut t (if P then endedOut st n false u x else x)) :
    (P → y.run = none ∧ y.q = x.q) ∧ (¬P → SameOut x y) := by
  subst h
  refine ⟨fun hp => ?_, fun hp => ?_⟩
  · rw [if_pos hp]
    obtain ⟨h1, h2, -⟩ := drivenOut_kept t (endedOut st n false u x)
    exact ⟨h1.trans (endedOut_run ..), h2.trans (endedOut_kept ..).1⟩
  · rw [if_neg hp]
    exact sameOut_driven ..

/-- The tripped output after its trip. -/
theorem driven_ended_tripped {t u : Nat} {x y : OutSt} (h : y = drivenOut t (endedOut 5 0x3010 false u (trippedOut x))) :
    y.trip = true ∧ y.level = false ∧ y.trips = (x.trips + 1) % 65536 ∧ y.run = none ∧ y.q = x.q ∧
      ∀ r : HRun, x.run = some r → y.ring = x.ring ++ [{ key := r.key, status := 5, detail := 0x3010, tick := u, recovered := false }] := by
  subst h
  obtain ⟨h1, h2, h3, h4, -, -, h7, -⟩ := drivenOut_kept t (endedOut 5 0x3010 false u (trippedOut x))
  obtain ⟨g1, g2, g3, -⟩ := endedOut_kept 5 0x3010 false u (trippedOut x)
  refine ⟨h4.trans g2, (drivenOut_level ..).trans ?_, h7.trans g3, h1.trans (endedOut_run ..), h2.trans g1, fun r hr => ?_⟩
  · rw [endedOut_run]
    rfl
  · exact h3.trans (endedOut_ring hr)

end Sys2Proof.Proofs

open Sys2Proof Sys2Proof.Machine Sys2Proof.Proofs

/-- Settles O51: trips, their pins, and the mismatch of the scheduler's copies. -/
theorem hopperChecksAct : Obligations.HopperChecksAct := by
  intro s dt o b
  refine ⟨fun h => ?_, fun h => ?_, fun ht => ⟨?_, fun hs ho => ?_⟩, fun ht => ⟨?_, fun hs ho => ?_⟩, fun hn => ⟨?_, ?_⟩, fun hn i => ?_⟩
  · obtain ⟨hwb, hf, hl⟩ := outTrip_rest h
    obtain ⟨t, ht⟩ := outTrip_at h
    obtain ⟨h1, h2, h3, h4, h5, h6⟩ := driven_ended_tripped ht
    exact ⟨_, runBlock_of_leaves (f := fun c => outTrip c o) rfl (leaveFace_of_frame hf), h1, h2, h3, h4, h5, hl, h6,
      fun p hp => outTrip_others h hp, hwb⟩
  · obtain ⟨hwb, hf, hl, h1, h2⟩ := bankTrip_rest h
    exact ⟨_, runBlock_of_leaves (f := fun c => bankTrip c b) rfl (leaveFace_of_frame hf), h1, h2, hl,
      fun p hp => (driven_ended_member (bankTrip_out h p).choose_spec).1 hp, fun p hp => (driven_ended_member (bankTrip_out h p).choose_spec).2 hp, hwb⟩
  · exact runBlock_of_leaves (f := fun c => if c.outs[o].trip then outAgree c o else c) (if_pos ht) (leaveFace_of_frame (levelB_rest ..).2.2.2)
  · exact runBlock_of_leaves (f := fun c => outTrip c o) (outTrip_tripped ht hs ho) (leaveFace_of_frame (levelB_rest ..).2.2.2)
  · exact runBlock_of_leaves (f := fun c => if c.banks[b].trip then bankAgree c b else c) (if_pos ht) (leaveFace_of_frame (levelB_rest ..).2.2.2)
  · exact runBlock_of_leaves (f := fun c => bankTrip c b) (bankTrip_tripped ht hs ho) (leaveFace_of_frame (levelB_rest ..).2.2.2)
  · obtain ⟨hwb, hf⟩ := outCheck_rest (o := o) hn
    obtain ⟨h1, h2, h3, h4⟩ := outCheck_at (o := o) hn
    exact ⟨_, runBlock_of_leaves (f := fun c => outCheck c o) rfl (leaveFace_of_frame hf), h1, h2, h3, h4, fun p hp => outCheck_others hn hp, hwb⟩
  · obtain ⟨hwb, hf, h1, h2⟩ := bankCheck_rest (b := b) hn
    exact ⟨_, runBlock_of_leaves (f := fun c => bankCheck c b) rfl (leaveFace_of_frame hf), h1, h2,
      fun p hp => (driven_ended_member (bankCheck_out hn p).choose_spec).2 hp,
      fun p hp => ((driven_ended_member (bankCheck_out hn p).choose_spec).1 hp).1, hwb⟩
  · cases i with
    | out o => exact runBlock_of_leaves (f := fun c => outCheck c o) (if_pos hn) rfl
    | hsb b => exact runBlock_of_leaves (f := fun c => bankCheck c b) (if_pos hn) rfl
end

