-- ==== Sys2Proof/Proofs/HopperEvents.lean ====
section
/-! EVENT_START, EVENT_END, BANK_LEAD_START and SERIALIZE_TIMEOUT (R351, R352, R354, R355). -/

namespace Sys2Proof.Proofs
open Sys2Proof.Machine

/-! ### Recomputed deadlines (R350) -/

/-- An output with its head's and its running event's deadlines computed anew. -/
def recomputed (c : Chip) (o : Fin 24) (x : OutSt) : OutSt :=
  { x with q := (match x.q with
             | [] => []
             | e :: t => startDeadline c o e :: t.map (fun e => if e.held || e.jumped then e else { e with deadline := none, gated := false })),
           run := x.run.map (endDeadline c o) }

theorem setDeadline_key (t : Nat) (e : HEv) (d : Nat) (g : Bool) : (setDeadline t e d g).key = e.key := by
  unfold setDeadline
  split <;> rfl

theorem startDeadline_key (c : Chip) (o : Fin 24) (e : HEv) : (startDeadline c o e).key = e.key := by
  unfold startDeadline
  split
  · rfl
  · dsimp only
    cases basePub c o with
    | none => rfl
    | some p =>
      dsimp only
      cases crossTick p e.start with
      | none => exact (apply_ite HEv.key _ _ _).trans (ite_self _)
      | some t =>
        refine (apply_ite HEv.key _ _ _).trans ?_
        rw [setDeadline_key]
        exact ite_self _

/-- What an end deadline leaves of a running event. -/
theorem endDeadline_kept (c : Chip) (o : Fin 24) (r : HRun) :
    (endDeadline c o r).key = r.key ∧ (endDeadline c o r).start = r.start ∧ (endDeadline c o r).cmdc = r.cmdc ∧
      (endDeadline c o r).tick = r.tick ∧ (endDeadline c o r).det = r.det := by
  unfold endDeadline
  split
  · exact ⟨rfl, rfl, rfl, rfl, rfl⟩
  · dsimp only
    split
    · exact ⟨rfl, rfl, rfl, rfl, rfl⟩
    · split <;> exact ⟨rfl, rfl, rfl, rfl, rfl⟩

theorem recompute_outs (c : Chip) (o : Fin 24) :
    (recompute c o).outs = upd c.outs o (fun x => if c.outs[o].wait then x else recomputed c o x) := by
  unfold recompute
  dsimp only
  split
  next h => exact (upd_self rfl).symm
  next h =>
    refine (updOut_outs ..).trans (upd_congr ?_)
    rfl

theorem outRest_recompute (c : Chip) (o : Fin 24) : outRest (recompute c o) = outRest c := by
  unfold recompute
  dsimp only
  split <;> rfl

/-- What a recomputation leaves of an output with a running event. -/
theorem recomputed_kept (c : Chip) (o : Fin 24) (w : Bool) (x : OutSt) {r : HRun} (hr : x.run = some r) :
    ∃ r' : HRun, (if w then x else recomputed c o x).run = some r' ∧
      (r'.key = r.key ∧ r'.start = r.start ∧ r'.cmdc = r.cmdc ∧ r'.tick = r.tick ∧ r'.det = r.det) ∧
      (if w then x else recomputed c o x).q.map (·.key) = x.q.map (·.key) ∧
      (if w then x else recomputed c o x).level = x.level ∧ (if w then x else recomputed c o x).trip = x.trip ∧
      (if w then x else recomputed c o x).fired = x.fired ∧ (if w then x else recomputed c o x).trig = x.trig := by
  cases w with
  | true => exact ⟨r, hr, ⟨rfl, rfl, rfl, rfl, rfl⟩, rfl, rfl, rfl, rfl, rfl⟩
  | false =>
    refine ⟨endDeadline c o r, congrArg (Option.map _) hr, endDeadline_kept .., ?_, rfl, rfl, rfl, rfl⟩
    show (recomputed c o x).q.map (·.key) = _
    unfold recomputed
    cases x.q with
    | nil => rfl
    | cons e t =>
      dsimp only
      rw [List.map_cons, List.map_cons, startDeadline_key, List.map_map]
      refine congrArg (_ :: ·) (List.map_congr_left fun e _ => ?_)
      dsimp only [Function.comp]
      split <;> rfl

/-! ### EVENT_START (R351, R124) -/

/-- The due head of an output outside any bank that may start. -/
structure Starts (c : Chip) (o : Fin 24) (e : HEv) (d : Nat) : Prop where
  reset : inReset c (.obj (ixOut o)) = false
  live : hopLive c = true
  head : ∃ l, c.outs[o].q = e :: l
  deadline : e.deadline = some d
  due : d ≤ c.tick
  after : e.notBefore ≤ c.tick
  gated : e.gated = false
  held : e.held = false
  jumped : e.jumped = false
  alone : outBanken (outcfg c o) = false
  idle : c.outs[o].run = none
  trip : c.outs[o].trip = false
  prov : baseProv c o = false

/-- The running event of a start. -/
def startedRun (c : Chip) (e : HEv) (lost : Bool) : HRun :=
  { key := e.key, start := e.start, cmdc := e.cmdc, tick := c.tick, det := 0, endDl := none, endGated := false, lost := lost }

/-- An output whose head has started. -/
def startedOut (c : Chip) (e : HEv) (x : OutSt) : OutSt :=
  { x with q := x.q.filter (fun y => y.key ≠ e.key), fired := wrapInc16 x.fired, trig := if bit e.cmdc 59 then x.trig + 1 else x.trig,
           run := some (startedRun c e (decide (x.baseOk = false))) }

/-- The journal entry of a started event (R124). -/
def startedEntry (c : Chip) (e : HEv) (d : Nat) : Chip :=
  updEntry c e.key (fun y => { y with started := true, result := pack [(32, 32, c.tick), (16, 16, min (c.tick - d) 65535)] })

theorem frame_startedEntry (c : Chip) (e : HEv) (d : Nat) : frame (startedEntry c e d) = frame c := rfl

section
variable {c : Chip} {o : Fin 24} {e : HEv} {d : Nat} (h : Starts c o e d)
include h

theorem headDue_starts : headDue c o = some e := by
  obtain ⟨l, hl⟩ := h.head
  unfold headDue
  rw [hl]
  dsimp only
  rw [h.deadline]
  dsimp only
  rw [h.gated, decide_eq_true ⟨h.due, h.after⟩]
  rfl

theorem eventEnd_idle : eventEnd c o = c := by
  unfold eventEnd endDue
  rw [h.idle]

theorem startOrder_alone : startOrder c o = [o] := by
  unfold startOrder
  rw [headDue_starts h]
  dsimp only
  rw [h.alone]
  rfl

theorem startEvent_is : startEvent c o e = updOut (startedEntry c e d) o (startedOut c e) := by
  unfold startEvent
  rw [h.deadline, h.jumped, h.held]
  rfl

theorem tryStart_starts : tryStart c o = updOut (startedEntry c e d) o (startedOut c e) := by
  rw [← startEvent_is h]
  unfold tryStart
  rw [headDue_starts h]
  dsimp only
  rw [h.live, h.prov, h.trip, h.alone, h.idle, h.held]
  rfl

theorem eventStart_starts : eventStart c o = driveAll (recompute (updOut (startedEntry c e d) o (startedOut c e)) o) := by
  unfold eventStart
  rw [h.reset, if_neg Bool.false_ne_true]
  dsimp only
  rw [headDue_starts h, h.alone]
  show driveAll (List.foldl recompute (List.foldl tryStart (eventEnd c o) (startOrder (eventEnd c o) o)) (startOrder (eventEnd c o) o)) = _
  rw [eventEnd_idle h, startOrder_alone h]
  show driveAll (recompute (tryStart c o) o) = _
  rw [tryStart_starts h]

theorem eventStart_rest : (eventStart c o).wb = (startedEntry c e d).wb ∧ frame (eventStart c o) = frame c := by
  rw [eventStart_starts h]
  have hr := (hopRest_driveAll _).trans ((hopRest_of_out (outRest_recompute (updOut (startedEntry c e d) o (startedOut c e)) o)).trans
    (hopRest_updOut ..))
  exact ⟨wb_of_hop hr, (frame_of_hop hr).trans (frame_startedEntry ..)⟩

theorem eventStart_others {p : Fin 24} (hp : p ≠ o) : ∃ t : Nat, (eventStart c o).outs[p] = drivenOut t c.outs[p] := by
  rw [eventStart_starts h, driveAll_out, recompute_outs, upd_other _ _ hp, updOut_outs, upd_other _ _ hp]
  exact ⟨_, rfl⟩

theorem eventStart_at : ∃ w : Bool, (eventStart c o).outs[o] = drivenOut c.tick (if w then startedOut c e c.outs[o]
    else recomputed (updOut (startedEntry c e d) o (startedOut c e)) o (startedOut c e c.outs[o])) := by
  rw [eventStart_starts h, driveAll_out, recompute_outs, upd_at, updOut_at]
  have ht : (recompute (updOut (startedEntry c e d) o (startedOut c e)) o).tick = (updOut (startedEntry c e d) o (startedOut c e)).tick :=
    frame_tick (frame_of_hop (hopRest_of_out (outRest_recompute (updOut (startedEntry c e d) o (startedOut c e)) o)))
  rw [ht]
  exact ⟨_, rfl⟩

end

/-- An output's ball that was low and goes high is stamped. -/
theorem drivenOut_chg {t : Nat} {x : OutSt} (hl : x.level = false) (hr : x.run.isSome = true) (ht : x.trip = false) :
    (drivenOut t x).chg = t := by
  unfold drivenOut
  rw [hl, hr, ht]
  rfl

/-! ### EVENT_END (R352) -/

/-- The end of a running TIME event by its length or by MAXON. -/
theorem endDue_time {c : Chip} {o : Fin 24} {r : HRun} (hr : c.outs[o].run = some r) (ha : evAngle r.cmdc = false)
    (ht : r.tick + fld r.cmdc 31 0 ≤ c.tick) : endDue c o = some (if r.lost then 0x3002 else r.det, true) := by
  unfold endDue
  rw [hr]
  dsimp only
  rw [ha, if_neg Bool.false_ne_true, decide_eq_true ht]
  rfl

theorem endDue_maxon {c : Chip} {o : Fin 24} {r : HRun} (hr : c.outs[o].run = some r) (ha : evAngle r.cmdc = false)
    (ht : c.tick < r.tick + fld r.cmdc 31 0) (hm : r.tick + outMaxon (outcfg c o) ≤ c.tick) :
    endDue c o = some (if r.lost then 0x3002 else 0x3003, true) := by
  unfold endDue
  rw [hr]
  dsimp only
  rw [ha, if_neg Bool.false_ne_true, decide_eq_false (Nat.not_le.mpr ht)]
  exact if_pos hm

theorem eventEnd_due {c : Chip} {o : Fin 24} {n : Nat} (h : endDue c o = some (n, true)) : eventEnd c o = endRun c o 1 n true := by
  unfold eventEnd
  rw [h]
  rfl

/-- The balls after a running event has ended. -/
theorem driveAll_endRun (c : Chip) (o : Fin 24) (st n : Nat) (b : Bool) :
    (driveAll (endRun c o st n b)).wb = c.wb ∧ frame (driveAll (endRun c o st n b)) = frame c ∧
      (∀ p : Fin 24, p ≠ o → SameOut c.outs[p] (driveAll (endRun c o st n b)).outs[p]) ∧
      ∃ t : Nat, (driveAll (endRun c o st n b)).outs[o] = drivenOut t (endedOut st n b c.tick c.outs[o]) := by
  have hr := (hopRest_driveAll _).trans (hopRest_of_out (outRest_endRun c o st n b))
  refine ⟨wb_of_hop hr, frame_of_hop hr, fun p hp => ?_, _, (driveAll_out ..).trans (congrArg (drivenOut _) (endRun_at ..))⟩
  rw [driveAll_out, endRun_others hp]
  exact sameOut_driven ..

theorem endedOut_trig {st n t : Nat} {x : OutSt} {r : HRun} (h : x.run = some r) :
    (endedOut st n true t x).trig = if bit r.cmdc 58 then x.trig + 1 else x.trig := by
  rw [endedOut, h]
  rfl

/-- The output whose running event has ended. -/
theorem driven_ended {t u st n : Nat} {x y : OutSt} {r : HRun} (hr : x.run = some r) (h : y = drivenOut t (endedOut st n true u x)) :
    y.run = none ∧ y.level = false ∧ y.q = x.q ∧ y.trig = (if bit r.cmdc 58 then x.trig + 1 else x.trig) ∧
      y.ring = x.ring ++ [{ key := r.key, status := st, detail := n, tick := u, recovered := false }] := by
  subst h
  obtain ⟨h1, h2, h3, -, -, -, -, -, h9, -⟩ := drivenOut_kept t (endedOut st n true u x)
  refine ⟨h1.trans (endedOut_run ..), (drivenOut_level ..).trans ?_, h2.trans (endedOut_kept ..).1, h9.trans (endedOut_trig hr),
    h3.trans (endedOut_ring hr)⟩
  rw [endedOut_run]
  rfl

/-! ### BANK_LEAD_START and SERIALIZE_TIMEOUT (R354, R355) -/

theorem serializeTimeout_late {c : Chip} {o : Fin 24} {e : HEv} {l : List HEv} (hq : c.outs[o].q = e :: l) (hh : e.held = true)
    (ht : e.deadline.getD 0 + hsbSermax (hsbcfg c (outBank (outcfg c o))) ≤ c.tick) :
    serializeTimeout c o = driveAll (evRetireAt c o e.key 6 0x300E c.tick) := by
  unfold serializeTimeout
  rw [hq]
  dsimp only
  rw [hh, decide_eq_true ht, Bool.true_or]
  rfl

theorem driveAll_evRetireAt (c : Chip) (o : Fin 24) (k : Key) (st n t : Nat) :
    (driveAll (evRetireAt c o k st n t)).wb = c.wb ∧ frame (driveAll (evRetireAt c o k st n t)) = frame c ∧
      (∀ p : Fin 24, p ≠ o → SameOut c.outs[p] (driveAll (evRetireAt c o k st n t)).outs[p]) ∧
      ∃ u : Nat, (driveAll (evRetireAt c o k st n t)).outs[o] = drivenOut u (dropped st n t c.outs[o] k) := by
  have hr := (hopRest_driveAll _).trans (hopRest_of_out (outRest_evRetireAt c o k st n t))
  refine ⟨wb_of_hop hr, frame_of_hop hr, fun p hp => ?_, ?_⟩
  · rw [driveAll_out, evRetireAt_outs, upd_other _ _ hp]
    exact sameOut_driven ..
  · rw [driveAll_out, evRetireAt_outs, upd_at]
    exact ⟨_, rfl⟩

/-- The form of EVENT_END for an output whose running event is due. -/
theorem runEventEnd {s : State} {dt n : Nat} {o : Fin 24} {r : HRun} (hr : (found s dt).outs[o].run = some r)
    (he : endDue (found s dt) o = some (n, true)) :
    ∃ t : Chip, exec (.eventEnd dt o) s = .next (ended s dt t) ∧
      (∀ p : Fin 24, p ≠ o → t.outs[p].run = (found s dt).outs[p].run ∧ t.outs[p].q = (found s dt).outs[p].q ∧
        t.outs[p].ring = (found s dt).outs[p].ring) ∧ t.wb = (found s dt).wb ∧
      t.outs[o].run = none ∧ t.outs[o].level = false ∧ t.outs[o].q = (found s dt).outs[o].q ∧
      t.outs[o].trig = (if bit r.cmdc 58 then (found s dt).outs[o].trig + 1 else (found s dt).outs[o].trig) ∧
      t.outs[o].ring = (found s dt).outs[o].ring ++
        [{ key := r.key, status := 1, detail := n, tick := (found s dt).tick, recovered := false }] := by
  obtain ⟨hwb, hf, ho, u, hu⟩ := driveAll_endRun (found s dt) o 1 n true
  obtain ⟨h1, h2, h3, h4, h5⟩ := driven_ended hr hu
  refine ⟨_, runBlock_of_leaves (f := fun c => driveAll (eventEnd c o)) (congrArg driveAll (eventEnd_due he)) (leaveFace_of_frame hf),
    fun p hp => ?_, hwb, h1, h2, h3, h4, h5⟩
  obtain ⟨i1, i2, i3, -⟩ := ho p hp
  exact ⟨i1, i2, i3⟩

end Sys2Proof.Proofs

open Sys2Proof Sys2Proof.Machine Sys2Proof.Proofs
/-- Settles O50: the start, the end and the timeout of an output's events, and a bank's lead. -/
theorem hopperEventsRun : Obligations.HopperEventsRun := by
  intro s dt o b
  refine ⟨fun e l d hx hl hq hd h1 h2 h3 h4 h5 h6 h7 h8 h9 => ?_, fun r hr ha => ?_, fun hb => ?_, fun hb => ?_, fun e l hq hh ht => ?_⟩
  · have h : Starts (found s dt) o e d := ⟨hx, hl, ⟨l, hq⟩, hd, h1, h2, h3, h4, h5, h6, h7, h8, h9⟩
    obtain ⟨hwb, hf⟩ := eventStart_rest h
    obtain ⟨w, hw⟩ := eventStart_at h
    obtain ⟨r, k1, ⟨k2, k3, k4, k5, k6⟩, k7, k8, k9, k10, k11⟩ := recomputed_kept (updOut (startedEntry (found s dt) e d) o
      (startedOut (found s dt) e)) o w (startedOut (found s dt) e (found s dt).outs[o]) rfl
    generalize (if w then startedOut (found s dt) e (found s dt).outs[o] else _) = y at hw k1 k7 k8 k9 k10 k11
    obtain ⟨g1, g2, -, g4, -, -, -, g8, g9, -⟩ := drivenOut_kept (found s dt).tick y
    have ht : y.trip = false := k9.trans h8
    refine ⟨_, r, runBlock_of_leaves (f := fun c => eventStart c o) rfl (leaveFace_of_frame hf), fun p hp => ?_, ?_, k2, k3, k4, k5, k6, ?_, ?_,
      fun hv => ?_, ?_, ?_, hwb⟩
    · obtain ⟨t, ho⟩ := eventStart_others h hp
      rw [ho]
      obtain ⟨i1, i2, i3, -⟩ := sameOut_driven t (found s dt).outs[p]
      exact ⟨i1, i2, i3⟩
    all_goals rw [hw]
    · exact g1.trans k1
    · rw [g2]
      exact k7
    · rw [drivenOut_level, k1, ht]
      rfl
    · exact drivenOut_chg (k8.trans hv) (by rw [k1]; rfl) ht
    · exact g8.trans k10
    · exact g9.trans k11
  · have hends (n : Nat) (he : endDue (found s dt) o = some (n, true)) := runEventEnd (s := s) hr he
    exact ⟨fun ht => hends _ (endDue_time hr ha ht), fun ht hm => hends _ (endDue_maxon hr ha ht hm)⟩
  · exact runBlock_of_leaves (f := fun c => bankLead c b) (if_neg hb) rfl
  · exact runBlock_of_leaves (f := fun c => bankLead c b) (if_pos hb) rfl
  · obtain ⟨hwb, hf, ho, u, hu⟩ := driveAll_evRetireAt (found s dt) o e.key 6 0x300E (found s dt).tick
    obtain ⟨h1, h2, h3, -, -, -, -, -, -, h10⟩ := drivenOut_kept u (dropped 6 0x300E (found s dt).tick (found s dt).outs[o] e.key)
    refine ⟨_, runBlock_of_leaves (f := fun c => serializeTimeout c o) (serializeTimeout_late hq hh ht) (leaveFace_of_frame hf),
      fun p hp => ?_, hwb, ?_, ?_, ?_, ?_⟩
    · obtain ⟨i1, i2, i3, -⟩ := ho p hp
      exact ⟨i1, i2, i3⟩
    all_goals rw [hu]
    · exact h1
    · exact h2
    · exact h10
    · exact h3
end

