-- ==== Sys2Proof/Proofs/CollectorTimers.lean ====
section
/-! The timers of the fault collector (R458, R461, R464), its self check (R482) and the end of a block reset (R475). -/

namespace Sys2Proof.Proofs
open Sys2Proof.Machine

/-! ### A source enters FATAL (Table 16-3, R478) -/

/-- What the Bench decision for source n does to the collector, and what it leaves. -/
structure Decided (c : Chip) (n : Src) (k : Nat) (d : Chip) : Prop where
  srcs : d.flt.srcs = c.flt.srcs
  benched : d.flt.benched = true
  causeSrc : d.flt.causeSrc = n.val
  cause : d.flt.cause = k
  alarm : d.flt.alarmPend = c.flt.alarmPend
  mismatch : d.flt.mismatch = c.flt.mismatch
  frame : frame d = frame c

theorem decided_benchDecision (c : Chip) (n : Src) (k t : Nat) : Decided c n k (benchDecision c n k t) := by
  unfold benchDecision
  dsimp only
  split
  next h => exact ⟨rfl, h, rfl, rfl, rfl, rfl, rfl⟩
  next =>
    rw [notifyEnabled_only]
    exact ⟨rfl, rfl, rfl, rfl, rfl, rfl, rfl⟩

/-- A source after it has entered FATAL. -/
def fatalSrc (s : Source) : Source := { s with st := .fatal, escrun := false }

/-- What the entry of source n into FATAL does. -/
structure Fatal (c : Chip) (n : Src) (k : Nat) (d : Chip) : Prop where
  srcs : d.flt.srcs = upd c.flt.srcs n fatalSrc
  benched : d.flt.benched = true
  causeSrc : d.flt.causeSrc = n.val
  cause : d.flt.cause = k
  alarm : d.flt.alarmPend = true
  mismatch : d.flt.mismatch = c.flt.mismatch
  frame : frame d = frame c

theorem fatal_enterFatal (c : Chip) (n : Src) (k t : Nat) : Fatal c n k (enterFatal c n k t) := by
  obtain ⟨h1, h2, h3, h4, h5, h6, h7⟩ := decided_benchDecision (alarmPend (updSrc c n fatalSrc) n) n k t
  exact ⟨h1, h2, h3, h4, h5, h6, h7⟩

theorem updSrc_at (c : Chip) (n : Src) (f : Source → Source) : (updSrc c n f).flt.srcs[n] = f c.flt.srcs[n] := upd_at ..

/-! ### ESCALATION_DEADLINE (R461, R463) -/

/-- A source that escalates. -/
def escalatedSrc (s : Source) : Source := { s with escrun := false, escalated := true, unack := true }

/-- The part after the escalation of source n, before ESCFATAL. -/
def escalatedChip (c : Chip) (n : Src) : Chip := notify (notify (updSrc c n escalatedSrc) (srcOwner (updSrc c n escalatedSrc) n) 0) 0 5

theorem polW_escalated (c : Chip) (n : Src) : polW (escalatedChip c n) n = polW c n := rfl

/-- No reaction: nothing is applied (Table 16-3). -/
theorem applyReactions_none (c : Chip) (n : Src) (t : Nat) (b e : Bool) : applyReactions c n 0 t b e = c := by
  unfold applyReactions
  simp only [Nat.zero_testBit, Bool.false_eq_true, if_false, Bool.false_and]

section
variable {v c : Chip} {n : Src} (hs : c.flt.srcs[n].st = .contained) (hv : v.flt.srcs[n].escrun = true) (hd : c.flt.srcs[n].deadline ≤ c.tick)
  (hr : collectorRuns c = true) (hp : polEscReact (polW c n) = 0)
include hs hv hd hr hp

theorem escalate_due : escalate v c n =
    let d := if bit (polW c n) 60 then enterFatal (escalatedChip c n) n 3 c.tick else escalatedChip c n
    if c.flt.srcs[n].escrun then d else updSrc d n ackSource := by
  have hf : decide ((escalatedChip c n).flt.srcs[n].st = .fatal) = false := by
    refine decide_eq_false fun h => ?_
    rw [show (escalatedChip c n).flt.srcs[n] = escalatedSrc c.flt.srcs[n] from upd_at ..] at h
    exact nomatch hs.symm.trans h
  unfold escalate
  extract_lets +onlyGivenNames s late c1 c2 w c3 c4
  have h3 : c3 = escalatedChip c n := by
    have hw : w = polW c n := polW_escalated c n
    unfold c3
    rw [hw, hp]
    exact applyReactions_none ..
  have h4 : c4 = if bit (polW c n) 60 then enterFatal (escalatedChip c n) n 3 c.tick else escalatedChip c n := by
    unfold c4
    rw [h3, hf, Bool.not_false, Bool.and_true]
    rfl
  rw [if_pos ⟨hs, hv, hd, hr⟩, h4]
  unfold late s
  cases c.flt.srcs[n].escrun <;> rfl

end

theorem escalate_acknowledged {v c : Chip} {n : Src} (hv : v.flt.srcs[n].escrun = false) : escalate v c n = c := by
  refine if_neg fun h => ?_
  rw [hv] at h
  exact nomatch h.2.1

/-- What the end of an escalation leaves of source n: an acknowledgement of the deadline's tick comes after it (R463). -/
structure Escalated (c : Chip) (n : Src) (d : Chip) : Prop where
  stopped : d.flt.srcs[n].escrun = false
  escalated : d.flt.srcs[n].escalated = true
  unack : d.flt.srcs[n].unack = true
  others : ∀ m : Src, m ≠ n → d.flt.srcs[m] = c.flt.srcs[m]

theorem escalated_chip (c : Chip) (n : Src) : Escalated c n (escalatedChip c n) := by
  have h : (escalatedChip c n).flt.srcs[n] = escalatedSrc c.flt.srcs[n] := upd_at ..
  exact ⟨by rw [h]; rfl, by rw [h]; rfl, by rw [h]; rfl, fun m hm => upd_other _ _ hm⟩

theorem Escalated.fatal {c d : Chip} {n : Src} (h : Escalated c n d) (k t : Nat) : Escalated c n (enterFatal d n k t) := by
  have hs : (enterFatal d n k t).flt.srcs = _ := (fatal_enterFatal d n k t).srcs
  have hn : (enterFatal d n k t).flt.srcs[n] = fatalSrc d.flt.srcs[n] := (congrArg (·[n]) hs).trans (upd_at ..)
  refine ⟨by rw [hn]; rfl, by rw [hn]; exact h.escalated, by rw [hn]; exact h.unack, fun m hm => ?_⟩
  exact ((congrArg (·[m]) hs).trans (upd_other _ _ hm)).trans (h.others m hm)

/-- Without an acknowledgement of the deadline's tick d stays; one acknowledges source n after it. -/
def acknowledged (d : Chip) (n : Src) (running : Bool) : Chip := if running then d else updSrc d n ackSource

/-- What that acknowledgement leaves. -/
structure SameAlarm (c d : Chip) : Prop where
  benched : d.flt.benched = c.flt.benched
  alarm : d.flt.alarmPend = c.flt.alarmPend
  frame : frame d = frame c

theorem acknowledged_same (d : Chip) (n : Src) (b : Bool) : SameAlarm d (acknowledged d n b) := by
  cases b <;> exact ⟨rfl, rfl, rfl⟩

theorem Escalated.acknowledged {c d : Chip} {n : Src} (h : Escalated c n d) (b : Bool) :
    (acknowledged d n b).flt.srcs[n].escrun = false ∧ (acknowledged d n b).flt.srcs[n].escalated = true ∧
      (acknowledged d n b).flt.srcs[n].unack = b ∧ (acknowledged d n b).flt.srcs[n].st = d.flt.srcs[n].st ∧
      ∀ m : Src, m ≠ n → (acknowledged d n b).flt.srcs[m] = c.flt.srcs[m] := by
  cases b with
  | true => exact ⟨h.stopped, h.escalated, h.unack, rfl, h.others⟩
  | false =>
    have ha : (Proofs.acknowledged d n false).flt.srcs[n] = ackSource d.flt.srcs[n] := upd_at ..
    rw [ha]
    exact ⟨rfl, h.escalated, rfl, rfl, fun m hm => (upd_other _ _ hm).trans (h.others m hm)⟩

section
variable {v c : Chip} {n : Src} (hs : c.flt.srcs[n].st = .contained) (hv : v.flt.srcs[n].escrun = true) (hd : c.flt.srcs[n].deadline ≤ c.tick)
  (hr : collectorRuns c = true) (hp : polEscReact (polW c n) = 0)
include hs hv hd hr hp

/-- The deadline without ESCFATAL: the source stays CONTAINED. -/
theorem escalate_stays (hb : bit (polW c n) 60 = false) :
    Escalated c n (escalatedChip c n) ∧ escalate v c n = acknowledged (escalatedChip c n) n c.flt.srcs[n].escrun ∧
      SameAlarm c (escalate v c n) ∧ (escalate v c n).flt.srcs[n].st = .contained := by
  have he : escalate v c n = acknowledged (escalatedChip c n) n c.flt.srcs[n].escrun := by
    rw [escalate_due hs hv hd hr hp, hb]
    rfl
  have hn : (escalatedChip c n).flt.srcs[n] = escalatedSrc c.flt.srcs[n] := upd_at ..
  obtain ⟨h1, h2, h3⟩ := acknowledged_same (escalatedChip c n) n c.flt.srcs[n].escrun
  refine ⟨escalated_chip c n, he, by rw [he]; exact ⟨h1, h2, h3⟩, ?_⟩
  rw [he, ((escalated_chip c n).acknowledged _).2.2.2.1, hn]
  exact hs

/-- The deadline with ESCFATAL: FATAL and the Bench. -/
theorem escalate_fatal (hb : bit (polW c n) 60 = true) :
    let d := enterFatal (escalatedChip c n) n 3 c.tick
    Escalated c n d ∧ escalate v c n = acknowledged d n c.flt.srcs[n].escrun ∧ frame (escalate v c n) = frame c ∧
      (escalate v c n).flt.srcs[n].st = .fatal ∧ (escalate v c n).flt.benched = true ∧ (escalate v c n).flt.alarmPend = true := by
  have he : escalate v c n = acknowledged (enterFatal (escalatedChip c n) n 3 c.tick) n c.flt.srcs[n].escrun := by
    rw [escalate_due hs hv hd hr hp, hb]
    rfl
  have hf := fatal_enterFatal (escalatedChip c n) n 3 c.tick
  have hes := (escalated_chip c n).fatal 3 c.tick
  obtain ⟨h1, h2, h3⟩ := acknowledged_same (enterFatal (escalatedChip c n) n 3 c.tick) n c.flt.srcs[n].escrun
  refine ⟨hes, he, ?_, ?_, ?_, ?_⟩
  all_goals rw [he]
  · exact h3.trans hf.frame
  · rw [(hes.acknowledged _).2.2.2.1, hf.srcs, upd_at]
    rfl
  · exact h1.trans hf.benched
  · exact h2.trans hf.alarm

end

/-! ### QUIET_PERIOD_END and WINDOW_END (R458, R464) -/

/-- A source that has been quiet. -/
def quietSrc (x : Source) : Source :=
  { x with st := .ok, unack := false, pinhold := false, escalated := false, escrun := false, recov := min (x.recov + 1) 65535 }

section
variable {c : Chip} {n : Src} (ha : asserted c.flt.srcs[n] n = false) (hq : c.flt.srcs[n].quiet + polQuiet (timeW c n) ≤ c.tick)
  (hr : c.raised.any (fun r => r.src = n) = false) (hc : collectorRuns c = true)
include ha hq hr hc

theorem quietEnd_corrected (hs : c.flt.srcs[n].st = .corrected) : quietEnd c n = updSrc c n quietSrc := by
  refine (if_pos ⟨.inl hs, ha, hq, hr, hc⟩).trans ?_
  refine if_neg ?_
  rw [hs]
  decide

theorem quietEnd_contained (hs : c.flt.srcs[n].st = .contained) : quietEnd c n = notify (updSrc c n quietSrc) (srcOwner c n) 1 := by
  refine (if_pos ⟨.inr hs, ha, hq, hr, hc⟩).trans ?_
  exact if_pos hs

end

/-! ### COLLECTOR_SELF_CHECK (R482) -/

/-- The source of the self check after its event. -/
def checkedSrc (t : Nat) (s : Source) : Source :=
  { s with events := satInc32 s.events, last := t, level := true, quiet := max s.quiet t, forced := false }

/-- The part that notes a mismatch of the collector's copies. -/
def notedChip (c : Chip) : Chip := if c.flt.mismatch then c else { c with flt := { c.flt with mismatch := true } }

/-- The part before S511 enters FATAL. -/
def checkedChip (c : Chip) : Chip :=
  let d := updSrc (notedChip c) 511 (checkedSrc (notedChip c).tick)
  captureEvent d (evN d 511) d.tick

theorem notedChip_kept (c : Chip) : (notedChip c).flt.srcs = c.flt.srcs ∧ (notedChip c).flt.mismatch = true ∧ frame (notedChip c) = frame c := by
  unfold notedChip
  split
  next h => exact ⟨rfl, h, rfl⟩
  next => exact ⟨rfl, rfl, rfl⟩

theorem captureEvent_kept (c : Chip) (r : Raise) (t : Nat) :
    (captureEvent c r t).flt.srcs = c.flt.srcs ∧ (captureEvent c r t).flt.mismatch = c.flt.mismatch ∧ frame (captureEvent c r t) = frame c := by
  unfold captureEvent
  dsimp only
  split <;> exact ⟨rfl, rfl, rfl⟩

theorem checkedChip_kept (c : Chip) : (∃ t, (checkedChip c).flt.srcs = upd c.flt.srcs 511 (checkedSrc t)) ∧
    (checkedChip c).flt.mismatch = true ∧ frame (checkedChip c) = frame c := by
  unfold checkedChip
  extract_lets d
  obtain ⟨h1, h2, h3⟩ := captureEvent_kept d (evN d 511) d.tick
  obtain ⟨g1, g2, g3⟩ := notedChip_kept c
  exact ⟨⟨_, h1.trans (congrArg (fun v => upd v 511 _) g1)⟩, h2.trans g2, h3.trans g3⟩

theorem selfCheck_is (c : Chip) : selfCheck c =
    if (checkedChip c).flt.srcs[(511 : Src)].st = .fatal then checkedChip c else enterFatal (checkedChip c) 511 2 (checkedChip c).tick := rfl

/-- What the self check leaves of the collector. -/
structure SelfChecked (c d : Chip) : Prop where
  fatal : d.flt.srcs[(511 : Src)].st = .fatal
  mismatch : d.flt.mismatch = true
  bench : c.flt.srcs[(511 : Src)].st ≠ .fatal → d.flt.benched = true ∧ d.flt.causeSrc = 511 ∧ d.flt.cause = 2
  others : ∀ m : Src, m ≠ 511 → d.flt.srcs[m] = c.flt.srcs[m]
  frame : frame d = frame c

theorem selfChecked (c : Chip) : SelfChecked c (selfCheck c) := by
  obtain ⟨⟨t, hs⟩, hm, hf⟩ := checkedChip_kept c
  have hn : (checkedChip c).flt.srcs[(511 : Src)].st = c.flt.srcs[(511 : Src)].st := by rw [hs, upd_at]; rfl
  have ho (m : Src) (h : m ≠ 511) : (checkedChip c).flt.srcs[m] = c.flt.srcs[m] := by rw [hs, upd_other _ _ h]
  rw [selfCheck_is]
  split
  next h => exact ⟨h, hm, fun g => absurd (hn.symm.trans h) g, ho, hf⟩
  next h =>
    obtain ⟨h1, h2, h3, h4, -, h6, h7⟩ := fatal_enterFatal (checkedChip c) 511 2 (checkedChip c).tick
    refine ⟨by rw [h1, upd_at]; rfl, h6.trans hm, fun _ => ⟨h2, h3, h4⟩, fun m g => ?_, h7.trans hf⟩
    rw [h1, upd_other _ _ g]
    exact ho m g

/-! ### BLOCK_RESET_COMPLETE (R475) -/

/-- What the end of a block reset keeps: the power state, the resets still running, the number of entries. -/
def resetKept (c : Chip) : Power × List (Block × Nat) × Nat := (c.pw, c.flt.resets, c.wb.entries.length)

theorem resetKept_setLevelR (c : Chip) (n : Src) (b : Bool) (r : Raise) : resetKept (setLevelR c n b r) = resetKept c := by
  rw [setLevelR_only]
  rfl

theorem resetKept_updEntry (c : Chip) (k : Key) (f : Entry → Entry) : resetKept (updEntry c k f) = resetKept c := by
  unfold resetKept updEntry
  rw [List.length_map]

theorem resetKept_retire (c : Chip) (k : Key) (st n : Nat) (r : Word) : resetKept (retire c k st n r) = resetKept c := by
  unfold retire retireAt
  split
  · rfl
  · dsimp only
    split
    · exact (resetKept_updEntry ..).trans (resetKept_updEntry ..)
    · exact resetKept_updEntry ..

theorem resetKept_discoverCancel (c : Chip) (e : Entry) : resetKept (discoverCancel c e) = resetKept c := by
  unfold discoverCancel
  split
  · split <;> rfl
  · rfl

theorem resetKept_linkHold (c : Chip) (e : Entry) : resetKept (linkHold c e) = resetKept c := by
  unfold linkHold
  split
  · rfl
  · dsimp only
    split
    · exact (resetKept_discoverCancel ..).trans (resetKept_retire ..)
    · exact resetKept_updEntry ..

theorem resetKept_tuneResume (c : Chip) (e : Entry) (n : Fin 16) : resetKept (tuneResume c e n) = resetKept c := by
  have h (d : Chip) : resetKept (tuneBegin d e n) = resetKept d := rfl
  unfold tuneResume
  split
  · exact (h _).trans (resetKept_updEntry ..)
  · rfl

theorem resetKept_spanResume (c : Chip) (e : Entry) (a : Fin 8) : resetKept (spanResume c e a) = resetKept c := by
  unfold spanResume
  split
  · rfl
  · rfl
  · exact resetKept_updEntry ..
  · rfl

theorem resetKept_resumeBlock (c : Chip) (k : Key) : resetKept (resumeBlock c k) = resetKept c := by
  unfold resumeBlock
  split
  · rfl
  · split
    · split
      · exact resetKept_linkHold ..
      · have h := resetKept_updEntry c k (fun e => { e with ckTick := c.tick, redo := true })
        extract_lets d
        split
        · split <;> exact h
        · split <;> exact h
        · split
          · exact (resetKept_tuneResume ..).trans h
          · exact h
        · split
          · exact (resetKept_spanResume ..).trans h
          · exact h
        · exact h
    · rfl

theorem resetKept_refetchBlock (c : Chip) (i : ObjIx) : resetKept (refetchBlock c i) = resetKept c := by
  unfold refetchBlock
  refine foldl_fixed resetKept _ (fun d e => ?_) _ c
  split
  · split
    · split
      · rfl
      · exact resetKept_resumeBlock ..
    · split
      · rfl
      · exact resetKept_updEntry ..
  · rfl

theorem resetKept_whResume (c : Chip) (w : Fin 4) : resetKept (whResume c w) = resetKept c := by
  unfold whResume whStart
  split
  · rfl
  · dsimp only
    split
    · rfl
    · unfold toSeek leaveValid
      split <;> rfl

theorem resetKept_blockResetFinish (c : Chip) (b : Block) : resetKept (blockResetFinish c b) = resetKept c := by
  unfold blockResetFinish
  split
  · rfl
  · refine (resetKept_refetchBlock ..).trans ?_
    split
    · exact (resetKept_whResume ..).trans rfl
    · exact resetKept_setLevelR ..
    · rfl
    · exact resetKept_setLevelR ..
    · exact resetKept_setLevelR ..
    · rfl

theorem blockResetEnd_due {c : Chip} {r : Block × Nat} (hs : serving c = true)
    (hr : c.flt.resets.find? (fun r => blockResetDue c r.1 r.2) = some r) :
    resetKept (blockResetEnd c) = (c.pw, c.flt.resets.filter (fun y => y.1 ≠ r.1), c.wb.entries.length) := by
  unfold blockResetEnd
  rw [hr]
  dsimp only
  rw [if_pos hs, resetKept_blockResetFinish]
  rfl

end Sys2Proof.Proofs

open Sys2Proof Sys2Proof.Machine Sys2Proof.Proofs

/-- Settles O54: the collector's deadlines, quiet periods, windows and self check, and the end of a block reset. -/
theorem collectorTimersAct : Obligations.CollectorTimersAct := by
  intro s dt n
  refine ⟨fun hc => ⟨fun hs hv hd hp => ?_, fun hv => ?_, fun ha hq hr => ⟨fun hs => ?_, fun hs => ?_⟩, fun hw hd => ?_⟩, ?_, fun r hs hr => ?_⟩
  · rcases Bool.dichotomy (bit (polW (found s dt) n) 60) with hb | hb
    · obtain ⟨he, hx, ha, hst⟩ := escalate_stays hs hv hd hc hp hb
      obtain ⟨h1, h2, h3, -, h5⟩ := he.acknowledged (found s dt).flt.srcs[n].escrun
      rw [← hx] at h1 h2 h3 h5
      exact ⟨_, runBlock_of_leaves (f := fun c => escalate (looked s dt) c n) rfl (leaveFace_of_frame ha.frame), h1, h2, h3,
        fun _ => ⟨hst, ha.benched⟩, fun h => absurd (hb.symm.trans h) Bool.false_ne_true, h5⟩
    · obtain ⟨he, hx, hf, hst, hbe, hal⟩ := escalate_fatal hs hv hd hc hp hb
      obtain ⟨h1, h2, h3, -, h5⟩ := he.acknowledged (found s dt).flt.srcs[n].escrun
      rw [← hx] at h1 h2 h3 h5
      exact ⟨_, runBlock_of_leaves (f := fun c => escalate (looked s dt) c n) rfl (leaveFace_of_frame hf), h1, h2, h3,
        fun h => absurd (h.symm.trans hb) Bool.false_ne_true, fun _ => ⟨hst, hbe, hal⟩, h5⟩
  · exact runBlock_of_leaves (f := fun c => escalate (looked s dt) c n) (escalate_acknowledged hv) rfl
  · exact runBlock_of_leaves (f := fun c => quietEnd c n) (quietEnd_corrected ha hq hr hc hs) rfl
  · exact runBlock_of_leaves (f := fun c => quietEnd c n) (quietEnd_contained ha hq hr hc hs) rfl
  · exact runBlock_of_leaves (f := fun c => windowEnd c n) (if_pos ⟨hw, hd, hc⟩) rfl
  · have h := selfChecked (found s dt)
    exact ⟨_, runBlock_of_leaves (f := selfCheck) rfl (leaveFace_of_frame h.frame), h.fatal, h.mismatch, h.bench, h.others⟩
  · have h := blockResetEnd_due hs hr
    simp only [resetKept, Prod.mk.injEq] at h
    exact ⟨_, runBlock_leaves (f := blockResetEnd) rfl, h.2.1, h.1, h.2.2⟩
end

