-- ==== Sys2Proof/Proofs/LoopEvents.lean ====
section
/-! FRAME_BOUNDARY, OUTPUT_APPLICATION and LOOP_CHECK_MISMATCH (R376 to R378, R389, R401): what a boundary and an application change of one loop. -/

namespace Sys2Proof.Proofs
open Sys2Proof.Machine

/-! ### Folds in which each step changes its own place -/

section
variable {σ β : Type} {k : Nat} {f : σ → Fin k → σ} (I : σ → Prop) (π : σ → Fin k → β)

/-- A place that no step of the fold has is as it was. -/
theorem foldl_away (hI : ∀ c j, I c → I (f c j)) (ho : ∀ c j i, I c → j ≠ i → π (f c j) i = π c i) {l : List (Fin k)} {i : Fin k} (hi : i ∉ l)
    {c : σ} (hc : I c) : π (l.foldl f c) i = π c i := by
  induction l generalizing c with
  | nil => rfl
  | cons j l ih =>
    exact (ih (List.not_mem_of_not_mem_cons hi) (hI _ _ hc)).trans (ho _ _ _ hc (Ne.symm (List.ne_of_not_mem_cons hi)))

/-- The step of a place finds that place as the fold found it, and leaves it as the fold leaves it. -/
theorem foldl_at (hI : ∀ c j, I c → I (f c j)) (ho : ∀ c j i, I c → j ≠ i → π (f c j) i = π c i) {l : List (Fin k)} (hl : l.Nodup) {i : Fin k}
    (hi : i ∈ l) {c : σ} (hc : I c) : ∃ d, I d ∧ π d i = π c i ∧ π (l.foldl f c) i = π (f d i) i := by
  induction l generalizing c with
  | nil => exact absurd hi List.not_mem_nil
  | cons j l ih =>
    obtain ⟨hj, hl⟩ := List.nodup_cons.mp hl
    by_cases h : i = j
    · subst h
      exact ⟨c, hc, rfl, foldl_away I π hI ho hj (hI _ _ hc)⟩
    · obtain ⟨d, hd, h1, h2⟩ := ih hl ((List.mem_cons.mp hi).resolve_left h) (hI _ _ hc)
      exact ⟨d, hd, h1.trans (ho _ _ _ hc (Ne.symm h)), h2⟩

end

/-! ### What a boundary leaves alone -/

/-- d differs from c in the loops, none of which is in another mode, and in the collector. -/
structure SameModes (c d : Chip) : Prop where
  modes : ∀ m : Fin 16, d.lp[m].mode = c.lp[m].mode
  frame : frame d = frame c
  ao : d.ao = c.ao
  trk : d.trk = c.trk
  wb : d.wb = c.wb

theorem SameModes.refl (c : Chip) : SameModes c c := ⟨fun _ => rfl, rfl, rfl, rfl, rfl⟩

theorem SameModes.trans {b c d : Chip} (h : SameModes b c) (g : SameModes c d) : SameModes b d :=
  ⟨fun m => (g.modes m).trans (h.modes m), g.frame.trans h.frame, g.ao.trans h.ao, g.trk.trans h.trk, g.wb.trans h.wb⟩

theorem updLp_other (c : Chip) {m n : Fin 16} (h : m ≠ n) (f : Lp → Lp) : (updLp c n f).lp[m] = c.lp[m] := upd_other _ _ h

theorem sameModes_updLp (c : Chip) (n : Fin 16) (f : Lp → Lp) (h : (f c.lp[n]).mode = c.lp[n].mode) : SameModes c (updLp c n f) where
  modes m := by
    by_cases hm : m = n
    · subst hm
      rw [updLp_at, h]
    · rw [updLp_other _ hm]
  frame := rfl
  ao := rfl
  trk := rfl
  wb := rfl

theorem levelB_lp (c : Chip) (k : Nat) (b : Bool) : (levelB c k b).lp = c.lp := setLevelR_lp ..

theorem levelB_lpAt (c : Chip) (k : Nat) (b : Bool) (m : Fin 16) : (levelB c k b).lp[m] = c.lp[m] := congrArg (·[m]) (levelB_lp ..)

theorem sameModes_levelB (c : Chip) (k : Nat) (b : Bool) : SameModes c (levelB c k b) := by
  obtain ⟨hw, -, -, hf⟩ := levelB_rest c k b
  refine ⟨fun m => by rw [levelB_lpAt], hf, setLevelR_ao .., ?_, hw⟩
  unfold levelB
  rw [setLevelR_only]

/-! ### A frozen boundary and a run -/

section
variable (v c : Chip) (n : Fin 16) (lost : Bool)

/-- The loop's mark of a frozen boundary. -/
def freeze (l : Lp) : Lp := { l with frozen := true, inlost := lost }

/-- A frozen boundary of a loop that tunes nothing marks the loop, unless it is disabled. -/
theorem frozenRun_idle (h : c.lp[n].mode ≠ .tuning) :
    frozenRun c n lost = if c.lp[n].mode = .disabled then c else levelB (updLp c n (freeze lost)) (416 + 4 * n.val) lost := by
  unfold frozenRun
  extract_lets d
  have hd : d.lp[n].mode ≠ .tuning := by
    show (levelB (updLp c n (freeze lost)) _ _).lp[n].mode ≠ _
    rw [levelB_lpAt, updLp_at]
    exact h
  rw [if_neg fun hh : d.lp[n].mode = .tuning ∧ benched d = false => hd hh.1]
  rfl

theorem sameModes_frozenRun (h : c.lp[n].mode ≠ .tuning) : SameModes c (frozenRun c n lost) := by
  rw [frozenRun_idle _ _ _ h]
  split
  · exact .refl _
  · exact (sameModes_updLp c n _ rfl).trans (sameModes_levelB ..)

theorem frozenRun_other (h : c.lp[n].mode ≠ .tuning) {m : Fin 16} (hm : m ≠ n) : (frozenRun c n lost).lp[m] = c.lp[m] := by
  rw [frozenRun_idle _ _ _ h]
  split
  · rfl
  · exact (levelB_lpAt ..).trans (updLp_other _ hm _)

theorem frozenRun_at (h : c.lp[n].mode ≠ .tuning) (hd : c.lp[n].mode ≠ .disabled) : (frozenRun c n lost).lp[n] = freeze lost c.lp[n] := by
  rw [frozenRun_idle _ _ _ h, if_neg hd, levelB_lp, updLp_at]

end

section
variable (v c : Chip) (p : Pre) (ua : Int) (win lose : Bool)

/-- A run becomes the loop's state, merged with the commands of the tick, unless the loop is disabled. -/
theorem finishRun_cases : ∃ (l : Lp) (hit : Bool), (p.lp.mode = .manual → ∃ r : LpRun, l.flight = c.lp[p.n].flight ++ [r] ∧ r.tick = c.tick ∧ r.ua = ua ∧
      r.y = p.y ∧ l.frozen = p.lp.frozen ∧ l.lastRun = p.lp.lastRun) ∧
    finishRun v c p ua win lose = if c.lp[p.n].mode = .disabled then c else
      let d := levelB (updLp c p.n (fun k => mergeRun v.lp[p.n] k l)) (416 + 4 * p.n.val) false
      if hit then countB d (419 + 4 * p.n.val) else d := by
  unfold finishRun
  extract_lets n w kff wt co us sat base core run lim old l f
  refine ⟨f.1, f.2, fun hm => ?_, rfl⟩
  have hf : f = (l, false) := if_neg fun h => by rw [hm] at h; exact nomatch h.1
  rw [hf]
  exact ⟨run, rfl, rfl, rfl, rfl, rfl, rfl⟩

theorem sameModes_finishRun : SameModes c (finishRun v c p ua win lose) := by
  obtain ⟨l, hit, -, h⟩ := finishRun_cases v c p ua win lose
  have hs : SameModes c (levelB (updLp c p.n (fun k => mergeRun v.lp[p.n] k l)) (416 + 4 * p.n.val) false) :=
    (sameModes_updLp c p.n _ rfl).trans (sameModes_levelB ..)
  rw [h]
  split
  · exact .refl _
  · cases hit
    · exact hs
    · exact ⟨hs.modes, hs.frame, hs.ao, hs.trk, hs.wb⟩

theorem finishRun_other {m : Fin 16} (hm : m ≠ p.n) : (finishRun v c p ua win lose).lp[m] = c.lp[m] := by
  obtain ⟨l, hit, -, h⟩ := finishRun_cases v c p ua win lose
  have hs : (levelB (updLp c p.n (fun k => mergeRun v.lp[p.n] k l)) (416 + 4 * p.n.val) false).lp[m] = c.lp[m] := by
    rw [levelB_lpAt, updLp_other _ hm]
  rw [h]
  split
  · rfl
  · cases hit
    · exact hs
    · exact hs

/-- A run in MANUAL joins the runs in flight. -/
theorem finishRun_manual (hp : p.lp.mode = .manual) (hd : c.lp[p.n].mode ≠ .disabled) :
    ∃ r : LpRun, (finishRun v c p ua win lose).lp[p.n].flight = c.lp[p.n].flight ++ [r] ∧ r.tick = c.tick ∧ r.ua = ua ∧ r.y = p.y ∧
      (finishRun v c p ua win lose).lp[p.n].frozen = p.lp.frozen ∧ (finishRun v c p ua win lose).lp[p.n].lastRun = p.lp.lastRun ∧
      (finishRun v c p ua win lose).lp[p.n].run = c.lp[p.n].run := by
  obtain ⟨l, hit, hr, h⟩ := finishRun_cases v c p ua win lose
  obtain ⟨r, hfl, ht, hu, hy, hz, hl⟩ := hr hp
  have hs : (finishRun v c p ua win lose).lp[p.n] = mergeRun v.lp[p.n] c.lp[p.n] l := by
    have hs : (levelB (updLp c p.n (fun k => mergeRun v.lp[p.n] k l)) (416 + 4 * p.n.val) false).lp[p.n] = mergeRun v.lp[p.n] c.lp[p.n] l := by
      rw [levelB_lpAt, updLp_at]
    rw [h, if_neg hd]
    cases hit
    · exact hs
    · exact hs
  rw [hs]
  exact ⟨r, hfl, ht, hu, hy, hz, hl, rfl⟩

end

/-! ### The triggers of a tick -/

theorem addTrigs_tick (c : Chip) (n : Fin 16) (k : Nat) : (addTrigs c n k).tick = c.tick := by
  unfold addTrigs
  refine foldl_fixed Chip.tick _ (fun d a => ?_) _ _
  split <;> rfl

theorem deliverTrig_tick (c : Chip) (b : Nat) (i : ObjIx) (k : Nat) (p : Fin 16 → Bool) : (deliverTrig c b i k p).tick = c.tick := by
  unfold deliverTrig
  split
  · rfl
  · refine foldl_fixed Chip.tick _ (fun d a => ?_) _ _
    split
    · split
      · rfl
      · exact addTrigs_tick ..
    · rfl

theorem loopTriggers_tick (c : Chip) : (loopTriggers c).tick = c.tick := by
  unfold loopTriggers
  extract_lets d e
  refine (foldl_fixed Chip.tick _ (fun a n => ?_) _ _).trans
    ((foldl_fixed Chip.tick _ (fun a w => ?_) _ _).trans (foldl_fixed Chip.tick _ (fun a o => ?_) _ _))
  · exact deliverTrig_tick ..
  · exact deliverTrig_tick ..
  · exact deliverTrig_tick ..

/-! ### The boundary -/

section
variable (v c : Chip)

/-- The loops that are due at a boundary. -/
def dueLoops : List (Fin 16) := (allFin 16).filter (fun n => v.lp[n].mode ≠ .disabled && lpDue v n (c.tick / ceFrame v))

/-- The runs of a group. -/
def groupRuns (g : Fin 4) : List Pre :=
  (((dueLoops v c).filter (fun n => !lpFrozen v n)).map (preRun v)).filter (fun p => lpGrpen (lpsup v p.n) && lpGrp (lpsup v p.n) = g)

/-- A run finished, with the winner's value where it is of a group. -/
def finishPre (k : Chip) (p : Pre) : Chip :=
  let s := lpsup v p.n
  if lpGrpen s then
    match groupWinner (groupRuns v c (lpGrp s)) with
    | some w => finishRun v k p w.cand (w.n = p.n) (w.n ≠ p.n)
    | none => k
  else finishRun v k p p.cand false false

/-- The part after the frozen loops of a boundary. -/
def frozenLoops : Chip := ((dueLoops v c).filter (fun n => lpFrozen v n)).foldl (fun k n => frozenRun k n (inputLost v n)) c

/-- The part after the runs of a boundary. -/
def loopsRun : Chip := (((dueLoops v c).filter (fun n => !lpFrozen v n)).map (preRun v)).foldl (finishPre v c) (frozenLoops v c)

theorem frameBoundary_taken (u : Chip) (hs : serving c = true) (ht : c.tick % ceFrame (loopTriggers u) = 0) (hb : c.eng.boundary ≠ some c.tick) :
    ∃ e : Engine, e.boundary = some c.tick ∧ frameBoundary u c = { loopsRun (loopTriggers u) c with eng := e } := by
  unfold frameBoundary
  generalize loopTriggers u = v at *
  rw [if_pos ⟨hs, ht, hb⟩]
  exact ⟨_, by rfl, rfl⟩

theorem loopsRun_eq : loopsRun v c =
    ((dueLoops v c).filter (fun n => !lpFrozen v n)).foldl (fun k n => finishPre v c k (preRun v n)) (frozenLoops v c) := List.foldl_map

theorem sameModes_finishPre (k : Chip) (p : Pre) : SameModes k (finishPre v c k p) := by
  unfold finishPre
  extract_lets s
  split
  · split
    · exact sameModes_finishRun ..
    · exact .refl _
  · exact sameModes_finishRun ..

theorem finishPre_other (k : Chip) (p : Pre) {m : Fin 16} (hm : m ≠ p.n) : (finishPre v c k p).lp[m] = k.lp[m] := by
  unfold finishPre
  extract_lets s
  split
  · split
    · exact finishRun_other _ _ _ _ _ _ hm
    · rfl
  · exact finishRun_other _ _ _ _ _ _ hm

/-- The places of a boundary's loops, as foldl_at and foldl_away take them. -/
def lpOf (c : Chip) (n : Fin 16) : Lp := c.lp[n]

theorem sameModes_loopsRun_of (b : Chip) (h : SameModes b (frozenLoops v c)) : SameModes b (loopsRun v c) := by
  rw [loopsRun_eq]
  exact foldl_keeps (SameModes b) _ (fun d n hd => hd.trans (sameModes_finishPre ..)) _ _ h

variable (hi : ∀ m : Fin 16, c.lp[m].mode ≠ .tuning)
include hi

theorem sameModes_frozenLoops : SameModes c (frozenLoops v c) :=
  foldl_keeps (SameModes c) _ (fun d n hd => hd.trans (sameModes_frozenRun d n _ (hd.modes n ▸ hi n))) _ _ (.refl c)

theorem sameModes_loopsRun : SameModes c (loopsRun v c) := sameModes_loopsRun_of v c c (sameModes_frozenLoops v c hi)

theorem frozenLoops_away {n : Fin 16} (h : n ∉ (dueLoops v c).filter (fun n => lpFrozen v n)) : (frozenLoops v c).lp[n] = c.lp[n] :=
  foldl_away (SameModes c) lpOf (fun d j hd => hd.trans (sameModes_frozenRun d j _ (hd.modes j ▸ hi j)))
    (fun d j _ hd hj => frozenRun_other d j _ (hd.modes j ▸ hi j) (Ne.symm hj)) h (.refl c)

theorem frozenLoops_at {n : Fin 16} (h : n ∈ (dueLoops v c).filter (fun n => lpFrozen v n)) (hd : c.lp[n].mode ≠ .disabled) :
    (frozenLoops v c).lp[n] = freeze (inputLost v n) c.lp[n] := by
  obtain ⟨d, hm, hs, ht⟩ := foldl_at (SameModes c) lpOf (f := fun k n => frozenRun k n (inputLost v n))
    (fun d j hd => hd.trans (sameModes_frozenRun d j _ (hd.modes j ▸ hi j)))
    (fun d j _ hd hj => frozenRun_other d j _ (hd.modes j ▸ hi j) (Ne.symm hj)) (((List.nodup_finRange 16).filter _).filter _) h (.refl c)
  refine ht.trans ((frozenRun_at d n _ (hm.modes n ▸ hi n) (hm.modes n ▸ hd)).trans ?_)
  exact congrArg (freeze _) hs

omit hi in
theorem loopsRun_away {n : Fin 16} (h : n ∉ (dueLoops v c).filter (fun n => !lpFrozen v n)) : (loopsRun v c).lp[n] = (frozenLoops v c).lp[n] := by
  rw [loopsRun_eq]
  exact foldl_away (fun _ => True) lpOf (fun _ _ _ => trivial) (fun d j _ _ hj => finishPre_other v c d _ (Ne.symm hj)) h trivial

omit hi in
/-- A due loop of no group that is not frozen runs with its own value. -/
theorem loopsRun_at {n : Fin 16} (h : n ∈ (dueLoops v c).filter (fun n => !lpFrozen v n)) (hg : lpGrpen (lpsup v n) = false) :
    ∃ d, SameModes (frozenLoops v c) d ∧ d.lp[n] = (frozenLoops v c).lp[n] ∧
      (loopsRun v c).lp[n] = (finishRun v d (preRun v n) (preRun v n).cand false false).lp[n] := by
  rw [loopsRun_eq]
  obtain ⟨d, hm, hs, ht⟩ := foldl_at (SameModes (frozenLoops v c)) lpOf (f := fun k n => finishPre v c k (preRun v n))
    (fun d j hd => hd.trans (sameModes_finishPre ..)) (fun d j _ _ hj => finishPre_other v c d _ (Ne.symm hj))
    (((List.nodup_finRange 16).filter _).filter _) h (.refl _)
  refine ⟨d, hm, hs, ht.trans ?_⟩
  exact congrArg (lpOf · n) (if_neg (ne_true_of_eq_false hg))

end

/-! ### FRAME_BOUNDARY (R376 to R378, R389) -/

/-- While no loop tunes, a boundary is no checkpoint of an AUTOTUNE. -/
theorem frameTick_idle {v c d : Chip} (h : frameBoundary v c = d) (hi : ∀ m : Fin 16, d.lp[m].mode ≠ .tuning) : frameTick v c = d := by
  unfold frameTick
  rw [h]
  dsimp only
  split
  · refine foldl_idle _ fun n => ?_
    split
    · refine if_neg fun hh => hi n ?_
      exact of_decide_eq_true (Bool.and_eq_true_iff.mp hh).1
    · rfl
  · rfl

theorem frameBoundary_none {u c : Chip} (h : c.tick % ceFrame (loopTriggers u) ≠ 0) : frameBoundary u c = c :=
  if_neg fun hh => h hh.2.1

/-- A run in MANUAL without a start pending has the limited manual value. -/
theorem preRun_manual {v : Chip} {n : Fin 16} (hm : v.lp[n].mode = .manual) (hp : v.lp[n].pend = .none) (hw : v.lp[n].warm = false) :
    (preRun v n).lp.mode = .manual ∧ (preRun v n).cand = limitOut v n v.lp[n].manval := by
  unfold preRun
  extract_lets l w sup sg y ff start k0 s0 manval wrap target track held mv r xr x reg nsec kff b0 bumpless level preset rs wv u uc rl cand core
  have hs : start = false := by
    show (decide (l.pend = .start) || (l.warm && bit sup 60)) = false
    rw [show l.pend = .none from hp, show l.warm = false from hw]
    rfl
  have hv : manval = l.manval := if_neg fun h => by rw [hs] at h; exact nomatch h.1
  refine ⟨hm, ?_⟩
  show cand = _
  unfold cand
  rw [show l.mode = .manual from hm, hv]

/-- A boundary that no command has taken, of a part in which no loop tunes. -/
structure AtBoundary (u v c : Chip) : Prop where
  view : loopTriggers u = v
  serves : serving c = true
  idle : ∀ m : Fin 16, c.lp[m].mode ≠ .tuning
  instant : c.tick % ceFrame v = 0
  fresh : c.eng.boundary ≠ some c.tick

section
variable {u v c : Chip} (hb : AtBoundary u v c)
include hb

/-- A boundary taken leaves the loops as their frozen marks and runs do. -/
theorem frameTick_taken : ∃ e : Engine, e.boundary = some c.tick ∧ frameTick u c = { loopsRun v c with eng := e } := by
  obtain ⟨e, he, hf⟩ := frameBoundary_taken c u hb.serves (hb.view.symm ▸ hb.instant) hb.fresh
  rw [hb.view] at hf
  exact ⟨e, he, frameTick_idle hf fun m => (sameModes_loopsRun v c hb.idle).modes m ▸ hb.idle m⟩

theorem sameModes_frameTick : (frameTick u c).eng.boundary = some c.tick ∧ SameModes c (frameTick u c) := by
  obtain ⟨e, he, hf⟩ := frameTick_taken hb
  have h := sameModes_loopsRun v c hb.idle
  rw [hf]
  exact ⟨he, h.modes, h.frame, h.ao, h.trk, h.wb⟩

theorem frameTick_lp (n : Fin 16) : (frameTick u c).lp[n] = (loopsRun v c).lp[n] := by
  obtain ⟨e, -, hf⟩ := frameTick_taken hb
  rw [hf]

/-- A loop that is not due keeps its state. -/
theorem frameTick_not_due {n : Fin 16} (h : n ∉ dueLoops v c) : (frameTick u c).lp[n] = c.lp[n] := by
  rw [frameTick_lp hb, loopsRun_away _ _ fun hh => h (List.mem_filter.mp hh).1]
  exact frozenLoops_away _ _ hb.idle fun hh => h (List.mem_filter.mp hh).1

/-- A frozen loop is marked. -/
theorem frameTick_frozen {n : Fin 16} (h : n ∈ dueLoops v c) (hz : lpFrozen v n = true)
    (hd : c.lp[n].mode ≠ .disabled) : (frameTick u c).lp[n] = freeze (inputLost v n) c.lp[n] := by
  have hn : n ∉ (dueLoops v c).filter (fun n => !lpFrozen v n) := fun hh => by
    have hh := (List.mem_filter.mp hh).2
    rw [hz] at hh
    exact nomatch hh
  rw [frameTick_lp hb, loopsRun_away _ _ hn]
  exact frozenLoops_at _ _ hb.idle (List.mem_filter.mpr ⟨h, hz⟩) hd

/-- A loop in MANUAL adds a run with its limited value. -/
theorem frameTick_manual {n : Fin 16} (h : n ∈ dueLoops v c) (hz : lpFrozen v n = false)
    (hm : c.lp[n].mode = .manual) (hw : v.lp[n].mode = .manual) (hp : v.lp[n].pend = .none)
    (ha : v.lp[n].warm = false) (hg : lpGrpen (lpsup v n) = false) :
    ∃ r : LpRun, (frameTick u c).lp[n].flight = c.lp[n].flight ++ [r] ∧ r.tick = c.tick ∧
      r.ua = limitOut v n v.lp[n].manval ∧
      r.y = sampleSig v (fld (lpsig v n) 63 48) ∧ (frameTick u c).lp[n].frozen = false ∧
      (frameTick u c).lp[n].lastRun = some u.tick ∧ (frameTick u c).lp[n].run = c.lp[n].run := by
  rw [frameTick_lp hb]
  have hi := hb.idle
  have ht : v.tick = u.tick := hb.view ▸ loopTriggers_tick u
  have hn : n ∉ (dueLoops v c).filter (fun n => lpFrozen v n) := fun hh => by
    have hh := (List.mem_filter.mp hh).2
    rw [hz] at hh
    exact nomatch hh
  have hf := frozenLoops_away v c hi hn
  obtain ⟨d, hd, hl, he⟩ := loopsRun_at v c (List.mem_filter.mpr ⟨h, by rw [hz]; rfl⟩) hg
  have hl := hl.trans hf
  obtain ⟨hpm, hpc⟩ := preRun_manual hw hp ha
  obtain ⟨r, h1, h2, h3, h4, h5, h6, h7⟩ := finishRun_manual v d (preRun v n) (preRun v n).cand false false hpm
    (show d.lp[n].mode ≠ _ by rw [hl, hm]; decide)
  have hdt : d.tick = c.tick := frame_tick (hd.frame.trans (sameModes_frozenLoops v c hi).frame)
  rw [he]
  refine ⟨r, h1.trans ?_, h2.trans hdt, h3.trans hpc, h4, h5, h6.trans ?_, h7.trans ?_⟩
  · exact congrArg (·.flight ++ [r]) hl
  · exact congrArg some ht
  · exact congrArg Lp.run hl

end

/-! ### OUTPUT_APPLICATION (R378) -/

/-- What the delivery of a trigger leaves alone of a loop. -/
def runKept (l : Lp) : LpRun × List LpRun × Bool × Nat × LpMode := (l.run, l.flight, l.applied, l.runcount, l.mode)

/-- What an application leaves alone of the part. -/
def runRest (c : Chip) : (Bool × Nat × Own × ObjMem × Face) × Wb × Vector Trk 16 := (frame c, c.wb, c.trk)

theorem updLp_kept (c : Chip) (n m : Fin 16) (f : Lp → Lp) (h : runKept (f c.lp[n]) = runKept c.lp[n]) :
    runKept (updLp c n f).lp[m] = runKept c.lp[m] := by
  by_cases hm : m = n
  · subst hm
    rw [updLp_at, h]
  · rw [updLp_other _ hm]

theorem addTrigs_kept (c : Chip) (n : Fin 16) (k : Nat) (m : Fin 16) :
    runKept (addTrigs c n k).lp[m] = runKept c.lp[m] ∧ runRest (addTrigs c n k) = runRest c := by
  unfold addTrigs
  constructor
  · refine foldl_fixed (fun d : Chip => runKept d.lp[m]) _ (fun d a => ?_) _ _
    split
    · exact updLp_kept _ _ _ _ rfl
    · exact updLp_kept d n m _ rfl
  · refine foldl_fixed runRest _ (fun d a => ?_) _ _
    split <;> rfl

theorem deliverTrig_kept (c : Chip) (b : Nat) (i : ObjIx) (k : Nat) (p : Fin 16 → Bool) (m : Fin 16) :
    runKept (deliverTrig c b i k p).lp[m] = runKept c.lp[m] ∧ runRest (deliverTrig c b i k p) = runRest c := by
  unfold deliverTrig
  split
  · exact ⟨rfl, rfl⟩
  · constructor
    · refine foldl_fixed (fun d : Chip => runKept d.lp[m]) _ (fun d a => ?_) _ _
      split
      · split
        · exact updLp_kept _ _ _ _ rfl
        · exact (addTrigs_kept ..).1
      · rfl
    · refine foldl_fixed runRest _ (fun d a => ?_) _ _
      split
      · split
        · rfl
        · exact (addTrigs_kept d a k m).2
      · rfl

theorem aoApply_kept (c : Chip) (a : Fin 8) (v : Int) : (aoApply c a v).lp = c.lp ∧ runRest (aoApply c a v) = runRest c := by
  have hd : (aoDeliver c a v).lp = c.lp ∧ runRest (aoDeliver c a v) = runRest c := by
    unfold aoDeliver
    extract_lets x k
    split <;> exact ⟨rfl, rfl⟩
  exact hd

/-- The run applied to the loop (R378). -/
def applied (r : LpRun) (l : Lp) : Lp :=
  { l with
    run := r, applied := true, runcount := wrapInc32 l.runcount, satcount := if r.satstore then wrapInc16 l.satcount else l.satcount,
    relay := { l.relay with applied := l.relay.applied || (l.mode = .tuning && l.relay.high.isSome) } }

theorem applyRun_kept (c : Chip) (n : Fin 16) (r : LpRun) (m : Fin 16) :
    runKept (applyRun c n r).lp[m] = runKept (updLp c n (applied r)).lp[m] ∧ runRest (applyRun c n r) = runRest c := by
  unfold applyRun
  extract_lets w d e
  have he : e.lp = d.lp ∧ runRest e = runRest d := by
    unfold e
    split
    · exact aoApply_kept ..
    · exact ⟨rfl, rfl⟩
  obtain ⟨hk, hr⟩ := deliverTrig_kept e (32 + n.val) (ixLp n) 1 (fun _ => true) m
  exact ⟨hk.trans (congrArg (fun l : Vector Lp 16 => runKept l[m]) he.1), hr.trans he.2⟩

/-- The runs of a loop that are due are applied. -/
def applyLoop (f : Nat) (c : Chip) (n : Fin 16) : Chip :=
  (c.lp[n].flight.filter (fun r => decide (r.tick + f ≤ c.tick))).foldl (fun c r => applyRun c n r)
    (updLp c n (fun x => { x with flight := x.flight.filter (fun r => !decide (r.tick + f ≤ c.tick)) }))

theorem outputApplication_serving {c : Chip} (h : serving c = true) : outputApplication c = (allFin 16).foldl (applyLoop (ceFrame c)) c := if_pos h

theorem applyLoop_rest (f : Nat) (c : Chip) (n : Fin 16) : runRest (applyLoop f c n) = runRest c :=
  foldl_fixed runRest (fun c r => applyRun c n r) (fun d r => (applyRun_kept d n r n).2) _ _

theorem applyLoop_other (f : Nat) (c : Chip) {n m : Fin 16} (h : n ≠ m) : runKept (applyLoop f c n).lp[m] = runKept c.lp[m] := by
  refine (foldl_fixed (fun d : Chip => runKept d.lp[m]) (fun c r => applyRun c n r) (fun d r => ?_) _ _).trans ?_
  · rw [(applyRun_kept d n r m).1, updLp_other _ (Ne.symm h)]
  · rw [updLp_other _ (Ne.symm h)]

/-- The one run in flight is applied when it is due. -/
theorem applyLoop_due {f : Nat} {c : Chip} {n : Fin 16} {r : LpRun} (h : c.lp[n].flight = [r]) (hd : r.tick + f ≤ c.tick) :
    runKept (applyLoop f c n).lp[n] = (r, [], true, wrapInc32 c.lp[n].runcount, c.lp[n].mode) := by
  have h1 : [r].filter (fun r => decide (r.tick + f ≤ c.tick)) = [r] := List.filter_cons_of_pos (decide_eq_true hd)
  have h2 : [r].filter (fun r => !decide (r.tick + f ≤ c.tick)) = [] := List.filter_cons_of_neg (by rw [decide_eq_true hd]; decide)
  unfold applyLoop
  rw [h, h1, List.foldl_cons, List.foldl_nil, (applyRun_kept ..).1, updLp_at, updLp_at, h, h2]
  rfl

theorem outputApplication_due {c : Chip} {n : Fin 16} {r : LpRun} (hs : serving c = true) (h : c.lp[n].flight = [r]) (hd : r.tick + ceFrame c ≤ c.tick) :
    runKept (outputApplication c).lp[n] = (r, [], true, wrapInc32 c.lp[n].runcount, c.lp[n].mode) ∧ runRest (outputApplication c) = runRest c := by
  rw [outputApplication_serving hs]
  obtain ⟨d, hr, hk, he⟩ := foldl_at (fun d => runRest d = runRest c) (fun (d : Chip) (m : Fin 16) => runKept d.lp[m]) (f := applyLoop (ceFrame c))
    (fun d j hd => (applyLoop_rest _ d j).trans hd) (fun d j i _ hj => applyLoop_other _ d hj) (List.nodup_finRange 16) (List.mem_finRange n) rfl
  have ht : d.tick = c.tick := frame_tick (congrArg (·.1) hr)
  simp only [runKept, Prod.mk.injEq] at hk
  obtain ⟨-, h2, -, h4, h5⟩ := hk
  refine ⟨he.trans ((applyLoop_due (h2.trans h) (ht ▸ hd)).trans ?_), ?_⟩
  · rw [h4, h5]
  · exact foldl_fixed runRest _ (applyLoop_rest _) _ _

end Sys2Proof.Proofs

open Sys2Proof Sys2Proof.Machine Sys2Proof.Proofs

/-- Settles O52: the frame's boundary, the application of a run and the mismatch of a loop's copies. -/
theorem loopsRunAtBoundaries : Obligations.LoopsRunAtBoundaries := by
  intro s dt n c v l was due hs
  refine ⟨fun hi => ⟨fun ht => ?_, fun ht hb => ?_⟩, fun r hr hd => ?_, ?_⟩
  · exact runBlock_of_leaves (f := fun c => frameTick (looked s dt) c) (frameTick_idle (frameBoundary_none ht) hi) (leaveFace_of_frame rfl)
  · have hb : AtBoundary (looked s dt) v c := ⟨rfl, hs, hi, ht, hb⟩
    obtain ⟨h1, h⟩ := sameModes_frameTick hb
    refine ⟨_, runBlock_of_leaves (f := fun c => frameTick (looked s dt) c) rfl (leaveFace_of_frame h.frame), h1, h.ao, h.trk, h.wb,
      fun hn => ?_, fun hy hz hm => ?_, fun hy hz hw hm hp ha hg => ?_⟩
    · refine frameTick_not_due hb fun hh => ?_
      exact Bool.eq_false_iff.mp hn (List.mem_filter.mp hh).2
    · exact frameTick_frozen hb (List.mem_filter.mpr ⟨List.mem_finRange n, hy⟩) hz hm
    · exact frameTick_manual hb (List.mem_filter.mpr ⟨List.mem_finRange n, hy⟩) hz hm hw hp ha hg
  · obtain ⟨hk, hr⟩ := outputApplication_due hs hr hd
    simp only [runKept, runRest, Prod.mk.injEq] at hk hr
    obtain ⟨h1, h2, h3, h4, h5⟩ := hk
    obtain ⟨hf, hw, ht⟩ := hr
    exact ⟨_, runBlock_of_leaves (f := fun c => outputApplication c) rfl (leaveFace_of_frame hf), h1, h2, h3, h4, h5, hw, ht⟩
  · exact runBlock_of_leaves (f := fun c => lpMismatch c n) (if_pos hs)
      (leaveFace_of_frame (((sameModes_updLp c n _ (by unfold dropFlight; split <;> rfl)).trans (sameModes_levelB ..)).frame))
end

