-- ==== Sys2Proof/Proofs/EncoderStep.lean ====
section
/-! ENCODER_STEP (R267, R270, R271, R276): what a step changes of one emulator. -/

namespace Sys2Proof.Proofs
open Sys2Proof.Machine

/-- d differs from c in emulator e and in the collector. -/
structure TouchesEnc (e : Fin 8) (c d : Chip) : Prop where
  others : ∀ b : Fin 8, b ≠ e → d.enc[b] = c.enc[b]
  frame : frame d = frame c
  trk : d.trk = c.trk
  wb : d.wb = c.wb

theorem TouchesEnc.refl (e : Fin 8) (c : Chip) : TouchesEnc e c c := ⟨fun _ _ => rfl, rfl, rfl, rfl⟩

theorem TouchesEnc.trans {e : Fin 8} {b c d : Chip} (h : TouchesEnc e b c) (g : TouchesEnc e c d) : TouchesEnc e b d :=
  ⟨fun k hk => (g.others k hk).trans (h.others k hk), g.frame.trans h.frame, g.trk.trans h.trk, g.wb.trans h.wb⟩

theorem touchesEnc_updEnc (c : Chip) (e : Fin 8) (f : Enc → Enc) : TouchesEnc e c (updEnc c e f) :=
  ⟨fun _ hb => upd_other _ _ hb, rfl, rfl, rfl⟩

theorem TouchesEnc.countB {e : Fin 8} {c d : Chip} (h : TouchesEnc e c d) (n : Nat) : TouchesEnc e c (countB d n) :=
  ⟨h.others, h.frame, h.trk, h.wb⟩

theorem TouchesEnc.level {e : Fin 8} {c d : Chip} (h : TouchesEnc e c d) (n : Nat) (b : Bool) : TouchesEnc e c (levelB d n b) := by
  unfold levelB
  rw [setLevelR_only]
  exact ⟨h.others, h.frame, h.trk, h.wb⟩

theorem countB_enc (c : Chip) (n : Nat) (e : Fin 8) : (countB c n).enc[e] = c.enc[e] := rfl

theorem levelB_enc (c : Chip) (n : Nat) (b : Bool) (e : Fin 8) : (levelB c n b).enc[e] = c.enc[e] := congrArg (·[e]) (setLevelR_enc ..)

theorem updEnc_updEnc (c : Chip) (e : Fin 8) (f g : Enc → Enc) : updEnc (updEnc c e f) e g = updEnc c e (fun x => g (f x)) :=
  congrArg (fun v => { c with enc := v }) (upd_upd ..)

/-! ### The lag -/

/-- What no judgement of the lag changes. -/
def stepPart (x : Enc) : Int × Int × Nat × Bool := (x.tgt, x.cnt, x.lastedge, x.dir)

section
variable (c : Chip) (e : Fin 8)

/-- The new judgement of LAGOVER (R272). -/
def lagJudged : Chip :=
  let x := c.enc[e]
  let lim := encLaglim (encroute c e)
  if x.benchhold then c
  else if !x.lagover && decide (lim < encLag x) then
    countB (updEnc c e (fun x => { x with lagover := true, lagovercnt := wrapInc16 x.lagovercnt })) (224 + 4 * e.val)
  else if x.lagover && decide (2 * encLag x ≤ lim) then updEnc c e (fun x => { x with lagover := false })
  else c

theorem encLagCheck_eq : encLagCheck c e =
    if c.enc[e].st = .running ∧ c.enc[e].benchhold = false ∧ 16777216 < encLag c.enc[e] then
      levelB (updEnc (lagJudged c e) e (fun x => { x with st := .lagstop })) (226 + 4 * e.val) true
    else lagJudged c e := rfl

theorem lagJudged_step : TouchesEnc e c (lagJudged c e) ∧ stepPart (lagJudged c e).enc[e] = stepPart c.enc[e] := by
  unfold lagJudged
  extract_lets x lim
  split
  · exact ⟨.refl .., rfl⟩
  · split
    · exact ⟨(touchesEnc_updEnc ..).countB _, by rw [countB_enc, updEnc_at]; rfl⟩
    · split
      · exact ⟨touchesEnc_updEnc .., by rw [updEnc_at]; rfl⟩
      · exact ⟨.refl .., rfl⟩

theorem encLagCheck_step : TouchesEnc e c (encLagCheck c e) ∧ stepPart (encLagCheck c e).enc[e] = stepPart c.enc[e] := by
  obtain ⟨ht, hp⟩ := lagJudged_step c e
  rw [encLagCheck_eq]
  split
  · exact ⟨(ht.trans (touchesEnc_updEnc ..)).level .., by rw [levelB_enc, updEnc_at]; exact hp⟩
  · exact ⟨ht, hp⟩

/-- While BENCHHOLD is set the lag is not judged (R276). -/
theorem encLagCheck_held (h : c.enc[e].benchhold = true) : encLagCheck c e = c := by
  rw [encLagCheck_eq, if_neg fun hh => by rw [h] at hh; exact nomatch hh.2.1]
  exact if_pos h

end

/-! ### The step -/

section
variable {c : Chip} {e : Fin 8} {o : Int × Int × Nat} (hs : serving c = true) (hr : inReset c (.obj (ixEnc e)) = false)
  (ho : encOutput c e = some o)

/-- The emulator with its new target, LAGMAX taken from it. -/
def aimed (o : Int × Int × Nat) (c : Chip) (e : Fin 8) : Chip :=
  encLagMax (updEnc c e (fun x => { x with tgt := encTarget c e o, resume := x.resume && x.benchhold })) e

theorem aimed_at (c : Chip) (e : Fin 8) : (aimed o c e).enc[e] =
    { c.enc[e] with
      tgt := encTarget c e o, resume := c.enc[e].resume && c.enc[e].benchhold, lagmax := (aimed o c e).enc[e].lagmax } := by
  unfold aimed encLagMax
  rw [updEnc_updEnc, updEnc_at]

theorem touchesEnc_aimed (c : Chip) (e : Fin 8) : TouchesEnc e c (aimed o c e) := (touchesEnc_updEnc ..).trans (touchesEnc_updEnc ..)

include hs hr ho

theorem encoderStep_init (h : c.enc[e].st = .init) (hb : c.enc[e].benchhold = false) :
    encoderStep c e = updEnc c e (fun x => driveLevels (enccfg c e)
      { x with st := .running, tgt := encPos c e o 0, cnt := encPos c e o 0, lastedge := c.tick, resume := false }) := by
  unfold encoderStep
  extract_lets x w
  rw [hs, hr, if_pos (by decide), ho]
  dsimp only
  rw [show x.st = .init from h, show x.benchhold = false from hb]
  rfl

theorem encoderStep_running (h : c.enc[e].st = .running) (hx : c.enc[e].resume = false ∨ c.enc[e].benchhold = true) :
    encoderStep c e = encLagCheck (encMove (aimed o c e) e) e := by
  have hn : (c.enc[e].resume && !c.enc[e].benchhold && bit (enccfg c e) 58) = false := by
    rcases hx with hx | hx
    · rw [hx]
      rfl
    · rw [hx, Bool.not_true, Bool.and_false, Bool.false_and]
  unfold encoderStep
  extract_lets x w
  rw [hs, hr, if_pos (by decide), ho]
  dsimp only
  rw [show x.st = .running from h]
  exact congrArg (encLagCheck · e) (if_neg (ne_true_of_eq_false hn))

omit hs hr ho

/-- The emulator's next count, one state toward its target. -/
theorem encMove_moves (h : c.enc[e].tgt ≠ c.enc[e].cnt) (hm : c.enc[e].lastedge + encMinspace (enccfg c e) ≤ c.tick)
    (hb : c.enc[e].benchhold = false) :
    TouchesEnc e c (encMove c e) ∧ stepPart (encMove c e).enc[e] =
      (c.enc[e].tgt, if decide (c.enc[e].tgt < c.enc[e].cnt) then c.enc[e].cnt - 1 else c.enc[e].cnt + 1, c.tick,
        decide (c.enc[e].tgt < c.enc[e].cnt)) := by
  unfold encMove
  extract_lets x w
  rw [if_pos ⟨h, hm, hb⟩]
  exact ⟨touchesEnc_updEnc .., by rw [updEnc_at]; rfl⟩

theorem encMove_stays (h : c.enc[e].tgt = c.enc[e].cnt ∨ c.tick < c.enc[e].lastedge + encMinspace (enccfg c e) ∨ c.enc[e].benchhold = true) :
    encMove c e = c := by
  refine if_neg fun hh => ?_
  obtain ⟨h1, h2, h3⟩ := hh
  rcases h with h | h | h
  · exact h1 h
  · exact absurd h2 (Nat.not_le.mpr h)
  · exact nomatch h3.symm.trans h

/-- The step of an emulator that is free to run, by where its target lies. -/
theorem encoderStep_free (hs : serving c = true) (hr : inReset c (.obj (ixEnc e)) = false) (ho : encOutput c e = some o)
    (h : c.enc[e].st = .running) (hx : c.enc[e].resume = false) (hb : c.enc[e].benchhold = false) :
    TouchesEnc e c (encoderStep c e) ∧
    (encTarget c e o = c.enc[e].cnt ∨ c.tick < c.enc[e].lastedge + encMinspace (enccfg c e) →
      stepPart (encoderStep c e).enc[e] = (encTarget c e o, c.enc[e].cnt, c.enc[e].lastedge, c.enc[e].dir)) ∧
    (encTarget c e o ≠ c.enc[e].cnt → c.enc[e].lastedge + encMinspace (enccfg c e) ≤ c.tick →
      stepPart (encoderStep c e).enc[e] = (encTarget c e o,
        if decide (encTarget c e o < c.enc[e].cnt) then c.enc[e].cnt - 1 else c.enc[e].cnt + 1, c.tick,
        decide (encTarget c e o < c.enc[e].cnt))) := by
  rw [encoderStep_running hs hr ho h (.inl hx)]
  have ha := aimed_at (o := o) c e
  have ht := touchesEnc_aimed (o := o) c e
  have hw : enccfg (aimed o c e) e = enccfg c e := rfl
  have hc : (aimed o c e).tick = c.tick := rfl
  generalize aimed o c e = d at *
  obtain ⟨hl, hp⟩ := encLagCheck_step (encMove d e) e
  have hkeep : d.enc[e].tgt = encTarget c e o ∧ d.enc[e].cnt = c.enc[e].cnt ∧ d.enc[e].lastedge = c.enc[e].lastedge ∧
      d.enc[e].dir = c.enc[e].dir ∧ d.enc[e].benchhold = c.enc[e].benchhold := by
    rw [ha]
    exact ⟨rfl, rfl, rfl, rfl, rfl⟩
  obtain ⟨h1, h2, h3, h4, h5⟩ := hkeep
  have hstay (hh : encTarget c e o = c.enc[e].cnt ∨ c.tick < c.enc[e].lastedge + encMinspace (enccfg c e)) : encMove d e = d :=
    encMove_stays (by rw [h1, h2, h3, hc, hw, ← or_assoc]; exact .inl hh)
  have hmove (hn : encTarget c e o ≠ c.enc[e].cnt) (hm : c.enc[e].lastedge + encMinspace (enccfg c e) ≤ c.tick) :=
    encMove_moves (c := d) (e := e) (by rw [h1, h2]; exact hn) (by rw [h3, hc, hw]; exact hm) (h5.trans hb)
  refine ⟨ht.trans (.trans ?_ hl), fun hh => ?_, fun hn hm => ?_⟩
  · by_cases hh : encTarget c e o = c.enc[e].cnt ∨ c.tick < c.enc[e].lastedge + encMinspace (enccfg c e)
    · rw [hstay hh]
      exact .refl ..
    · obtain ⟨hn, hm⟩ := not_or.mp hh
      exact (hmove hn (Nat.not_lt.mp hm)).1
  · rw [hp, hstay hh, stepPart, h1, h2, h3, h4]
  · rw [hp, (hmove hn hm).2, h1, h2, hc]

/-- Under BENCHHOLD an emulator takes its target and keeps its count (R276). -/
theorem encoderStep_held (hs : serving c = true) (hr : inReset c (.obj (ixEnc e)) = false) (ho : encOutput c e = some o)
    (h : c.enc[e].st = .running) (hb : c.enc[e].benchhold = true) :
    TouchesEnc e c (encoderStep c e) ∧
      (encoderStep c e).enc[e] = { c.enc[e] with tgt := encTarget c e o, lagmax := (encoderStep c e).enc[e].lagmax } := by
  have ha := aimed_at (o := o) c e
  have hd : (aimed o c e).enc[e].benchhold = true := by
    rw [ha]
    exact hb
  rw [encoderStep_running hs hr ho h (.inr hb), encMove_stays (.inr (.inr hd)), encLagCheck_held _ _ hd]
  refine ⟨touchesEnc_aimed c e, ha.trans ?_⟩
  rw [hb, Bool.and_true]

end

end Sys2Proof.Proofs

open Sys2Proof Sys2Proof.Machine Sys2Proof.Proofs

/-- Settles O45: the step of an emulator in INIT, of one that runs and of one under BENCHHOLD. -/
theorem encoderStepsTowardItsTarget : Obligations.EncoderStepsTowardItsTarget := by
  intro s dt e o c x tgt others hs hr ho
  refine ⟨fun h hb => ?_, fun h hx hb => ?_, fun h hb => ?_⟩
  · exact runBlock_of_leaves (f := fun c => encoderStep c e) (encoderStep_init hs hr ho h hb) (leaveFace_of_frame rfl)
  · obtain ⟨ht, hstay, hmove⟩ := encoderStep_free hs hr ho h hx hb
    simp only [stepPart, Prod.mk.injEq] at hstay hmove
    refine ⟨_, runBlock_of_leaves (f := fun c => encoderStep c e) rfl (leaveFace_of_frame ht.frame), ⟨ht.trk, ht.wb, ht.others⟩, ?_,
      fun hh => ?_, fun hm => ⟨fun hl => ?_, fun hl => ?_⟩⟩
    · by_cases hh : encTarget c e o = c.enc[e].cnt ∨ c.tick < c.enc[e].lastedge + encMinspace (enccfg c e)
      · exact (hstay hh).1
      · obtain ⟨hn, hm⟩ := not_or.mp hh
        exact (hmove hn (Nat.not_lt.mp hm)).1
    · obtain ⟨-, h2, h3, -⟩ := hstay hh
      exact ⟨h2, h3⟩
    · obtain ⟨-, h2, h3, h4⟩ := hmove (ne_of_gt hl) hm
      have hn : decide (tgt < x.cnt) = false := decide_eq_false (not_lt.mpr (le_of_lt hl))
      exact ⟨h2.trans (if_neg (ne_true_of_eq_false hn)), h4.trans hn, h3⟩
    · obtain ⟨-, h2, h3, h4⟩ := hmove (ne_of_lt hl) hm
      have hn : decide (tgt < x.cnt) = true := decide_eq_true hl
      exact ⟨h2.trans (if_pos hn), h4.trans hn, h3⟩
  · obtain ⟨ht, he⟩ := encoderStep_held hs hr ho h hb
    exact ⟨_, runBlock_of_leaves (f := fun c => encoderStep c e) rfl (leaveFace_of_frame ht.frame), ⟨ht.trk, ht.wb, ht.others⟩, he⟩
end

