-- ==== Sys2Proof/Proofs/Generators.lean ====
section
/-! GENERATOR_READY, GENERATOR_THERMAL, GENERATOR_LIMIT and VEXC_MONITOR (R203 to R205, Table 7-1): what each event changes of one generator. -/

namespace Sys2Proof.Proofs
open Sys2Proof.Machine

theorem updExc_at (c : Chip) (g : Fin 4) (f : Exc → Exc) : (updExc c g f).exc[g] = f c.exc[g] := upd_at ..

theorem updExc_updExc (c : Chip) (g : Fin 4) (f h : Exc → Exc) : updExc (updExc c g f) g h = updExc c g (fun x => h (f x)) :=
  congrArg (fun v => { c with exc := v }) (upd_upd ..)

theorem updExc_congr {c : Chip} {g : Fin 4} {f h : Exc → Exc} (he : f c.exc[g] = h c.exc[g]) : updExc c g f = updExc c g h :=
  congrArg (fun v => { c with exc := v }) (upd_congr he)

section
variable {c : Chip} {g : Fin 4} (hs : serving c = true)
include hs

/-! ### GENERATOR_READY (R203) -/

theorem generatorReady_ends {amp : Nat} (he : excEn (excCfg c g) = true) (hr : c.exc[g].softstart = true) (ht : c.exc[g].thermoff = false)
    (hz : c.exc[g].zero + 16 * excPeriod (excCfg c g) ≤ c.tick) :
    generatorReady c g amp = updExc { c with flt := { c.flt with resets := c.flt.resets.filter (fun r => r.1 ≠ .exc g) } } g (fun x =>
      { x with ready := true, softstart := false, everReady := true, ampmeas := amp % 65536, readyTick := c.tick }) := by
  refine if_pos ?_
  rw [he, hr, ht, hs, decide_eq_true hz]
  rfl

/-! ### GENERATOR_THERMAL (R205) -/

/-- The driver's temperature, and the fold-back and shut-down that follow from it. -/
def heated (t : Int) (off : Bool) (x : Exc) : Exc :=
  { x with temp := (clampI 0 255 (t + 50)).toNat, foldback := decide (150 ≤ t), thermoff := off }

/-- A driver that was not off. -/
theorem generatorThermal_on {t : Int} (ho : c.exc[g].thermoff = false) :
    generatorThermal c g t =
      (let c1 := updExc c g (heated t (decide (170 ≤ t)))
      let c2 := if decide (150 ≤ t) && !c.exc[g].foldback then countB c1 (16 + g.val) else c1
      if decide (170 ≤ t) then
        countB (updExc c2 g (fun y => { y with
          ready := false, softstart := false,
          stopAt := if excRunning c.exc[g] c2.tick then some (nextZero c.exc[g] (excPeriod (excCfg c2 g)) c2.tick) else none })) (16 + g.val)
      else c2) := by
  unfold generatorThermal
  rw [if_pos hs]
  extract_lets x fold off c1 c2 c3
  have hx : x.thermoff = false := ho
  have hoff : off = decide (170 ≤ t) := if_neg (ne_true_of_eq_false hx)
  have hc3 : c3 = if decide (170 ≤ t) then
        countB (updExc c2 g (fun y => { y with
          ready := false, softstart := false,
          stopAt := if excRunning c.exc[g] c2.tick then some (nextZero c.exc[g] (excPeriod (excCfg c2 g)) c2.tick) else none })) (16 + g.val)
      else c2 := by
    unfold c3
    rw [hx, hoff, Bool.not_false, Bool.and_true]
  rw [hx, Bool.false_and, Bool.false_and, if_neg Bool.false_ne_true, hc3]
  unfold c2 c1
  rw [hoff]
  rfl

theorem generatorThermal_cool {t : Int} (ho : c.exc[g].thermoff = false) (h : t < 140) :
    generatorThermal c g t = updExc c g (fun x => { x with temp := (clampI 0 255 (t + 50)).toNat, foldback := false }) := by
  have h1 : decide (150 ≤ t) = false := decide_eq_false (by omega)
  have h2 : decide (170 ≤ t) = false := decide_eq_false (by omega)
  rw [generatorThermal_on hs ho, h1, h2]
  refine updExc_congr ?_
  rw [heated, h1, ← ho]

theorem generatorThermal_folds {t : Int} (ho : c.exc[g].thermoff = false) (h : 150 ≤ t) (h' : t < 170) (hf : c.exc[g].foldback = false) :
    generatorThermal c g t = countB (updExc c g (fun x => { x with temp := (clampI 0 255 (t + 50)).toNat, foldback := true })) (16 + g.val) := by
  have h1 : decide (150 ≤ t) = true := decide_eq_true h
  have h2 : decide (170 ≤ t) = false := decide_eq_false (by omega)
  rw [generatorThermal_on hs ho, h1, h2, hf]
  refine congrArg (countB · (16 + g.val)) (updExc_congr ?_)
  rw [heated, h1, ← ho]

theorem generatorThermal_stops {t : Int} (ho : c.exc[g].thermoff = false) (h : 170 ≤ t) (hf : c.exc[g].foldback = true) :
    generatorThermal c g t = countB (updExc c g (fun x =>
      { x with temp := (clampI 0 255 (t + 50)).toNat, foldback := true, thermoff := true, ready := false, softstart := false,
               stopAt := if excRunning c.exc[g] c.tick then some (nextZero c.exc[g] (excPeriod (excCfg c g)) c.tick) else none })) (16 + g.val) := by
  have h1 : decide (150 ≤ t) = true := decide_eq_true (by omega)
  have h2 : decide (170 ≤ t) = true := decide_eq_true h
  rw [generatorThermal_on hs ho, h1, h2, hf]
  refine congrArg (countB · (16 + g.val)) ((updExc_updExc ..).trans (updExc_congr ?_))
  rw [heated, h1]
  rfl

/-! ### GENERATOR_LIMIT (R204, R205) -/

theorem generatorLimit_off {clip : Bool} {amp : Nat} {sens : Int} (h : c.exc[g].drvoff = true) :
    generatorLimit c g clip amp sens = updExc c g (fun x => { x with sens := clampS 16 sens, ampmeas := amp % 65536 }) := by
  have hd : (updExc c g (fun x => { x with sens := clampS 16 sens })).exc[g].drvoff = true := by
    rw [updExc_at]
    exact h
  unfold generatorLimit
  rw [if_pos hs]
  extract_lets d x
  have hh : (serving d && x.drvoff) = true := Bool.and_eq_true_iff.mpr ⟨hs, hd⟩
  rw [if_pos hh]
  exact updExc_updExc ..

/-- The amplitude sensed is outside 5 % of the target. -/
def outside (c : Chip) (g : Fin 4) (amp : Nat) : Bool :=
  decide (100 * (100 * (amp % 65536)) > 105 * excTarget c g) || decide (100 * (100 * (amp % 65536)) < 95 * excTarget c g)

/-- A run of periods that the next one ends or continues. -/
def nextRun (hit : Bool) (r : Nat) : Nat := if hit then r + 1 else 0

theorem generatorLimit_on {clip : Bool} {amp : Nat} {sens : Int} (h : c.exc[g].drvoff = false) :
    generatorLimit c g clip amp sens =
      (let cr := nextRun clip c.exc[g].clipRun
      let br := nextRun (c.exc[g].ready && outside c g amp) c.exc[g].badRun
      let d := updExc c g (fun x => { x with
        sens := clampS 16 sens, limit := clip, ampmeas := amp % 65536, clipRun := if cr = 8 then 0 else cr, badRun := if br = 16 then 0 else br })
      let e := if cr = 8 then countB d (16 + g.val) else d
      if br = 16 then countB e (20 + g.val) else e) := by
  unfold generatorLimit
  rw [if_pos hs]
  extract_lets d x cr tgt a bad br d2 e
  have hx : x = { c.exc[g] with sens := clampS 16 sens } := updExc_at ..
  have hd : x.drvoff = false := by
    rw [hx]
    exact h
  have ht : tgt = excTarget c g := by
    show excTarget d g = _
    unfold excTarget d
    rw [updExc_at]
    rfl
  have hcr : cr = nextRun clip c.exc[g].clipRun := by
    unfold cr
    rw [hx]
    rfl
  have hbr : br = nextRun (c.exc[g].ready && outside c g amp) c.exc[g].badRun := by
    unfold br bad
    rw [hx, ht]
    rfl
  have hd2 : d2 = updExc c g (fun x => { x with
        sens := clampS 16 sens, limit := clip, ampmeas := amp % 65536, clipRun := if cr = 8 then 0 else cr, badRun := if br = 16 then 0 else br }) :=
    updExc_updExc ..
  rw [show serving d = true from hs, hd, if_neg (by decide), if_pos rfl]
  unfold e
  rw [hd2, hcr, hbr]

theorem generatorLimit_clips {amp : Nat} {sens : Int} (h : c.exc[g].drvoff = false) (hc : c.exc[g].clipRun = 7) (hr : c.exc[g].ready = false) :
    generatorLimit c g true amp sens = countB (updExc c g (fun x =>
      { x with sens := clampS 16 sens, limit := true, ampmeas := amp % 65536, clipRun := 0, badRun := 0 })) (16 + g.val) := by
  rw [generatorLimit_on hs h, hc, hr]
  rfl

theorem generatorLimit_strays {amp : Nat} {sens : Int} (h : c.exc[g].drvoff = false) (hr : c.exc[g].ready = true) (hb : c.exc[g].badRun = 15)
    (ho : outside c g amp = true) :
    generatorLimit c g false amp sens = countB (updExc c g (fun x =>
      { x with sens := clampS 16 sens, limit := false, ampmeas := amp % 65536, clipRun := 0, badRun := 0 })) (20 + g.val) := by
  rw [generatorLimit_on hs h, hr, hb, ho]
  rfl

theorem generatorLimit_holds {amp : Nat} {sens : Int} (h : c.exc[g].drvoff = false) (ho : outside c g amp = false) :
    generatorLimit c g false amp sens = updExc c g (fun x =>
      { x with sens := clampS 16 sens, limit := false, ampmeas := amp % 65536, clipRun := 0, badRun := 0 }) := by
  rw [generatorLimit_on hs h, ho, Bool.and_false]
  rfl

end

/-- Below 95 % or above 105 % of the target. -/
theorem outside_iff (c : Chip) (g : Fin 4) (amp : Nat) :
    outside c g amp = true ↔ 10000 * (amp % 65536) < 95 * excTarget c g ∨ 105 * excTarget c g < 10000 * (amp % 65536) := by
  unfold outside
  rw [Bool.or_eq_true_iff, decide_eq_true_iff, decide_eq_true_iff]
  omega

end Sys2Proof.Proofs

open Sys2Proof Sys2Proof.Machine Sys2Proof.Proofs

/-- Settles O42: a soft start's end, a driver's temperature, a carrier period's limits and VEXC's monitor. -/
theorem generatorEventsAct : Obligations.GeneratorEventsAct := by
  intro s dt g amp tc sens c x exc temp a tgt hs
  refine ⟨fun he hr ht hz => ?_, fun ho => ⟨fun h => ?_, fun h h' hf => ?_, fun h hf => ?_⟩, fun clip h => ?_,
    fun h => ⟨fun hc hr => ?_, fun hr hb ho => ?_, fun hl hu => ?_⟩, fun low => ?_⟩
  · exact runBlock_of_leaves (f := fun c => generatorReady c g amp) (generatorReady_ends hs he hr ht hz) (leaveFace_of_frame rfl)
  · exact runBlock_of_leaves (f := fun c => generatorThermal c g tc) (generatorThermal_cool hs ho h) (leaveFace_of_frame rfl)
  · exact runBlock_of_leaves (f := fun c => generatorThermal c g tc) (generatorThermal_folds hs ho h h' hf) (leaveFace_of_frame rfl)
  · exact runBlock_of_leaves (f := fun c => generatorThermal c g tc) (generatorThermal_stops hs ho h hf) (leaveFace_of_frame rfl)
  · exact runBlock_of_leaves (f := fun c => generatorLimit c g clip amp sens) (generatorLimit_off hs h) (leaveFace_of_frame rfl)
  · exact runBlock_of_leaves (f := fun c => generatorLimit c g true amp sens) (generatorLimit_clips hs h hc hr) (leaveFace_of_frame rfl)
  · exact runBlock_of_leaves (f := fun c => generatorLimit c g false amp sens)
      (generatorLimit_strays hs h hr hb ((outside_iff c g amp).mpr ho)) (leaveFace_of_frame rfl)
  · have ho : outside c g amp = false := by
      refine Bool.eq_false_iff.mpr fun hh => ?_
      rcases (outside_iff c g amp).mp hh with hh | hh
      · exact absurd hl (Nat.not_le.mpr hh)
      · exact absurd hu (Nat.not_le.mpr hh)
    exact runBlock_of_leaves (f := fun c => generatorLimit c g false amp sens) (generatorLimit_holds hs h ho) (leaveFace_of_frame rfl)
  · refine runBlock_of_leaves (f := fun c => vexcMonitor c low) (if_pos hs) (leaveFace_of_frame ?_)
    exact frame_setLevelR ..
end

