-- ==== Sys2Proof/Proofs/WheelNoise.lean ====
section
/-! WHEEL_EDGE of noise (R321): REJECTS counts modulo 65 536 (Table 11-8), not modulo 2^32. -/

namespace Sys2Proof.Proofs
open Sys2Proof.Machine

/-- A part in RUN whose wheel 3, a Hall input of two teeth, is SYNCED with REJECTS at 65 535, its last interval 1 000 000 ticks long. -/
def noisyChip : Chip :=
  { resetChip with
    tick := 144000, pw := { resetChip.pw with state := .run, hostver := 1 },
    wh := upd resetChip.wh 3 (fun x => { x with st := .synced, last := some 100000, hist := [(1000000, 1)], rejects := 65535 }),
    mem := { resetChip.mem with
      active := storePut (storePut resetChip.mem.active 0x02030800 (pack [(62, 2, 1), (16, 9, 2)])) 0x02030008 0x80000000 } }

/-- The state with that part and no command waiting. -/
def noisyState : State := { chip := noisyChip, was := noisyChip, pending := [] }

/-- REJECTS of wheel 3 after a step. -/
def rejectsAfter (o : Host.Outcome State Fault Refusal) : Nat :=
  match o with
  | .next t => t.chip.wh[(3 : Fin 4)].rejects
  | _ => 0

/-- An edge 43 993 ticks after the last one is noise there. -/
theorem noisyState_noise :
    let c := found noisyState 0
    let x := c.wh[(3 : Fin 4)]
    serving c = true ∧ c.isN = false ∧ c.pw.lfclk = false ∧ inTransit c (ixWh 3) = false ∧ whInput (whcfg c 3) = 1 ∧
    inReset c (.obj (ixWh 3)) = false ∧ x.st ≠ .disabled ∧ x.last = some 100000 ∧ whDirmode (whcfg c 3) = 0 ∧ x.dir = false ∧
    isNoise c 3 false (max 1 (c.tick - (5 + whFilt (whcfg c 3) + (2 : Fin 3).val) - 100000)) = true ∧ x.jumpNow = none ∧ x.rejects = 65535 := by
  decide +kernel

/-- REJECTS wraps to 0. -/
theorem noisyState_wraps : rejectsAfter (exec (.wheelEdge 0 3 2 0 0) noisyState) = 0 := by
  decide +kernel

end Sys2Proof.Proofs

open Sys2Proof Sys2Proof.Machine Sys2Proof.Proofs

/-- Refutes O49: an edge that is noise takes REJECTS, a 16-bit count (Table 11-8), from 65 535 to 0, where the statement has 65 536. -/
theorem not_wheelEventsAct : ¬ Obligations.WheelEventsAct := by
  intro h
  obtain ⟨hs, hn, hl, ht, hi, hr, hst, hlast, hm, hd, hnoise, hj, hrej⟩ := noisyState_noise
  obtain ⟨-, hedge, -⟩ := h noisyState 0 3 2 0 0 hs
  obtain ⟨-, hcount, -⟩ := hedge hn hl ht (.inl hi)
  have hw : (0 : Nat) = ((found noisyState 0).wh[(3 : Fin 4)].rejects + 1) % 4294967296 := by
    refine noisyState_wraps.symm.trans ((congrArg rejectsAfter (hcount 100000 hr hst hlast hm hd hnoise hj)).trans ?_)
    exact congrArg Wheel.rejects (upd_at ..)
  rw [hrej] at hw
  exact absurd hw (by decide)
end

