-- ==== Sys2Proof/Proofs/FrontEnds.lean ====
section
/-! PAIR_WINDOW, CARRIER_PERIOD_FIT, SELFCAL_MEASUREMENT and the presence checks (R212 to R234): what each event changes of one front end. -/

namespace Sys2Proof.Proofs
open Sys2Proof.Machine

/-! ### Operations of one front end -/

/-- d differs from c in front end n, and in nothing that a form of the block takes back. -/
structure TouchesFe (n : Fin 16) (c d : Chip) : Prop where
  others : ∀ m : Fin 16, m ≠ n → d.fe[m] = c.fe[m]
  frame : frame d = frame c
  trk : d.trk = c.trk
  wb : d.wb = c.wb

theorem TouchesFe.refl (n : Fin 16) (c : Chip) : TouchesFe n c c := ⟨fun _ _ => rfl, rfl, rfl, rfl⟩

theorem TouchesFe.trans {n : Fin 16} {b c d : Chip} (h : TouchesFe n b c) (g : TouchesFe n c d) : TouchesFe n b d :=
  ⟨fun k hk => (g.others k hk).trans (h.others k hk), g.frame.trans h.frame, g.trk.trans h.trk, g.wb.trans h.wb⟩

theorem TouchesFe.all {n : Fin 16} {c d : Chip} (h : TouchesFe n c d) : d.trk = c.trk ∧ d.wb = c.wb ∧ ∀ m : Fin 16, m ≠ n → d.fe[m] = c.fe[m] :=
  ⟨h.trk, h.wb, h.others⟩

theorem touchesFe_updFe (c : Chip) (n : Fin 16) (f : Fe → Fe) : TouchesFe n c (updFe c n f) := ⟨fun _ hm => upd_other _ _ hm, rfl, rfl, rfl⟩

theorem TouchesFe.countB {n : Fin 16} {c d : Chip} (h : TouchesFe n c d) (k : Nat) : TouchesFe n c (countB d k) :=
  ⟨h.others, h.frame, h.trk, h.wb⟩

theorem TouchesFe.level {n : Fin 16} {c d : Chip} (h : TouchesFe n c d) (k : Nat) (b : Bool) : TouchesFe n c (levelB d k b) := by
  unfold levelB
  rw [setLevelR_only]
  exact ⟨h.others, h.frame, h.trk, h.wb⟩

theorem TouchesFe.notify {n : Fin 16} {c d : Chip} (h : TouchesFe n c d) (i : ObjIx) (k : Nat) : TouchesFe n c (notifyObj d i k) :=
  ⟨h.others, h.frame, h.trk, h.wb⟩

theorem updFe_at (c : Chip) (n : Fin 16) (f : Fe → Fe) : (updFe c n f).fe[n] = f c.fe[n] := upd_at ..

theorem updFe_updFe (c : Chip) (n : Fin 16) (f g : Fe → Fe) : updFe (updFe c n f) n g = updFe c n (fun x => g (f x)) :=
  congrArg (fun v => { c with fe := v }) (upd_upd ..)

theorem countB_fe (c : Chip) (k : Nat) (n : Fin 16) : (countB c k).fe[n] = c.fe[n] := rfl

theorem setLevelR_fe (c : Chip) (k : Src) (b : Bool) (r : Raise) : (setLevelR c k b r).fe = c.fe := by
  rw [setLevelR_only]

theorem levelB_fe (c : Chip) (k : Nat) (b : Bool) (n : Fin 16) : (levelB c k b).fe[n] = c.fe[n] := congrArg (·[n]) (setLevelR_fe ..)

/-! ### A pair arrives (R213, R216) -/

/-- What supervision of a pair leaves alone. -/
def pairPart (f : Fe) : List Pair × Int × Int × Int × Int × Option Nat := (f.flight, f.pairS, f.pairC, f.offS, f.offC, f.lastStamp)

section
variable (c : Chip) (n : Fin 16)

theorem updFe_pair (f : Fe → Fe) (h : pairPart (f c.fe[n]) = pairPart c.fe[n]) :
    TouchesFe n c (updFe c n f) ∧ pairPart (updFe c n f).fe[n] = pairPart c.fe[n] :=
  ⟨touchesFe_updFe .., by rw [updFe_at, h]⟩

theorem noteAttn_pair : TouchesFe n c (noteAttn c n) ∧ pairPart (noteAttn c n).fe[n] = pairPart c.fe[n] :=
  updFe_pair _ _ _ rfl

/-- The runs of low and other pairs, and MISMATCH. -/
def runsCounted (low ok : Nat) (bad : Nat → Bool) (f : Fe) : Fe :=
  { f with lowRun := min low 65535, okRun := min ok 65535, mismatch := bad f.magnitude }

theorem runsCounted_pair (low ok : Nat) (bad : Nat → Bool) (f : Fe) : pairPart (runsCounted low ok bad f) = pairPart f := rfl

theorem supervise_pair : TouchesFe n c (supervise c n) ∧ pairPart (supervise c n).fe[n] = pairPart c.fe[n] := by
  unfold supervise
  extract_lets f low lr okr t d
  have hd : TouchesFe n c d ∧ pairPart d.fe[n] = pairPart c.fe[n] :=
    by
    obtain ⟨h1, h2⟩ := noteAttn_pair (updFe c n (runsCounted lr okr (Machine.mismatched c n))) n
    obtain ⟨h3, h4⟩ := updFe_pair c n (runsCounted lr okr (Machine.mismatched c n)) (runsCounted_pair ..)
    exact ⟨h3.trans h1, h2.trans h4⟩
  clear_value d
  obtain ⟨ht, hp⟩ := hd
  split
  · obtain ⟨ht', hp'⟩ := updFe_pair d n (fun f => { f with sigok := false }) rfl
    exact ⟨(ht.trans ht').level .., (congrArg pairPart (levelB_fe ..)).trans (hp'.trans hp)⟩
  · split
    · obtain ⟨ht', hp'⟩ := updFe_pair d n (fun f => { f with sigok := true }) rfl
      exact ⟨(ht.trans ht').level .., (congrArg pairPart (levelB_fe ..)).trans (hp'.trans hp)⟩
    · exact ⟨ht, hp⟩

theorem clipCheck_pair (clip : Bool) : TouchesFe n c (clipCheck c n clip) ∧ pairPart (clipCheck c n clip).fe[n] = pairPart c.fe[n] := by
  unfold clipCheck
  extract_lets f now d
  have hd : TouchesFe n c d ∧ pairPart d.fe[n] = pairPart c.fe[n] := updFe_pair _ _ _ rfl
  split
  · exact ⟨hd.1.countB _, hd.2⟩
  · exact hd

theorem rotCollect_pair (stamp : Nat) (s d : Int) :
    TouchesFe n c (rotCollect c n stamp s d) ∧ pairPart (rotCollect c n stamp s d).fe[n] = pairPart c.fe[n] := by
  unfold rotCollect
  split
  · refine ⟨touchesFe_updFe .., ?_⟩
    rw [updFe_at]
    dsimp only
    split
    · rfl
    · split <;> rfl
  · exact ⟨.refl .., rfl⟩

/-- The pairs on their way to the estimators when a pair arrives. -/
def onTheWay : List Pair :=
  if c.trk[n].st = .disabled then c.fe[n].flight.filter (fun q => decide (c.tick ≤ q.stamp + 320 + 400 * chHop c n)) else c.fe[n].flight

theorem pairArrive_pair (stamp : Nat) (s0 d0 s d : Int) (w : Nat) (clip : Bool) :
    TouchesFe n c (pairArrive c n stamp s0 d0 s d w clip) ∧ ∃ p : Pair, p.stamp = stamp ∧ p.s = s ∧ p.c = d ∧ p.w = w ∧
      pairPart (pairArrive c n stamp s0 d0 s d w clip).fe[n] =
        (onTheWay c n ++ [p], s, d, c.fe[n].offS, c.fe[n].offC, c.fe[n].lastStamp) := by
  unfold pairArrive
  extract_lets f env period win p mag a b
  have ha : TouchesFe n c a ∧ pairPart a.fe[n] = (onTheWay c n ++ [p], s, d, c.fe[n].offS, c.fe[n].offC, c.fe[n].lastStamp) :=
    ⟨touchesFe_updFe .., congrArg pairPart (updFe_at ..)⟩
  obtain ⟨hbt, hbp⟩ := rotCollect_pair a n stamp s0 d0
  have hb : TouchesFe n c b ∧ pairPart b.fe[n] = pairPart a.fe[n] := ⟨ha.1.trans hbt, hbp⟩
  have hall : TouchesFe n c (if feSuspended b n then b else clipCheck (supervise b n) n clip) ∧
      pairPart (if feSuspended b n then b else clipCheck (supervise b n) n clip).fe[n] = pairPart a.fe[n] := by
    split
    · exact hb
    · exact ⟨hb.1.trans ((supervise_pair b n).1.trans (clipCheck_pair ..).1), (clipCheck_pair ..).2.trans ((supervise_pair b n).2.trans hb.2)⟩
  exact ⟨hall.1, p, rfl, rfl, rfl, rfl, hall.2.trans ha.2⟩

/-! ### PAIR_WINDOW (R212 to R214, R225) -/

theorem measureRow_flight (f : Fe) (tf tc : Int × Int) (cal : Bool) (r : Int × Int × Int) : (measureRow f tf tc cal r).flight = f.flight := by
  unfold measureRow
  extract_lets sh fs fc
  split <;> rfl

/-- The fit of a window's rows, a free value where no sample has a weight. -/
def windowFit (xs : List (Int × Int)) (cosine : Bool) : Int × Int :=
  (fitRef (fitRows c n (windowRows c n (c.tick - 64) xs) cosine)).getD
    (if cosine then (clampS 32 (Config.blankFit (drawFree c).1 2), clampS 32 (Config.blankFit (drawFree c).1 3))
      else (clampS 32 (Config.blankFit (drawFree c).1 0), clampS 32 (Config.blankFit (drawFree c).1 1)))

/-- The pair of a window, with the sensor correction. -/
def windowPair (xs : List (Int × Int)) : Int × Int :=
  match sensorAt c.fe[n] (c.tick - 64) with
  | some q => sensorFix q.1 q.2 (windowFit c n xs false).1 (windowFit c n xs true).1
  | none => ((windowFit c n xs false).1, (windowFit c n xs true).1)

theorem pairWindow_pair (xs : List (Int × Int)) (beyond : Bool) (hr : feRunning c n = true) (hs : onSat c n = false) (ht : 128 ≤ c.tick)
    (hw : windowDue c.fe[n] (c.tick - 64) = true) :
    TouchesFe n c (pairWindow c n xs beyond) ∧ ∃ p : Pair, p.stamp = c.tick - 64 ∧ p.s = (windowPair c n xs).1 ∧ p.c = (windowPair c n xs).2 ∧
      p.w = windowWeight c n (c.tick - 64) (c.fe[n].phi.getD 0 * 2 ^ 16) ∧
      pairPart (pairWindow c n xs beyond).fe[n] = (onTheWay c n ++ [p], (windowPair c n xs).1, (windowPair c n xs).2,
        (windowFit c n xs false).2, (windowFit c n xs true).2, some (c.tick - 64)) := by
  unfold pairWindow
  extract_lets stamp rows w p blank rs rc clip cal tf tc pr d
  have hcond : (feRunning c n && !onSat c n && decide (128 ≤ c.tick) && windowDue c.fe[n] stamp) = true := by
    rw [hr, hs, decide_eq_true ht, show windowDue c.fe[n] stamp = true from hw]
    rfl
  rw [if_pos hcond]
  have hpr : pr = windowPair c n xs := rfl
  have hd : TouchesFe n c d ∧ onTheWay d n = onTheWay c n ∧ d.fe[n].offS = (windowFit c n xs false).2 ∧
      d.fe[n].offC = (windowFit c n xs true).2 ∧ d.fe[n].lastStamp = some (c.tick - 64) := by
    have he : d.fe[n] = { rows.foldl (fun f r => measureRow f tf tc cal r) c.fe[n] with offS := rs.2, offC := rc.2, lastStamp := some stamp } :=
      updFe_at ..
    have hf : d.fe[n].flight = c.fe[n].flight := by
      rw [he]
      exact foldl_fixed Fe.flight (fun f r => measureRow f tf tc cal r) (fun f r => measureRow_flight f tf tc cal r) _ _
    refine ⟨⟨(touchesFe_updFe p.2 n _).others, rfl, rfl, rfl⟩, ?_, ?_, ?_, ?_⟩
    · unfold onTheWay
      rw [hf]
      rfl
    · rw [he]
      rfl
    · rw [he]
      rfl
    · rw [he]
  obtain ⟨h1, h2, h3, h4, h5⟩ := hd
  obtain ⟨ht, q, hq1, hq2, hq3, hq4, hq⟩ := pairArrive_pair d n stamp rs.1 rc.1 pr.1 pr.2 w clip
  rw [h2, h3, h4, h5] at hq
  exact ⟨h1.trans ht, q, hq1, hq2, hq3, hq4, hq⟩

/-! ### CARRIER_PERIOD_FIT (R215) -/

/-- The phase error of a carrier period that has ended. -/
def fitError (err : Int) : Int := if onSat c n then err * 2 ^ 16 else quadError c.fe[n].quad

/-- The carrier period noted. -/
def fitted (err : Int) : Chip :=
  updFe c n (fun f => { f with
    fitRise := lastRise c.exc[feExc (fecfg c n)] (chPeriod c n) c.tick, quad := quadZero, phErr := c.fe[n].phi.getD 0 + fitError c n err })

/-- φc, one step of the filter further. -/
def filtered (err : Int) : Int :=
  clampI (-phaseLimit) phaseLimit (c.fe[n].phi.getD 0 + rdiv (fitError c n err * phaseStep) (2 ^ 32))

theorem lowSignal_fitted (err : Int) (m : Nat) : lowSignal (fitted c n err) n m = lowSignal c n m := by
  unfold lowSignal expRatio fitted
  rw [updFe_at]
  rfl

theorem clampI_range {lo hi : Int} (h : lo ≤ hi) (x : Int) : lo ≤ clampI lo hi x ∧ clampI lo hi x ≤ hi := by
  unfold clampI
  omega

theorem filtered_range (err : Int) : -phaseLimit ≤ filtered c n err ∧ filtered c n err ≤ phaseLimit := clampI_range (by decide) _

variable {c n}

section
variable {err : Int} (hr : feRunning c n = true) (hy : refReady c n = true) (hq : onSat c n = true ∨ 0 < c.fe[n].quad.n)
  (hd : c.fe[n].fitRise < lastRise c.exc[feExc (fecfg c n)] (chPeriod c n) c.tick)
include hr hy hq hd

theorem carrierPeriodFit_due : carrierPeriodFit c n err =
    if !bit (fecfg c n) 60 && !lowSignal c n c.fe[n].magnitude then
      let lim := decide (filtered c n err = phaseLimit ∨ filtered c n err = -phaseLimit)
      let d := updFe (fitted c n err) n (fun f => { f with phi := some (filtered c n err), phaselim := lim })
      if lim && !c.fe[n].phaselim then countB d (98 + 8 * n.val) else d
    else fitted c n err := by
  have hc : (feRunning c n && refReady c n && decide (c.fe[n].fitRise < lastRise c.exc[feExc (fecfg c n)] (chPeriod c n) c.tick) &&
      (onSat c n || decide (0 < c.fe[n].quad.n))) = true := by
    rw [hr, hy, decide_eq_true hd]
    rcases hq with hq | hq
    · rw [hq]
      rfl
    · rw [decide_eq_true hq, Bool.or_true]
      rfl
  unfold carrierPeriodFit
  extract_lets f rise e old d v lim a lim' b
  have hd : d = fitted c n err := rfl
  have hl : lowSignal d n f.magnitude = lowSignal c n c.fe[n].magnitude := lowSignal_fitted ..
  rw [if_pos hc, hl]
  rfl

theorem carrierPeriodFit_held (h : bit (fecfg c n) 60 = true ∨ lowSignal c n c.fe[n].magnitude = true) :
    carrierPeriodFit c n err = fitted c n err := by
  rw [carrierPeriodFit_due hr hy hq hd, if_neg ?_]
  rcases h with h | h
  · rw [h]
    exact Bool.false_ne_true
  · rw [h, Bool.not_true, Bool.and_false]
    exact Bool.false_ne_true

theorem carrierPeriodFit_moves (hb : bit (fecfg c n) 60 = false) (hl : lowSignal c n c.fe[n].magnitude = false) :
    TouchesFe n c (carrierPeriodFit c n err) ∧ (carrierPeriodFit c n err).fe[n] =
      { (fitted c n err).fe[n] with
        phi := some (filtered c n err), phaselim := decide (filtered c n err = phaseLimit ∨ filtered c n err = -phaseLimit) } := by
  rw [carrierPeriodFit_due hr hy hq hd, hb, hl, if_pos (by decide)]
  extract_lets lim d
  have hd : TouchesFe n c d ∧ d.fe[n] = { (fitted c n err).fe[n] with phi := some (filtered c n err), phaselim := lim } :=
    ⟨(touchesFe_updFe ..).trans (touchesFe_updFe ..), updFe_at ..⟩
  split
  · exact ⟨hd.1.countB _, hd.2⟩
  · exact hd

end

/-! ### SELFCAL_MEASUREMENT (R221, R222) -/

/-- A measurement begun again. -/
def calAgain (c : Chip) (n : Fin 16) : Chip := updFe c n (fun f => { f with calFrom := some c.tick, tone := toneZero })

/-- The next trims. -/
def nextTrims (c : Chip) (n : Fin 16) (q : Trims × Int × Int) : Trims := stepTrims c.fe[n].trims (limitTrims q.1)

section
variable {m : Trims} {toneS toneC : Int} {t0 : Nat} {q : Trims × Int × Int} (hon : selfCalOn c n = true) (hf : c.fe[n].calFrom = some t0)
  (ht : t0 + 1024 * chPeriod c n ≤ c.tick) (hq : (if onSat c n then some (m, toneS, toneC) else toneResult c.fe[n].tone) = some q)
include hon hf ht hq

theorem selfcalMeasurement_due : selfcalMeasurement c n m toneS toneC =
    if toneBad q.2.1 || toneBad q.2.2 then calRefBad (calAgain c n) n
    else
      let d := levelB (updFe (calAgain c n) n (fun f => { f with calrefbad := false })) (100 + 8 * n.val) false
      let k := if nextTrims c n q = c.fe[n].trims then min (c.fe[n].quiet + 1) 64 else 0
      putTrims (updFe d n (fun f => { f with quiet := k, fevalid := f.fevalid || k = 64 })) n (nextTrims c n q) := by
  unfold selfcalMeasurement
  extract_lets f
  rw [hq, show f.calFrom = some t0 from hf]
  dsimp only
  rw [hon, decide_eq_true ht, if_pos (by decide)]
  rfl

theorem selfcalMeasurement_bad (h : toneBad q.2.1 = true ∨ toneBad q.2.2 = true) :
    selfcalMeasurement c n m toneS toneC = levelB (updFe c n (fun f =>
      { f with calFrom := some c.tick, tone := toneZero, calrefbad := true, calBad := true, fevalid := false, quiet := 0 })) (100 + 8 * n.val) true := by
  rw [selfcalMeasurement_due hon hf ht hq, if_pos (Bool.or_eq_true_iff.mpr h)]
  exact congrArg (levelB · (100 + 8 * n.val) true) (updFe_updFe ..)

theorem selfcalMeasurement_good (h : toneBad q.2.1 = false) (h' : toneBad q.2.2 = false) :
    TouchesFe n c (selfcalMeasurement c n m toneS toneC) ∧ (selfcalMeasurement c n m toneS toneC).fe[n].calrefbad = false ∧
      (selfcalMeasurement c n m toneS toneC).fe[n].trims = nextTrims c n q ∧
      (selfcalMeasurement c n m toneS toneC).fe[n].callimit = atLimit (nextTrims c n q) := by
  rw [selfcalMeasurement_due hon hf ht hq, h, h', Bool.or_false, if_neg Bool.false_ne_true]
  extract_lets d k
  have hd : TouchesFe n c d ∧ d.fe[n].calrefbad = false := by
    refine ⟨((touchesFe_updFe ..).trans (touchesFe_updFe ..)).level .., ?_⟩
    unfold d
    rw [levelB_fe, updFe_at]
  clear_value d
  unfold putTrims
  extract_lets e
  have he : TouchesFe n c e ∧ e.fe[n].calrefbad = false ∧ e.fe[n].trims = nextTrims c n q ∧ e.fe[n].callimit = atLimit (nextTrims c n q) := by
    refine ⟨hd.1.trans ((touchesFe_updFe ..).trans (touchesFe_updFe ..)), ?_⟩
    unfold e
    rw [updFe_at, updFe_at]
    exact ⟨hd.2, rfl, rfl⟩
  split
  · exact ⟨he.1.countB _, he.2⟩
  · exact he

end

theorem stepOne_near (a m : Int) : (stepOne a m - a).natAbs ≤ 1 := by
  unfold stepOne
  split
  · omega
  · split <;> omega

/-- Every trim moves by at most one LSB. -/
theorem trimChange_stepTrims (t m : Trims) : trimChange (stepTrims t m) t ≤ 1 :=
  max_le (max_le (max_le (stepOne_near ..) (stepOne_near ..)) (max_le (stepOne_near ..) (stepOne_near ..))) (stepOne_near ..)

/-! ### Presence checks (R232, R233) -/

theorem presenceStart_due (h : c.tick % 16000000 = 1000000 * n.val) (hr : feRunning c n = true) (hb : bit (fecfg c n) 62 = false)
    (hd : c.fe[n].discrun = false) (hp : c.fe[n].presrun = false)
    (hs : onSat c n = false ∨ c.link.sats[feSatk (fecfg c n)].admitted = true) :
    presenceStart c n = updFe c n (fun f => { f with presrun := true, presStart := c.tick }) := by
  refine if_pos ⟨h, hr, hb, hd, hp, ?_⟩
  rcases hs with hs | hs <;> rw [hs]
  · rfl
  · rw [Bool.not_true, Bool.and_false]

/-- What the outcome of a presence check decides last. -/
def presPart (f : Fe) : Bool × Nat × Nat × Word := (f.presrun, f.prescount, f.presclass, f.discres)

theorem noted_presence (d : Chip) (v e : Nat) :
    TouchesFe n d (notifyObj (noteAttn (updFe d n (fun f => { f with field := v })) n) (ixCh n) e) ∧
    presPart (notifyObj (noteAttn (updFe d n (fun f => { f with field := v })) n) (ixCh n) e).fe[n] = presPart d.fe[n] := by
  refine ⟨((touchesFe_updFe ..).trans (touchesFe_updFe ..)).notify .., ?_⟩
  show presPart (noteAttn (updFe d n (fun f => { f with field := v })) n).fe[n] = _
  unfold noteAttn
  rw [updFe_at, updFe_at]
  rfl

/-- The class that a presence check finds. -/
def presenceClass (c : Chip) (n : Fin 16) (dvs dvc : Int) : Nat :=
  (classify c n (resOf dvs 10) (resOf dvc 10) none (c.fe[n].magnitude * 3600) (refAmp c n * 2 ^ 31) none).1

theorem presenceEnd_due {dvs dvc : Int} (hp : c.fe[n].presrun = true) (ht : c.fe[n].presStart + 192000 ≤ c.tick) :
    TouchesFe n c (presenceEnd c n dvs dvc) ∧ presPart (presenceEnd c n dvs dvc).fe[n] =
      (false, wrapInc16 c.fe[n].prescount, presenceClass c n dvs dvc, c.fe[n].discres) := by
  unfold presenceEnd
  extract_lets f note k pn d
  have hk : k = presenceClass c n dvs dvc := rfl
  clear_value k
  have hd : TouchesFe n c d ∧ presPart d.fe[n] = (false, wrapInc16 c.fe[n].prescount, presenceClass c n dvs dvc, c.fe[n].discres) := by
    refine ⟨touchesFe_updFe .., ?_⟩
    unfold d
    rw [updFe_at, hk]
    rfl
  have hc : (f.presrun && decide (f.presStart + 192000 ≤ c.tick)) = true := by
    rw [show f.presrun = true from hp, Bool.true_and]
    exact decide_eq_true ht
  rw [if_pos hc]
  clear_value d
  split
  · split
    · obtain ⟨h1, h2⟩ := noted_presence (n := n) d 4 16
      exact ⟨hd.1.trans h1, h2.trans hd.2⟩
    · exact hd
  · split
    · obtain ⟨h1, h2⟩ := noted_presence (n := n) d k 17
      exact ⟨hd.1.trans h1, h2.trans hd.2⟩
    · exact hd

end

/-! ### The fit of a window with weight -/

section
variable {c : Chip} {n : Fin 16} {xs : List (Int × Int)}

theorem windowFit_of {cosine : Bool} {a : Int × Int} (h : fitRef (fitRows c n (windowRows c n (c.tick - 64) xs) cosine) = some a) :
    windowFit c n xs cosine = a := by
  unfold windowFit
  rw [h]
  rfl

theorem windowPair_plain (h : sensorAt c.fe[n] (c.tick - 64) = none) :
    windowPair c n xs = ((windowFit c n xs false).1, (windowFit c n xs true).1) := by
  unfold windowPair
  rw [h]

theorem windowPair_corrected {q : Int × Int} (h : sensorAt c.fe[n] (c.tick - 64) = some q) :
    windowPair c n xs = sensorFix q.1 q.2 (windowFit c n xs false).1 (windowFit c n xs true).1 := by
  unfold windowPair
  rw [h]

end

end Sys2Proof.Proofs

open Sys2Proof Sys2Proof.Machine Sys2Proof.Proofs

/-- Settles O43: a window's pair, a carrier period's fit, a self-calibration measurement and the presence checks. -/
theorem frontEndEventsAct : Obligations.FrontEndEventsAct := by
  intro s dt n c f at_ fe others hr
  refine ⟨fun q0 q1 q2 q3 overS overC ho ht hw => ?_, fun err hy hq => ?_, fun m toneS toneC t0 q hon hf ht hq => ⟨fun h => ?_, fun h h' => ?_⟩,
    fun h hb hd hp hs ho => ?_, fun dvs dvc hs hp ht => ?_⟩
  · intro rows
    obtain ⟨h, p, hp1, hp2, hp3, hp4, hp⟩ := pairWindow_pair c n (windowSamples q0 q1 q2 q3) (overS || overC) hr ho ht hw
    simp only [pairPart, Prod.mk.injEq] at hp
    obtain ⟨h1, h2, h3, h4, h5, h6⟩ := hp
    refine ⟨_, p, runBlock_of_leaves (f := fun c => pairWindow c n (windowSamples q0 q1 q2 q3) (overS || overC)) rfl
      (leaveFace_of_frame h.frame), h.all, h1, hp1, hp2.trans h2.symm, hp3.trans h3.symm, hp4, h6, fun a b ha hb => ?_⟩
    have ha := windowFit_of ha
    have hb := windowFit_of hb
    refine ⟨h4.trans (congrArg (·.2) ha), h5.trans (congrArg (·.2) hb), fun hn => ?_, fun q hq => ?_⟩
    · have hw := windowPair_plain (xs := windowSamples q0 q1 q2 q3) hn
      exact ⟨h2.trans ((congrArg (·.1) hw).trans (congrArg (·.1) ha)), h3.trans ((congrArg (·.2) hw).trans (congrArg (·.1) hb))⟩
    · have hw := windowPair_corrected (xs := windowSamples q0 q1 q2 q3) hq
      rw [h2, h3, ← ha, ← hb]
      exact hw
  · intro rise old e hd
    refine ⟨fun h => ?_, fun hb hl => ?_⟩
    · exact runBlock_of_leaves (f := fun c => carrierPeriodFit c n err) (carrierPeriodFit_held hr hy hq hd h) (leaveFace_of_frame rfl)
    · obtain ⟨ht, hv⟩ := carrierPeriodFit_moves hr hy hq hd hb hl
      obtain ⟨hlo, hhi⟩ := filtered_range c n err
      rw [fitted, updFe_at] at hv
      refine ⟨_, filtered c n err, runBlock_of_leaves (f := fun c => carrierPeriodFit c n err) rfl (leaveFace_of_frame ht.frame), ht.all,
        congrArg Fe.phi hv, rfl, hlo, hhi, ?_, congrArg Fe.phErr hv, congrArg Fe.fitRise hv⟩
      exact (iff_of_eq (congrArg (· = true) (congrArg Fe.phaselim hv))).trans decide_eq_true_iff
  · exact runBlock_of_leaves (f := fun c => selfcalMeasurement c n m toneS toneC) (selfcalMeasurement_bad hon hf ht hq h)
      (leaveFace_of_frame ((touchesFe_updFe ..).level ..).frame)
  · obtain ⟨htc, h1, h2, h3⟩ := selfcalMeasurement_good hon hf ht hq h h'
    refine ⟨_, runBlock_of_leaves (f := fun c => selfcalMeasurement c n m toneS toneC) rfl (leaveFace_of_frame htc.frame), htc.all, h1, h2, ?_, ?_⟩
    · rw [h3, h2]
    · rw [h2]
      exact trimChange_stepTrims ..
  · exact runBlock_of_leaves (f := fun c => if serving c then presenceStart c n else c)
      ((if_pos hs).trans (presenceStart_due h hr hb hd hp ho)) (leaveFace_of_frame rfl)
  · obtain ⟨htc, h⟩ := presenceEnd_due (dvs := dvs) (dvc := dvc) hp ht
    simp only [presPart, Prod.mk.injEq] at h
    obtain ⟨h1, h2, h3, h4⟩ := h
    exact ⟨_, runBlock_of_leaves (f := fun c => if serving c then presenceEnd c n dvs dvc else c) (if_pos hs) (leaveFace_of_frame htc.frame),
      htc.all, h1, h2, h3, h4⟩
end

