-- ==== Sys2Proof/Proofs/TrackingUpdate.lean ====
section
/-! TRACKING_UPDATE and BANDWIDTH_EVALUATION (R243 to R252): what an update changes of one channel's tracking. -/

namespace Sys2Proof.Proofs
open Sys2Proof.Machine

/-! ### Operations of one channel's tracking -/

/-- d differs from c in the tracking of channel n, and in nothing that a form of the block takes back. -/
structure TouchesTrk (n : Fin 16) (c d : Chip) : Prop where
  others : ∀ m : Fin 16, m ≠ n → d.trk[m] = c.trk[m]
  fe : d.fe = c.fe
  frame : frame d = frame c
  wb : d.wb = c.wb

theorem TouchesTrk.refl (n : Fin 16) (c : Chip) : TouchesTrk n c c := ⟨fun _ _ => rfl, rfl, rfl, rfl⟩

theorem TouchesTrk.trans {n : Fin 16} {b c d : Chip} (h : TouchesTrk n b c) (g : TouchesTrk n c d) : TouchesTrk n b d :=
  ⟨fun k hk => (g.others k hk).trans (h.others k hk), g.fe.trans h.fe, g.frame.trans h.frame, g.wb.trans h.wb⟩

theorem touchesTrk_updTrk (c : Chip) (n : Fin 16) (f : Trk → Trk) : TouchesTrk n c (updTrk c n f) :=
  ⟨fun _ hm => upd_other _ _ hm, rfl, rfl, rfl⟩

theorem TouchesTrk.countB {n : Fin 16} {c d : Chip} (h : TouchesTrk n c d) (k : Nat) : TouchesTrk n c (countB d k) :=
  ⟨h.others, h.fe, h.frame, h.wb⟩

theorem TouchesTrk.level {n : Fin 16} {c d : Chip} (h : TouchesTrk n c d) (k : Nat) (b : Bool) : TouchesTrk n c (levelB d k b) := by
  unfold levelB
  rw [setLevelR_only]
  exact ⟨h.others, h.fe, h.frame, h.wb⟩

theorem updTrk_updTrk (c : Chip) (n : Fin 16) (f g : Trk → Trk) : updTrk (updTrk c n f) n g = updTrk c n (fun x => g (f x)) :=
  congrArg (fun v => { c with trk := v }) (upd_upd ..)

theorem setLevelR_trk (c : Chip) (k : Src) (b : Bool) (r : Raise) : (setLevelR c k b r).trk = c.trk := by
  rw [setLevelR_only]

theorem levelB_trk (c : Chip) (k : Nat) (b : Bool) (n : Fin 16) : (levelB c k b).trk[n] = c.trk[n] := congrArg (·[n]) (setLevelR_trk ..)

/-! ### What the checks of an update leave alone -/

/-- What the loop alone decides. -/
def loopPart (t : Trk) : TrkSt × Nat × Int × Int × Int × Nat × Nat := (t.st, t.mode, t.theta, t.v, t.phi, t.bw, t.updcount)

/-- d follows from c by a step that leaves the loop's part of channel n alone. -/
def KeepsLoop (n : Fin 16) (c d : Chip) : Prop := TouchesTrk n c d ∧ loopPart d.trk[n] = loopPart c.trk[n]

theorem KeepsLoop.refl (n : Fin 16) (c : Chip) : KeepsLoop n c c := ⟨.refl .., rfl⟩

theorem KeepsLoop.trans {n : Fin 16} {b c d : Chip} (h : KeepsLoop n b c) (g : KeepsLoop n c d) : KeepsLoop n b d :=
  ⟨h.1.trans g.1, g.2.trans h.2⟩

theorem keepsLoop_updTrk (c : Chip) (n : Fin 16) (f : Trk → Trk) (h : loopPart (f c.trk[n]) = loopPart c.trk[n]) : KeepsLoop n c (updTrk c n f) :=
  ⟨touchesTrk_updTrk .., by rw [updTrk_at, h]⟩

section
variable (c : Chip) (n : Fin 16) (e : Int)

theorem overspeed_keeps : KeepsLoop n c (overspeed c n) := by
  unfold overspeed
  extract_lets t hit r d
  clear_value r
  split
  · exact keepsLoop_updTrk _ _ _ rfl
  · have hd : KeepsLoop n c d := keepsLoop_updTrk _ _ _ rfl
    split
    · exact hd
    · exact ⟨hd.1.countB _, hd.2⟩

theorem crossCheck_keeps : KeepsLoop n c (crossCheck c n) := by
  unfold crossCheck
  extract_lets t w hit r
  clear_value r
  split
  · exact keepsLoop_updTrk _ _ _ rfl
  · obtain ⟨ht, hp⟩ := keepsLoop_updTrk c n (fun t => { t with divRun := 0, div := !t.div }) rfl
    exact ⟨ht.level .., (congrArg loopPart (levelB_trk ..)).trans hp⟩

/-- The window's part of an update in LOCKED. -/
def windowed (j : Nat) (far : Prop) [Decidable far] (t : Trk) : Trk :=
  { t with winN := t.winN + 1, winPk := max t.winPk t.a.natAbs, j := if far then j else t.j }

theorem windowed_keeps (j : Nat) (far : Prop) [Decidable far] (t : Trk) : loopPart (windowed j far t) = loopPart t := rfl

theorem policyUpdate_keeps : KeepsLoop n c (policyUpdate c n e) := by
  refine keepsLoop_updTrk c n _ ?_
  split
  · exact windowed_keeps (jmaxOf (trkauto c n)) (2 ^ 64 < e.natAbs * 50) c.trk[n]
  · rfl

/-- An error of at most an eighth of a turn loses no lock. -/
theorem lockCheck_small (hs : c.trk[n].st = .locked) (he : 8 * e.natAbs ≤ 2 ^ 64) :
    lockCheck c n e = (updTrk c n (fun t => { t with lossRun := 0 }), false) := by
  have hn : ¬(2 ^ 64 < e.natAbs * 8) := by omega
  unfold lockCheck
  extract_lets t r1 r2
  have ht : t.st ≠ .acquiring := by
    rw [show t.st = .locked from hs]
    decide
  have hr : r2 = 0 := if_neg hn
  rw [if_neg ht, hr]
  rfl

/-! ### The output words (R242, R252) -/

theorem trkWrite_at (stamp : Nat) :
    (trkWrite c n stamp).trk[n].st = c.trk[n].st ∧ (trkWrite c n stamp).trk[n].valid = true ∧
    (trkWrite c n stamp).trk[n].theta = c.trk[n].theta ∧ (trkWrite c n stamp).trk[n].v = c.trk[n].v ∧
    (trkWrite c n stamp).trk[n].phi = c.trk[n].phi ∧ (trkWrite c n stamp).trk[n].outtick = stamp ∧
    (trkWrite c n stamp).trk[n].bw = c.trk[n].bw ∧ (trkWrite c n stamp).trk[n].updcount = wrapInc16 c.trk[n].updcount ∧
    (trkWrite c n stamp).trk[n].elecang = signed 64 (intBits 64 (rdiv c.trk[n].theta (2 ^ 16))) := by
  unfold trkWrite
  rw [updTrk_at]
  exact ⟨rfl, rfl, rfl, rfl, rfl, rfl, rfl, rfl, rfl⟩

/-! ### One update in LOCKED (R245) -/

/-- The loop's pass for a pair, with the arctangent's difference. -/
def passed (p : Pair) (t : Trk) : Trk :=
  let t := loopPass t (trkBand c n).1 (errorOf p c.trk[n].phi)
  let t := if qualifying p then addD t (atanEst p.s p.c) (decide (c.trk[n].st = .locked) && t.mode = 0) else t
  { t with
    bw := (trkBand c n).1, bwstep := (trkBand c n).2, j := if t.mode = 0 then (trkBand c n).2 else t.j,
    atanD := if t.ds.length = 0 then 0 else rdiv t.ds.sum (t.ds.length * 2 ^ 16) }

theorem addD_loop (t : Trk) (f : Int) (b : Bool) : loopPart (addD t f b) = loopPart t := by
  unfold addD
  extract_lets d u
  split <;> rfl

theorem passed_loop (p : Pair) (t : Trk) : loopPart (passed c n p t) =
    (t.st, t.mode, (loopPass t (trkBand c n).1 (errorOf p c.trk[n].phi)).theta, (loopPass t (trkBand c n).1 (errorOf p c.trk[n].phi)).v,
      (loopPass t (trkBand c n).1 (errorOf p c.trk[n].phi)).phi, (trkBand c n).1, t.updcount) := by
  unfold passed
  extract_lets a b
  have hb : loopPart b = loopPart a := by
    unfold b
    split
    · exact addD_loop ..
    · rfl
  simp only [loopPart, Prod.mk.injEq] at hb ⊢
  obtain ⟨h1, h2, h3, h4, h5, -, h7⟩ := hb
  exact ⟨h1, h2, h3, h4, h5, trivial, h7⟩

theorem trkUpdate_locked (p : Pair) (hs : c.trk[n].st = .locked) (he : 8 * (errorOf p c.trk[n].phi).natAbs ≤ 2 ^ 64) :
    ∃ d, KeepsLoop n (updTrk c n (passed c n p)) d ∧ trkUpdate c n p = trkWrite d n p.stamp := by
  unfold trkUpdate
  extract_lets b err f inLock d r d2
  have hp : KeepsLoop n d d := .refl ..
  have hd : d = updTrk c n (passed c n p) := rfl
  have hst : d.trk[n].st = .locked := by
    have h := passed_loop c n p c.trk[n]
    simp only [loopPart, Prod.mk.injEq] at h
    rw [hd, updTrk_at]
    exact h.1.trans hs
  have hr : r = (updTrk d n (fun t => { t with lossRun := 0 }), false) := lockCheck_small d n err hst he
  have h2 : KeepsLoop n d d2 := by
    have hin : inLock := hs
    unfold d2
    rw [hr, if_pos hin]
    exact (keepsLoop_updTrk d n (fun t => { t with lossRun := 0 }) rfl).trans ((crossCheck_keeps ..).trans (policyUpdate_keeps ..))
  rw [hr]
  exact ⟨overspeed d2 n, hd ▸ h2.trans (overspeed_keeps ..), rfl⟩

/-! ### TRACKING_UPDATE by state -/

/-- The pair's arctangent word. -/
def atanNoted (p : Pair) (t : Trk) : Trk := { t with atanF := (rdiv (atanEst p.s p.c) (2 ^ 16)).toNat % 2 ^ 32 }

/-- The pair taken from the way. -/
def pairTaken (rest : List Pair) : Chip := updTrk (updFe c n (fun f => { f with flight := rest })) n (fun t => { t with updTick := some c.tick })

variable {c n}

section
variable {p : Pair} {rest : List Pair} {d : Nat} (hr : feRunning c n = true) (hf : c.fe[n].flight = p :: rest)
  (hu : updateDue c n p = (d, none)) (hd : d ≤ c.tick) (hs : updateSpaced c.trk[n] c.tick = true)
include hr hf hu hd hs

theorem trackingUpdate_due : trackingUpdate c n = trackPair (pairTaken c n rest) n p := by
  unfold trackingUpdate
  rw [hf]
  dsimp only
  rw [hu, hr, hs, decide_eq_true hd, if_pos (by decide)]
  rfl

end

theorem pairTaken_trk (rest : List Pair) : (pairTaken c n rest).trk[n] = { c.trk[n] with updTick := some c.tick } := updTrk_at ..

theorem pairTaken_fe (rest : List Pair) : (pairTaken c n rest).fe[n] = { c.fe[n] with flight := rest } := updFe_at ..

/-- d differs from c in the front end and the tracking of channel n. -/
structure TouchesCh (n : Fin 16) (c d : Chip) : Prop where
  others : ∀ m : Fin 16, m ≠ n → d.trk[m] = c.trk[m] ∧ d.fe[m] = c.fe[m]
  frame : frame d = frame c
  wb : d.wb = c.wb

theorem touchesCh_pairTaken {rest : List Pair} {d : Chip} (h : TouchesTrk n (pairTaken c n rest) d) :
    TouchesCh n c d ∧ d.fe[n] = { c.fe[n] with flight := rest } := by
  refine ⟨⟨fun m hm => ⟨(h.others m hm).trans (upd_other _ _ hm), ?_⟩, h.frame, h.wb⟩, ?_⟩
  · exact (congrArg (fun v : Vector Fe 16 => v[m]) h.fe).trans (upd_other _ _ hm)
  · exact (congrArg (fun v : Vector Fe 16 => v[n]) h.fe).trans (pairTaken_fe rest)

section
variable {p : Pair} {a : Chip}

/-- The raw ring with a pair at COUNT modulo 128 (R243). -/
def rawRing (t : Trk) (p : Pair) : Store :=
  storePut (storePut t.ring (0x1000 + 16 * (t.rawCount % 128)) (pack [(32, 32, intBits 32 p.s), (0, 32, intBits 32 p.c)]))
    (0x1008 + 16 * (t.rawCount % 128))
    (pack [(48, 16, if p.wsum = 0 then 0 else min 65535 (rdiv (p.w * p.wn * 32768 : Nat) p.wsum).toNat), (0, 32, p.stamp)])

theorem rawRing_pair {t : Trk} (h : storeWf t.ring = true) :
    storeGet (rawRing t p) (0x1000 + 16 * (t.rawCount % 128)) = pack [(32, 32, intBits 32 p.s), (0, 32, intBits 32 p.c)] := by
  have hi : ∀ i : Nat, 0x1000 + 16 * i ≠ 0x1008 + 16 * i := by omega
  refine (storeGet_put _ _ _ (storeWf_put _ _ h)).trans ((if_neg (hi _)).trans ?_)
  exact (storeGet_put _ _ _ h).trans (if_pos rfl)

theorem rawWrite_at (ho : a.trk[n].oneshot = false) : (rawWrite a n p).trk[n] =
    { a.trk[n] with ring := rawRing a.trk[n] p, rawCount := (a.trk[n].rawCount + 1) % 2 ^ 32, rawTick := p.stamp } := by
  unfold rawWrite
  rw [updTrk_at]
  generalize a.trk[n] = t at *
  rw [if_neg (by rw [ho]; exact Bool.false_ne_true)]
  extract_lets i q ring k
  have hk : (t.rawFull || (t.oneshot && decide (128 ≤ k))) = t.rawFull := by
    rw [ho, Bool.false_and, Bool.or_false]
  rw [hk]
  rfl

/-- A pair in RAW enters the ring. -/
theorem trackPair_raw (hs : a.trk[n].st = .raw) : trackPair a n p = rawWrite a n p := by
  unfold trackPair
  dsimp only
  rw [hs]

/-- A pair in HOLD without SIGOK moves the arctangent word alone. -/
theorem trackPair_hold (hs : a.trk[n].st = .hold) (hg : a.fe[n].sigok = false) : trackPair a n p = updTrk a n (atanNoted p) := by
  unfold trackPair
  dsimp only
  rw [hs]
  refine if_pos ?_
  show (!a.fe[n].sigok) = true
  rw [hg]
  rfl

theorem trackPair_locked (hs : a.trk[n].st = .locked) (hv : a.trk[n].valid = true) (hg : a.fe[n].sigok = true) :
    trackPair a n p = trkUpdate (updTrk a n (atanNoted p)) n p := by
  have hx : (updTrk a n (atanNoted p)).trk[n].valid = true := by
    rw [updTrk_at]
    exact hv
  unfold trackPair
  dsimp only
  rw [hs]
  dsimp only
  rw [if_neg (show TrkSt.locked ≠ TrkSt.hold by decide)]
  refine (if_neg ?_).trans (if_pos hx)
  show ¬(!a.fe[n].sigok) = true
  rw [hg]
  exact Bool.false_ne_true

end

/-- The loop in LOCKED as the taken pair finds it. -/
theorem atanNoted_taken (rest : List Pair) (p : Pair) :
    (updTrk (pairTaken c n rest) n (atanNoted p)).trk[n] = atanNoted p { c.trk[n] with updTick := some c.tick } := by
  rw [updTrk_at, pairTaken_trk]

theorem trkBand_taken (rest : List Pair) (p : Pair) : trkBand (updTrk (pairTaken c n rest) n (atanNoted p)) n = trkBand c n := by
  unfold trkBand
  rw [atanNoted_taken]
  rfl

/-- An update in LOCKED that loses no lock (R245, R247). -/
theorem trackPair_taken_locked {rest : List Pair} {p : Pair} (hs : c.trk[n].st = .locked) (hv : c.trk[n].valid = true)
    (hg : c.fe[n].sigok = true) (he : 8 * (errorOf p c.trk[n].phi).natAbs ≤ 2 ^ 64) :
    ∃ d, TouchesTrk n (pairTaken c n rest) d ∧ trackPair (pairTaken c n rest) n p = trkWrite d n p.stamp ∧ loopPart d.trk[n] =
      (.locked, c.trk[n].mode, (loopPass c.trk[n] (trkBand c n).1 (errorOf p c.trk[n].phi)).theta,
        (loopPass c.trk[n] (trkBand c n).1 (errorOf p c.trk[n].phi)).v, (loopPass c.trk[n] (trkBand c n).1 (errorOf p c.trk[n].phi)).phi,
        (trkBand c n).1, c.trk[n].updcount) := by
  have hb := trkBand_taken (c := c) (n := n) rest p
  have ha := atanNoted_taken (c := c) (n := n) rest p
  have ht : TouchesTrk n (pairTaken c n rest) (updTrk (pairTaken c n rest) n (atanNoted p)) := touchesTrk_updTrk ..
  have hp : trackPair (pairTaken c n rest) n p = trkUpdate (updTrk (pairTaken c n rest) n (atanNoted p)) n p :=
    trackPair_locked (by rw [pairTaken_trk]; exact hs) (by rw [pairTaken_trk]; exact hv) (by rw [pairTaken_fe]; exact hg)
  generalize updTrk (pairTaken c n rest) n (atanNoted p) = a at *
  have hphi : a.trk[n].phi = c.trk[n].phi := by
    rw [ha]
    rfl
  have hst : a.trk[n].st = .locked := by
    rw [ha]
    exact hs
  obtain ⟨d, ⟨hd1, hd2⟩, hd⟩ := trkUpdate_locked a n p hst (by rw [hphi]; exact he)
  refine ⟨d, ht.trans ((touchesTrk_updTrk ..).trans hd1), hp.trans hd, hd2.trans ?_⟩
  rw [updTrk_at, passed_loop, hb, hphi, ha, ← hs]
  rfl

/-! ### BANDWIDTH_EVALUATION (R250) -/

/-- The window cleared. -/
def cleared (t : Trk) : Trk := { t with winN := 0, winQ := 0, winSum := 0, winSq := 0, winPk := 0 }

/-- The variance of the window's differences (R250). -/
def windowVar (x : Trk) : Nat := ((x.winQ * x.winSq - x.winSum * x.winSum) / ((x.winQ * x.winQ : Nat) : Int)).toNat

/-- The step with the least cost over the window. -/
def windowBest (c : Chip) (n : Fin 16) : Nat :=
  bestStep (jminOf (trkauto c n)) (jmaxOf (trkauto c n)) (windowVar c.trk[n]) c.trk[n].winPk

/-- The policy word of a window. -/
def windowPolicy (sp2 : Nat) (x : Trk) : Word :=
  pack [(32, 32, min (2 ^ 32 - 1) (rdiv (isqrt sp2) (2 ^ 16)).toNat), (0, 32, min (2 ^ 32 - 1) (rdiv x.winPk (2 ^ 40)).toNat)]

section
variable (hm : c.trk[n].mode = 0) (hs : c.trk[n].st = .locked) (hw : 4096 ≤ c.trk[n].winN)
include hm hs hw

theorem bandwidthEvaluation_few (hq : c.trk[n].winQ < 1024) : bandwidthEvaluation c n = updTrk c n cleared := by
  unfold bandwidthEvaluation
  exact (if_pos ⟨hm, hs, hw⟩).trans (if_neg (Nat.not_le.mpr hq))

theorem bandwidthEvaluation_moves (hq : 1024 ≤ c.trk[n].winQ) : bandwidthEvaluation c n = updTrk c n (fun t =>
    cleared { t with
      j := if windowBest c n < (trkBand c n).2 then (trkBand c n).2 - 1 else windowBest c n, policy := windowPolicy (windowVar c.trk[n]) t }) := by
  unfold bandwidthEvaluation
  exact (if_pos ⟨hm, hs, hw⟩).trans (if_pos hq)

end

end

end Sys2Proof.Proofs

open Sys2Proof Sys2Proof.Machine Sys2Proof.Proofs

/-- Settles O44: an update in RAW, in HOLD and in LOCKED, and the evaluation of the bandwidth. -/
theorem trackingEventsAct : Obligations.TrackingEventsAct := by
  intro s dt n c x others
  refine ⟨fun p rest d hr hf hu hd hsp => ?_, fun hm hs hw hq => ?_, fun hm hs hw hq => ?_⟩
  · have hdue := trackingUpdate_due hr hf hu hd hsp
    refine ⟨fun hs ho => ?_, fun hs hg => ?_, fun hs hv hg => ?_⟩
    · have htrk := pairTaken_trk (c := c) (n := n) rest
      have hraw : trackPair (pairTaken c n rest) n p = rawWrite (pairTaken c n rest) n p := trackPair_raw (by rw [htrk]; exact hs)
      have hat : (trackPair (pairTaken c n rest) n p).trk[n] = _ := (congrArg (fun c : Chip => c.trk[n]) hraw).trans (rawWrite_at (by rw [htrk]; exact ho))
      obtain ⟨ht, hfe⟩ := touchesCh_pairTaken (d := trackPair (pairTaken c n rest) n p) (by rw [hraw]; exact touchesTrk_updTrk ..)
      refine ⟨_, runBlock_of_leaves (f := fun c => trackingUpdate c n) hdue (leaveFace_of_frame ht.frame), ⟨ht.wb, ht.others⟩, hfe, ?_, fun hwf => ?_⟩
      · rw [hat, htrk]
      · rw [hat, htrk]
        exact rawRing_pair hwf
    · have hhold : trackPair (pairTaken c n rest) n p = updTrk (pairTaken c n rest) n (atanNoted p) :=
        trackPair_hold (by rw [pairTaken_trk]; exact hs) (by rw [pairTaken_fe]; exact hg)
      exact runBlock_of_leaves (f := fun c => trackingUpdate c n) (hdue.trans (hhold.trans (updTrk_updTrk ..))) (leaveFace_of_frame rfl)
    · intro b e v th he
      obtain ⟨a, ha, hw, hl⟩ := trackPair_taken_locked (rest := rest) hs hv hg he
      obtain ⟨h1, h2, h3, h4, h5, h6, h7, h8, h9⟩ := trkWrite_at a n p.stamp
      obtain ⟨ht, hfe⟩ := touchesCh_pairTaken (ha.trans (touchesTrk_updTrk a n _ : TouchesTrk n a (trkWrite a n p.stamp)))
      simp only [loopPart, Prod.mk.injEq] at hl
      obtain ⟨l1, -, l3, l4, l5, l6, l7⟩ := hl
      refine ⟨_, runBlock_of_leaves (f := fun c => trackingUpdate c n) (hdue.trans hw) (leaveFace_of_frame ht.frame), ⟨ht.wb, ht.others⟩, hfe,
        h1.trans l1, h2, h3.trans l3, h4.trans l4, h5.trans l5, h6, h7.trans l6, ?_, ?_⟩
      · rw [h8, l7]
        rfl
      · rw [h9, l3]
        rfl
  · exact runBlock_of_leaves (f := fun c => bandwidthEvaluation c n) (bandwidthEvaluation_few hm hs hw hq) (leaveFace_of_frame rfl)
  · have h := bandwidthEvaluation_moves hm hs hw hq
    intro now best
    have ht := touchesTrk_updTrk c n (fun t =>
      cleared { t with j := if windowBest c n < (trkBand c n).2 then (trkBand c n).2 - 1 else windowBest c n, policy := windowPolicy (windowVar c.trk[n]) t })
    have hat := updTrk_at c n (fun t =>
      cleared { t with j := if windowBest c n < (trkBand c n).2 then (trkBand c n).2 - 1 else windowBest c n, policy := windowPolicy (windowVar c.trk[n]) t })
    refine ⟨_, runBlock_of_leaves (f := fun c => bandwidthEvaluation c n) h (leaveFace_of_frame ht.frame),
      ⟨ht.wb, fun m hm => ⟨ht.others m hm, rfl⟩⟩, ?_, fun hb => ?_, fun hb => ?_⟩
    · rw [hat]
      rfl
    · exact (congrArg Trk.j hat).trans (if_pos hb)
    · exact (congrArg Trk.j hat).trans (if_neg (Nat.not_lt.mpr hb))
end

