-- ==== Sys2Proof/Proofs/Hops.lean ====
section
/-! A hop's way to UP (R286, R294 to R296): what each event changes of the link. -/

namespace Sys2Proof.Proofs
open Sys2Proof.Machine

/-! ### Operations of one hop -/

theorem updHop_at (c : Chip) (h : Fin 4) (f : Hop → Hop) : (updHop c h f).link.hops[h] = f c.link.hops[h] := upd_at ..

theorem updHop_other (c : Chip) {g h : Fin 4} (hg : g ≠ h) (f : Hop → Hop) : (updHop c h f).link.hops[g] = c.link.hops[g] := upd_other _ _ hg

theorem updHop_updHop (c : Chip) (h : Fin 4) (f g : Hop → Hop) : updHop (updHop c h f) h g = updHop c h (fun x => g (f x)) :=
  congrArg (fun v => { c with link := { c.link with hops := v } }) (upd_upd ..)

theorem updHop_congr {c : Chip} {h : Fin 4} {f g : Hop → Hop} (he : f c.link.hops[h] = g c.link.hops[h]) : updHop c h f = updHop c h g :=
  congrArg (fun v => { c with link := { c.link with hops := v } }) (upd_congr he)

/-- d differs from c in hop h of the link and in the records on their way, not in who is at that hop. -/
structure HopStep (h : Fin 4) (c d : Chip) : Prop where
  others : ∀ g : Fin 4, g ≠ h → d.link.hops[g] = c.link.hops[g]
  sats : d.link.sats = c.link.sats
  only : OnlyLink c d

theorem HopStep.refl (h : Fin 4) (c : Chip) : HopStep h c c := ⟨fun _ _ => rfl, rfl, rfl⟩

theorem HopStep.trans {h : Fin 4} {b c d : Chip} (i : HopStep h b c) (j : HopStep h c d) : HopStep h b d :=
  ⟨fun g hg => (j.others g hg).trans (i.others g hg), j.sats.trans i.sats, i.only.trans j.only⟩

theorem hopStep_updHop (c : Chip) (h : Fin 4) (f : Hop → Hop) : HopStep h c (updHop c h f) := ⟨fun _ hg => updHop_other _ hg _, rfl, rfl⟩

/-- What the sending of records leaves alone of a hop. -/
def hopIdent (x : Hop) : HopSt × Word × Nat × Nat × DState × Fin 4 := (x.st, x.serial, x.part, x.rev, x.dstate, x.pos)

/-- d follows from c by the sending of records to hop h. -/
def Sends (h : Fin 4) (c d : Chip) : Prop := HopStep h c d ∧ hopIdent d.link.hops[h] = hopIdent c.link.hops[h]

theorem Sends.refl (h : Fin 4) (c : Chip) : Sends h c c := ⟨.refl .., rfl⟩

theorem Sends.trans {h : Fin 4} {b c d : Chip} (i : Sends h b c) (j : Sends h c d) : Sends h b d := ⟨i.1.trans j.1, j.2.trans i.2⟩

theorem sends_updHop (c : Chip) (h : Fin 4) (f : Hop → Hop) (hf : hopIdent (f c.link.hops[h]) = hopIdent c.link.hops[h]) :
    Sends h c (updHop c h f) := ⟨hopStep_updHop .., by rw [updHop_at, hf]⟩

theorem sends_sendRecord (c : Chip) (h : Fin 4) (t p t0 : Nat) : Sends h c (sendRecord c h t p t0) := by
  unfold sendRecord
  extract_lets old first ws l d
  have hd : Sends h c d := ⟨⟨fun _ _ => rfl, rfl, rfl⟩, rfl⟩
  split
  · exact hd
  · exact hd.trans (sends_updHop _ _ _ rfl)

theorem sends_pushItem (c : Chip) (h : Fin 4) (t0 : Nat) (i : Nat × Nat × Nat × Nat) : Sends h c (pushItem h t0 c i) := by
  unfold pushItem
  split
  · exact .refl ..
  · extract_lets d
    have hd : Sends h c d := sends_updHop _ _ _ rfl
    split
    · exact hd
    · exact hd.trans (sends_sendRecord ..)

theorem sends_linkPush (c : Chip) (h : Fin 4) : Sends h c (linkPush c h) := by
  unfold linkPush
  extract_lets x
  split
  · exact foldl_keeps (Sends h c) _ (fun d i hd => hd.trans (sends_pushItem d h _ i)) _ c (.refl ..)
  · exact .refl ..

/-- An admission that begins (R300). -/
theorem beginAdmission_begins (c : Chip) (h k : Fin 4) : HopStep h c (beginAdmission c h k) ∧
    hopIdent (beginAdmission c h k).link.hops[h] =
      (c.link.hops[h].st, c.link.hops[h].serial, c.link.hops[h].part, c.link.hops[h].rev, .admitting, k) := by
  unfold beginAdmission
  extract_lets t d e
  have hd : HopStep h c d ∧ hopIdent d.link.hops[h] =
      (c.link.hops[h].st, c.link.hops[h].serial, c.link.hops[h].part, c.link.hops[h].rev, .admitting, k) :=
    ⟨hopStep_updHop .., (congrArg hopIdent (updHop_at ..)).trans rfl⟩
  have he : Sends h d e := by
    unfold e
    split
    · exact sends_sendRecord ..
    · exact .refl ..
  have hs := he.trans ((sends_sendRecord e h 1 0 t).trans (sends_linkPush ..))
  exact ⟨hd.1.trans hs.1, hs.2.trans hd.2⟩

/-! ### Training (R294, R295) -/

section
variable {c : Chip} {h : Fin 4}

theorem hopTrainStart_due (hs : serving c = true) (hd : c.link.hops[h].st = .down) (hb : h = 0 ∨ c.link.hops[h - 1].st = .up)
    (ht : c.link.hops[h].kick = some c.tick ∨ c.tick % 32000 = 0) :
    hopTrainStart c h = updHop c h (fun x => { x with st := .train, kick := none, stamp := c.tick, locked := false }) := by
  unfold hopTrainStart
  extract_lets x below
  have hbelow : below = true := by
    unfold below
    split
    · rfl
    next n hn =>
      refine decide_eq_true (hb.resolve_left fun h0 => ?_)
      exact hn (congrArg Fin.val h0)
  refine if_pos ?_
  rw [hs, decide_eq_true (show x.st = .down from hd), hbelow, Bool.true_and, Bool.true_and, Bool.true_and, Bool.or_eq_true_iff,
    decide_eq_true_iff, decide_eq_true_iff]
  exact ht

theorem hopFail_eq (b : Bool) :
    hopFail c h b = raiseR (updHop c h (fun x => hopDown b x.satLow none)) (evN c 261) := rfl

/-- A failure that leaves LONG as it is. -/
theorem hopFail_long :
    hopFail c h c.link.hops[h].long = raiseR (updHop c h (fun x => hopDown x.long x.satLow none)) (evN c 261) :=
  hopFail_eq _

section
variable (ht : c.link.hops[h].st = .train)
include ht

theorem hopTrainFail_delay {d : Nat} (hl : c.link.hops[h].locked = true) (hk : c.link.hops[h].lockTick + 16000 = c.tick) (hd : 64 < d) :
    hopTrainFail c h (.delay d) = raiseR (updHop c h (fun x => hopDown true x.satLow none)) (evN c 261) :=
  (if_neg (not_not.mpr ht)).trans ((if_pos ⟨hl, hk.symm, hd⟩).trans (hopFail_eq _))

theorem hopTrainFail_noLock (hl : c.link.hops[h].locked = false) (hk : c.tick = c.link.hops[h].stamp + 8000) :
    hopTrainFail c h .noLock = raiseR (updHop c h (fun x => hopDown x.long x.satLow none)) (evN c 261) :=
  (if_neg (not_not.mpr ht)).trans ((if_pos ⟨hl, hk⟩).trans hopFail_long)

theorem hopTrainFail_align (hl : c.link.hops[h].locked = true) (hk : c.tick = c.link.hops[h].lockTick + 12800) :
    hopTrainFail c h .align = raiseR (updHop c h (fun x => hopDown x.long x.satLow none)) (evN c 261) :=
  (if_neg (not_not.mpr ht)).trans ((if_pos ⟨hl, hk⟩).trans hopFail_long)

end

end

/-! ### IDENT_RECORD (R294 to R296) -/

section
variable (c : Chip) (h : Fin 4) (serial : Word) (part rev : Nat)

/-- The hop UP, its record acknowledged. -/
def hopNamed : Chip :=
  sendRecord (updHop c h (fun x =>
    { x with st := .up, stamp := c.tick, serial := serial, part := part % 65536, rev := rev % 256, okClear := 0 })) h 7 8 c.tick

/-- The next hop may start in the next tick. -/
def nextKicked (d : Chip) : Chip :=
  match fin? 4 (h.val + 1) with
  | some g => updHop d g (fun x => { x with kick := some (d.tick + 1) })
  | none => d

/-- What the device's revision and binding decide. -/
def deviceJudged (d : Chip) : Chip :=
  if !inSatset d (rev % 256) then countN (updHop d h (fun x => { x with dstate := .quarantined })) 259
  else match boundTo d serial with
    | some k => beginAdmission d h k
    | none => notify (updHop d h (fun x => { x with dstate := .offered })) 0 21

theorem identRecord_due (hi : c.link.hops[h].st = .ident) (ht : c.link.hops[h].stamp + 25600 = c.tick) :
    identRecord c h serial part rev = deviceJudged h serial rev (nextKicked h (hopNamed c h serial part rev)) := by
  have hc : (hopNamed c h serial part rev).tick = c.tick := (congrArg Chip.tick (sends_sendRecord ..).1.only).trans rfl
  unfold identRecord nextKicked
  extract_lets x d e
  rw [if_pos ⟨hi, ht⟩, hc]
  rfl

theorem hopNamed_named : HopStep h c (hopNamed c h serial part rev) ∧ hopIdent (hopNamed c h serial part rev).link.hops[h] =
    (.up, serial, part % 65536, rev % 256, c.link.hops[h].dstate, c.link.hops[h].pos) := by
  obtain ⟨hs, hi⟩ := sends_sendRecord (updHop c h (fun x =>
    { x with st := .up, stamp := c.tick, serial := serial, part := part % 65536, rev := rev % 256, okClear := 0 })) h 7 8 c.tick
  refine ⟨(hopStep_updHop ..).trans hs, hi.trans ?_⟩
  rw [updHop_at]
  rfl

variable {c h} {d : Chip}

/-- The next hop alone is kicked. -/
theorem nextKicked_step : (nextKicked h d).link.sats = d.link.sats ∧ OnlyLink d (nextKicked h d) ∧ (nextKicked h d).link.hops[h] = d.link.hops[h] ∧
    (∀ g : Fin 4, g.val = h.val + 1 → (nextKicked h d).link.hops[g] = { d.link.hops[g] with kick := some (d.tick + 1) }) ∧
    (∀ g : Fin 4, g ≠ h → g.val ≠ h.val + 1 → (nextKicked h d).link.hops[g] = d.link.hops[g]) := by
  unfold nextKicked fin?
  by_cases hn : h.val + 1 < 4
  · rw [dif_pos hn]
    have hne (g : Fin 4) (hg : g.val ≠ h.val + 1) : g ≠ ⟨h.val + 1, hn⟩ := fun hh => hg (congrArg Fin.val hh)
    refine ⟨rfl, rfl, updHop_other _ (hne h (by omega)) _, fun g hg => ?_, fun g _ hg => updHop_other _ (hne g hg) _⟩
    have hgn : g = ⟨h.val + 1, hn⟩ := Fin.ext hg
    subst hgn
    exact updHop_at ..
  · rw [dif_neg hn]
    exact ⟨rfl, rfl, rfl, fun g hg => absurd g.isLt (by omega), fun _ _ _ => rfl⟩

/-- What stays of the identified hop, whatever is judged. -/
def namePart (x : Hop) : HopSt × Word × Nat × Nat := (x.st, x.serial, x.part, x.rev)

/-- What a judgement of hop h leaves alone: the other hops, the positions, and what the form of a block takes back. -/
structure Judges (h : Fin 4) (d e : Chip) : Prop where
  others : ∀ g : Fin 4, g ≠ h → e.link.hops[g] = d.link.hops[g]
  sats : e.link.sats = d.link.sats
  frame : frame e = frame d
  name : namePart e.link.hops[h] = namePart d.link.hops[h]

theorem frame_of_onlyLink {d e : Chip} (h : OnlyLink d e) : frame e = frame d := by
  rw [h]
  rfl

/-- A revision outside the running image's set (R296). -/
theorem deviceJudged_quarantined (hs : inSatset d (rev % 256) = false) :
    deviceJudged h serial rev d = countN (updHop d h (fun x => { x with dstate := .quarantined })) 259 :=
  if_pos (by rw [hs]; rfl)

theorem deviceJudged_offered (hs : inSatset d (rev % 256) = true) (hb : boundTo d serial = none) :
    deviceJudged h serial rev d = notify (updHop d h (fun x => { x with dstate := .offered })) 0 21 := by
  unfold deviceJudged
  rw [hs, hb]
  rfl

theorem deviceJudged_bound {k : Fin 4} (hs : inSatset d (rev % 256) = true) (hb : boundTo d serial = some k) :
    deviceJudged h serial rev d = beginAdmission d h k := by
  unfold deviceJudged
  rw [hs, hb]
  rfl

/-- A change of the device's state names nobody else. -/
theorem judges_dstate (v : DState) : Judges h d (updHop d h (fun x => { x with dstate := v })) :=
  ⟨(hopStep_updHop ..).others, rfl, rfl, (congrArg namePart (updHop_at ..)).trans rfl⟩

theorem deviceJudged_judges : Judges h d (deviceJudged h serial rev d) := by
  rcases Bool.dichotomy (inSatset d (rev % 256)) with hs | hs
  · rw [deviceJudged_quarantined serial rev hs]
    obtain ⟨h1, h2, h3, h4⟩ := judges_dstate (h := h) (d := d) .quarantined
    exact ⟨h1, h2, h3, h4⟩
  · cases hb : boundTo d serial with
    | none =>
      rw [deviceJudged_offered serial rev hs hb]
      obtain ⟨h1, h2, h3, h4⟩ := judges_dstate (h := h) (d := d) .offered
      exact ⟨h1, h2, h3, h4⟩
    | some k =>
      rw [deviceJudged_bound serial rev hs hb]
      obtain ⟨hst, hid⟩ := beginAdmission_begins d h k
      simp only [hopIdent, Prod.mk.injEq] at hid
      obtain ⟨h1, h2, h3, h4, -, -⟩ := hid
      exact ⟨hst.others, hst.sats, frame_of_onlyLink hst.only, by rw [namePart, h1, h2, h3, h4]; rfl⟩

end

theorem inSatset_of_onlyLink {c d : Chip} (h : OnlyLink c d) (r : Nat) : inSatset d r = inSatset c r := by
  rw [h]
  rfl

theorem boundTo_of_sats {c d : Chip} (h : d.link.sats = c.link.sats) (w : Word) : boundTo d w = boundTo c w := by
  unfold boundTo
  rw [h]

theorem evN_of_tick {c d : Chip} (h : d.tick = c.tick) (n : Src) : evN d n = evN c n := by
  unfold evN
  rw [h]

section
variable (c : Chip) (h : Fin 4) (serial : Word) (part rev : Nat)

/-- The part when the device's record has been read, before it is judged. -/
def hopRead : Chip := nextKicked h (hopNamed c h serial part rev)

theorem hopRead_read : OnlyLink c (hopRead c h serial part rev) ∧ (hopRead c h serial part rev).link.sats = c.link.sats ∧
    namePart (hopRead c h serial part rev).link.hops[h] = (.up, serial, part % 65536, rev % 256) ∧
    (∀ g : Fin 4, g.val = h.val + 1 → (hopRead c h serial part rev).link.hops[g] = { c.link.hops[g] with kick := some (c.tick + 1) }) ∧
    (∀ g : Fin 4, g ≠ h → g.val ≠ h.val + 1 → (hopRead c h serial part rev).link.hops[g] = c.link.hops[g]) := by
  obtain ⟨hn, hi⟩ := hopNamed_named c h serial part rev
  have ht : (hopNamed c h serial part rev).tick = c.tick := frame_tick (frame_of_onlyLink hn.only)
  obtain ⟨h1, h2, h3, h4, h5⟩ := nextKicked_step (h := h) (d := hopNamed c h serial part rev)
  simp only [hopIdent, Prod.mk.injEq] at hi
  obtain ⟨i1, i2, i3, i4, -, -⟩ := hi
  refine ⟨hn.only.trans h2, h1.trans hn.sats, ?_, fun g hg => ?_, fun g hg hg' => (h5 g hg hg').trans (hn.others g hg)⟩
  · unfold hopRead
    rw [h3, namePart, i1, i2, i3, i4]
  · have hne : g ≠ h := fun hh => by rw [hh] at hg; omega
    rw [← hn.others g hne, ← ht]
    exact h4 g hg

variable {c h serial part rev}

theorem inSatset_hopRead : inSatset (hopRead c h serial part rev) (rev % 256) = inSatset c (rev % 256) :=
  inSatset_of_onlyLink (hopRead_read ..).1 _

theorem boundTo_hopRead : boundTo (hopRead c h serial part rev) serial = boundTo c serial := boundTo_of_sats (hopRead_read ..).2.1 _

/-- A device whose revision the image does not name is quarantined, with S259. -/
theorem hopRead_quarantined (hs : inSatset c (rev % 256) = false) :
    (deviceJudged h serial rev (hopRead c h serial part rev)).link.hops[h].dstate = .quarantined ∧
      evN c 259 ∈ (deviceJudged h serial rev (hopRead c h serial part rev)).raised := by
  have ht := evN_of_tick (frame_tick (frame_of_onlyLink (hopRead_read c h serial part rev).1)) 259
  rw [deviceJudged_quarantined serial rev (inSatset_hopRead.trans hs)]
  refine ⟨congrArg Hop.dstate (updHop_at ..), List.mem_append_right _ ?_⟩
  rw [← ht]
  exact List.mem_singleton.mpr rfl

/-- A device that is bound nowhere is offered to CL0. -/
theorem hopRead_offered (hs : inSatset c (rev % 256) = true) (hb : boundTo c serial = none) :
    (deviceJudged h serial rev (hopRead c h serial part rev)).link.hops[h].dstate = .offered ∧
      (deviceJudged h serial rev (hopRead c h serial part rev)).flt.evtstat[(0 : Client)] = c.flt.evtstat[(0 : Client)] ||| (1#64 <<< 21) := by
  have hf : (hopRead c h serial part rev).flt = c.flt := (congrArg Chip.flt (hopRead_read c h serial part rev).1).trans rfl
  rw [deviceJudged_offered serial rev (inSatset_hopRead.trans hs) (boundTo_hopRead.trans hb)]
  refine ⟨congrArg Hop.dstate (updHop_at ..), ?_⟩
  generalize hopRead c h serial part rev = d at *
  rw [← hf]
  exact upd_at ..

/-- A bound device begins its admission. -/
theorem hopRead_bound {k : Fin 4} (hs : inSatset c (rev % 256) = true) (hb : boundTo c serial = some k) :
    (deviceJudged h serial rev (hopRead c h serial part rev)).link.hops[h].dstate = .admitting ∧
      (deviceJudged h serial rev (hopRead c h serial part rev)).link.hops[h].pos = k := by
  rw [deviceJudged_bound serial rev (inSatset_hopRead.trans hs) (boundTo_hopRead.trans hb)]
  have hid := (beginAdmission_begins (hopRead c h serial part rev) h k).2
  simp only [hopIdent, Prod.mk.injEq] at hid
  obtain ⟨-, -, -, -, h5, h6⟩ := hid
  exact ⟨h5, h6⟩

end

end Sys2Proof.Proofs

open Sys2Proof Sys2Proof.Machine Sys2Proof.Proofs

/-- Settles O46: the training of a hop, its failures and the identification of its device. -/
theorem hopsComeUp : Obligations.HopsComeUp := by
  intro s dt h c x hop
  refine ⟨fun hs hd hb hk => ?_, fun ht hl hn hk => ?_, fun d ht hl hk hd => ?_, fun d ht hl hk hd => ?_, fun ht hl hk => ?_,
    fun ht hl hk => ?_, fun hi hk => ?_, fun serial part rev hi hk => ?_⟩
  · exact runBlock_of_leaves (f := fun c => hopTrainStart c h) (hopTrainStart_due hs hd hb hk) (leaveFace_of_frame rfl)
  · exact runBlock_of_leaves (f := fun c => hopClockLock c h) (if_pos ⟨ht, hl, hn, hk⟩) (leaveFace_of_frame rfl)
  · exact runBlock_of_leaves (f := fun c => trainingComplete c h d) (if_pos ⟨ht, hl, hk, hd⟩) (leaveFace_of_frame rfl)
  · exact runBlock_of_leaves (f := fun c => hopTrainFail c h (.delay d)) (hopTrainFail_delay ht hl hk hd) (leaveFace_of_frame rfl)
  · exact runBlock_of_leaves (f := fun c => hopTrainFail c h .noLock) (hopTrainFail_noLock ht hl hk) (leaveFace_of_frame rfl)
  · exact runBlock_of_leaves (f := fun c => hopTrainFail c h .align) (hopTrainFail_align ht hl hk) (leaveFace_of_frame rfl)
  · exact runBlock_of_leaves (f := fun c => identTimeout c h) ((if_pos ⟨hi, hk⟩).trans hopFail_long) (leaveFace_of_frame rfl)
  · obtain ⟨ho, hsats, hname, hnext, hrest⟩ := hopRead_read c h serial part rev
    have hj := deviceJudged_judges (h := h) serial rev (d := hopRead c h serial part rev)
    have hn := hj.name.trans hname
    simp only [namePart, Prod.mk.injEq] at hn
    obtain ⟨n1, n2, n3, n4⟩ := hn
    refine ⟨_, runBlock_of_leaves (f := fun c => identRecord c h serial part rev) (identRecord_due c h serial part rev hi hk)
      (leaveFace_of_frame (hj.frame.trans (frame_of_onlyLink ho))), n1, n2, n3, n4, hj.sats.trans hsats, fun g hg => ?_, fun g hg hg' => ?_,
      hopRead_quarantined, hopRead_offered, fun k => hopRead_bound⟩
    · have hne : g ≠ h := fun hh => by rw [hh] at hg; omega
      exact (hj.others g hne).trans (hnext g hg)
    · exact (hj.others g hg).trans (hrest g hg hg')
end

