-- ==== Sys2Proof/Proofs/Frames.lean ====
section
/-! Frames of the link (R287 to R298, R311): what an upstream and a downstream frame change. -/

namespace Sys2Proof.Proofs
open Sys2Proof.Machine

/-! ### What the lanes of a frame leave alone -/

/-- What no input lane changes of the link. -/
def lanePart (l : Link) : Vector Hop 4 × Vector Sat 4 × Nat × Nat × Option Nat := (l.hops, l.sats, l.crcerr, l.badRun, l.lastUp)

/-- d follows from c by the delivery of pairs: no event raised is withdrawn. -/
structure Lanes (c d : Chip) : Prop where
  frame : frame d = frame c
  link : lanePart d.link = lanePart c.link
  raised : ∀ r ∈ c.raised, r ∈ d.raised

theorem Lanes.refl (c : Chip) : Lanes c c := ⟨rfl, rfl, fun _ h => h⟩

theorem Lanes.trans {b c d : Chip} (h : Lanes b c) (g : Lanes c d) : Lanes b d :=
  ⟨g.frame.trans h.frame, g.link.trans h.link, fun r hr => g.raised r (h.raised r hr)⟩

theorem lanes_updFe (c : Chip) (n : Fin 16) (f : Fe → Fe) : Lanes c (updFe c n f) := ⟨rfl, rfl, fun _ h => h⟩

theorem lanes_updLane (c : Chip) (l : Fin 4) (f : Lane → Lane) : Lanes c (updLane c l f) := ⟨rfl, rfl, fun _ h => h⟩

theorem lanes_countB (c : Chip) (k : Nat) : Lanes c (countB c k) := ⟨rfl, rfl, fun _ h => List.mem_append_left _ h⟩

theorem setLevelR_raised (c : Chip) (n : Src) (b : Bool) (e : Raise) : ∀ r ∈ c.raised, r ∈ (setLevelR c n b e).raised := by
  intro r hr
  unfold setLevelR
  extract_lets s f d
  split
  · exact hr
  · split
    · exact List.mem_append_left _ hr
    · exact hr

theorem lanes_levelB (c : Chip) (k : Nat) (b : Bool) : Lanes c (levelB c k b) := by
  refine ⟨(levelB_rest c k b).2.2.2, ?_, setLevelR_raised c _ b _⟩
  unfold levelB
  rw [setLevelR_only]

section
variable (c : Chip) (n : Fin 16)

theorem lanes_supervise : Lanes c (supervise c n) := by
  unfold supervise
  extract_lets f low lr okr t d
  have hd : Lanes c d := (lanes_updFe ..).trans (lanes_updFe ..)
  clear_value d
  split
  · exact hd.trans ((lanes_updFe ..).trans (lanes_levelB ..))
  · split
    · exact hd.trans ((lanes_updFe ..).trans (lanes_levelB ..))
    · exact hd

theorem lanes_clipCheck (clip : Bool) : Lanes c (clipCheck c n clip) := by
  unfold clipCheck
  extract_lets f now d
  split
  · exact (lanes_updFe ..).trans (lanes_countB ..)
  · exact lanes_updFe ..

theorem lanes_pairArrive (stamp : Nat) (s0 d0 s d : Int) (w : Nat) (clip : Bool) : Lanes c (pairArrive c n stamp s0 d0 s d w clip) := by
  unfold pairArrive
  extract_lets f env period win p mag a b
  have hb : Lanes c b := by
    refine Lanes.trans (c := a) (lanes_updFe ..) ?_
    unfold b rotCollect
    split
    · exact lanes_updFe ..
    · exact .refl _
  clear_value b
  split
  · exact hb
  · exact hb.trans ((lanes_supervise ..).trans (lanes_clipCheck ..))

theorem lanes_lanePair (l : Fin 4) (bits : Nat) (bad : Bool) : Lanes c (lanePair c l n bits bad) := by
  unfold lanePair
  extract_lets h st d f x y s e clip
  split
  · exact Lanes.trans (c := d) (lanes_updLane ..) (lanes_pairArrive ..)
  · exact lanes_updLane ..

end

theorem lanes_laneFrame (c : Chip) (l : Fin 4) (bits : Nat) (bad : Bool) : Lanes c (laneFrame c l bits bad) := by
  unfold laneFrame
  split
  · exact .refl _
  · split
    · exact .refl _
    · extract_lets f x b bs d js
      exact foldl_keeps (Lanes c) _ (fun e j he => he.trans (lanes_lanePair ..)) js d (lanes_updLane ..)

theorem lanes_laneFrames (c : Chip) (f : Frame) (bad : Bool) : Lanes c (laneFrames c f bad) :=
  foldl_keeps (Lanes c) _ (fun _ _ hd => hd.trans (lanes_laneFrame ..)) _ c (.refl c)

/-! ### What a loss behind hop 0 leaves alone -/

/-- What no loss above the link port changes of the link. -/
def portPart (l : Link) : Nat × Nat × Option Nat × Hop := (l.crcerr, l.badRun, l.lastUp, l.hops[(0 : Fin 4)])

/-- d differs from c behind hop 0. -/
structure Behind (c d : Chip) : Prop where
  frame : frame d = frame c
  port : portPart d.link = portPart c.link

theorem Behind.refl (c : Chip) : Behind c c := ⟨rfl, rfl⟩

theorem Behind.trans {b c d : Chip} (h : Behind b c) (g : Behind c d) : Behind b d := ⟨g.frame.trans h.frame, g.port.trans h.port⟩

theorem Lanes.behind {c d : Chip} (h : Lanes c d) : Behind c d := by
  have hl := h.link
  simp only [lanePart, Prod.mk.injEq] at hl
  obtain ⟨h1, -, h3, h4, h5⟩ := hl
  exact ⟨h.frame, by rw [portPart, h1, h3, h4, h5]; rfl⟩

theorem behind_updSat (c : Chip) (k : Fin 4) (f : Sat → Sat) : Behind c (updSat c k f) := ⟨rfl, rfl⟩

theorem behind_updHop (c : Chip) {h : Fin 4} (hh : h ≠ 0) (f : Hop → Hop) : Behind c (updHop c h f) := by
  refine ⟨rfl, ?_⟩
  rw [portPart, updHop_other _ (Ne.symm hh)]
  rfl

theorem behind_updEntry (c : Chip) (k : Key) (f : Entry → Entry) : Behind c (updEntry c k f) := ⟨rfl, rfl⟩

theorem behind_retire (c : Chip) (k : Key) (st d : Nat) (r : Word) : Behind c (retire c k st d r) := by
  rw [retire_only]
  exact ⟨rfl, rfl⟩

theorem behind_discoverCancel (c : Chip) (e : Entry) : Behind c (discoverCancel c e) := by
  unfold discoverCancel
  split
  · split
    · exact (lanes_updFe ..).behind
    · exact .refl _
  · exact .refl _

theorem behind_linkHold (c : Chip) (e : Entry) : Behind c (linkHold c e) := by
  unfold linkHold
  split
  · exact .refl _
  · extract_lets w
    split
    · exact (behind_retire ..).trans (behind_discoverCancel ..)
    · exact behind_updEntry ..

theorem behind_satSignalLoss (c : Chip) (k : Fin 4) : Behind c (satSignalLoss c k) := by
  refine foldl_keeps (Behind c) _ (fun d n hd => hd.trans ?_) _ c (.refl c)
  split
  · exact ((lanes_updFe ..).trans (lanes_levelB ..)).behind
  · exact .refl _

theorem behind_satLoss (c : Chip) (k : Fin 4) (cause : Nat) : Behind c (satLoss c k cause) := by
  unfold satLoss
  extract_lets a b d
  have hb : Behind c b := by
    refine (behind_updSat c k _ : Behind c a).trans ?_
    unfold b
    split
    · exact (lanes_countB ..).behind
    · exact .refl _
  have hd : Behind c d := hb.trans (behind_satSignalLoss ..)
  clear_value b
  split
  · exact hd
  · refine foldl_keeps (Behind c) _ (fun x e hx => hx.trans ?_) _ d hd
    split
    · exact behind_linkHold ..
    · exact .refl _

theorem behind_hopLoss (c : Chip) {h : Fin 4} (hh : h ≠ 0) (cause : Nat) : Behind c (hopLoss c h cause) := by
  unfold hopLoss
  extract_lets x long wake d
  have hd : Behind c d := behind_updHop c hh _
  split
  · exact hd.trans (behind_satLoss ..)
  · exact hd

theorem behind_linkLoss (c : Chip) {h : Fin 4} (hh : h ≠ 0) (cause : Nat) : Behind c (linkLoss c h cause) := by
  unfold linkLoss
  rw [if_neg fun hn => hh hn.1]
  refine foldl_keeps (Behind c) _ (fun d g hd => ?_) _ c (.refl c)
  split
  next hg =>
    refine hd.trans (behind_hopLoss d (fun h0 => hh ?_) cause)
    rw [h0] at hg
    exact Fin.le_zero_iff.mp hg
  next => exact hd

theorem behind_readbackSample (c : Chip) (k m : Fin 4) (b : Bool) : Behind c (readbackSample c k m b) := by
  unfold readbackSample
  extract_lets s w r d
  split
  · exact behind_updSat ..
  · split
    · exact behind_updSat ..
    · split
      · exact ⟨rfl, rfl⟩
      · exact behind_updSat ..

theorem behind_readbackField (c : Chip) (k : Fin 4) (v : Nat) : Behind c (readbackField c k v) :=
  foldl_keeps (Behind c) _ (fun _ _ hd => hd.trans (behind_readbackSample ..)) _ _ (behind_updSat ..)

theorem behind_upHop (c : Chip) (f : Frame) {h : Fin 4} (hh : h ≠ 0) : Behind c (upHop c f h) := by
  unfold upHop
  extract_lets x ok r d
  split
  · exact .refl _
  · split
    · exact behind_linkLoss c hh 0
    · have hd : Behind c d := behind_updHop c hh _
      split
      · exact hd.trans (behind_readbackField ..)
      · exact hd

/-- Hop 0 stays up with its HOPOK bit set. -/
theorem upHop_zero {c : Chip} {f : Frame} (hs : c.link.hops[(0 : Fin 4)].st = .up) (hb : f.toNat.testBit 8 = true) :
    frame (upHop c f 0) = frame c ∧ (upHop c f 0).link.crcerr = c.link.crcerr ∧ (upHop c f 0).link.badRun = c.link.badRun ∧
      (upHop c f 0).link.lastUp = c.link.lastUp ∧ (upHop c f 0).link.hops[(0 : Fin 4)].st = .up ∧
      (upHop c f 0).link.hops[(0 : Fin 4)].okClear = 0 := by
  unfold upHop
  extract_lets x ok r d
  have hok : ok = true := hb
  have hr : r = 0 := if_pos hok
  have hd : d.link.hops[(0 : Fin 4)].st = .up ∧ d.link.hops[(0 : Fin 4)].okClear = 0 := by
    have he : d.link.hops[(0 : Fin 4)] = _ := updHop_at ..
    rw [he]
    exact ⟨hs, hr⟩
  have hx : ¬x.st ≠ .up := not_not.mpr hs
  rw [if_neg hx, if_neg (by rw [hr]; decide)]
  split
  · obtain ⟨hf, hp⟩ := behind_readbackField d x.pos (frameBits f (12 + 4 * (0 : Fin 4).val) 4)
    simp only [portPart, Prod.mk.injEq] at hp
    obtain ⟨h1, h2, h3, h4⟩ := hp
    exact ⟨hf, h1, h2, h3, (congrArg Hop.st h4).trans hd.1, (congrArg Hop.okClear h4).trans hd.2⟩
  · exact ⟨rfl, rfl, rfl, rfl, hd.1, hd.2⟩

theorem allFin_four : allFin 4 = [0, 1, 2, 3] := rfl

/-- What a good frame carries of the hops behind hop 0. -/
theorem behind_upHops (c : Chip) (f : Frame) : Behind (upHop c f 0) ((allFin 4).foldl (fun c h => upHop c f h) c) := by
  rw [allFin_four, List.foldl_cons]
  generalize upHop c f 0 = d
  rw [List.foldl_cons, List.foldl_cons, List.foldl_cons, List.foldl_nil]
  have h1 : Behind d (upHop d f 1) := behind_upHop d f (by decide)
  generalize upHop d f 1 = e at *
  have h2 : Behind e (upHop e f 2) := behind_upHop e f (by decide)
  generalize upHop e f 2 = a at *
  exact h1.trans (h2.trans (behind_upHop a f (by decide)))

/-! ### UPSTREAM_FRAME (R287, R290, R291, R297) -/

section
variable (c : Chip) (g : Frame)

/-- The frame noted, and the nibble it carried of a record. -/
def frameNoted (bad : Bool) : Chip := nibSent { c with link := { c.link with lastUp := some (frameNo c) } } bad

/-- A bad frame counted. -/
def badCounted : Chip :=
  countN { frameNoted c true with
    link := { (frameNoted c true).link with crcerr := wrapInc16 (frameNoted c true).link.crcerr, badRun := (frameNoted c true).link.badRun + 1 } } 257

/-- A good frame's run. -/
def goodTaken : Chip := { frameNoted c false with link := { (frameNoted c false).link with badRun := 0 } }

variable {c} {f : Frame} {up : BitVec 4} {err : Frame}

theorem upstreamFrame_none (h : c.tick % 200 ≠ 0) : upstreamFrame c f up err = c := by
  refine if_neg fun hh => ?_
  exact h (of_decide_eq_true (Bool.and_eq_true_iff.mp hh).2).1

section
variable (hs : serving c = true) (hu : c.link.hops[(0 : Fin 4)].st = .up) (ht : c.tick % 200 = 0) (hl : c.link.lastUp ≠ some (frameNo c))
include hs hu ht hl

theorem upstreamFrame_good (h : (c.link.hops[(0 : Fin 4)].satSafe || !frameGood (buildUp c f up ^^^ err) 0xE2) = false) :
    upstreamFrame c f up err = laneFrames ((allFin 4).foldl (fun d h => upHop d (buildUp c f up ^^^ err) h) (goodTaken c)) (buildUp c f up ^^^ err) false := by
  unfold upstreamFrame
  rw [if_pos (Bool.and_eq_true_iff.mpr ⟨Bool.and_eq_true_iff.mpr ⟨hs, decide_eq_true hu⟩, decide_eq_true ⟨ht, hl⟩⟩)]
  dsimp only
  rw [h]
  rfl

theorem upstreamFrame_bad (h : (c.link.hops[(0 : Fin 4)].satSafe || !frameGood (buildUp c f up ^^^ err) 0xE2) = true) :
    upstreamFrame c f up err =
      if 4 ≤ (laneFrames (badCounted c) (buildUp c f up ^^^ err) true).link.badRun then
        linkLoss { laneFrames (badCounted c) (buildUp c f up ^^^ err) true with
          link := { (laneFrames (badCounted c) (buildUp c f up ^^^ err) true).link with badRun := 0 } } 0 0
      else laneFrames (badCounted c) (buildUp c f up ^^^ err) true := by
  unfold upstreamFrame
  rw [if_pos (Bool.and_eq_true_iff.mpr ⟨Bool.and_eq_true_iff.mpr ⟨hs, decide_eq_true hu⟩, decide_eq_true ⟨ht, hl⟩⟩)]
  dsimp only
  rw [h]
  rfl

end

theorem frameNoted_hops (j : Fin 4) : (frameNoted c true).link.hops[j] =
    if j = nibHop (frameNo c) then { c.link.hops[j] with ackOut := [], nibs := [] } else c.link.hops[j] := by
  by_cases h : j = nibHop (frameNo c)
  · rw [if_pos h]
    subst h
    exact updHop_at ..
  · rw [if_neg h]
    exact updHop_other _ h _

theorem badCounted_counted : frame (badCounted c) = frame c ∧ lanePart (badCounted c).link =
    ((frameNoted c true).link.hops, c.link.sats, wrapInc16 c.link.crcerr, c.link.badRun + 1, some (frameNo c)) ∧
    evN c 257 ∈ (badCounted c).raised :=
  ⟨rfl, rfl, List.mem_append_right _ (List.mem_singleton.mpr rfl)⟩

theorem goodTaken_zero : (goodTaken c).link.hops[(0 : Fin 4)].st = c.link.hops[(0 : Fin 4)].st := by
  show (updHop _ (nibHop (frameNo c)) _).link.hops[(0 : Fin 4)].st = _
  by_cases h : (0 : Fin 4) = nibHop (frameNo c)
  · rw [← h, updHop_at]
  · rw [updHop_other _ h]

/-- What a bad frame leaves, while it is not the fourth in a row. -/
theorem upstreamFrame_counts (hs : serving c = true) (hu : c.link.hops[(0 : Fin 4)].st = .up) (ht : c.tick % 200 = 0)
    (hl : c.link.lastUp ≠ some (frameNo c))
    (h : (c.link.hops[(0 : Fin 4)].satSafe || !frameGood (buildUp c f up ^^^ err) 0xE2) = true) (hr : c.link.badRun < 3) :
    frame (upstreamFrame c f up err) = frame c ∧ lanePart (upstreamFrame c f up err).link =
      ((frameNoted c true).link.hops, c.link.sats, wrapInc16 c.link.crcerr, c.link.badRun + 1, some (frameNo c)) ∧
    evN c 257 ∈ (upstreamFrame c f up err).raised := by
  rw [upstreamFrame_bad hs hu ht hl h]
  obtain ⟨hf, hp, hm⟩ := lanes_laneFrames (badCounted c) (buildUp c f up ^^^ err) true
  obtain ⟨bf, bp, bm⟩ := badCounted_counted (c := c)
  have hp := hp.trans bp
  generalize laneFrames (badCounted c) (buildUp c f up ^^^ err) true = d at *
  have hb := hp
  simp only [lanePart, Prod.mk.injEq] at hb
  obtain ⟨-, -, -, hb, -⟩ := hb
  rw [if_neg (by rw [hb]; omega)]
  exact ⟨hf.trans bf, hp, hm _ bm⟩

/-- What a good frame with the HOPOK bit of hop 0 leaves. -/
theorem upstreamFrame_keeps (hs : serving c = true) (hu : c.link.hops[(0 : Fin 4)].st = .up) (ht : c.tick % 200 = 0)
    (hl : c.link.lastUp ≠ some (frameNo c)) (hsafe : c.link.hops[(0 : Fin 4)].satSafe = false)
    (hg : frameGood (buildUp c f up ^^^ err) 0xE2 = true) (hb : (buildUp c f up ^^^ err).toNat.testBit 8 = true) :
    frame (upstreamFrame c f up err) = frame c ∧ (upstreamFrame c f up err).link.crcerr = c.link.crcerr ∧
      (upstreamFrame c f up err).link.badRun = 0 ∧ (upstreamFrame c f up err).link.hops[(0 : Fin 4)].st = .up ∧
      (upstreamFrame c f up err).link.hops[(0 : Fin 4)].okClear = 0 ∧ (upstreamFrame c f up err).link.lastUp = some (frameNo c) := by
  rw [upstreamFrame_good hs hu ht hl (by rw [hsafe, hg]; rfl)]
  generalize buildUp c f up ^^^ err = g at *
  have hz : (goodTaken c).link.hops[(0 : Fin 4)].st = .up := goodTaken_zero.trans hu
  obtain ⟨zf, zc, zr, zl, zs, zo⟩ := upHop_zero hz hb
  obtain ⟨bf, bp⟩ := (behind_upHops (goodTaken c) g).trans (lanes_laneFrames _ g false).behind
  simp only [portPart, Prod.mk.injEq] at bp
  obtain ⟨b1, b2, b3, b4⟩ := bp
  exact ⟨bf.trans zf, b1.trans zc, b2.trans zr, (congrArg Hop.st b4).trans zs, (congrArg Hop.okClear b4).trans zo, b3.trans zl⟩

end

/-! ### DOWNSTREAM_FRAME (R287, R291, R293, R298) -/

/-- What a satellite's own records leave alone of its hop. -/
def downPart (x : Hop) : Nat × Bool × Bool × Option Nat := (x.satBad, x.satHopok, x.satSafe, x.lastDown)

/-- d follows from c by the work of the satellite at hop h. -/
structure SatWork (h : Fin 4) (c d : Chip) : Prop where
  others : ∀ j : Fin 4, j ≠ h → d.link.hops[j] = c.link.hops[j]
  frame : frame d = frame c
  wb : d.wb = c.wb
  trk : d.trk = c.trk

theorem SatWork.refl (h : Fin 4) (c : Chip) : SatWork h c c := ⟨fun _ _ => rfl, rfl, rfl, rfl⟩

theorem SatWork.trans {h : Fin 4} {b c d : Chip} (i : SatWork h b c) (j : SatWork h c d) : SatWork h b d :=
  ⟨fun g hg => (j.others g hg).trans (i.others g hg), j.frame.trans i.frame, j.wb.trans i.wb, j.trk.trans i.trk⟩

theorem satWork_updHop (c : Chip) (h : Fin 4) (f : Hop → Hop) : SatWork h c (updHop c h f) := ⟨fun _ hg => updHop_other _ hg _, rfl, rfl, rfl⟩

/-- Such work that judges no frame and moves no emulator. -/
def Receives (h : Fin 4) (c d : Chip) : Prop := SatWork h c d ∧ d.enc = c.enc ∧ downPart d.link.hops[h] = downPart c.link.hops[h]

theorem Receives.refl (h : Fin 4) (c : Chip) : Receives h c c := ⟨.refl .., rfl, rfl⟩

theorem Receives.trans {h : Fin 4} {b c d : Chip} (i : Receives h b c) (j : Receives h c d) : Receives h b d :=
  ⟨i.1.trans j.1, j.2.1.trans i.2.1, j.2.2.trans i.2.2⟩

theorem receives_updHop (c : Chip) (h : Fin 4) (f : Hop → Hop) (hf : downPart (f c.link.hops[h]) = downPart c.link.hops[h]) :
    Receives h c (updHop c h f) := ⟨satWork_updHop .., rfl, by rw [updHop_at, hf]⟩

section
variable (c : Chip) (h : Fin 4)

theorem receives_slotSteps (s : Fin 2) (f : Frame) : Receives h c (slotSteps c h s f) := by
  unfold slotSteps
  split
  · exact .refl ..
  · exact receives_updHop _ _ _ rfl

theorem receives_loadSlots : Receives h c (loadSlots c h) := by
  unfold loadSlots
  extract_lets k
  refine foldl_keeps (Receives h c) _ (fun d s hd => hd.trans ?_) _ _ (receives_updHop _ _ _ rfl)
  split
  · exact receives_updHop _ _ _ rfl
  · exact .refl ..

theorem receives_satAck (t : Nat) : Receives h c (satAck c h t) := by
  unfold satAck
  split
  · exact .refl ..
  · exact receives_updHop _ _ _ rfl

theorem receives_satRecord (t p : Nat) : Receives h c (satRecord c h t p) := by
  unfold satRecord
  extract_lets d
  have hd : Receives h c d := receives_satAck ..
  clear_value d
  split
  · exact hd.trans (receives_updHop _ _ _ rfl)
  · exact hd.trans (receives_updHop _ _ _ rfl)
  · exact hd.trans (receives_updHop _ _ _ rfl)
  · split
    · exact hd.trans (receives_loadSlots ..)
    · exact hd
  · exact hd.trans (receives_updHop _ _ _ rfl)
  · exact hd.trans (receives_updHop _ _ _ rfl)
  · exact hd

theorem receives_satMessage (w : Nat) : Receives h c (satMessage c h w) := by
  unfold satMessage
  split
  · exact .refl ..
  · split
    · extract_lets t n d
      have hd : Receives h c d := receives_updHop _ _ _ rfl
      split
      · exact hd.trans (receives_satRecord ..)
      · exact hd
    · extract_lets x g d
      have hd : Receives h c d := receives_updHop _ _ _ rfl
      clear_value d
      split
      · exact .refl ..
      · split
        · exact hd.trans (receives_satRecord ..)
        · exact hd

/-- The path gap of a bad frame touches the emulators and the collector alone. -/
theorem frameGap_work : SatWork h c (frameGap c h) ∧ (frameGap c h).link = c.link := by
  unfold frameGap
  extract_lets k
  refine foldl_keeps (fun d => SatWork h c d ∧ d.link = c.link) _ (fun d e hd => ?_) _ c ⟨.refl .., rfl⟩
  split
  · have hl : SatWork h d (levelB (updEnc d e (fun x => { x with satgap := true })) (227 + 4 * e.val) true) ∧
        (levelB (updEnc d e (fun x => { x with satgap := true })) (227 + 4 * e.val) true).link = d.link := by
      unfold levelB
      rw [setLevelR_only]
      exact ⟨⟨fun _ _ => rfl, rfl, rfl, rfl⟩, rfl⟩
    exact ⟨hd.1.trans hl.1, hl.2.trans hd.2⟩
  · exact hd

/-- The frame noted at the satellite, the steps that are due taken. -/
def downNoted (x : Hop) : Hop :=
  { x with
    lastDown := some (downNo c h), slots := Vector.ofFn (fun k => slotNow x k c.tick), due := x.due.filter (fun q => decide (c.tick < q.1)) }

/-- The satellite's safe state (R298). -/
def inSafe (x : Hop) : Hop :=
  { x with
    satSafe := true, satSet := false, satDrv := false, satBuf := false, satHopok := false, slots := Vector.replicate 2 slotOff, due := [],
    msgType := 0, msgLen := 0, msgGot := [], cfg := 0, trims := Vector.replicate 4 0, meas := 0, phase := 0, ackOut := [] }

/-- A good frame at the satellite: the run of bad ones ends. -/
def downGood (x : Hop) : Hop := { downNoted c h x with satBad := 0, satHopok := true }

/-- A bad frame at the satellite. -/
def downBad (x : Hop) : Hop := { downNoted c h x with satBad := x.satBad + 1, satHopok := false }

/-- What an admitted satellite loses by a bad frame. -/
def admittedGap (d : Chip) : Chip := if c.link.hops[h].dstate = .admitted then frameGap d h else d

/-- The frame f taken at the satellite below hop h: whether it is good or bad. -/
def frameTaken (f : Frame) : Chip :=
  if frameGood f 0xB8 then
    satMessage (if c.link.hops[h].dstate = .admitted then
      (allFin 2).foldl (fun a s => slotSteps a h s f) (updHop c h (downGood c h)) else updHop c h (downGood c h)) h (frameBits f 8 16)
  else if 4 ≤ c.link.hops[h].satBad + 1 then satSafeState (admittedGap c h (updHop c h (downBad c h))) h
  else admittedGap c h (updHop c h (downBad c h))

theorem satSafeState_eq : satSafeState c h = updHop c h inSafe := rfl

variable {c h} {err : Frame}

theorem downstreamFrame_none (ht : c.tick % 200 ≠ 0) : downstreamFrame c h err = c := if_pos (.inr (.inl ht))

theorem downstreamFrame_due (hu : c.link.hops[h].st = .up) (ht : c.tick % 200 = 0) (hl : c.link.hops[h].lastDown ≠ some (downNo c h))
    (hsafe : ∀ g : Fin 4, g ≤ h → c.link.hops[g].satSafe = false) :
    downstreamFrame c h err = frameTaken c h (buildDown c (downNo c h) ^^^ err) := by
  have hall : ¬((allFin 4).any (fun g => decide (g ≤ h) && c.link.hops[g].satSafe) = true) := by
    intro hh
    obtain ⟨g, -, hg⟩ := List.any_eq_true.mp hh
    obtain ⟨hg1, hg2⟩ := Bool.and_eq_true_iff.mp hg
    rw [hsafe g (of_decide_eq_true hg1)] at hg2
    exact nomatch hg2
  have hn : ¬(c.link.hops[h].st ≠ .up ∨ c.tick % 200 ≠ 0 ∨ c.link.hops[h].lastDown = some (downNo c h) ∨
      (allFin 4).any (fun g => decide (g ≤ h) && c.link.hops[g].satSafe) = true) := by
    rintro (hh | hh | hh | hh)
    · exact hh hu
    · exact hh ht
    · exact hl hh
    · exact hall hh
  have hg : updHop (updHop (updHop c h (fun x => { x with lastDown := some (downNo c h) })) h (fun x => { x with
      slots := Vector.ofFn (fun s => slotNow x s c.tick), due := x.due.filter (fun q => decide (c.tick < q.1)) })) h
      (fun x => { x with satBad := 0, satHopok := true }) = updHop c h (downGood c h) := by
    rw [updHop_updHop, updHop_updHop]
    rfl
  have hb : updHop (updHop (updHop c h (fun x => { x with lastDown := some (downNo c h) })) h (fun x => { x with
      slots := Vector.ofFn (fun s => slotNow x s c.tick), due := x.due.filter (fun q => decide (c.tick < q.1)) })) h
      (fun x => { x with satBad := x.satBad + 1, satHopok := false }) = updHop c h (downBad c h) := by
    rw [updHop_updHop, updHop_updHop]
    rfl
  unfold downstreamFrame
  dsimp only
  rw [if_neg hn]
  generalize buildDown c (downNo c h) ^^^ err = f
  unfold slotsDue frameTaken
  rw [← hg, ← hb]
  rfl

variable {f : Frame}

/-- What any good frame leaves. -/
theorem frameTaken_good (hf : frameGood f 0xB8 = true) :
    SatWork h c (frameTaken c h f) ∧ (frameTaken c h f).enc = c.enc ∧ downPart (frameTaken c h f).link.hops[h] =
      (0, true, c.link.hops[h].satSafe, some (downNo c h)) := by
  unfold frameTaken
  rw [if_pos hf]
  have hs : Receives h (updHop c h (downGood c h)) (if c.link.hops[h].dstate = .admitted then
      (allFin 2).foldl (fun a s => slotSteps a h s f) (updHop c h (downGood c h)) else updHop c h (downGood c h)) := by
    split
    · exact foldl_keeps (Receives h _) _ (fun d s hd => hd.trans (receives_slotSteps ..)) _ _ (.refl ..)
    · exact .refl ..
  obtain ⟨hw, he, hd⟩ := hs.trans (receives_satMessage _ h (frameBits f 8 16))
  exact ⟨(satWork_updHop ..).trans hw, he, hd.trans (congrArg downPart (updHop_at ..))⟩

/-- A good frame at a satellite that is not admitted, with no message for it. -/
theorem frameTaken_quiet (hf : frameGood f 0xB8 = true) (hd : c.link.hops[h].dstate ≠ .admitted) (hm : frameBits f 8 16 / 2 ^ 14 % 4 ≠ h.val) :
    frameTaken c h f = updHop c h (downGood c h) := by
  unfold frameTaken
  rw [if_pos hf, if_neg hd]
  exact if_pos hm

theorem admittedGap_work (d : Chip) : SatWork h d (admittedGap c h d) ∧ (admittedGap c h d).link = d.link := by
  unfold admittedGap
  split
  · exact frameGap_work ..
  · exact ⟨.refl .., rfl⟩

/-- What any bad frame leaves: the fourth in a row the safe state. -/
theorem frameTaken_bad (hf : frameGood f 0xB8 = false) (hs : c.link.hops[h].satSafe = false) :
    SatWork h c (frameTaken c h f) ∧ (frameTaken c h f).link.hops[h].satBad = c.link.hops[h].satBad + 1 ∧
      (frameTaken c h f).link.hops[h].satHopok = false ∧ (frameTaken c h f).link.hops[h].satSafe = decide (3 ≤ c.link.hops[h].satBad) := by
  obtain ⟨hw, hl⟩ := admittedGap_work (c := c) (h := h) (updHop c h (downBad c h))
  have ha : (admittedGap c h (updHop c h (downBad c h))).link.hops[h] = downBad c h c.link.hops[h] :=
    (congrArg (fun l => l.hops[h]) hl).trans (updHop_at ..)
  unfold frameTaken
  rw [if_neg (ne_true_of_eq_false hf)]
  generalize admittedGap c h (updHop c h (downBad c h)) = d at *
  have hw := (satWork_updHop c h (downBad c h)).trans hw
  split
  · have hn : (satSafeState d h).link.hops[h] = inSafe (downBad c h c.link.hops[h]) := by rw [satSafeState_eq, updHop_at, ha]
    rw [hn, decide_eq_true (by omega)]
    exact ⟨hw.trans (satWork_updHop ..), rfl, rfl, rfl⟩
  · rw [ha, decide_eq_false (by omega)]
    exact ⟨hw, rfl, rfl, hs⟩

theorem frameTaken_idle (hf : frameGood f 0xB8 = false) (hd : c.link.hops[h].dstate ≠ .admitted) (hn : c.link.hops[h].satBad < 3) :
    frameTaken c h f = updHop c h (downBad c h) := by
  unfold frameTaken
  rw [if_neg (ne_true_of_eq_false hf), if_neg (by omega)]
  exact if_neg hd

theorem frameTaken_safe (hf : frameGood f 0xB8 = false) (hd : c.link.hops[h].dstate ≠ .admitted) (hn : 3 ≤ c.link.hops[h].satBad) :
    frameTaken c h f = updHop c h (fun x => inSafe (downBad c h x)) := by
  unfold frameTaken admittedGap
  rw [if_neg (ne_true_of_eq_false hf), if_pos (by omega), if_neg hd, satSafeState_eq, updHop_updHop]

/-! ### The safe state, nRESET and a fifth device (R297, R298, R311) -/

theorem satelliteSafe_enters {b : Bool} (hb : b = true ∨ 4 ≤ c.link.hops[h].satBad) : satelliteSafe c h b = updHop c h inSafe :=
  if_pos (Bool.or_eq_true_iff.mpr (hb.imp_right (fun k => decide_eq_true k)))

theorem satNreset_low : satNreset c h true = updHop c h (fun x => inSafe { x with satLow := true }) := updHop_updHop ..

theorem extraDevice_counts (hs : serving c = true) (hu : c.link.hops[(3 : Fin 4)].st = .up) (hn : c.link.hops[(3 : Fin 4)].satSafe = false) :
    extraDevice c = raiseR { c with link := { c.link with extra := true } } (evN c 258) := by
  unfold extraDevice
  rw [if_pos (Bool.and_eq_true_iff.mpr ⟨Bool.and_eq_true_iff.mpr ⟨hs, decide_eq_true hu⟩, by rw [hn]; rfl⟩)]
  rfl

end

end Sys2Proof.Proofs

open Sys2Proof Sys2Proof.Machine Sys2Proof.Proofs

/-- Settles O47: the frames of the link, the satellites' safe state and a fifth device. -/
theorem framesAreReceived : Obligations.FramesAreReceived := by
  intro s dt h f err up c x hop safe
  refine ⟨fun ht => ⟨?_, ?_⟩, fun hs hu ht hl => ⟨fun hg hr => ?_, fun hsafe hg hb => ?_⟩, fun hu ht hl hsafe => ⟨fun hg => ⟨?_, fun hd hm => ?_⟩,
    fun hg => ⟨?_, fun hd hn => ?_, fun hd hn => ?_⟩⟩, fun b hb => ?_, ?_, ?_, fun hs hu hn => ?_⟩
  · exact runBlock_of_leaves (f := fun c => upstreamFrame c f up err) (upstreamFrame_none ht) (leaveFace_of_frame rfl)
  · exact runBlock_of_leaves (f := fun c => downstreamFrame c h err) (downstreamFrame_none ht) (leaveFace_of_frame rfl)
  · have hor : (c.link.hops[(0 : Fin 4)].satSafe || !frameGood (buildUp c f up ^^^ err) 0xE2) = true :=
      Bool.or_eq_true_iff.mpr (hg.imp_right (fun k => by rw [k]; rfl))
    obtain ⟨hf, hp, hm⟩ := upstreamFrame_counts hs hu ht hl hor hr
    simp only [lanePart, Prod.mk.injEq] at hp
    obtain ⟨p1, p2, p3, p4, p5⟩ := hp
    exact ⟨_, runBlock_of_leaves (f := fun c => upstreamFrame c f up err) rfl (leaveFace_of_frame hf), p3, p4, p2, hm, p5,
      fun j => (congrArg (fun v => v[j]) p1).trans (frameNoted_hops j)⟩
  · obtain ⟨hf, hk⟩ := upstreamFrame_keeps hs hu ht hl hsafe hg hb
    exact ⟨_, runBlock_of_leaves (f := fun c => upstreamFrame c f up err) rfl (leaveFace_of_frame hf), hk⟩
  · obtain ⟨hw, he, hp⟩ := frameTaken_good hg
    simp only [downPart, Prod.mk.injEq] at hp
    obtain ⟨p1, p2, p3, p4⟩ := hp
    exact ⟨_, runBlock_of_leaves (f := fun c => downstreamFrame c h err) (downstreamFrame_due hu ht hl hsafe) (leaveFace_of_frame hw.frame),
      hw.wb, hw.trk, he, p1, p2, p4, hw.others⟩
  · exact runBlock_of_leaves (f := fun c => downstreamFrame c h err) ((downstreamFrame_due hu ht hl hsafe).trans (frameTaken_quiet hg hd hm))
      (leaveFace_of_frame rfl)
  · obtain ⟨hw, hb⟩ := frameTaken_bad hg (hsafe h (le_refl h))
    exact ⟨_, runBlock_of_leaves (f := fun c => downstreamFrame c h err) (downstreamFrame_due hu ht hl hsafe) (leaveFace_of_frame hw.frame),
      hw.wb, hw.trk, hb.1, hb.2.1, hb.2.2, hw.others⟩
  · exact runBlock_of_leaves (f := fun c => downstreamFrame c h err) ((downstreamFrame_due hu ht hl hsafe).trans (frameTaken_idle hg hd hn))
      (leaveFace_of_frame rfl)
  · exact runBlock_of_leaves (f := fun c => downstreamFrame c h err)
      (((downstreamFrame_due hu ht hl hsafe).trans (frameTaken_safe hg hd hn)).trans rfl) (leaveFace_of_frame rfl)
  · exact runBlock_of_leaves (f := fun c => satelliteSafe c h b) (satelliteSafe_enters hb) (leaveFace_of_frame rfl)
  · exact runBlock_of_leaves (f := fun c => satNreset c h true) satNreset_low (leaveFace_of_frame rfl)
  · exact runBlock_of_leaves (f := fun c => satNreset c h false) rfl (leaveFace_of_frame rfl)
  · exact runBlock_of_leaves (f := fun c => extraDevice c) (extraDevice_counts hs hu hn) (leaveFace_of_frame rfl)
end

