-- ==== Sys2Proof/Proofs/Admission.lean ====
section
/-! Messages of a satellite, its admission, its buffer and the holds that wait for it (R293, R300, R303, R306). -/

namespace Sys2Proof.Proofs
open Sys2Proof.Machine

/-! ### MESSAGE_RECORD and MESSAGE_REPEAT (R293) -/

/-- An acknowledgement of the record type that stands in the nibbles of a hop. -/
def ackedHop (n : Nat) (x : Hop) : Hop := { x with nibs := [], wait := x.wait.eraseP (fun w => w.1 = n) }

/-- The record type that a complete acknowledgement names. -/
def ackedType (x : Hop) : Nat := (x.nibs.drop 2).headD 0

section
variable {c : Chip} {h : Fin 4} (ty : Fin 16) (hu : c.link.hops[h].st = .up) (hs : serving c = true) (hr : recordAt c.link.hops[h] 7 = true)
include hu hs hr

theorem messageRecord_ack : messageRecord c h (.ack ty) =
    if ackedType c.link.hops[h] = 1 ∧ (c.link.hops[h].dstate = .admitting ∨ c.link.hops[h].dstate = .admitted) ∧
        (ownE c (ixSat c.link.hops[h].pos)).unscrubbed = true then
      setUnscrubbed (updHop c h (ackedHop (ackedType c.link.hops[h]))) c.link.hops[h].pos false
    else updHop c h (ackedHop (ackedType c.link.hops[h])) := by
  have hn : ¬(c.link.hops[h].st ≠ .up ∨ serving c = false ∨ recordAt c.link.hops[h] (upType (.ack ty)) = false) := by
    rintro (hh | hh | hh)
    · exact hh hu
    · exact nomatch hs.symm.trans hh
    · exact nomatch hr.symm.trans hh
  unfold messageRecord
  dsimp only
  rw [if_neg hn, updHop_updHop]
  rfl

theorem messageRecord_other (hn : ackedType c.link.hops[h] ≠ 1) :
    messageRecord c h (.ack ty) = updHop c h (ackedHop (ackedType c.link.hops[h])) := by
  rw [messageRecord_ack ty hu hs hr]
  exact if_neg fun hh => hn hh.1

theorem messageRecord_zero (hn : ackedType c.link.hops[h] = 1) (hd : c.link.hops[h].dstate = .admitting ∨ c.link.hops[h].dstate = .admitted)
    (hq : (ownE c (ixSat c.link.hops[h].pos)).unscrubbed = true) :
    messageRecord c h (.ack ty) = setUnscrubbed (updHop c h (ackedHop (ackedType c.link.hops[h]))) c.link.hops[h].pos false := by
  rw [messageRecord_ack ty hu hs hr]
  exact if_pos ⟨hn, hd, hq⟩

end

theorem frame_sendRecord (c : Chip) (h : Fin 4) (t p t0 : Nat) : frame (sendRecord c h t p t0) = frame c := by
  rw [sendRecord_only]
  rfl

/-- The records of hop h that have waited for 16 frames are sent again. -/
theorem messageRepeat_sends (c : Chip) (h : Fin 4) : messageRepeat c h =
    (c.link.hops[h].wait.filter (fun w => decide (w.2.1 + 3200 ≤ c.tick))).foldl (fun c w => sendRecord c h w.1 w.2.2 c.tick)
      (updHop c h (fun x => { x with wait := x.wait.filter (fun w => decide (c.tick < w.2.1 + 3200)) })) := by
  have hp : (fun w : Nat × Nat × Nat => !decide (w.2.1 + 3200 ≤ c.tick)) = (fun w => decide (c.tick < w.2.1 + 3200)) := by
    funext w
    rw [← decide_not, decide_eq_decide]
    omega
  unfold messageRepeat
  rw [hp]

theorem frame_sendAgain (l : List (Nat × Nat × Nat)) (c : Chip) (h : Fin 4) :
    frame (l.foldl (fun d w => sendRecord d h w.1 w.2.2 d.tick) c) = frame c :=
  foldl_keeps (fun d => frame d = frame c) _ (fun d _ hd => (frame_sendRecord d ..).trans hd) _ _ rfl

/-! ### ADMISSION_COMPLETE (R300) -/

/-- What the admission of a position settles of it: its buffer is not among it. -/
def satPart (y : Sat) : Option (Fin 4) × Bool × Nat × Nat × Nat × Nat × Bool :=
  (y.hop, y.admitted, y.admitcount, y.admittick, y.drvfault, y.drvoff, y.bound)

/-- d follows from c by the lanes, the levels and the buffer of position k. -/
structure Serves (k : Fin 4) (c d : Chip) : Prop where
  frame : frame d = frame c
  flt : d.flt = c.flt
  sat : satPart d.link.sats[k] = satPart c.link.sats[k]
  others : ∀ j : Fin 4, j ≠ k → d.link.sats[j] = c.link.sats[j]
  hops : ∀ j : Fin 4, (d.link.hops[j].dstate, d.link.hops[j].satDrv) = (c.link.hops[j].dstate, c.link.hops[j].satDrv)

theorem Serves.refl (k : Fin 4) (c : Chip) : Serves k c c := ⟨rfl, rfl, rfl, fun _ _ => rfl, fun _ => rfl⟩

theorem Serves.trans {k : Fin 4} {b c d : Chip} (i : Serves k b c) (j : Serves k c d) : Serves k b d :=
  ⟨j.frame.trans i.frame, j.flt.trans i.flt, j.sat.trans i.sat, fun g hg => (j.others g hg).trans (i.others g hg),
    fun g => (j.hops g).trans (i.hops g)⟩

theorem updSat_at (c : Chip) (k : Fin 4) (f : Sat → Sat) : (updSat c k f).link.sats[k] = f c.link.sats[k] := upd_at ..

theorem satFields_of_part {y : Sat} {a : Option (Fin 4)} {b g : Bool} {n m p q : Nat} (h : satPart y = (a, b, n, m, p, q, g)) :
    y.hop = a ∧ y.admitted = b ∧ y.admitcount = n ∧ y.admittick = m ∧ y.drvfault = p ∧ y.drvoff = q ∧ y.bound = g := by
  simpa only [satPart, Prod.mk.injEq] using h

theorem serves_updSat (c : Chip) (k : Fin 4) (f : Sat → Sat) (hf : satPart (f c.link.sats[k]) = satPart c.link.sats[k]) :
    Serves k c (updSat c k f) :=
  ⟨rfl, rfl, by rw [updSat_at, hf], fun _ hj => upd_other _ _ hj, fun _ => rfl⟩

theorem serves_updHop (c : Chip) (k h : Fin 4) (f : Hop → Hop) (hf : ∀ x, ((f x).dstate, (f x).satDrv) = (x.dstate, x.satDrv)) :
    Serves k c (updHop c h f) := by
  refine ⟨rfl, rfl, rfl, fun _ _ => rfl, fun j => ?_⟩
  by_cases hj : j = h
  · subst hj
    rw [updHop_at, hf]
  · rw [updHop_other _ hj]

section
variable (c : Chip) (h k : Fin 4)

theorem serves_satBuffer (b : Bool) : Serves k c (satBuffer c k b) := by
  unfold satBuffer
  split
  · exact serves_updHop _ _ _ _ fun _ => rfl
  · exact .refl ..

theorem serves_bufFollow (t : Nat) : Serves k c (bufFollow c k t) := by
  unfold bufFollow
  extract_lets y
  split
  · split
    · exact .refl ..
    · exact (serves_updSat c k _ (by rfl)).trans (serves_satBuffer ..)
  · split
    · exact (serves_updSat c k _ (by rfl)).trans (serves_satBuffer ..)
    · exact .refl ..

theorem serves_loadSlots : Serves k (updHop c h (fun x => { x with satDrv := true })) (loadSlots c h) := by
  unfold loadSlots
  extract_lets p
  refine foldl_keeps (Serves k _) _ (fun d s hd => hd.trans ?_) _ _ (.refl ..)
  split
  · exact serves_updHop _ _ _ _ fun _ => rfl
  · exact .refl ..

/-- The device at hop h becomes that of position k. -/
def seated : Chip :=
  setUnscrubbed (updSat (updHop c h (fun x => { x with dstate := .admitted, satSet := true })) k (fun s => { s with
    hop := some h, admitted := true, admitcount := wrapInc16 s.admitcount, admittick := c.tick, drvfault := 0, drvoff := 0 })) k false

/-- The input lanes of position k start anew. -/
def lanesAnew : Chip :=
  { c with link := { c.link with lanes := c.link.lanes.map (fun l =>
      match l.use with
      | some (y, _) => if y = k then { l with bits := 0, bad := 0, last := none } else l
      | none => l) } }

/-- The position served, before its owner is told. -/
def served : Chip := bufFollow (lanesAnew (loadSlots (seated c h k) h) k) k c.tick

/-- EV22 to the owner of position k. -/
def tellOwner : Chip :=
  match ownerOf c (ixSat k) with
  | some o => notify c o 22
  | none => c

theorem serves_lanesAnew : Serves k c (lanesAnew c k) := ⟨rfl, rfl, rfl, fun _ _ => rfl, fun _ => rfl⟩

theorem serves_served : Serves k (updHop (seated c h k) h (fun x => { x with satDrv := true })) (served c h k) :=
  ((serves_loadSlots (seated c h k) h k).trans (serves_lanesAnew ..)).trans (serves_bufFollow ..)

variable {c h k}

theorem admissionComplete_due (hu : c.link.hops[h].st = .up) (hd : c.link.hops[h].dstate = .admitting) (hs : c.link.hops[h].satSafe = false)
    (hk : c.link.hops[h].pos = k) (ht : c.link.hops[h].admTick + 12800 ≤ c.tick) :
    admissionComplete c h = tellOwner (served c h k) k := by
  have hl : (loadSlots (seated c h k) h).tick = c.tick := congrArg (fun f => f.2.1) (serves_loadSlots (seated c h k) h k).frame
  unfold admissionComplete
  dsimp only
  rw [if_pos ⟨hu, hd, hs, ht⟩, hk]
  unfold tellOwner served
  rw [← hl]
  rfl

theorem seated_hop : (updHop (seated c h k) h (fun x => { x with satDrv := true })).link.hops[h] =
    { c.link.hops[h] with dstate := .admitted, satSet := true, satDrv := true } :=
  (updHop_at ..).trans (congrArg (fun x : Hop => { x with satDrv := true }) (updHop_at c h _))

theorem seated_sat : satPart (seated c h k).link.sats[k] =
    (some h, true, wrapInc16 c.link.sats[k].admitcount, c.tick, 0, 0, c.link.sats[k].bound) :=
  congrArg satPart (upd_at c.link.sats k _)

theorem seated_own : ownE (seated c h k) (ixSat k) = { ownE c (ixSat k) with unscrubbed := false } := upd_at c.own.entries (ixSat k) _

theorem served_own : ownE (served c h k) (ixSat k) = { ownE c (ixSat k) with unscrubbed := false } :=
  (congrArg (fun f => f.2.2.1.entries[ixSat k]) (serves_served c h k).frame).trans seated_own

theorem tellOwner_rest (d : Chip) : (tellOwner d k).link = d.link ∧ frame (tellOwner d k) = frame d := by
  unfold tellOwner
  split <;> exact ⟨rfl, rfl⟩

theorem tellOwner_tells {d : Chip} {o : Client} (ho : ownerOf d (ixSat k) = some o) :
    (tellOwner d k).flt.evtstat[o] = d.flt.evtstat[o] ||| (1#64 <<< 22) := by
  unfold tellOwner
  rw [ho]
  exact (notify_evtstat ..).trans (if_pos rfl)

theorem ownerOf_served : ownerOf (served c h k) (ixSat k) = ownerOf c (ixSat k) := by
  unfold ownerOf
  rw [served_own]

theorem served_sat : satPart (served c h k).link.sats[k] =
    (some h, true, wrapInc16 c.link.sats[k].admitcount, c.tick, 0, 0, c.link.sats[k].bound) := (serves_served c h k).sat.trans seated_sat

theorem served_others {j : Fin 4} (hj : j ≠ k) : (served c h k).link.sats[j] = c.link.sats[j] :=
  ((serves_served c h k).others j hj).trans (upd_other _ _ hj)

theorem served_hop : ((served c h k).link.hops[h].dstate, (served c h k).link.hops[h].satDrv) = (.admitted, true) :=
  ((serves_served c h k).hops h).trans (congrArg (fun x => (x.dstate, x.satDrv)) seated_hop)

theorem leaveMem_tellOwner : leaveMem c (tellOwner (served c h k) k) = tellOwner (served c h k) k := by
  have hf := (tellOwner_rest (k := k) (served c h k)).2.trans (serves_served c h k).frame
  simp only [frame, Prod.mk.injEq] at hf
  obtain ⟨f1, f2, -, f4, f5⟩ := hf
  exact leaveMem_self f1 f2 f4 f5

/-- The owner of the position admitted gets EV22. -/
theorem admitted_told {o : Client} (ho : ownerOf c (ixSat k) = some o) :
    (tellOwner (served c h k) k).flt.evtstat[o] = c.flt.evtstat[o] ||| (1#64 <<< 22) := by
  rw [tellOwner_tells (ownerOf_served.trans ho), (serves_served c h k).flt]
  rfl

theorem admitted_own : ownE (tellOwner (served c h k) k) (ixSat k) = { ownE c (ixSat k) with unscrubbed := false } :=
  (congrArg (fun f => f.2.2.1.entries[ixSat k]) (tellOwner_rest (k := k) (served c h k)).2).trans served_own

end

/-! ### BUFFER_READY and HOLD_EXPIRY (R306) -/

/-- d follows from c by changes of journal entries. -/
def Rewrites (c d : Chip) : Prop := d = { c with wb := d.wb } ∧ d.wb.entries.length = c.wb.entries.length

theorem Rewrites.trans {b c d : Chip} (i : Rewrites b c) (j : Rewrites c d) : Rewrites b d :=
  ⟨j.1.trans (congrArg (fun x : Chip => { x with wb := d.wb }) i.1), j.2.trans i.2⟩

theorem rewrites_updEntry (c : Chip) (k : Key) (f : Entry → Entry) : Rewrites c (updEntry c k f) := ⟨rfl, List.length_map ..⟩

theorem rewrites_releaseHolds (c : Chip) (k : Fin 4) : Rewrites c (releaseHolds c k) := by
  refine foldl_keeps (Rewrites c) _ (fun d e hd => hd.trans ?_) _ c ⟨rfl, rfl⟩
  split
  · exact rewrites_updEntry ..
  · exact ⟨rfl, rfl⟩

/-- Position k's buffer ready, with the amplitude that it measures. -/
def bufferUp (c : Chip) (k : Fin 4) (amp : Nat) : Chip :=
  updSat c k (fun y => { y with bufready := true, bufsoft := false, everReady := true, ampmeas := amp % 65536, readyTick := c.tick })

theorem bufferReady_due {c : Chip} {k : Fin 4} (amp : Nat) (hb : c.link.sats[k].bufsoft = true)
    (ht : c.link.sats[k].bufTick + 16 * excPeriod (excCfg c (satBufExc (satcfg c k))) ≤ c.tick) (hs : serving c = true) :
    bufferReady c k amp = releaseHolds (bufferUp c k amp) k :=
  if_pos (Bool.and_eq_true_iff.mpr ⟨Bool.and_eq_true_iff.mpr ⟨hb, decide_eq_true ht⟩, hs⟩)

theorem released_link (c : Chip) (k : Fin 4) (amp : Nat) : (releaseHolds (bufferUp c k amp) k).link = (bufferUp c k amp).link :=
  (congrArg Chip.link (rewrites_releaseHolds (bufferUp c k amp) k).1).trans rfl

theorem released_only (c : Chip) (k : Fin 4) (amp : Nat) : releaseHolds (bufferUp c k amp) k =
    { c with link := (releaseHolds (bufferUp c k amp) k).link, wb := (releaseHolds (bufferUp c k amp) k).wb } := by
  rw [released_link]
  exact (rewrites_releaseHolds (bufferUp c k amp) k).1

theorem frame_released (c : Chip) (k : Fin 4) (amp : Nat) : frame (releaseHolds (bufferUp c k amp) k) = frame c := by
  rw [(rewrites_releaseHolds (bufferUp c k amp) k).1]
  rfl

theorem discoverCancel_other {e : Entry} (c : Chip) (h : opcodeOf e ≠ 0x10) : discoverCancel c e = c := if_neg h

theorem holdExpiry_due {c : Chip} {k : Key} {e : Entry} (he : findEntry c k = some e) (hs : e.state = .suspended) (hc : e.cause = .linkhold)
    (hr : e.resumed = false) (ht : e.holdTick + e.holdLen ≤ c.tick) (ho : opcodeOf e ≠ 0x10) : holdExpiry c k = retire c k 4 0x0020 0 := by
  unfold holdExpiry
  rw [he]
  dsimp only
  rw [if_pos ⟨hs, hc, hr, ht⟩, discoverCancel_other _ ho]
  rfl

end Sys2Proof.Proofs

open Sys2Proof Sys2Proof.Machine Sys2Proof.Proofs

/-- Settles O48: acknowledgements, repeats, the admission, the buffer and the end of a hold. -/
theorem satellitesAreAdmitted : Obligations.SatellitesAreAdmitted := by
  intro s dt h k c x hop
  refine ⟨fun ty hu hs hr => ⟨fun hn => ?_, fun hn hd hq => ?_⟩, ?_, fun hu hd hs hk ht => ?_, fun amp hb ht hs => ?_,
    fun cl n e he hs hc hr ht ho => ?_⟩
  · exact runOwn_of_leaves (f := fun c => messageRecord c h (.ack ty)) (messageRecord_other ty hu hs hr hn) rfl
  · exact runOwn_of_leaves (f := fun c => messageRecord c h (.ack ty)) (messageRecord_zero ty hu hs hr hn hd hq) rfl
  · exact runBlock_of_leaves (f := fun c => messageRepeat c h) (messageRepeat_sends c h) (leaveFace_of_frame (frame_sendAgain ..))
  · obtain ⟨a1, a2, a3, a4, a5, a6, a7⟩ := satFields_of_part (served_sat (c := c) (h := h) (k := k))
    obtain ⟨b1, b2⟩ := Prod.mk.inj (served_hop (c := c) (h := h) (k := k))
    refine ⟨_, runOwn_of_leaves (f := fun c => admissionComplete c h) (admissionComplete_due hu hd hs hk ht) leaveMem_tellOwner, ?_⟩
    rw [(tellOwner_rest (k := k) (served c h k)).1]
    exact ⟨b1, b2, a1, a2, a3, a4, a5, a6, a7, fun j => served_others, admitted_own, fun o => admitted_told⟩
  · exact ⟨_, runBlock_of_leaves (f := fun c => bufferReady c k amp) (bufferReady_due amp hb ht hs) (leaveFace_of_frame (frame_released ..)),
      released_link .., released_only .., (rewrites_releaseHolds (bufferUp c k amp) k).2⟩
  · exact runBlock_of_leaves (f := fun c => holdExpiry c ⟨cl, n⟩) (holdExpiry_due he hs hc hr ht (by rw [ho]; decide)) (leaveFace_retire ..)
end
